-- ==== Sys2Proof/Word.lean ====
section
/-! DEFINITION. The bit-vector types of HUFFCORE and the two conversions between bit strings and numbers
(00_scope.md R8, R9). Every value is unsigned. -/

namespace Sys2Proof

/-- One byte: an element of IBUF, SRC, SNK (20_memory.md R62, R64, R65). -/
abbrev Byte := BitVec 8

/-- A CSR value or a command word (10_state.md R40, 30_encoding.md R90). -/
abbrev Word := BitVec 32

/-- A symbol, one of 256 byte values (00_scope.md R13). -/
abbrev Sym := BitVec 8

/-- A node id of the arena (10_state.md R28). -/
abbrev NodeId := BitVec 9

end Sys2Proof
end

