-- ==== Sys2Proof/Syntax.lean ====
section
/-! DEFINITION. The HUFFCORE command set, version 1: one constructor per row of spec/opcode_table.json
(30_encoding.md R93). SYM is the only operand a command word carries (R91); ARG and ILEN are registers. -/

namespace Sys2Proof

/-- The 18 commands of 30_encoding.md R93. -/
inductive Instr where
  /-- 45_control.md R230 -/
  | nop
  /-- 45_control.md R231 -/
  | sreset
  /-- 40_frequency.md R110 -/
  | fclr
  /-- 40_frequency.md R111 -/
  | fadd (sym : Sym)
  /-- 40_frequency.md R112 -/
  | fset (sym : Sym)
  /-- 40_frequency.md R113 -/
  | fscan
  /-- 40_frequency.md R115 -/
  | fwidth
  /-- 41_tree.md R130 -/
  | tbuild
  /-- 42_codetable.md R150 -/
  | cgen
  /-- 43_bitpack.md R172 -/
  | psym (sym : Sym)
  /-- 43_bitpack.md R173 -/
  | pscan
  /-- 43_bitpack.md R174 -/
  | pflush
  /-- 43_bitpack.md R180 -/
  | udec
  /-- 43_bitpack.md R181 -/
  | udecall
  /-- 44_container.md R202 -/
  | hwrite
  /-- 44_container.md R203 -/
  | hread
  /-- 44_container.md R205 -/
  | encode
  /-- 44_container.md R206 -/
  | decode
  deriving DecidableEq, Repr

end Sys2Proof
end

