-- ==== Sys2Proof/WellFormed.lean ====
section
/-! DEFINITION. The command word's fields and when they are legal (30_encoding.md R90, R92, R94). An `Instr` carries
SYM as eight bits, so every `Instr` is well formed; the checks bite on the fields of a word. -/

namespace Sys2Proof

/-- The three fields of a command word (30_encoding.md R90). -/
structure Fields where
  op  : BitVec 8
  sym : BitVec 8
  rsv : BitVec 16
  deriving DecidableEq, Repr

/-- The two operand forms (30_encoding.md R92). -/
inductive Form where
  /-- No operand: SYM must be 0. -/
  | N
  /-- SYM is the symbol the command acts on. -/
  | S
  deriving DecidableEq, Repr

/-- The form of an opcode; none for a reserved OP (30_encoding.md R93). -/
def formOf (op : BitVec 8) : Option Form :=
  match op.toNat with
  | 0x00 => some .N
  | 0x01 => some .N
  | 0x10 => some .N
  | 0x11 => some .S
  | 0x12 => some .S
  | 0x13 => some .N
  | 0x14 => some .N
  | 0x20 => some .N
  | 0x30 => some .N
  | 0x40 => some .S
  | 0x41 => some .N
  | 0x42 => some .N
  | 0x48 => some .N
  | 0x49 => some .N
  | 0x50 => some .N
  | 0x51 => some .N
  | 0x58 => some .N
  | 0x59 => some .N
  | _ => none

/-- OP is in the opcode map (R94, first condition). -/
def Fields.opDefined (f : Fields) : Bool := (formOf f.op).isSome

/-- RSV is 0 (R94, second condition). -/
def Fields.rsvZero (f : Fields) : Bool := f.rsv == 0

/-- SYM is 0 where the form has no operand (R94, third condition). -/
def Fields.symAllowed (f : Fields) : Bool := formOf f.op != some .N || f.sym == 0

/-- A legal command word's fields: none of R94's three conditions holds. -/
def Fields.wf (f : Fields) : Bool := f.opDefined && f.rsvZero && f.symAllowed

/-- The opcode of each command (30_encoding.md R93). -/
def Instr.op : Instr → BitVec 8
  | .nop => 0x00
  | .sreset => 0x01
  | .fclr => 0x10
  | .fadd _ => 0x11
  | .fset _ => 0x12
  | .fscan => 0x13
  | .fwidth => 0x14
  | .tbuild => 0x20
  | .cgen => 0x30
  | .psym _ => 0x40
  | .pscan => 0x41
  | .pflush => 0x42
  | .udec => 0x48
  | .udecall => 0x49
  | .hwrite => 0x50
  | .hread => 0x51
  | .encode => 0x58
  | .decode => 0x59

/-- The symbol operand of a command; 0 for form N (30_encoding.md R92). -/
def Instr.sym : Instr → Sym
  | .fadd s => s
  | .fset s => s
  | .psym s => s
  | .nop => 0
  | .sreset => 0
  | .fclr => 0
  | .fscan => 0
  | .fwidth => 0
  | .tbuild => 0
  | .cgen => 0
  | .pscan => 0
  | .pflush => 0
  | .udec => 0
  | .udecall => 0
  | .hwrite => 0
  | .hread => 0
  | .encode => 0
  | .decode => 0

/-- The fields of a command's word. -/
def Instr.fields (i : Instr) : Fields := ⟨i.op, i.sym, 0⟩

/-- A command is well formed when its fields are legal. -/
def Instr.wf (i : Instr) : Bool := i.fields.wf

end Sys2Proof
end

