-- ==== Sys2Proof/Decode.lean ====
section
/-! DEFINITION. Decoding of a command word, total on all 2^32 words and refusing by name (30_encoding.md R93, R94),
then the encoder (R90, R98, R101). -/

namespace Sys2Proof

/-- Why a word is illegal (30_encoding.md R94). -/
inductive Illegal where
  /-- word[7:0] is not an OP of R93. -/
  | reservedOp
  /-- word[31:16] ≠ 0. -/
  | rsvNonzero
  /-- The OP is form N and word[15:8] ≠ 0. -/
  | symNonzero
  deriving DecidableEq, Repr

/-- OP, bits 7:0 (R90). -/
def opField (v : Word) : BitVec 8 := v.extractLsb' 0 8

/-- SYM, bits 15:8 (R90, R91). -/
def symField (v : Word) : BitVec 8 := v.extractLsb' 8 8

/-- RSV, bits 31:16 (R90). -/
def rsvField (v : Word) : BitVec 16 := v.extractLsb' 16 16

/-- The fields of a word (R90). -/
def fieldsOf (v : Word) : Fields := ⟨opField v, symField v, rsvField v⟩

/-- A form N command: SYM must be 0 (R92). -/
def formN (f : Fields) (i : Instr) : Except Illegal Instr :=
  if f.sym = 0 then .ok i else .error .symNonzero

/-- The command the fields select (R93): the row whose OP equals `op`, RSV = 0 and, for form N, SYM = 0. -/
def decodeFields (f : Fields) : Except Illegal Instr :=
  if f.rsv ≠ 0 then .error .rsvNonzero else
  match f.op.toNat with
  | 0x00 => formN f .nop
  | 0x01 => formN f .sreset
  | 0x10 => formN f .fclr
  | 0x11 => .ok (.fadd f.sym)
  | 0x12 => .ok (.fset f.sym)
  | 0x13 => formN f .fscan
  | 0x14 => formN f .fwidth
  | 0x20 => formN f .tbuild
  | 0x30 => formN f .cgen
  | 0x40 => .ok (.psym f.sym)
  | 0x41 => formN f .pscan
  | 0x42 => formN f .pflush
  | 0x48 => formN f .udec
  | 0x49 => formN f .udecall
  | 0x50 => formN f .hwrite
  | 0x51 => formN f .hread
  | 0x58 => formN f .encode
  | 0x59 => formN f .decode
  | _ => .error .reservedOp

/-- The decoder: every 32-bit word is one command or illegal (R93, R94). -/
def decode (v : Word) : Except Illegal Instr := decodeFields (fieldsOf v)

/-- The decoder's reading of a word numbered as spec/opcode_table.json numbers it: HUFFCORE has one command length,
32 bits (R97), so the table's bits are the word's own. -/
def decodeTableWord (nbits w : Nat) : Option Instr :=
  if w % 2 ^ nbits < 2 ^ 32 then (decode (BitVec.ofNat 32 (w % 2 ^ nbits))).toOption else none

/-- `word = (RSV << 16) | (SYM << 8) | OP` (R90). -/
def wordOf (f : Fields) : Word :=
  (f.rsv.setWidth 32 <<< 16) ||| (f.sym.setWidth 32 <<< 8) ||| f.op.setWidth 32

/-- The encoder (R98, R101): the one 32-bit word of a command. -/
def encode (i : Instr) : Word := wordOf i.fields

/-- The mask of a form's rows (R93): form N rows have mask 0xFFFFFFFF, form S rows 0xFFFF00FF. -/
def Form.mask : Form → Word
  | .N => 0xFFFFFFFF
  | .S => 0xFFFF00FF

/-- The opcode rows as mask and match (R93): the word's masked bits are the row's OP. -/
def rowMatches (op : BitVec 8) (v : Word) : Bool :=
  match formOf op with
  | some f => v &&& f.mask == op.setWidth 32
  | none => false

end Sys2Proof
end

