-- ==== Sys2Proof/Config.lean ====
section
/-! DEFINITION. The fixed parameters (00_scope.md R6), the open parameters (R7) and the free values of the model.
`Config.free` has no body: nothing in Lean can compute it, so a statement that holds holds whatever it is. -/

namespace Sys2Proof

/-- NSYM_MAX (00_scope.md R6). -/
def nsymMax : Nat := 256

/-- CODE_CAP, the capacity of one code entry in bits (00_scope.md R6, 10_state.md R32). -/
def codeCap : Nat := 256

/-- NODE_MAX (00_scope.md R6). -/
def nodeMax : Nat := 511

/-- HDR_FIXED, the header's bytes before the frequencies (00_scope.md R6). -/
def hdrFixed : Nat := 37

/-- MAGIC (00_scope.md R6, 44_container.md R200). -/
def magic : List Byte := [0x4C#8, 0x70#8, 0xF0#8, 0x7C#8]

/-- The symbols 0..255 in ascending order, as `for s in 0..255` visits them (00_scope.md R10). -/
def allSyms : List Sym := (List.range 256).map (BitVec.ofNat 8)

/-- The open parameters (00_scope.md R7). They stand in `State`, so every statement over states holds for every
value of them. -/
structure Config where
  /-- IBUF_SIZE, 1 .. 2^32 − 1 (R7, 93 U14). -/
  ibufSize : Nat
  /-- CSR_BASE, the system address of CSR offset 0; none if the block is not memory-mapped (R7, R77, 93 U15). -/
  csrBase  : Option Nat
  /-- IBUF_BASE, the system address of IBUF byte 0; none if not memory-mapped (R7, R77, 93 U15). -/
  ibufBase : Option Nat
  deriving DecidableEq, Repr

/-- The range R7 gives IBUF_SIZE. -/
abbrev Config.wf (c : Config) : Prop := 1 ≤ c.ibufSize ∧ c.ibufSize < 2 ^ 32

/-- DESIGN CHOICE (log 1): the parameters `State.reset` stands with; R7 leaves them open. -/
def Config.atReset : Config := ⟨4096, none, none⟩

/-- What a free value stands for (93_implementation_defined.md U1 to U4). -/
inductive FreeItem where
  /-- A CSR read while BUSY = 1 (U1, 10_state.md R56). -/
  | busyRead
  /-- STATUS.TREE_VALID, STATUS.CODES_VALID, STATUS.EOS read while BUSY = 1 (U1, R43). -/
  | busyFlag
  /-- A byte of IBUF that no host write has set since power-on (U4, 20_memory.md R62). -/
  | ibufByte
  /-- A NODE entry no TBUILD has written since reset (U3): kind, sym, freq, left, right. -/
  | nodeKind | nodeSym | nodeFreq | nodeLeft | nodeRight
  /-- The state an error leaves unspecified (U2, 60_exceptions.md R244), element by element. -/
  | freq | width | nnodes | hasRoot | root | seqLen | seqId
  | codeAssigned | codeLen | codeBits | acc | nbits | cur | rem | emit
  | curCmd | lArg | lIlen | lSym
  deriving DecidableEq, Repr

/-- A free value: `item` says of what, `w` its width, `draw` which drawing (a counter of `State`), `index` which
element of a table. No body: nothing constrains it. -/
opaque Config.free (item : FreeItem) (w draw index : Nat) : BitVec w

end Sys2Proof
end

