-- ==== Sys2Proof/Machine/State.lean ====
section
/-! DEFINITION. The state of HUFFCORE as plain data (10_state.md R20 to R39), the two streams and IBUF
(20_memory.md R60 to R65), the host's pending transactions (30_encoding.md R99), and the state after reset (R22, R270).
Nothing here can be mended later; all behaviour stands in the other files. -/

namespace Sys2Proof.Machine

/-- The two agents (10_state.md R20). -/
inductive Agent where
  | core
  | host
  deriving DecidableEq, Repr

/-- The kind of a tree node (10_state.md R28). -/
inductive NodeKind where
  | leaf
  | internal
  deriving DecidableEq, Repr

/-- One entry of the node arena NODE (10_state.md R28). -/
structure Node where
  kind  : NodeKind
  sym   : Sym
  freq  : BitVec 40
  left  : NodeId
  right : NodeId
  deriving DecidableEq, Repr

/-- One entry of the table CODE (10_state.md R32). Bit k of `bits` is BITS[k], BITS[0] nearest the root. -/
structure CodeEntry where
  assigned : Bool
  len      : BitVec 9
  bits     : BitVec 256
  deriving DecidableEq, Repr

/-- The entry R22 gives every symbol at reset: ASSIGNED 0, LEN 0, BITS all 0. -/
def CodeEntry.none : CodeEntry := ⟨false, 0, 0⟩

/-- An element of the source stream (20_memory.md R64). -/
inductive SrcElem where
  | byte (b : Byte)
  | eoi
  | ioerr
  deriving DecidableEq, Repr

/-- The host's answer to one sink write (20_memory.md R65). -/
inductive SnkAns where
  | ok
  | ioerr
  deriving DecidableEq, Repr

/-- The two stream ports an IOFailure names (10_state.md R39, ERR_PORT). -/
inductive Port where
  | src
  | snk
  deriving DecidableEq, Repr

/-- The error kinds (60_exceptions.md R241). They are HUFFCORE's own error state, not faults of the model. -/
inductive ErrKind where
  | magicMismatch
  | truncatedInput
  | invalidByteWidth
  | ioFailure
  | frequencyOverflow
  | invalidFrequency
  | noCode
  | sequenceError
  | illegalCommand
  | inputLength
  deriving DecidableEq, Repr

/-- What a stopped command needs before its next Core step (20_memory.md R64, R65; 70_reset_and_hazards.md R282). -/
inductive Wait where
  /-- Nothing: the host moves first, then the Core goes on (20_memory.md R79). -/
  | ready
  /-- SrcRead waits: no element is offered on SRC. -/
  | src
  /-- SnkWrite waits: byte `b` is offered on SNK and not answered; the host's answer ends the wait (R65, R78). -/
  | snk (b : Byte)
  deriving DecidableEq, Repr

/-- A position in a command's pseudocode (10_state.md R21, "hidden state that no register exposes"): one stretch of it
still to run. `start` and the group after it begin a command's rule; the others resume inside one. -/
inductive Task where
  /-- A command accepted and not yet begun (30_encoding.md R95). -/
  | start
  | fclr
  | fadd
  | fset
  | fscan
  | fwidth
  | tbuild
  | cgen
  | psym
  | pscan
  | pflush
  | udec
  | udecall
  | hwrite
  | hread
  /-- ENCODE's check of L_ILEN (44_container.md R205). -/
  | encodeLength
  /-- DECODE's `OUT_COUNT <- 0` (44_container.md R206). -/
  | decodeStart
  /-- SnkWrite of each byte in order (20_memory.md R69). -/
  | send (bytes : List Byte)
  /-- `OUT_COUNT <- OUT_COUNT + 1` of a SnkWrite the host has answered OK (20_memory.md R69). -/
  | countOut
  /-- `ACC <- 0; NBITS <- 0` after an emitted byte (43_bitpack.md R170, R174). -/
  | clearPack
  /-- PackBit of each bit in order (43_bitpack.md R170). -/
  | pack (bits : List Bool)
  /-- PSCAN's loop from index `i` (43_bitpack.md R173). -/
  | pscanFrom (i : Nat)
  /-- The tree walk at node `id`, then the symbol's SnkWrite and EMIT (43_bitpack.md R180). -/
  | walk (id : NodeId)
  /-- `EMIT <- EMIT + 1` (43_bitpack.md R180). -/
  | countEmit
  /-- UDECALL's loop test (43_bitpack.md R181). -/
  | decodeLoop
  /-- HREAD with `k` magic bytes matched (44_container.md R203). -/
  | hreadMagic (k : Nat)
  /-- HREAD reading the bitmap; `bm` is the hidden latch, the bytes read so far (R203). -/
  | hreadBitmap (bm : List Byte)
  /-- HREAD at the W byte (R203). -/
  | hreadWidth (bm : List Byte)
  /-- HREAD in the frequency field of `sym`: `left` bytes to read, `v` the value so far, `rest` the present symbols
  after `sym` (what the latch bm still says) (R203). -/
  | hreadField (w left v : Nat) (sym : Sym) (rest : List Sym)
  /-- A raise reached and not yet taken (60_exceptions.md R243). -/
  | raise (e : ErrKind) (offset : BitVec 64) (expected actual : Option Byte) (port : Port)
  deriving DecidableEq, Repr

/-- One host transaction (20_memory.md R76, R78) or script line (30_encoding.md R99, R100). -/
inductive HostOp where
  /-- `wr REG, v`: a 32-bit CSR write at byte offset `off` (20_memory.md R61). -/
  | wr (off : BitVec 8) (v : Word)
  /-- `rd REG`: a 32-bit CSR read; the script notes the value. -/
  | rd (off : BitVec 8)
  /-- An IBUF byte write (20_memory.md R62). -/
  | ibufWr (i : Nat) (b : Byte)
  /-- An IBUF byte read; the script notes the value. -/
  | ibufRd (i : Nat)
  /-- A 32-bit write at a system address (R77, the CSR window at CSR_BASE). -/
  | busWr32 (addr : Nat) (v : Word)
  /-- A 32-bit read at a system address. -/
  | busRd32 (addr : Nat)
  /-- A byte write at a system address (R77, the IBUF window at IBUF_BASE). -/
  | busWr8 (addr : Nat) (b : Byte)
  /-- A byte read at a system address. -/
  | busRd8 (addr : Nat)
  /-- `src …`: offer elements on SRC, in order (R64, R99). -/
  | src (es : List SrcElem)
  /-- The host takes back the first `n` elements it has offered and the Core has not taken (70 R275, R281). -/
  | srcDrop (n : Nat)
  /-- `snk ok`: answer every SNK write with OK. -/
  | snkOk
  /-- `snk ioerr n`: answer the n-th SNK write from now with IOERR. -/
  | snkIoerr (n : Nat)
  /-- Answer one more SNK write with `a` (R65). -/
  | snkAnswer (a : SnkAns)
  /-- From now on no answer stands: each SNK write waits for its own (R65, R282). -/
  | snkHold
  /-- `wait`: repeat `rd STATUS` until BUSY reads 0 (R100). -/
  | wait
  /-- `check`: `rd STATUS` and stop the script if ERR reads 1 (R100). -/
  | check
  /-- The power-on reset input (70_reset_and_hazards.md R270). -/
  | powerOn
  deriving DecidableEq, Repr

/-- A value the host has read (30_encoding.md R99, "the script notes the value"). -/
inductive Note where
  | csr (off : BitVec 8) (v : Word)
  | ibuf (i : Nat) (b : Byte)
  deriving DecidableEq, Repr

/-- Memory as address and byte pairs in canonical form: addresses strictly rising. An index that is not listed has no
known byte (20_memory.md R62), so no entry can equal it. -/
abbrev Memory := List Host.Cell

/-- The state of HUFFCORE, its streams and its host. -/
structure State where
  /-- The open parameters IBUF_SIZE, CSR_BASE, IBUF_BASE (00_scope.md R7); no step changes them. -/
  cfg : Config
  /-- FREQ[0..255] (10_state.md R22, R23). -/
  freq : Vector Word 256
  /-- WIDTH (R27). -/
  width : BitVec 3
  /-- NODE, entry i at place i; an entry past the end is unspecified (R22, R28, 93 U3). -/
  node : List Node
  /-- Model's own: which drawing of free values the unspecified NODE entries stand for. -/
  nodeDraw : Nat
  /-- NNODES (R29). -/
  nnodes : BitVec 10
  /-- ROOT; `none` is NONE (R29). -/
  root : Option NodeId
  /-- SEQ (R30). -/
  seq : List NodeId
  /-- TREE_VALID (R31). -/
  treeValid : Bool
  /-- CODE[0..255] (R32). -/
  code : Vector CodeEntry 256
  /-- CODES_VALID (R33). -/
  codesValid : Bool
  /-- ACC (R34). -/
  acc : BitVec 8
  /-- NBITS (R34). -/
  nbits : BitVec 4
  /-- CUR (R35). -/
  cur : BitVec 8
  /-- REM (R35). -/
  rem : BitVec 4
  /-- EMIT (R36). -/
  emit : BitVec 40
  /-- IN_COUNT (R37). -/
  inCount : BitVec 64
  /-- OUT_COUNT (R37). -/
  outCount : BitVec 64
  /-- L_ARG (R38). -/
  lArg : Word
  /-- L_ILEN (R38). -/
  lIlen : Word
  /-- L_SYM (R38). -/
  lSym : Sym
  /-- ERRCODE (R39). -/
  errcode : BitVec 4
  /-- ERR_OFFSET (R39). -/
  errOffset : BitVec 64
  /-- ERR_EXPECTED (R39). -/
  errExpected : BitVec 8
  /-- ERR_ACTUAL (R39). -/
  errActual : BitVec 8
  /-- ERR_VALID (R39). -/
  errValid : Bool
  /-- ERR_PORT: false source stream, true sink stream (R39). -/
  errPort : Bool
  /-- ERR (R39). -/
  err : Bool
  /-- CMD_OVR (R43). -/
  cmdOvr : Bool
  /-- BUSY (R21, R43). -/
  busy : Bool
  /-- CUR_CMD (R21). -/
  curCmd : Word
  /-- ARG (R42). -/
  arg : Word
  /-- ILEN (R46). -/
  ilen : Word
  /-- FREQ_SEL[7:0] (R50). -/
  freqSel : BitVec 8
  /-- CODE_SEL[7:0] (R51). -/
  codeSel : BitVec 8
  /-- IBUF (20_memory.md R62): the bytes the host has written since power-on. -/
  ibuf : Memory
  /-- Model's own: which drawing of free values the other IBUF bytes stand for. -/
  ibufDraw : Nat
  /-- The hidden position in the running command's pseudocode (R21); [] when no command runs. -/
  cont : List Task
  /-- What the stopped command needs next (R282). -/
  waitOn : Wait
  /-- SRC: the elements offered and not yet taken, next one first (20_memory.md R64). -/
  src : List SrcElem
  /-- SNK: the bytes the host has taken, in order (20_memory.md R65). -/
  snk : List Byte
  /-- The host's answers to coming SNK writes, offered ahead, next one first (R65, R99). -/
  snkAns : List SnkAns
  /-- The answer that stands when `snkAns` is empty; none: the write waits (R65, R99). -/
  snkStanding : Option SnkAns
  /-- The host's transactions still to come, in program order (20_memory.md R78). -/
  hostOps : List HostOp
  /-- The values the host has read, oldest first (30_encoding.md R99). -/
  notes : List Note
  /-- Model's own: who moves next, one entry for each point where both agents can (20_memory.md R79); the Core when it is
  []. -/
  sched : List Agent
  /-- Model's own: how many free values have been drawn. -/
  draws : Nat
  deriving DecidableEq, Repr

/-- Why the machine stops. Not HUFFCORE's errors: those are states (60_exceptions.md R243). -/
inductive Fault where
  /-- Raised by UDEC, UDECALL, DECODE when EMIT < TOTAL and ROOT = NONE. Safe: 43_bitpack.md R180 says ROOT ≠ NONE there
  and gives the walk no start otherwise; no state with the tree TBUILD built has it (10_state.md R57). -/
  | walkWithoutRoot
  /-- Raised by CGEN (alone or in ENCODE) when a path from ROOT is longer than CODE_CAP = 256 bits, a cycle included. Safe:
  41_tree.md R134 says no tree TBUILD builds has such a path. -/
  | pathTooLong
  deriving DecidableEq, Repr

/-- Why the model gives a host transaction no step (93_implementation_defined.md, treatment `refuse`). -/
inductive Refusal where
  /-- An instruction without a meaning; no arm of `exec` raises it. Safe. -/
  | notModelled (mnemonic : String)
  /-- Raised by a CSR access at an offset that is not a multiple of 4 (93 U6, 20_memory.md R61). Safe. -/
  | csrMisaligned
  /-- Raised by an IBUF access at an index ≥ IBUF_SIZE (93 U7, R62). Safe. -/
  | ibufIndex
  /-- Raised by a host IBUF write while FSCAN, PSCAN or ENCODE runs (93 U5, 70_reset_and_hazards.md R276). Unsafe only for
  a claim about a host that breaks the duty R276 gives it. -/
  | ibufBusy
  /-- Raised by a bus access outside the windows CSR_BASE and IBUF_BASE place (R77). Safe. -/
  | noSuchAddress
  /-- Raised by `snk ioerr 0`: the script syntax counts writes from 1 (R99). Safe. -/
  | noSuchSnkWrite
  deriving DecidableEq, Repr

/-- The state after power-on reset (10_state.md R22, 70_reset_and_hazards.md R270): the host has offered nothing, has no
transaction pending, and answers SNK writes with OK, the script default (R99; log 5). -/
def State.reset : State where
  cfg := Config.atReset
  freq := Vector.replicate 256 0
  width := 0
  node := []
  nodeDraw := 0
  nnodes := 0
  root := none
  seq := []
  treeValid := false
  code := Vector.replicate 256 CodeEntry.none
  codesValid := false
  acc := 0
  nbits := 0
  cur := 0
  rem := 0
  emit := 0
  inCount := 0
  outCount := 0
  lArg := 0
  lIlen := 0
  lSym := 0
  errcode := 0
  errOffset := 0
  errExpected := 0
  errActual := 0
  errValid := false
  errPort := false
  err := false
  cmdOvr := false
  busy := false
  curCmd := 0
  arg := 0
  ilen := 0
  freqSel := 0
  codeSel := 0
  ibuf := []
  ibufDraw := 0
  cont := []
  waitOn := .ready
  src := []
  snk := []
  snkAns := []
  snkStanding := some .ok
  hostOps := []
  notes := []
  sched := []
  draws := 1

end Sys2Proof.Machine
end

