-- ==== Sys2Proof/Machine/Ops.lean ====
section
/-! DEFINITION. The shared operations: IBUF as canonical memory (20_memory.md R62, R66), the tables (R63), free values
(93 U1 to U4), the host's answer to an offered byte (R65), error entry as ONE operation and reset as its only exit
(60_exceptions.md R243, R246), the outcome of a stretch of pseudocode, and the two stream primitives (R67 to R69). -/

namespace Sys2Proof.Machine

/-! ## Memory -/

/-- The canonical form: addresses strictly rising. -/
abbrev Memory.wf (m : Memory) : Prop := m.Pairwise (fun x y => x.1 < y.1)

/-- The byte at an address; `none` for an address no write has listed. -/
def Memory.read? : Memory → Nat → Option Byte
  | [], _ => none
  | c :: m, a => if c.1 = a then some c.2 else Memory.read? m a

/-- Write one byte, keeping the canonical form. -/
def Memory.write : Memory → Nat → Byte → Memory
  | [], a, b => [(a, b)]
  | c :: m, a, b =>
    if a < c.1 then (a, b) :: c :: m
    else if a = c.1 then (a, b) :: m
    else c :: Memory.write m a b

/-- IBUF[i] (20_memory.md R66). A byte no host write has set since power-on is a free value (93 U4; log 2). -/
def memRead (s : State) (i : Nat) : Byte :=
  (s.ibuf.read? i).getD (Config.free .ibufByte 8 s.ibufDraw i)

/-! ## Tables -/

/-- FREQ[x] (10_state.md R23). -/
def freqAt (f : Vector Word 256) (x : Sym) : Word := f[x.toNat]'(x.isLt)

/-- FREQ with FREQ[x] replaced by v. -/
def freqSet (f : Vector Word 256) (x : Sym) (v : Word) : Vector Word 256 := f.set x.toNat v x.isLt

/-- CODE[x] (10_state.md R32). -/
def codeAt (t : Vector CodeEntry 256) (x : Sym) : CodeEntry := t[x.toNat]'(x.isLt)

/-- CODE with CODE[x] replaced by e. -/
def codeSet (t : Vector CodeEntry 256) (x : Sym) (e : CodeEntry) : Vector CodeEntry 256 := t.set x.toNat e x.isLt

/-- An unspecified NODE entry (93 U3). -/
def freeNode (draw i : Nat) : Node where
  kind := if (Config.free .nodeKind 1 draw i).toNat = 0 then .leaf else .internal
  sym := Config.free .nodeSym 8 draw i
  freq := Config.free .nodeFreq 40 draw i
  left := Config.free .nodeLeft 9 draw i
  right := Config.free .nodeRight 9 draw i

/-- NODE[i] (10_state.md R28); an entry no TBUILD has written is a free value (93 U3; log 3). -/
def nodeAt (s : State) (i : NodeId) : Node := (s.node[i.toNat]?).getD (freeNode s.nodeDraw i.toNat)

/-- `FreqChanged()` (10_state.md R59). -/
def freqChanged (s : State) : State := { s with treeValid := false, codesValid := false, width := 0 }

/-- WIDTH <- w (10_state.md R27). -/
def storeWidth (w : Nat) (s : State) : State := { s with width := BitVec.ofNat 3 w }

/-- A command step that writes all of FREQ, with `FreqChanged()` after it (R59). -/
def storeFreq (f : Vector Word 256) (s : State) : State := freqChanged { s with freq := f }

/-- A command step that writes FREQ[x], with `FreqChanged()` after it (10_state.md R59). -/
def writeFreq (x : Sym) (v : Word) (s : State) : State := storeFreq (freqSet s.freq x v) s

/-! ## The host's answers on SNK -/

/-- The schedule once the Core has passed a point where the host could have moved (20_memory.md R79; log 4): the entry
that gave the Core its turn there is used up. -/
def afterCore : List Agent → List Agent
  | .core :: r => r
  | r => r

/-- The Core passes such a point: a command's beginning, its end, or a raise. A stream access is one too. -/
def coreTurn (s : State) : State := { s with sched := afterCore s.sched }

/-- The host's answer to the next SNK write and the answers left (20_memory.md R65). -/
def snkAnswer (s : State) : Option (SnkAns × List SnkAns) :=
  match s.snkAns with
  | a :: as => some (a, as)
  | [] => s.snkStanding.map fun a => (a, [])

/-- The host's answer is taken; `as` are the answers left. -/
def answerTaken (as : List SnkAns) (s : State) : State := { s with snkAns := as, sched := afterCore s.sched }

/-- The host takes byte `b`: its answer OK (R65). -/
def takeByte (b : Byte) (s : State) : State := { s with snk := s.snk ++ [b] }

/-- `OUT_COUNT <- OUT_COUNT + 1` (R69). -/
def countOut (s : State) : State := { s with outCount := s.outCount + 1 }

/-- The host has taken byte `b`, and the Core counts it (R69). -/
def deliver (b : Byte) (s : State) : State := countOut (takeByte b s)

/-- The running command stopped at a position (10_state.md R21). -/
def stoppedAt (w : Wait) (rest : List Task) (s : State) : State := { s with cont := rest, waitOn := w }

/-- The host answers the byte the Core has offered and waits on, if there is an answer. That is the whole of the host's
transaction (R65, R78): with OK the byte is taken, there and then; with IOERR it is not. The Core's share, R69's next
line, is where the command stands after it. -/
def answerOffer (s : State) : State :=
  match s.waitOn, snkAnswer s with
  | .snk b, some (.ok, as) => stoppedAt .ready (.countOut :: s.cont.tail) (takeByte b (answerTaken as s))
  | .snk _, some (.ioerr, as) =>
    stoppedAt .ready (.raise .ioFailure s.outCount none none .snk :: s.cont.tail) (answerTaken as s)
  | _, _ => s

/-! ## Error entry and its exit -/

/-- The error codes (60_exceptions.md R241). -/
def ErrKind.code : ErrKind → BitVec 4
  | .magicMismatch => 1
  | .truncatedInput => 2
  | .invalidByteWidth => 3
  | .ioFailure => 4
  | .frequencyOverflow => 5
  | .invalidFrequency => 6
  | .noCode => 7
  | .sequenceError => 8
  | .illegalCommand => 9
  | .inputLength => 10

/-- The elements R244 leaves unspecified after an error, each a free value fixed at the raise (93 U2). -/
def scramble (s : State) : State :=
  let d := s.draws
  { s with
    freq := Vector.ofFn fun i => Config.free .freq 32 d i.val
    width := Config.free .width 3 d 0
    node := []
    nodeDraw := d
    nnodes := Config.free .nnodes 10 d 0
    root := if (Config.free .hasRoot 1 d 0).toNat = 0 then none else some (Config.free .root 9 d 0)
    seq := (List.range ((Config.free .seqLen 16 d 0).toNat % 257)).map fun k => Config.free .seqId 9 d k
    code := Vector.ofFn fun i =>
      { assigned := (Config.free .codeAssigned 1 d i.val).toNat ≠ 0
        len := Config.free .codeLen 9 d i.val
        bits := Config.free .codeBits 256 d i.val }
    acc := Config.free .acc 8 d 0
    nbits := Config.free .nbits 4 d 0
    cur := Config.free .cur 8 d 0
    rem := Config.free .rem 4 d 0
    emit := Config.free .emit 40 d 0
    curCmd := Config.free .curCmd 32 d 0
    lArg := Config.free .lArg 32 d 0
    lIlen := Config.free .lIlen 32 d 0
    lSym := Config.free .lSym 8 d 0
    draws := d + 1 }

/-- Error entry, `raise E(offset, expected, actual, port)` (60_exceptions.md R243, R244), in one step: the error registers
are written, TREE_VALID, CODES_VALID and BUSY are cleared, the rest of the command is dropped, and what R244 leaves
unspecified becomes free. Nothing is saved for a return. -/
def raise (e : ErrKind) (offset : BitVec 64) (expected actual : Option Byte) (port : Port) (s : State) : State :=
  { scramble s with
    err := true
    errcode := e.code
    errOffset := offset
    errExpected := expected.getD 0
    errActual := actual.getD 0
    errValid := actual.isSome
    errPort := e == .ioFailure && port == .snk
    treeValid := false
    codesValid := false
    busy := false
    cont := []
    waitOn := .ready }

/-- SRESET's effect, the exit from the error state (45_control.md R231, 60_exceptions.md R246): every element of R22 but
IBUF at its reset value, the running command's remaining steps and its unanswered SNK offer dropped. What belongs to the
host stays: SRC, the bytes it took, its answers to coming writes and its script (70_reset_and_hazards.md R271; log 25). A
byte is taken once the host has answered OK (20_memory.md R65), so an offer that has its answer is no longer one to
withdraw. -/
def softReset (s : State) : State :=
  let h := answerOffer s
  { State.reset with
    cfg := s.cfg
    nodeDraw := s.draws
    ibuf := s.ibuf
    ibufDraw := s.ibufDraw
    src := s.src
    snk := h.snk
    snkAns := h.snkAns
    snkStanding := s.snkStanding
    hostOps := s.hostOps
    notes := s.notes
    sched := h.sched
    draws := s.draws + 1 }

/-- The power-on reset (70_reset_and_hazards.md R270, R271; log 20): as SRESET, but IBUF holds unspecified bytes. -/
def powerOnReset (s : State) : State := { softReset s with ibuf := [], ibufDraw := s.draws }

/-! ## A stretch of pseudocode -/

/-- How a stretch of a command's pseudocode ends. -/
inductive Flow where
  /-- It ran to its end. -/
  | done (s : State)
  /-- It raised: the state after error entry. -/
  | raised (s : State)
  /-- The Core stopped before a stream access; `rest` is what is left of the stretch. -/
  | wait (w : Wait) (rest : List Task) (s : State)
  /-- The spec gives the state no next step. -/
  | halt (f : Fault)
  deriving DecidableEq, Repr

/-- `f; g`, where `later` is the position of `g`. A raise ends both (60_exceptions.md R248). -/
def Flow.andThen (f : Flow) (g : State → Flow) (later : List Task) : Flow :=
  match f with
  | .done s => g s
  | .raised s => .raised s
  | .wait w rest s => .wait w (rest ++ later) s
  | .halt r => .halt r

/-- The running marks taken off: BUSY <- 0, no position (30_encoding.md R96, 10_state.md R21). -/
def idleAgain (s : State) : State := { s with busy := false, cont := [], waitOn := .ready }

/-- At a point where both agents can move the host moves first: its turn is scheduled and it has a transaction pending
(20_memory.md R79, 70_reset_and_hazards.md R285; log 4). -/
def State.paused (s : State) : Bool := !s.hostOps.isEmpty && s.sched.head? == some .host

/-- An accepted command begins, after the host's turn if one is scheduled (R79; log 4). -/
def startRule (s : State) : Flow := if s.paused then .wait .ready [.start] s else .done (coreTurn s)

/-- A raise inside a command: error entry, after the host's turn if one is scheduled (R285; log 4). -/
def raising (e : ErrKind) (offset : BitVec 64) (expected actual : Option Byte) (port : Port) (s : State) : Flow :=
  if s.paused then .wait .ready [.raise e offset expected actual port] s
  else .raised (raise e offset expected actual port (coreTurn s))

/-- The command's end as a step outcome: completion sets BUSY to 0 (30_encoding.md R96), after the host's turn if one is
scheduled (R285; log 4); a stopped command keeps BUSY = 1 and its position (10_state.md R21). -/
def Flow.finish : Flow → Host.Outcome State Fault Refusal
  | .done s => .next (if s.paused then stoppedAt .ready [] s else idleAgain (coreTurn s))
  | .raised s => .next s
  | .wait w rest s => .next (stoppedAt w rest s)
  | .halt r => .fault r

/-! ## The streams -/

/-- The next element of SRC is taken; `es` are the elements left (20_memory.md R67). -/
def srcTaken (es : List SrcElem) (s : State) : State := { s with src := es, sched := afterCore s.sched }

/-- `IN_COUNT <- IN_COUNT + 1` (R68). -/
def countIn (s : State) : State := { s with inCount := s.inCount + 1 }

/-- `SrcByte()` (R67, R68) and then `k` of the byte; `here` is the position to come back to when the Core has to wait for
an element. -/
def withSrcByte (here : List Task) (s : State) (k : Byte → State → Flow) : Flow :=
  if s.paused then .wait .ready here s else
  match s.src with
  | [] => .wait .src here s
  | .byte b :: es => k b (countIn (srcTaken es s))
  | .eoi :: es => raising .truncatedInput s.inCount none none .src (srcTaken es s)
  | .ioerr :: es => raising .ioFailure s.inCount none none .src (srcTaken es s)

/-- `SnkWrite(b)` (R69). -/
def snkWrite (b : Byte) (s : State) : Flow :=
  if s.paused then .wait .ready [.send [b]] s else
  match snkAnswer s with
  | none => .wait (.snk b) [.send [b]] s
  | some (.ok, as) => .done (deliver b (answerTaken as s))
  | some (.ioerr, as) => raising .ioFailure s.outCount none none .snk (answerTaken as s)

/-- The position of the bytes still to send; none is left after the last one. -/
def sendLater : List Byte → List Task
  | [] => []
  | b :: bs => [.send (b :: bs)]

/-- SnkWrite of each byte in order. -/
def sendBytes : List Byte → State → Flow
  | [], s => .done s
  | b :: bs, s => (snkWrite b s).andThen (sendBytes bs) (sendLater bs)

end Sys2Proof.Machine
end

