-- ==== Sys2Proof/Machine/Operands.lean ====
section
/-! DEFINITION. The operands: the latches (10_state.md R38), and the bit-string and byte-order conversions the commands
and the CSR windows share (00_scope.md R9; 20_memory.md R71 to R73). -/

namespace Sys2Proof.Machine

/-- The number whose bit k is element k. -/
def bitsLE : List Bool → Nat
  | [] => 0
  | b :: bs => b.toNat + 2 * bitsLE bs

/-- The w-bit vector whose bit k is element k. -/
def vecLE (w : Nat) (bs : List Bool) : BitVec w := BitVec.ofNat w (bitsLE bs)

/-- The w-bit vector whose low bits are the elements, the last one at bit 0 (most significant first). -/
def vecMSB (w : Nat) (bs : List Bool) : BitVec w := vecLE w bs.reverse

/-- The bit string of a code entry, BITS[0..LEN−1] (10_state.md R32). -/
def CodeEntry.bitString (e : CodeEntry) : List Bool := (List.range e.len.toNat).map e.bits.getLsbD

/-- The code entry of a path (42_codetable.md R151). -/
def CodeEntry.ofPath (path : List Bool) : CodeEntry :=
  ⟨true, BitVec.ofNat 9 path.length, vecLE 256 path⟩

/-- A frequency value in W bytes, most significant byte first (20_memory.md R73). -/
def beBytes (w : Nat) (v : Word) : List Byte := (List.range w).reverse.map fun k => v.extractLsb' (8 * k) 8

/-- Acceptance (10_state.md R38, 30_encoding.md R95): CUR_CMD and the operand latches are written, BUSY is set. -/
def accept (v : Word) (s : State) : State :=
  { s with curCmd := v, lArg := s.arg, lIlen := s.ilen, lSym := symField v, busy := true }

/-- L_ILEN as the byte count FSCAN, PSCAN and ENCODE process (10_state.md R46). -/
def scanLength (s : State) : Nat := s.lIlen.toNat

end Sys2Proof.Machine
end

