-- ==== Sys2Proof/Machine/Flags.lean ====
section
/-! DEFINITION. The views of FREQ (10_state.md R24 to R26), the minimal width (40_frequency.md R114) and the STATUS flags
(10_state.md R43). -/

namespace Sys2Proof.Machine

/-- PRES[x] (10_state.md R24). -/
def present (f : Vector Word 256) (x : Sym) : Bool := freqAt f x != 0

/-- The symbols s with PRES[s] = 1 and their counts FREQ[s], in ascending symbol order (R24). -/
def presentEntries (f : Vector Word 256) : List (Sym × Word) := (allSyms.zip f.toList).filter fun e => e.2 != 0

/-- NSYM (10_state.md R25). -/
def nsymOf (f : Vector Word 256) : Nat := (presentEntries f).length

/-- TOTAL (10_state.md R26). -/
def totalOf (f : Vector Word 256) : Nat := (f.toList.map BitVec.toNat).sum

/-- The largest FREQ value, 0 if none is present (40_frequency.md R115). -/
def maxFreq (f : Vector Word 256) : Nat := (f.toList.map BitVec.toNat).foldl max 0

/-- `MinWidth(m)` (40_frequency.md R114). -/
def minWidth (m : Nat) : Nat :=
  if m < 2 ^ 8 then 1
  else if m < 2 ^ 16 then 2
  else if m < 2 ^ 24 then 3
  else 4

/-- EOS: ERR = 0 and EMIT ≥ TOTAL (10_state.md R43). -/
def eos (s : State) : Bool := !s.err && decide (totalOf s.freq ≤ s.emit.toNat)

/-- STATUS with given values of the three flags that are unspecified while BUSY = 1 (10_state.md R43). -/
def statusWith (s : State) (tree codes eosBit : Bool) : Word :=
  vecLE 32 ([s.busy, s.err, tree, codes, eosBit, s.cmdOvr, false, false] ++ (List.range 4).map s.errcode.getLsbD)

/-- STATUS (10_state.md R43). -/
def status (s : State) : Word := statusWith s s.treeValid s.codesValid (eos s)

end Sys2Proof.Machine
end

