-- ==== Sys2Proof/Machine/CodeTableUnit.lean ====
section
/-! DEFINITION. The code-table generator (42_codetable.md). -/

namespace Sys2Proof.Machine

/-- `raise SequenceError(offset = 0, actual = op)` unless the flag the command needs is set (10_state.md R31, R33). -/
def sequenceCheck (flag : State → Bool) (op : Byte) (s : State) : Flow :=
  if flag s then .done s else raising .sequenceError 0 none (some op) .src s

/-- The table with every entry unassigned (42_codetable.md R150). -/
def emptyCodes : Vector CodeEntry 256 := Vector.replicate 256 CodeEntry.none

/-- `Walk(id, path)` (R151). `depth` bounds the levels still allowed; none: a path exceeds it. -/
def walkCodes (node : NodeId → Node) : Nat → NodeId → List Bool → Vector CodeEntry 256 → Option (Vector CodeEntry 256)
  | 0, _, _, _ => none
  | d + 1, id, path, t =>
    match (node id).kind with
    | .leaf => some (codeSet t (node id).sym (CodeEntry.ofPath path))
    | .internal =>
      (walkCodes node d (node id).left (path ++ [false]) t).bind fun t' =>
        walkCodes node d (node id).right (path ++ [true]) t'

/-- The table of a tree: paths of at most CODE_CAP bits (10_state.md R32). -/
def codesOf (node : NodeId → Node) (root : Option NodeId) : Option (Vector CodeEntry 256) :=
  match root with
  | none => some emptyCodes
  | some r => walkCodes node (codeCap + 1) r [] emptyCodes

/-- The table stored: CODE, CODES_VALID <- 1 (R150). -/
def storeCodes (t : Vector CodeEntry 256) (s : State) : State := { s with code := t, codesValid := true }

/-- CGEN (R150). -/
def cgenRule (s : State) : Flow :=
  (sequenceCheck State.treeValid 0x30 s).andThen (fun s =>
    match codesOf (nodeAt s) s.root with
    | some t => .done (storeCodes t s)
    | none => .halt .pathTooLong) []

end Sys2Proof.Machine
end

