-- ==== Sys2Proof/Machine/FrequencyUnit.lean ====
section
/-! DEFINITION. The frequency accumulator (40_frequency.md). -/

namespace Sys2Proof.Machine

/-- FCLR (40_frequency.md R110). -/
def fclrRule (s : State) : Flow := .done (storeFreq (Vector.replicate 256 0) s)

/-- Count one occurrence of `x`, or raise FrequencyOverflow at `offset` (R111, R113). -/
def countSym (x : Sym) (offset : BitVec 64) (s : State) : Flow :=
  if freqAt s.freq x = 0xFFFFFFFF then raising .frequencyOverflow offset none (some x) .src s
  else .done (writeFreq x (freqAt s.freq x + 1) s)

/-- FADD (R111). -/
def faddRule (s : State) : Flow := countSym s.lSym 0 s

/-- FSET (R112). -/
def fsetRule (s : State) : Flow := .done (writeFreq s.lSym s.lArg s)

/-- `raise InputLength(offset = n)` when L_ILEN > IBUF_SIZE (R113, 43 R173, 44 R205). -/
def lengthCheck (s : State) : Flow :=
  if s.cfg.ibufSize < scanLength s then
    raising .inputLength (s.lIlen.setWidth 64) none none .src s
  else .done s

/-- FSCAN's loop: `n` bytes from index `i` on (R113). It meets no stream, so it is never left half-done (70 R285). -/
def fscanLoop : Nat → Nat → State → Flow
  | 0, _, s => .done s
  | n + 1, i, s => (countSym (memRead s i) (BitVec.ofNat 64 i) s).andThen (fscanLoop n (i + 1)) []

/-- FSCAN (R113). -/
def fscanRule (s : State) : Flow :=
  (lengthCheck s).andThen (fun s => fscanLoop (scanLength s) 0 (freqChanged s)) []

/-- FWIDTH (R115). -/
def fwidthRule (s : State) : Flow := .done (storeWidth (minWidth (maxFreq s.freq)) s)

end Sys2Proof.Machine
end

