-- ==== Sys2Proof/Machine/PackerUnit.lean ====
section
/-! DEFINITION. The bit-packer (43_bitpack.md sections 1 and 2). -/

namespace Sys2Proof.Machine

/-- `ACC <- 0; NBITS <- 0` (43_bitpack.md R170, R174; 44 R202). -/
def clearPacker (s : State) : State := { s with acc := 0, nbits := 0 }

/-- Emit a byte, then clear the packer (R170, R174). -/
def emitByte (b : Byte) (s : State) : Flow :=
  (snkWrite b s).andThen (fun s => .done (clearPacker s)) [.clearPack]

/-- `ACC <- ((ACC << 1) | b)[7:0]; NBITS <- NBITS + 1` (R170). -/
def pushBit (b : Bool) (s : State) : State := { s with acc := (s.acc <<< 1) ||| vecLE 8 [b], nbits := s.nbits + 1 }

/-- `PackBit(b)` (R170). -/
def packBit (b : Bool) (s : State) : Flow :=
  let s' := pushBit b s
  if s'.nbits = 8 then emitByte s'.acc s' else .done s'

/-- PackBit of each bit in order. -/
def packBits : List Bool → State → Flow
  | [], s => .done s
  | b :: bs, s => (packBit b s).andThen (packBits bs) [.pack bs]

/-- Pack the code of symbol `x`, or raise NoCode at `offset` (R172, R173). -/
def packSym (x : Sym) (offset : BitVec 64) (s : State) : Flow :=
  if (codeAt s.code x).assigned then packBits (codeAt s.code x).bitString s
  else raising .noCode offset none (some x) .src s

/-- PSYM (R172). -/
def psymRule (s : State) : Flow :=
  (sequenceCheck State.codesValid 0x40 s).andThen (fun s => packSym s.lSym 0 s) []

/-- PSCAN's loop: `n` bytes from index `i` on (R173). -/
def pscanLoop : Nat → Nat → State → Flow
  | 0, _, s => .done s
  | n + 1, i, s =>
    (packSym (memRead s i) (BitVec.ofNat 64 i) s).andThen (pscanLoop n (i + 1)) [.pscanFrom (i + 1)]

/-- PSCAN's loop from index `i` to L_ILEN − 1 (R173). -/
def pscanRest (i : Nat) (s : State) : Flow := pscanLoop (scanLength s - i) i s

/-- PSCAN (R173). -/
def pscanRule (s : State) : Flow :=
  (sequenceCheck State.codesValid 0x41 s).andThen (fun s => (lengthCheck s).andThen (pscanRest 0) []) []

/-- The last byte with its zero pad bits, `(ACC << (8 − NBITS))[7:0]` (R174). -/
def padded (s : State) : Byte := s.acc <<< (8 - s.nbits.toNat)

/-- PFLUSH (R174). -/
def pflushRule (s : State) : Flow := if s.nbits = 0 then .done s else emitByte (padded s) s

end Sys2Proof.Machine
end

