-- ==== Sys2Proof/Machine/HeaderUnit.lean ====
section
/-! DEFINITION. The container header serializer and deserializer (44_container.md section 2; 20_memory.md R72, R73). -/

namespace Sys2Proof.Machine

/-- `BitmapByte(k)`: PRES[8k + j] at bit 7 − j (20_memory.md R72). -/
def bitmapByte (f : Vector Word 256) (k : Nat) : Byte :=
  vecMSB 8 (((f.toList.drop (8 * k)).take 8).map (· != 0))

/-- The header of a FREQ table with byte-width `w` (44_container.md R200). -/
def headerBytes (f : Vector Word 256) (w : Nat) : List Byte :=
  magic ++ (List.range 32).map (bitmapByte f) ++ [BitVec.ofNat 8 w]
    ++ (presentEntries f).flatMap fun e => beBytes w e.2

/-- `OUT_COUNT <- 0` (44_container.md R202, R206). -/
def zeroOut (s : State) : State := { s with outCount := 0 }

/-- HWRITE (R202). -/
def hwriteRule (s : State) : Flow :=
  let w := minWidth (maxFreq s.freq)
  sendBytes (headerBytes s.freq w) (storeWidth w (clearPacker (zeroOut s)))

/-- The symbols a bitmap marks present, in ascending order: symbol s at byte s div 8, bit 7 − s mod 8
(20_memory.md R72). -/
def bitmapSyms (bm : List Byte) : List Sym :=
  allSyms.filter fun x => (bm.getD (x.toNat / 8) 0).getLsbD (7 - x.toNat % 8)

/-- Read `n` more bytes of a big-endian field whose value so far is `v`, then `k` of the value (20_memory.md R73);
`here` gives the position for the bytes left and the value so far. -/
def readField (here : Nat → Nat → List Task) (k : Nat → State → Flow) : Nat → Nat → State → Flow
  | 0, v, s => k v s
  | n + 1, v, s => withSrcByte (here (n + 1) v) s fun b s => readField here k n (v * 256 + b.toNat) s

/-- The end of one frequency field: refuse 0, else write FREQ and go on with `k` (44_container.md R203). -/
def storeField (w : Nat) (x : Sym) (k : State → Flow) (v : Nat) (s : State) : Flow :=
  if v = 0 then raising .invalidFrequency (s.inCount - BitVec.ofNat 64 w) none (some x) .src s
  else k (writeFreq x (BitVec.ofNat 32 v) s)

/-- The frequency fields of the symbols given, then `WIDTH <- W` (R203). -/
def readFreqs (w : Nat) : List Sym → State → Flow
  | [], s => .done (storeWidth w s)
  | x :: xs, s =>
    readField (fun left v => [.hreadField w left v x xs]) (storeField w x (readFreqs w xs)) w 0 s

/-- HREAD inside the field of symbol `x` (R203). -/
def readFreqsIn (w left v : Nat) (x : Sym) (xs : List Sym) (s : State) : Flow :=
  readField (fun left v => [.hreadField w left v x xs]) (storeField w x (readFreqs w xs)) left v s

/-- HREAD from the W byte on (R203). -/
def readWidth (bm : List Byte) (s : State) : Flow :=
  withSrcByte [.hreadWidth bm] s fun b s =>
    if b.toNat < 1 ∨ 4 < b.toNat then raising .invalidByteWidth 36 none (some b) .src s
    else readFreqs b.toNat (bitmapSyms bm) s

/-- `n` more bytes of the bitmap, after those of `bm` (R203). -/
def readBitmap : Nat → List Byte → State → Flow
  | 0, bm, s => readWidth bm s
  | n + 1, bm, s => withSrcByte [.hreadBitmap bm] s fun b s => readBitmap n (bm ++ [b]) s

/-- HREAD from the bitmap byte after those of `bm` on (R203). -/
def readBitmapFrom (bm : List Byte) (s : State) : Flow := readBitmap (32 - bm.length) bm s

/-- The magic bytes `ms` from container offset `k` on, one compare a byte (R203, 92 D16). -/
def readMagic : List Byte → Nat → State → Flow
  | [], _, s => readBitmapFrom [] s
  | m :: ms, k, s => withSrcByte [.hreadMagic k] s fun b s =>
      if b = m then readMagic ms (k + 1) s
      else raising .magicMismatch (BitVec.ofNat 64 k) (some m) (some b) .src s

/-- HREAD from magic byte `k` on (R203). -/
def readMagicFrom (k : Nat) (s : State) : Flow := readMagic (magic.drop k) k s

/-- HREAD's clearing of IN_COUNT, the cursor and EMIT (R203). -/
def clearCursor (s : State) : State := { s with inCount := 0, cur := 0, rem := 0, emit := 0 }

/-- HREAD's start: the cursor and FREQ cleared (R203). -/
def hreadClear (s : State) : State := storeFreq (Vector.replicate 256 0) (clearCursor s)

/-- HREAD (R203). -/
def hreadRule (s : State) : Flow := readMagicFrom 0 (hreadClear s)

end Sys2Proof.Machine
end

