-- ==== Sys2Proof/Machine/TreeUnit.lean ====
section
/-! DEFINITION. The Huffman tree builder (41_tree.md). -/

namespace Sys2Proof.Machine

/-- TBUILD's working state: the arena entries created so far and SEQ (41_tree.md R130). -/
structure Build where
  node : List Node
  seq  : List NodeId
  deriving DecidableEq, Repr

/-- NODE[i].freq among the entries created so far. -/
def Build.freqOf (b : Build) (i : NodeId) : BitVec 40 := ((b.node[i.toNat]?).map Node.freq).getD 0

/-- `insert(q, k, x)` (00_scope.md R9). -/
def insertAt (q : List NodeId) (k : Nat) (x : NodeId) : List NodeId := q.take k ++ x :: q.drop k

/-- `AfterEqual(q, f)`: the least k whose node has a greater freq, else |q| (41_tree.md R132). -/
def Build.afterEqual (b : Build) (f : BitVec 40) : Nat := b.seq.findIdx fun i => decide (f < b.freqOf i)

/-- `BeforeEqual(q, f)`: the least k whose node has no lesser freq, else |q| (R132). -/
def Build.beforeEqual (b : Build) (f : BitVec 40) : Nat := b.seq.findIdx fun i => decide (f ≤ b.freqOf i)

/-- One leaf of the leaf phase (R130, R131). -/
def Build.addLeaf (b : Build) (x : Sym) (f : BitVec 40) : Build :=
  { node := b.node ++ [⟨.leaf, x, f, 0, 0⟩]
    seq := insertAt b.seq (b.afterEqual f) (BitVec.ofNat 9 b.node.length) }

/-- The leaf phase: the present symbols in ascending order (R131). -/
def leafPhase (f : Vector Word 256) : Build :=
  (presentEntries f).foldl (fun b e => b.addLeaf e.1 (e.2.setWidth 40)) ⟨[], []⟩

/-- One merge: the first two of SEQ, `l` and `r`, become the children of a new node, put back into `rest` (R133). -/
def Build.merge (b : Build) (l r : NodeId) (rest : List NodeId) : Build :=
  let f := b.freqOf l + b.freqOf r
  { node := b.node ++ [⟨.internal, 0, f, l, r⟩]
    seq := insertAt rest (({ b with seq := rest } : Build).beforeEqual f) (BitVec.ofNat 9 b.node.length) }

/-- The merge phase (R133). Each merge shortens SEQ by one, so `n` = |SEQ| rounds reach its end. -/
def mergePhase : Nat → Build → Build
  | 0, b => b
  | n + 1, b =>
    match b.seq with
    | l :: r :: rest => mergePhase n (b.merge l r rest)
    | _ => b

/-- The whole build, a function of FREQ alone (R137). -/
def buildTree (f : Vector Word 256) : Build := mergePhase (leafPhase f).seq.length (leafPhase f)

/-- ROOT: the one node left in SEQ, NONE if there is none (R130). -/
def Build.root (b : Build) : Option NodeId :=
  match b.seq with
  | [r] => some r
  | _ => none

/-- The build stored: NODE, NNODES, SEQ and ROOT, TREE_VALID <- 1, CODES_VALID <- 0 (R130). -/
def storeTree (b : Build) (s : State) : State :=
  { s with
    node := b.node
    nnodes := BitVec.ofNat 10 b.node.length
    seq := b.seq
    root := b.root
    treeValid := true
    codesValid := false }

/-- TBUILD (R130). -/
def tbuildRule (s : State) : Flow := .done (storeTree (buildTree s.freq) s)

end Sys2Proof.Machine
end

