-- ==== Sys2Proof/Machine/UnpackerUnit.lean ====
section
/-! DEFINITION. The bit-unpacker and the decode walk (43_bitpack.md sections 1 and 3). -/

namespace Sys2Proof.Machine

/-- `CUR <- b; REM <- 8` (43_bitpack.md R171). -/
def loadCur (b : Byte) (s : State) : State := { s with cur := b, rem := 8 }

/-- `REM <- REM − 1` (R171). -/
def dropBit (s : State) : State := { s with rem := s.rem - 1 }

/-- `bit <- CUR[REM − 1]; REM <- REM − 1`, for REM > 0 (R171). -/
def takeBit (s : State) (k : Bool → State → Flow) : Flow := k (s.cur.getLsbD (s.rem.toNat - 1)) (dropBit s)

/-- `UnpackBit()` and then `k` of the bit (R171); `here` is the position to come back to when a byte must be awaited. -/
def unpackBit (here : List Task) (s : State) (k : Bool → State → Flow) : Flow :=
  if s.rem = 0 then withSrcByte here s fun b s => takeBit (loadCur b s) k
  else takeBit s k

/-- `EMIT <- EMIT + 1` (R180). -/
def countEmit (s : State) : State := { s with emit := s.emit + 1 }

/-- Write the leaf's symbol and count it (R180). -/
def emitSymbol (x : Sym) (s : State) : Flow :=
  (snkWrite x s).andThen (fun s => .done (countEmit s)) [.countEmit]

/-- The walk from node `id` down to a leaf (R180), in at most `n` bits; past them it is left at its position, to go on
in the next Core step. -/
def walkFrom : Nat → NodeId → State → Flow
  | 0, id, s => .wait .ready [.walk id] s
  | n + 1, id, s =>
    match (nodeAt s id).kind with
    | .leaf => emitSymbol (nodeAt s id).sym s
    | .internal => unpackBit [.walk id] s fun bit s' =>
        walkFrom n (if bit then (nodeAt s id).right else (nodeAt s id).left) s'

/-- One more than the bits the unpacker holds or SRC can give, so a walk ends or waits for SRC. -/
def walkBound (s : State) : Nat := s.rem.toNat + 8 * s.src.length + 1

/-- Walk from node `id` (R180). -/
def walkRule (id : NodeId) (s : State) : Flow := walkFrom (walkBound s) id s

/-- Decode one symbol from ROOT (R180). ROOT ≠ NONE holds wherever EMIT < TOTAL and TREE_VALID = 1. -/
def decodeSymbol (s : State) : Flow :=
  match s.root with
  | none => .halt .walkWithoutRoot
  | some r => walkRule r s

/-- UDEC (R180). -/
def udecRule (s : State) : Flow :=
  (sequenceCheck State.treeValid 0x48 s).andThen (fun s =>
    if totalOf s.freq ≤ s.emit.toNat then .done s else decodeSymbol s) []

/-- `n` rounds of UDECALL's loop (R181). -/
def decodeSymbols : Nat → State → Flow
  | 0, s => .done s
  | n + 1, s => (decodeSymbol s).andThen (decodeSymbols n) [.decodeLoop]

/-- UDECALL's loop `while EMIT < TOTAL` (R181): each round counts EMIT up by one. -/
def decodeLoop (s : State) : Flow := decodeSymbols (totalOf s.freq - s.emit.toNat) s

/-- UDECALL (R181). -/
def udecallRule (s : State) : Flow := (sequenceCheck State.treeValid 0x49 s).andThen decodeLoop []

end Sys2Proof.Machine
end

