-- ==== Sys2Proof/Machine/Engine.lean ====
section
/-! DEFINITION. Running a command: its stretches in order (10_state.md R21), acceptance (30_encoding.md R95), completion
(R96), and going on after a wait (70_reset_and_hazards.md R282). -/

namespace Sys2Proof.Machine

/-- One stretch of pseudocode. -/
def runTask (t : Task) (s : State) : Flow :=
  match t with
  | .start => startRule s
  | .fclr => fclrRule s
  | .fadd => faddRule s
  | .fset => fsetRule s
  | .fscan => fscanRule s
  | .fwidth => fwidthRule s
  | .tbuild => tbuildRule s
  | .cgen => cgenRule s
  | .psym => psymRule s
  | .pscan => pscanRule s
  | .pflush => pflushRule s
  | .udec => udecRule s
  | .udecall => udecallRule s
  | .hwrite => hwriteRule s
  | .hread => hreadRule s
  | .encodeLength => lengthCheck s
  | .decodeStart => .done (zeroOut s)
  | .send bs => sendBytes bs s
  | .countOut => .done (countOut s)
  | .clearPack => .done (clearPacker s)
  | .pack bs => packBits bs s
  | .pscanFrom i => pscanRest i s
  | .walk id => walkRule id s
  | .countEmit => .done (countEmit s)
  | .decodeLoop => decodeLoop s
  | .hreadMagic k => readMagicFrom k s
  | .hreadBitmap bm => readBitmapFrom bm s
  | .hreadWidth bm => readWidth bm s
  | .hreadField w left v x xs => readFreqsIn w left v x xs s
  | .raise e o x a p => raising e o x a p s

/-- Stretches in order ("run X", 44_container.md R205). -/
def runTasks : List Task → State → Flow
  | [], s => .done s
  | t :: ts, s => (runTask t s).andThen (runTasks ts) ts

/-- A legal command word other than SRESET arrives (30_encoding.md R95): dropped while BUSY = 1 with CMD_OVR set, ignored
while ERR = 1, else accepted and run. The Core runs on to the command's end, a raise or a wait, except where the host's
turn is scheduled before it begins, at a stream access or before the end (20_memory.md R79, 70 R285; log 4). -/
def issue (i : Instr) (rule : List Task) (s : State) : Host.Outcome State Fault Refusal :=
  if s.busy then .next { s with cmdOvr := true }
  else if s.err then .next s
  else (runTasks (.start :: rule) (accept (encode i) s)).finish

/-- An illegal word arrives (30_encoding.md R94, R95). -/
def issueIllegal (v : Word) (s : State) : Host.Outcome State Fault Refusal :=
  if s.busy then .next { s with cmdOvr := true }
  else if s.err then .next s
  else .next (raise .illegalCommand 0 none (some (opField v)) .src s)

/-- One Core step of the running command, from its position on. -/
def resume (s : State) : Host.Outcome State Fault Refusal := (runTasks s.cont s).finish

/-- The Core has a step: a command runs, and the stream it waits on, if any, can serve it (70 R282). -/
def coreReady (s : State) : Bool :=
  s.busy && match s.waitOn with
    | .ready => true
    | .src => !s.src.isEmpty
    | .snk _ => !s.snkAns.isEmpty || s.snkStanding.isSome

end Sys2Proof.Machine
end

