-- ==== Sys2Proof/Machine/BitPack.lean ====
section
/-! DEFINITION. The bit-packer and bit-unpacker commands (43_bitpack.md), from acceptance on. -/

namespace Sys2Proof.Machine

/-- PSYM s (43_bitpack.md R172). -/
def execPsym (x : Sym) (s : State) : Host.Outcome State Fault Refusal := issue (.psym x) [.psym] s

/-- PSCAN (R173). -/
def execPscan (s : State) : Host.Outcome State Fault Refusal := issue .pscan [.pscan] s

/-- PFLUSH (R174). -/
def execPflush (s : State) : Host.Outcome State Fault Refusal := issue .pflush [.pflush] s

/-- UDEC (R180). -/
def execUdec (s : State) : Host.Outcome State Fault Refusal := issue .udec [.udec] s

/-- UDECALL (R181). -/
def execUdecall (s : State) : Host.Outcome State Fault Refusal := issue .udecall [.udecall] s

end Sys2Proof.Machine
end

