-- ==== Sys2Proof/Machine/CodeTable.lean ====
section
/-! DEFINITION. The code-table generator's command (42_codetable.md), from acceptance on. -/

namespace Sys2Proof.Machine

/-- CGEN (42_codetable.md R150). -/
def execCgen (s : State) : Host.Outcome State Fault Refusal := issue .cgen [.cgen] s

end Sys2Proof.Machine
end

