-- ==== Sys2Proof/Machine/Container.lean ====
section
/-! DEFINITION. The container commands (44_container.md), from acceptance on. -/

namespace Sys2Proof.Machine

/-- HWRITE (44_container.md R202). -/
def execHwrite (s : State) : Host.Outcome State Fault Refusal := issue .hwrite [.hwrite] s

/-- HREAD (R203). -/
def execHread (s : State) : Host.Outcome State Fault Refusal := issue .hread [.hread] s

/-- ENCODE's rule: its length check, then the rules it runs, in order (R205). -/
def encodeTasks : List Task :=
  [.encodeLength, .fclr, .fscan, .hwrite, .tbuild, .cgen, .pscan, .pflush]

/-- ENCODE (R205). -/
def execEncode (s : State) : Host.Outcome State Fault Refusal := issue .encode encodeTasks s

/-- DECODE's rule: OUT_COUNT <- 0, then the rules it runs, in order (R206). -/
def decodeTasks : List Task := [.decodeStart, .hread, .tbuild, .udecall]

/-- DECODE (R206). -/
def execDecode (s : State) : Host.Outcome State Fault Refusal := issue .decode decodeTasks s

end Sys2Proof.Machine
end

