-- ==== Sys2Proof/Machine/Control.lean ====
section
/-! DEFINITION. The control commands (45_control.md), from acceptance on. -/

namespace Sys2Proof.Machine

/-- NOP (45_control.md R230). -/
def execNop (s : State) : Host.Outcome State Fault Refusal := issue .nop [] s

/-- SRESET (R231): taken in every state, aborting the running command (30_encoding.md R95). -/
def execSreset (s : State) : Host.Outcome State Fault Refusal := .next (softReset s)

end Sys2Proof.Machine
end

