-- ==== Sys2Proof/Machine/Frequency.lean ====
section
/-! DEFINITION. The frequency accumulator commands (40_frequency.md), from acceptance on. -/

namespace Sys2Proof.Machine

/-- FCLR (40_frequency.md R110). -/
def execFclr (s : State) : Host.Outcome State Fault Refusal := issue .fclr [.fclr] s

/-- FADD s (R111). -/
def execFadd (x : Sym) (s : State) : Host.Outcome State Fault Refusal := issue (.fadd x) [.fadd] s

/-- FSET s (R112). -/
def execFset (x : Sym) (s : State) : Host.Outcome State Fault Refusal := issue (.fset x) [.fset] s

/-- FSCAN (R113). -/
def execFscan (s : State) : Host.Outcome State Fault Refusal := issue .fscan [.fscan] s

/-- FWIDTH (R115). -/
def execFwidth (s : State) : Host.Outcome State Fault Refusal := issue .fwidth [.fwidth] s

end Sys2Proof.Machine
end

