-- ==== Sys2Proof/Machine/Tree.lean ====
section
/-! DEFINITION. The tree builder's command (41_tree.md), from acceptance on. -/

namespace Sys2Proof.Machine

/-- TBUILD (41_tree.md R130). -/
def execTbuild (s : State) : Host.Outcome State Fault Refusal := issue .tbuild [.tbuild] s

end Sys2Proof.Machine
end

