-- ==== Sys2Proof/Machine/Dispatch.lean ====
section
/-! DEFINITION. One arm per command: the command arrives at CMD in state `s` (30_encoding.md R95). -/

namespace Sys2Proof.Machine

def exec (i : Instr) (s : State) : Host.Outcome State Fault Refusal :=
  match i with
  | .nop => Sys2Proof.Machine.execNop s
  | .sreset => Sys2Proof.Machine.execSreset s
  | .fclr => Sys2Proof.Machine.execFclr s
  | .fadd x => Sys2Proof.Machine.execFadd x s
  | .fset x => Sys2Proof.Machine.execFset x s
  | .fscan => Sys2Proof.Machine.execFscan s
  | .fwidth => Sys2Proof.Machine.execFwidth s
  | .tbuild => Sys2Proof.Machine.execTbuild s
  | .cgen => Sys2Proof.Machine.execCgen s
  | .psym x => Sys2Proof.Machine.execPsym x s
  | .pscan => Sys2Proof.Machine.execPscan s
  | .pflush => Sys2Proof.Machine.execPflush s
  | .udec => Sys2Proof.Machine.execUdec s
  | .udecall => Sys2Proof.Machine.execUdecall s
  | .hwrite => Sys2Proof.Machine.execHwrite s
  | .hread => Sys2Proof.Machine.execHread s
  | .encode => Sys2Proof.Machine.execEncode s
  | .decode => Sys2Proof.Machine.execDecode s

end Sys2Proof.Machine
end

