-- ==== Sys2Proof/Machine/Csr.lean ====
section
/-! DEFINITION. The CSR space (10_state.md R40 to R56): what each register reads, and what a write to one other than CMD
stores. -/

namespace Sys2Proof.Machine

/-- TREE_INFO: ROOT in bits 8:0, HAS_ROOT in bit 15, NNODES in bits 25:16 (10_state.md R52). -/
def treeInfo (s : State) : Word :=
  (s.root.getD 0).setWidth 32 ||| (vecLE 1 [s.root.isSome]).setWidth 32 <<< 15 ||| s.nnodes.setWidth 32 <<< 16

/-- ERR_DATA (R45). -/
def errData (s : State) : Word :=
  s.errActual.setWidth 32 ||| s.errExpected.setWidth 32 <<< 8 ||| vecLE 32 [s.errValid, s.errPort] <<< 16

/-- PRESk: bit j reads PRES[32k + j] (R53). -/
def presWord (f : Vector Word 256) (k : Nat) : Word :=
  vecLE 32 (((f.toList.drop (32 * k)).take 32).map (· != 0))

/-- CODE_LEN: LEN in bits 8:0, ASSIGNED in bit 16 (R51). -/
def codeLenWord (e : CodeEntry) : Word := e.len.setWidth 32 ||| (vecLE 1 [e.assigned]).setWidth 32 <<< 16

/-- CODE_BITSk: bit 31 − j reads BITS[32k + j] (R51). -/
def codeBitsWord (e : CodeEntry) (k : Nat) : Word :=
  vecMSB 32 ((List.range 32).map fun j => e.bits.getLsbD (32 * k + j))

/-- What the register at byte offset `off` holds (R40 to R54). A reserved offset reads 0, and so does CMD. -/
def csrValue (s : State) (off : BitVec 8) : Word :=
  match off.toNat with
  | 0x00 => 0
  | 0x04 => s.arg
  | 0x08 => status s
  | 0x0C => s.errOffset.extractLsb' 0 32
  | 0x10 => s.errOffset.extractLsb' 32 32
  | 0x14 => errData s
  | 0x18 => s.ilen
  | 0x1C => s.width.setWidth 32
  | 0x20 => BitVec.ofNat 32 (nsymOf s.freq)
  | 0x24 => (BitVec.ofNat 40 (totalOf s.freq)).extractLsb' 0 32
  | 0x28 => (BitVec.ofNat 40 (totalOf s.freq)).extractLsb' 32 32
  | 0x2C => s.emit.extractLsb' 0 32
  | 0x30 => s.emit.extractLsb' 32 32
  | 0x34 => s.inCount.extractLsb' 0 32
  | 0x38 => s.inCount.extractLsb' 32 32
  | 0x3C => s.outCount.extractLsb' 0 32
  | 0x40 => s.outCount.extractLsb' 32 32
  | 0x44 => s.acc.setWidth 32 ||| s.nbits.setWidth 32 <<< 8
  | 0x48 => s.cur.setWidth 32 ||| s.rem.setWidth 32 <<< 8
  | 0x4C => s.freqSel.setWidth 32
  | 0x50 => freqAt s.freq s.freqSel
  | 0x54 => s.codeSel.setWidth 32
  | 0x58 => codeLenWord (codeAt s.code s.codeSel)
  | 0x5C => treeInfo s
  | n =>
    if 0x60 ≤ n ∧ n ≤ 0x7C then presWord s.freq ((n - 0x60) / 4)
    else if 0x80 ≤ n ∧ n ≤ 0x9C then codeBitsWord (codeAt s.code s.codeSel) ((n - 0x80) / 4)
    else 0

/-- The registers whose reads are unspecified while BUSY = 1 (R56); STATUS is so only in three of its bits. -/
def coreOwned (off : BitVec 8) : Bool :=
  match off.toNat with
  | 0x50 => true
  | 0x58 => true
  | 0x5C => true
  | n => (0x1C ≤ n && n ≤ 0x48) || (0x60 ≤ n && n ≤ 0x9C)

/-- A 32-bit host read: the value and the state after it (R55, R56). It changes nothing but the count of free values
drawn, and that only where the value read is a free one. -/
def csrRead (s : State) (off : BitVec 8) : Word × State :=
  if s.busy && coreOwned off then
    (Config.free .busyRead 32 s.draws off.toNat, { s with draws := s.draws + 1 })
  else if s.busy && off == 0x08 then
    let flag (i : Nat) : Bool := (Config.free .busyFlag 1 s.draws i).getLsbD 0
    (statusWith s (flag 2) (flag 3) (!s.err && flag 4), { s with draws := s.draws + 1 })
  else (csrValue s off, s)

/-- A 32-bit host write to a register other than CMD: ARG, ILEN, FREQ_SEL and CODE_SEL store it, any other offset
ignores it (R42, R46, R50, R51, R54, R55). -/
def csrStore (off : BitVec 8) (v : Word) (s : State) : State :=
  match off.toNat with
  | 0x04 => { s with arg := v }
  | 0x18 => { s with ilen := v }
  | 0x4C => { s with freqSel := v.extractLsb' 0 8 }
  | 0x54 => { s with codeSel := v.extractLsb' 0 8 }
  | _ => s

end Sys2Proof.Machine
end

