-- ==== Sys2Proof/Machine/HostOps.lean ====
section
/-! DEFINITION. The host's transactions other than a CMD write (20_memory.md R61, R62, R76), the script lines and
pseudo-instructions (30_encoding.md R99, R100), and whose turn it is (20_memory.md R79). -/

namespace Sys2Proof.Machine

/-- The CSR offset at a system address, if the block is memory-mapped (20_memory.md R77). -/
def csrOffset? (c : Config) (addr : Nat) : Option (BitVec 8) :=
  match c.csrBase with
  | some base => if base ≤ addr ∧ addr < base + 256 then some (BitVec.ofNat 8 (addr - base)) else none
  | none => none

/-- The IBUF index at a system address, if IBUF is memory-mapped (R77). -/
def ibufIndex? (c : Config) (addr : Nat) : Option Nat :=
  match c.ibufBase with
  | some base => if base ≤ addr ∧ addr < base + c.ibufSize then some (addr - base) else none
  | none => none

/-- A bus access as the transaction it is: a 32-bit access goes to the CSR window, a byte access to IBUF (R61, R62,
R77). -/
def resolve (c : Config) (op : HostOp) : Except Refusal HostOp :=
  match op with
  | .busWr32 a v => (csrOffset? c a).elim (.error .noSuchAddress) fun off => .ok (.wr off v)
  | .busRd32 a => (csrOffset? c a).elim (.error .noSuchAddress) fun off => .ok (.rd off)
  | .busWr8 a b => (ibufIndex? c a).elim (.error .noSuchAddress) fun i => .ok (.ibufWr i b)
  | .busRd8 a => (ibufIndex? c a).elim (.error .noSuchAddress) fun i => .ok (.ibufRd i)
  | op => .ok op

/-- The word a transaction writes to CMD, if it is a CMD write (10_state.md R41). -/
def cmdWord? (op : HostOp) : Option Word :=
  match op with
  | .wr off v => if off = 0 then some v else none
  | _ => none

/-- FSCAN, PSCAN or ENCODE is running (70_reset_and_hazards.md R276). -/
def scanning (s : State) : Bool :=
  s.busy && (opField s.curCmd == 0x13 || opField s.curCmd == 0x41 || opField s.curCmd == 0x58)

/-- `rd` of a register, the value noted (30_encoding.md R99). -/
def readNoted (off : BitVec 8) (s : State) : State :=
  let r := csrRead s off
  { r.2 with notes := r.2.notes ++ [.csr off r.1] }

/-- The answers offered ahead with the n-th from now an IOERR, n counted from 1 (R99). -/
def answerAt (q : List SnkAns) (n : Nat) : List SnkAns :=
  (q.take (n - 1) ++ List.replicate (n - 1 - q.length) .ok) ++ .ioerr :: q.drop n

/-- One host transaction that is not a CMD write, on the state with it taken off the script. An SNK line answers the byte
that stands offered, if one does, and the writes to come (20_memory.md R65, R78). -/
def hostStep (op : HostOp) (s : State) : Host.Outcome State Fault Refusal :=
  match op with
  | .wr off v => if off.toNat % 4 = 0 then .next (csrStore off v s) else .refused .csrMisaligned
  | .rd off => if off.toNat % 4 = 0 then .next (readNoted off s) else .refused .csrMisaligned
  | .ibufWr i b =>
    if s.cfg.ibufSize ≤ i then .refused .ibufIndex
    else if scanning s then .refused .ibufBusy
    else .next { s with ibuf := s.ibuf.write i b }
  | .ibufRd i =>
    if s.cfg.ibufSize ≤ i then .refused .ibufIndex
    else .next { s with notes := s.notes ++ [.ibuf i (memRead s i)] }
  | .src es => .next { s with src := s.src ++ es }
  | .srcDrop n => .next { s with src := s.src.drop n }
  | .snkOk => .next (answerOffer { s with snkAns := [], snkStanding := some .ok })
  | .snkIoerr n =>
    if n = 0 then .refused .noSuchSnkWrite else .next (answerOffer { s with snkAns := answerAt s.snkAns n })
  | .snkAnswer a => .next (answerOffer { s with snkAns := s.snkAns ++ [a] })
  | .snkHold => .next { s with snkStanding := none }
  | .wait =>
    let s' := readNoted 0x08 s
    .next (if s.busy then { s' with hostOps := .wait :: s'.hostOps } else s')
  | .check =>
    let s' := readNoted 0x08 s
    .next (if s.err then { s' with hostOps := [] } else s')
  | .powerOn => .next (powerOnReset s)
  | .busWr32 _ _ => .refused .noSuchAddress
  | .busRd32 _ => .refused .noSuchAddress
  | .busWr8 _ _ => .refused .noSuchAddress
  | .busRd8 _ => .refused .noSuchAddress

/-- The host moves next: it has a transaction pending, and the Core has no step or the host's turn is scheduled
(20_memory.md R79). -/
def hostTurn (s : State) : Bool := !s.hostOps.isEmpty && (!coreReady s || s.sched.head? == some .host)

/-- The state with the host's next transaction taken off its script, and off the schedule where there was a choice. -/
def popHost (s : State) : State :=
  { s with hostOps := s.hostOps.tail, sched := if coreReady s then s.sched.tail else s.sched }

/-! ## Pseudo-instructions (30_encoding.md R100) -/

/-- `cmd M [s]`. -/
def cmdScript (i : Instr) : List HostOp := [.wr 0x00 (encode i)]

/-- `setfreq s, v`. -/
def setfreqScript (x : Sym) (v : Word) : List HostOp := [.wr 0x04 v] ++ cmdScript (.fset x) ++ [.wait]

/-- `encode n`. -/
def encodeScript (n : Word) : List HostOp := [.wr 0x18 n] ++ cmdScript .encode ++ [.wait]

/-- `decode`. -/
def decodeScript : List HostOp := cmdScript .decode ++ [.wait]

/-- `ibuf i, b0 b1 …` (R99). -/
def ibufScript (i : Nat) (bs : List Byte) : List HostOp := bs.mapIdx fun k b => .ibufWr (i + k) b

end Sys2Proof.Machine
end

