-- ==== Sys2Proof/Machine/Step.lean ====
section
/-! DEFINITION. One step of the machine: a host transaction or a Core step (20_memory.md R79). A command is "fetched" by
the host's CMD write (10_state.md R21, R41); HUFFCORE fetches nothing itself (70_reset_and_hazards.md R273). -/

namespace Sys2Proof.Machine

/-- A write of `v` to CMD (30_encoding.md R95). -/
def cmdWrite (v : Word) (s : State) : Host.Outcome State Fault Refusal :=
  match decode v with
  | .ok i => exec i s
  | .error _ => issueIllegal v s

/-- The host's next transaction, on the state with it taken off the script. -/
def hostMove (op : HostOp) (s : State) : Host.Outcome State Fault Refusal :=
  match resolve s.cfg op with
  | .error r => .refused r
  | .ok op' =>
    match cmdWord? op' with
    | some v => cmdWrite v s
    | none => hostStep op' s

/-- One step. Where neither agent can move (idle or waiting, and no transaction pending) nothing happens: the state stays
(60_exceptions.md R255, 70_reset_and_hazards.md R282). -/
def step (s : State) : Host.Outcome State Fault Refusal :=
  match s.hostOps with
  | op :: _ =>
    if hostTurn s then hostMove op (popHost s)
    else if coreReady s then resume s else .next s
  | [] => if coreReady s then resume s else .next s

/-- `s` with the CMD write of the table word `w` as the host's next transaction, and the host to move. -/
def State.withFetchWord (s : State) (nbits w : Nat) : State :=
  { s with
    hostOps := .wr 0x00 (BitVec.ofNat 32 (w % 2 ^ nbits)) :: s.hostOps
    sched := if coreReady s then .host :: s.sched else s.sched }

end Sys2Proof.Machine
end

