-- ==== Sys2Proof/Safety.lean ====
section
/-! DEFINITION. The words claims are stated in: when the machine is free to run a command to its end, what a command
leaves of the state whatever it does, the byte and bit strings of the container format, and the invariant. -/

namespace Sys2Proof.Machine

/-! ## When a command runs to its end -/

/-- No command runs, no error is recorded, and no host turn is scheduled. -/
structure Idle (s : State) : Prop where
  busy : s.busy = false
  err : s.err = false
  sched : s.sched = []

/-- The host answers every SNK write with OK (20_memory.md R65, 30_encoding.md R99). -/
structure SinkOk (s : State) : Prop where
  queued : ∀ a ∈ s.snkAns, a = .ok
  standing : s.snkStanding = some .ok

/-- The state a command that was accepted and has completed leaves, before its own effect: CUR_CMD and the latches hold
the command and its operands (10_state.md R38, 30_encoding.md R91), BUSY is 0 (30_encoding.md R96), and there is no
position. -/
def latched (i : Instr) (s : State) : State :=
  { s with
    curCmd := encode i
    lArg := s.arg
    lIlen := s.ilen
    lSym := i.sym
    busy := false
    cont := []
    waitOn := .ready }

/-- Commands issued one after another, each once the one before has completed; stops at the first fault or refusal. -/
def execAll : List Instr → State → Host.Outcome State Fault Refusal
  | [], s => .next s
  | i :: is, s =>
    match exec i s with
    | .next t => execAll is t
    | .fault r => .fault r
    | .refused r => .refused r

/-- The state with `bs` delivered on SNK (20_memory.md R69). -/
def delivered (bs : List Byte) (s : State) : State :=
  { s with
    snk := s.snk ++ bs
    outCount := s.outCount + BitVec.ofNat 64 bs.length
    snkAns := s.snkAns.drop bs.length }

/-! ## Bytes and bits of the container -/

/-- IBUF[0..n−1]. -/
def ibufBytes (s : State) (n : Nat) : List Byte := (List.range n).map (memRead s)

/-- FREQ with every byte of `bs` counted (40_frequency.md R113). -/
def countInto (f : Vector Word 256) (bs : List Byte) : Vector Word 256 :=
  Vector.ofFn fun i => f[i] + BitVec.ofNat 32 (bs.count (BitVec.ofNat 8 i.val))

/-- No count passes 2^32 − 1. -/
def CountsFit (f : Vector Word 256) (bs : List Byte) : Prop :=
  ∀ x : Sym, (freqAt f x).toNat + bs.count x < 2 ^ 32

/-- The number of occurrences of every symbol (40_frequency.md R116). -/
def histogram (bs : List Byte) : Vector Word 256 := countInto (Vector.replicate 256 0) bs

/-- The bytes of a bit string, first bit in bit 7, the missing bits of the last byte 0 (43_bitpack.md R175). -/
def bitsToBytes (bits : List Bool) : List Byte :=
  (List.range ((bits.length + 7) / 8)).map fun k =>
    vecMSB 8 ((List.range 8).map fun j => bits.getD (8 * k + j) false)

/-- The bits of a byte, most significant first (20_memory.md R71). -/
def byteBits (b : Byte) : List Bool := (List.range 8).map fun j => b.getLsbD (7 - j)

/-- The bits packed and not yet emitted, oldest first (10_state.md R34). -/
def packed (s : State) : List Bool := (List.range s.nbits.toNat).map fun j => s.acc.getLsbD (s.nbits.toNat - 1 - j)

/-- The packer holding the bits `bits`, fewer than 8 (10_state.md R34). -/
def withPacker (bits : List Bool) (s : State) : State :=
  { s with acc := vecMSB 8 bits, nbits := BitVec.ofNat 4 bits.length }

/-- The state after the bits `bits` gathered in the packer: the whole bytes are delivered, the rest waits in ACC
(43_bitpack.md R170). -/
def afterPacking (bits : List Bool) (s : State) : State :=
  withPacker (bits.drop (8 * (bits.length / 8))) (delivered (bitsToBytes (bits.take (8 * (bits.length / 8)))) s)

/-- The code bits of a symbol sequence, in order (43_bitpack.md R173, R175). -/
def codeBits (t : Vector CodeEntry 256) (bs : List Byte) : List Bool := bs.flatMap fun x => (codeAt t x).bitString

/-- NODE[i] of a build, as a machine that holds it reads it. -/
def Build.nodeAt (draw : Nat) (b : Build) (i : NodeId) : Node := (b.node[i.toNat]?).getD (freeNode draw i.toNat)

/-- The bits the unpacker will give next: those left in CUR, then those of the bytes offered (43_bitpack.md R171). -/
def bodyBits (cur : Byte) (rem : Nat) (src : List Byte) : List Bool :=
  ((byteBits cur).drop (8 - rem)) ++ src.flatMap byteBits

/-- The node a bit string leads to (42_codetable.md R151). -/
def follow (node : NodeId → Node) : List Bool → NodeId → NodeId
  | [], id => id
  | b :: bs, id => follow node bs (if b then (node id).right else (node id).left)

/-- `bits` lead from `id` to a leaf of symbol `x`, through internal nodes only. -/
def LeadsTo (node : NodeId → Node) (id : NodeId) (bits : List Bool) (x : Sym) : Prop :=
  (node (follow node bits id)).kind = .leaf ∧ (node (follow node bits id)).sym = x ∧
    ∀ k < bits.length, (node (follow node (bits.take k) id)).kind = .internal

/-- The code table CGEN derives from the tree of FREQ: a present symbol has the path from ROOT to its leaf, an absent
one no code (42_codetable.md R150, R151). No unspecified arena entry matters. -/
def TableFor (f : Vector Word 256) (t : Vector CodeEntry 256) : Prop :=
  ∀ x : Sym,
    (present f x = true →
      ∃ r p, (buildTree f).root = some r ∧ p.length ≤ 255 ∧ codeAt t x = CodeEntry.ofPath p ∧
        ∀ draw, LeadsTo ((buildTree f).nodeAt draw) r p x) ∧
    (present f x = false → codeAt t x = CodeEntry.none)

/-- Every byte has a code. -/
def AllCoded (t : Vector CodeEntry 256) (bs : List Byte) : Prop := ∀ b ∈ bs, (codeAt t b).assigned = true

/-- The container of an input, from its header table and code table (44_container.md R200). -/
def containerBytes (f : Vector Word 256) (t : Vector CodeEntry 256) (bs : List Byte) : List Byte :=
  headerBytes f (minWidth (maxFreq f)) ++ bitsToBytes (codeBits t bs)

/-- A header table of byte-width `w`: every frequency fits in `w` bytes, `w` in 1..4 (44_container.md R200). -/
def FitsWidth (f : Vector Word 256) (w : Nat) : Prop := 1 ≤ w ∧ w ≤ 4 ∧ ∀ x, (freqAt f x).toNat < 256 ^ w

/-! ## The invariant -/

/-- NODE, NNODES, ROOT and SEQ hold the tree TBUILD builds from the current FREQ (10_state.md R31). -/
structure HoldsTree (s : State) : Prop where
  node : s.node = (buildTree s.freq).node
  nnodes : s.nnodes.toNat = (buildTree s.freq).node.length
  root : s.root = (buildTree s.freq).root
  seq : s.seq = (buildTree s.freq).seq

/-- The packer between commands: NBITS ≤ 7 and ACC[7:NBITS] = 0 (10_state.md R34, R57). -/
def PackerOk (s : State) : Prop := s.nbits.toNat ≤ 7 ∧ s.acc.toNat < 2 ^ s.nbits.toNat

/-- What a position may carry: HREAD's own bounds (44_container.md R203). -/
def Task.ok : Task → Prop
  | .hreadMagic k => k < 4
  | .hreadBitmap bm => bm.length < 32
  | .hreadWidth bm => bm.length = 32
  | .hreadField w left v _ _ => 1 ≤ w ∧ w ≤ 4 ∧ left ≤ w ∧ v < 256 ^ (w - left)
  | _ => True

/-- TREE_VALID after a stretch that ends well, where the stretch fixes it. -/
def Task.treeAfter (t : Task) (valid : Bool) : Bool :=
  match t with
  | .fclr => false
  | .fadd => false
  | .fset => false
  | .fscan => false
  | .hread => false
  | .hreadMagic _ => false
  | .hreadBitmap _ => false
  | .hreadWidth _ => false
  | .hreadField _ _ _ _ _ => false
  | .tbuild => true
  | _ => valid

/-- UDECALL's loop stands in a position only where the tree is valid (43_bitpack.md R181, 44_container.md R206). -/
def positionOk : Bool → List Task → Prop
  | _, [] => True
  | valid, t :: ts => (t = .decodeLoop → valid = true) ∧ positionOk (t.treeAfter valid) ts

/-- The invariant of every step. -/
structure Inv (s : State) : Prop where
  /-- IBUF_SIZE is in its range (00_scope.md R7). -/
  cfg : s.cfg.wf
  /-- IBUF is in its canonical form (20_memory.md R62). -/
  ibuf : s.ibuf.wf
  /-- IBUF lists no index at or past IBUF_SIZE (R62). -/
  ibufBound : ∀ c ∈ s.ibuf, c.1 < s.cfg.ibufSize
  /-- No position without a running command (10_state.md R21). -/
  idle : s.busy = false → s.cont = [] ∧ s.waitOn = .ready
  /-- A byte stands offered on SNK only unanswered, at its SnkWrite (20_memory.md R65, R69). -/
  offer : ∀ b, s.waitOn = .snk b → (∃ r, s.cont = .send [b] :: r) ∧ s.snkAns = [] ∧ s.snkStanding = none
  /-- After an error: BUSY, TREE_VALID, CODES_VALID are 0 (60_exceptions.md R243). -/
  errState : s.err = true → s.busy = false ∧ s.treeValid = false ∧ s.codesValid = false
  /-- ERRCODE is a code of R241 after an error, and 0 without one; 11 to 15 never appear (60_exceptions.md R241). -/
  errcode : if s.err then 1 ≤ s.errcode.toNat ∧ s.errcode.toNat ≤ 10 else s.errcode = 0
  /-- The error detail is 0 without an error (60_exceptions.md R246). -/
  errDetail : s.err = false →
    s.errOffset = 0 ∧ s.errExpected = 0 ∧ s.errActual = 0 ∧ s.errValid = false ∧ s.errPort = false
  /-- WIDTH is 0..4 (10_state.md R22). -/
  width : s.err = false → s.width.toNat ≤ 4
  /-- REM ≤ 8 (10_state.md R57). -/
  rem : s.err = false → s.rem.toNat ≤ 8
  /-- The packer is as between commands, or a byte is being emitted and it will be cleared (R34, R170). -/
  packer : s.err = false → .clearPack ∈ s.cont ∨ PackerOk s
  /-- TREE_VALID says what R31 says. -/
  tree : s.treeValid = true → HoldsTree s
  /-- CODES_VALID says what R33 says; it needs TREE_VALID (R57). -/
  codes : s.codesValid = true → s.treeValid = true ∧ codesOf (nodeAt s) s.root = some s.code
  /-- Every position carries what its rule allows. -/
  tasks : ∀ t ∈ s.cont, t.ok
  /-- UDECALL's loop runs on a valid tree. -/
  position : positionOk s.treeValid s.cont

end Sys2Proof.Machine
end

