-- ==== Sys2Proof/Certificates/Slice0/Obligations.lean ====
section
/-! DEFINITION. The statements for the provers. Each docstring names the rule of spec/ it formalises. -/

open Sys2Proof Sys2Proof.Machine

/-! ## Encoding -/

/-- 30_encoding.md R90, R97, R98, R101: one word per command and back, every SYM included. -/
def Obligations.DecodeInvertsEncode : Prop :=
  (∀ i : Instr, decode (encode i) = .ok i ∧ decodeTableWord 32 (encode i).toNat = some i) ∧
  ∀ (v : Word) (i : Instr), decode v = .ok i → encode i = v

/-- 30_encoding.md R93: the opcode map as mask and match. -/
def Obligations.OpcodeMap : Prop :=
  let rows : List (Word × Word × (Sym → Instr)) :=
    [(0xFFFFFFFF, 0x00, fun _ => .nop), (0xFFFFFFFF, 0x01, fun _ => .sreset), (0xFFFFFFFF, 0x10, fun _ => .fclr),
     (0xFFFF00FF, 0x11, .fadd), (0xFFFF00FF, 0x12, .fset), (0xFFFFFFFF, 0x13, fun _ => .fscan),
     (0xFFFFFFFF, 0x14, fun _ => .fwidth), (0xFFFFFFFF, 0x20, fun _ => .tbuild), (0xFFFFFFFF, 0x30, fun _ => .cgen),
     (0xFFFF00FF, 0x40, .psym), (0xFFFFFFFF, 0x41, fun _ => .pscan), (0xFFFFFFFF, 0x42, fun _ => .pflush),
     (0xFFFFFFFF, 0x48, fun _ => .udec), (0xFFFFFFFF, 0x49, fun _ => .udecall), (0xFFFFFFFF, 0x50, fun _ => .hwrite),
     (0xFFFFFFFF, 0x51, fun _ => .hread), (0xFFFFFFFF, 0x58, fun _ => .encode), (0xFFFFFFFF, 0x59, fun _ => .decode)]
  ∀ (v : Word) (i : Instr),
    decode v = .ok i ↔ ∃ row ∈ rows, v &&& row.1 = row.2.1 ∧ i = row.2.2 (v.extractLsb' 8 8)

/-- 30_encoding.md R94: when a word is illegal, and what it then does. -/
def Obligations.IllegalWords : Prop :=
  (∀ v : Word, (∃ e, decode v = .error e) ↔
    (v.extractLsb' 0 8).toNat ∉ [0x00, 0x01, 0x10, 0x11, 0x12, 0x13, 0x14, 0x20, 0x30, 0x40, 0x41, 0x42, 0x48, 0x49,
        0x50, 0x51, 0x58, 0x59] ∨
      v.extractLsb' 16 16 ≠ 0 ∨
      ((v.extractLsb' 0 8).toNat ∉ [0x11, 0x12, 0x40] ∧ v.extractLsb' 8 8 ≠ 0)) ∧
  ∀ (v : Word) (s : State), s.busy = false → s.err = false → (∃ e, decode v = .error e) →
    cmdWrite v s = .next (raise .illegalCommand 0 none (some (v.extractLsb' 0 8)) .src s)

/-- 30_encoding.md R101: the words of the commands, written out, and the illegal examples. -/
def Obligations.SampleWords : Prop :=
  [0x00000000, 0x00000001, 0x00000010, 0x0000AB11, 0x0000AB12, 0x00000013, 0x00000014, 0x00000020, 0x00000030,
    0x0000AB40, 0x00000041, 0x00000042, 0x00000048, 0x00000049, 0x00000050, 0x00000051, 0x00000058, 0x00000059].map
      (fun v : Word => (decode v).toOption) =
    [Instr.nop, .sreset, .fclr, .fadd 0xAB, .fset 0xAB, .fscan, .fwidth, .tbuild, .cgen, .psym 0xAB, .pscan, .pflush,
      .udec, .udecall, .hwrite, .hread, .encode, .decode].map some ∧
  [0x00000002, 0x00010010, 0x00000120].map (fun v : Word => (decode v).toOption) = [none, none, none]

/-! ## A step and the arrival of a command -/

/-- 20_memory.md R79, 30_encoding.md R95: where the host moves and its next transaction is a CMD write, the step runs the
decoded command on the state with that transaction taken off; where the Core moves, it goes on from its position; where
neither can move the state stays (60_exceptions.md R255). Who moves where both can is the model's schedule (log 4), and the
unchanged state of the last clause is the model's choice (log 9). -/
def Obligations.StepRunsDecodedCommand : Prop :=
  (∀ (s : State) (v : Word) (rest : List HostOp), s.hostOps = .wr 0x00 v :: rest →
    (coreReady s = false ∨ s.sched.head? = some .host) →
    let u : State := { s with hostOps := rest, sched := if coreReady s then s.sched.tail else s.sched }
    (∀ i, decode v = .ok i → step s = exec i u) ∧
    (∀ e, decode v = .error e → step s = issueIllegal v u)) ∧
  (∀ s : State, coreReady s = true → (s.hostOps = [] ∨ s.sched.head? ≠ some .host) → step s = resume s) ∧
  ∀ s : State, coreReady s = false → s.hostOps = [] → step s = .next s

/-- A word placed where the next step takes its command from runs as that command. How it is placed is the model's choice
(log 6). -/
def Obligations.FetchedWordRuns : Prop :=
  ∀ (s : State) (w : Nat) (i : Instr), w < 2 ^ 32 → decode (BitVec.ofNat 32 w) = .ok i →
    step (s.withFetchWord 32 w) = exec i s

/-- 70_reset_and_hazards.md R277: while BUSY = 1 only the legal SRESET word is taken. -/
def Obligations.BusyDropsCommands : Prop :=
  ∀ (v : Word) (s : State), s.busy = true →
    (v = 0x00000001 → ∃ t, cmdWrite v s = .next t ∧ t.busy = false ∧ t.cmdOvr = false) ∧
    (v ≠ 0x00000001 → cmdWrite v s = .next { s with cmdOvr := true })

/-- 60_exceptions.md R246: the error state ignores every CMD write but the SRESET word; in any step the error registers
keep their values, or that word or the power-on reset was the host's transaction and they are 0. -/
def Obligations.ErrorStateLasts : Prop :=
  (∀ (v : Word) (s : State), s.busy = false → s.err = true → v ≠ 0x00000001 → cmdWrite v s = .next s) ∧
  ∀ s t : State, s.busy = false → s.err = true → step s = .next t →
    (t.err = true ∧ t.errcode = s.errcode ∧ t.errOffset = s.errOffset ∧ t.errExpected = s.errExpected ∧
      t.errActual = s.errActual ∧ t.errValid = s.errValid ∧ t.errPort = s.errPort) ∨
    (t.err = false ∧ t.errcode = 0 ∧ t.errOffset = 0 ∧ t.errExpected = 0 ∧ t.errActual = 0 ∧ t.errValid = false ∧
      t.errPort = false ∧
      ∃ op rest, s.hostOps = op :: rest ∧
        (op = .powerOn ∨ op = .wr 0x00 0x00000001 ∨ ∃ a, op = .busWr32 a 0x00000001 ∧ s.cfg.csrBase = some a))

/-- 10_state.md R38: acceptance latches the operands, and a running command reads no other (`cont` is the
hidden position, log 13; `paused` is a host turn the model's schedule puts right after acceptance, log 4). -/
def Obligations.OperandsAreLatched : Prop :=
  (∀ (i : Instr) (s : State), i ≠ .sreset → s.busy = false → s.err = false → s.paused = true →
    ∃ c, exec i s = .next { s with
      curCmd := encode i, lArg := s.arg, lIlen := s.ilen, lSym := i.sym, busy := true, cont := c, waitOn := .ready }) ∧
  ∀ (s t : State) (a n : Word), resume s = .next t →
    resume { s with arg := a, ilen := n } = .next { t with arg := a, ilen := n }

/-! ## Control commands and reset -/

/-- 45_control.md R230. -/
def Obligations.NopDoesNothing : Prop :=
  ∀ s : State, Idle s → exec .nop s = .next (latched .nop s)

/-- 45_control.md R231: SRESET in every state. Every element of 10_state.md R22 but IBUF takes its reset value; SRC, the
bytes taken from SNK and IBUF stay. So do the open parameters, the host's script and its answers to coming writes, which are
the model's fields (logs 1, 5, 25). How the script line `snk ioerr n` counts, and that it fills its gap with OK, is the
model's choice (log 15). An offer on SNK not yet answered is withdrawn; a byte the host has answered OK is taken
and stays taken, whichever transaction gave the answer (20_memory.md R65, R78). -/
def Obligations.SresetClears : Prop :=
  (∀ s : State, ∃ t, exec .sreset s = .next t ∧
    (t.freq = Vector.replicate 256 0 ∧ t.width = 0 ∧ t.nnodes = 0 ∧ t.root = none ∧ t.seq = [] ∧ t.treeValid = false ∧
      t.code = Vector.replicate 256 ⟨false, 0, 0⟩ ∧ t.codesValid = false ∧ t.acc = 0 ∧ t.nbits = 0 ∧ t.cur = 0 ∧
      t.rem = 0 ∧ t.emit = 0 ∧ t.inCount = 0 ∧ t.outCount = 0 ∧ t.lArg = 0 ∧ t.lIlen = 0 ∧ t.lSym = 0) ∧
    (t.errcode = 0 ∧ t.errOffset = 0 ∧ t.errExpected = 0 ∧ t.errActual = 0 ∧ t.errValid = false ∧ t.errPort = false ∧
      t.err = false ∧ t.cmdOvr = false ∧ t.busy = false ∧ t.curCmd = 0 ∧ t.arg = 0 ∧ t.ilen = 0 ∧ t.freqSel = 0 ∧
      t.codeSel = 0 ∧ t.cont = [] ∧ t.waitOn = .ready) ∧
    (t.ibuf = s.ibuf ∧ (∀ i, memRead t i = memRead s i) ∧ t.cfg = s.cfg ∧ t.src = s.src ∧
      t.snkStanding = s.snkStanding ∧ t.hostOps = s.hostOps ∧ t.notes = s.notes) ∧
    ((∀ b, s.waitOn = .snk b → s.snkAns = [] ∧ s.snkStanding = none) →
      t.snk = s.snk ∧ t.snkAns = s.snkAns ∧ t.sched = s.sched) ∧
    (∀ b a as, s.waitOn = .snk b → snkAnswer s = some (a, as) →
      t.snk = s.snk ++ (if a = .ok then [b] else []) ∧ t.snkAns = as) ∧
    (csrRead t 0x08).1 = 0x00000010) ∧
  (∀ (s : State) (b : Byte), s.waitOn = .snk b → s.snkAns = [] → s.snkStanding = none →
    let after (answer : HostOp) (taken : List Byte) (left : List SnkAns) : Prop :=
      ∃ u t, hostStep answer s = .next u ∧ exec .sreset u = .next t ∧ u.snk = s.snk ++ taken ∧ t.snk = s.snk ++ taken ∧
        t.snkAns = left
    after (.snkAnswer .ok) [b] [] ∧ after .snkOk [b] [] ∧ after (.snkAnswer .ioerr) [] [] ∧ after (.snkIoerr 1) [] [] ∧
      after .snkHold [] [] ∧ ∀ n, after (.snkIoerr (n + 2)) [b] (List.replicate n .ok ++ [.ioerr])) ∧
  ∀ (v : Word) (s : State), v.extractLsb' 0 8 = 0x01 → v ≠ 0x00000001 →
    (s.busy = true → cmdWrite v s = .next { s with cmdOvr := true }) ∧
    (s.busy = false → s.err = true → cmdWrite v s = .next s) ∧
    (s.busy = false → s.err = false → cmdWrite v s = .next (raise .illegalCommand 0 none (some 0x01) .src s))

/-- 70_reset_and_hazards.md R270, R271: what every register reads after the power-on reset, and that SRC and the bytes
taken from SNK stay, a byte just answered OK among them (20_memory.md R65). That this reset is one host transaction is the
model's choice (log 20); `ibuf = []` is its form of unspecified contents (log 2). That a byte which stands offered with its
answer already there, a state no step reaches, counts as answered is the model's choice (log 25). -/
def Obligations.PowerOnReads : Prop :=
  ∀ s : State, ∃ t, hostStep .powerOn s = .next t ∧
    (∀ off : BitVec 8, off.toNat % 4 = 0 → (csrRead t off).1 = if off = 0x08 then 0x00000010 else 0) ∧
    t.src = s.src ∧ t.busy = false ∧ t.err = false ∧ t.ibuf = [] ∧
    ((∀ b, s.waitOn = .snk b → s.snkAns = [] ∧ s.snkStanding = none) → t.snk = s.snk) ∧
    (∀ b a as, s.waitOn = .snk b → snkAnswer s = some (a, as) → t.snk = s.snk ++ (if a = .ok then [b] else [])) ∧
    ∀ off : BitVec 8, off.toNat % 4 = 0 → (csrRead State.reset off).1 = if off = 0x08 then 0x00000010 else 0

/-! ## Errors -/

/-- 60_exceptions.md R243: what error entry writes; R244: what stays exact. -/
def Obligations.ErrorEntry : Prop :=
  ∀ (e : ErrKind) (offset : BitVec 64) (expected actual : Option Byte) (port : Port) (s : State),
    let t := raise e offset expected actual port s
    (t.err = true ∧
      t.errcode.toNat = (match e with
        | .magicMismatch => 1 | .truncatedInput => 2 | .invalidByteWidth => 3 | .ioFailure => 4
        | .frequencyOverflow => 5 | .invalidFrequency => 6 | .noCode => 7 | .sequenceError => 8
        | .illegalCommand => 9 | .inputLength => 10) ∧
      t.errOffset = offset ∧ t.errExpected = expected.getD 0 ∧ t.errActual = actual.getD 0 ∧
      t.errValid = actual.isSome ∧ (t.errPort = true ↔ e = .ioFailure ∧ port = .snk) ∧
      t.treeValid = false ∧ t.codesValid = false ∧ t.busy = false ∧ t.cont = []) ∧
    (t.cmdOvr = s.cmdOvr ∧ t.inCount = s.inCount ∧ t.outCount = s.outCount ∧ t.arg = s.arg ∧ t.ilen = s.ilen ∧
      t.freqSel = s.freqSel ∧ t.codeSel = s.codeSel ∧ (∀ i, memRead t i = memRead s i) ∧ t.src = s.src ∧
      t.snk = s.snk) ∧
    (csrRead t 0x08).1 = 0x02 ||| (if s.cmdOvr then 0x20 else 0) ||| (t.errcode.setWidth 32 <<< 8)

/-! ## Frequency accumulator -/

/-- 40_frequency.md R110. -/
def Obligations.FclrClears : Prop :=
  ∀ s : State, Idle s →
    ∃ t, exec .fclr s = .next t ∧
      t = { latched .fclr s with
        freq := Vector.replicate 256 0, treeValid := false, codesValid := false, width := 0 } ∧
      nsymOf t.freq = 0 ∧ totalOf t.freq = 0 ∧ eos t = true

/-- 40_frequency.md R111. -/
def Obligations.FaddCounts : Prop :=
  ∀ (x : Sym) (s : State), Idle s →
    exec (.fadd x) s =
      if (freqAt s.freq x).toNat = 2 ^ 32 - 1 then .next (raise .frequencyOverflow 0 none (some x) .src s)
      else .next { latched (.fadd x) s with
        freq := s.freq.set x.toNat (freqAt s.freq x + 1) x.isLt, treeValid := false, codesValid := false, width := 0 }

/-- 40_frequency.md R112. -/
def Obligations.FsetWrites : Prop :=
  ∀ (x : Sym) (s : State), Idle s →
    exec (.fset x) s = .next { latched (.fset x) s with
      freq := s.freq.set x.toNat s.arg x.isLt, treeValid := false, codesValid := false, width := 0 }

/-- 40_frequency.md R113: the bytes counted; the length refused; the first count that does not fit. -/
def Obligations.FscanCounts : Prop :=
  ∀ s : State, Idle s →
    (s.cfg.ibufSize < s.ilen.toNat →
      exec .fscan s = .next (raise .inputLength (s.ilen.setWidth 64) none none .src s)) ∧
    (s.ilen.toNat ≤ s.cfg.ibufSize → CountsFit s.freq (ibufBytes s s.ilen.toNat) →
      exec .fscan s = .next { latched .fscan s with
        freq := countInto s.freq (ibufBytes s s.ilen.toNat), treeValid := false, codesValid := false, width := 0 }) ∧
    (∀ i, i < s.ilen.toNat → s.ilen.toNat ≤ s.cfg.ibufSize → CountsFit s.freq (ibufBytes s i) →
      (freqAt s.freq (memRead s i)).toNat + (ibufBytes s i).count (memRead s i) = 2 ^ 32 - 1 →
      exec .fscan s =
        .next (raise .frequencyOverflow (BitVec.ofNat 64 i) none (some (memRead s i)) .src s))

/-- 40_frequency.md R116. -/
def Obligations.FrequencyModel : Prop :=
  ∀ s : State, Idle s → s.ilen.toNat ≤ s.cfg.ibufSize →
    ∃ t, execAll [.fclr, .fscan] s = .next t ∧ t.busy = false ∧ t.err = false ∧
      ∀ x : Sym, (freqAt t.freq x).toNat = (ibufBytes s s.ilen.toNat).count x ∧
        (present t.freq x = true ↔ 0 < (ibufBytes s s.ilen.toNat).count x)

/-- 40_frequency.md R114, R115: WIDTH is the smallest of 1 to 4 bytes in which every frequency fits. -/
def Obligations.FwidthMinimal : Prop :=
  ∀ s : State, Idle s →
    ∃ w, exec .fwidth s = .next { latched .fwidth s with width := BitVec.ofNat 3 w } ∧
      1 ≤ w ∧ w ≤ 4 ∧ (∀ x, (freqAt s.freq x).toNat < 256 ^ w) ∧
      ∀ v, 1 ≤ v → v < w → ∃ x, 256 ^ v ≤ (freqAt s.freq x).toNat

/-! ## Tree builder -/

/-- 41_tree.md R130, 10_state.md R29: what TBUILD writes and what it leaves. -/
def Obligations.TbuildStores : Prop :=
  ∀ s : State, Idle s →
    let b := buildTree s.freq
    let n := nsymOf s.freq
    exec .tbuild s = .next { latched .tbuild s with
      node := b.node, nnodes := BitVec.ofNat 10 b.node.length, seq := b.seq, root := b.root,
      treeValid := true, codesValid := false } ∧
    (n = 0 → b.node = [] ∧ b.root = none ∧ b.seq = []) ∧
    (0 < n → b.node.length = 2 * n - 1 ∧ b.root = some (BitVec.ofNat 9 (2 * n - 2)) ∧
      b.seq = [BitVec.ofNat 9 (2 * n - 2)])

/-- 41_tree.md R134 (with R131's ids): leaves, internal nodes, sums, the root's freq, depths. -/
def Obligations.TreeShape : Prop :=
  ∀ f : Vector Word 256,
    let b := buildTree f
    let n := nsymOf f
    (∀ (k : Nat) (x : Sym), (allSyms.filter (present f))[k]? = some x →
      b.node[k]? = some ⟨.leaf, x, (freqAt f x).setWidth 40, 0, 0⟩) ∧
    (∀ (k : Nat) (m : Node), n ≤ k → b.node[k]? = some m →
      m.kind = .internal ∧ m.sym = 0 ∧ m.left ≠ m.right ∧ m.left.toNat < k ∧ m.right.toNat < k ∧
        m.freq.toNat = (b.freqOf m.left).toNat + (b.freqOf m.right).toNat) ∧
    (n = 0 → b.node.length = 0) ∧ (0 < n → b.node.length = n + (n - 1)) ∧
    (∀ r, b.root = some r → (b.freqOf r).toNat = totalOf f) ∧
    ∀ r draw p x, b.root = some r → LeadsTo (b.nodeAt draw) r p x → p.length ≤ n - 1 ∧ p.length ≤ 255

/-- 41_tree.md R132: the two insertion positions, and which is used where: in the leaf phase and in a round of the merge
phase, whose new node goes into what is left after the first two. R131: the leaf phase of every FREQ adds the present
symbols in ascending order, so leaves of equal frequency stand in ascending id in its SEQ. -/
def Obligations.InsertPositions : Prop :=
  (allSyms.Pairwise (· < ·) ∧ ∀ x : Sym, x ∈ allSyms) ∧
  (∀ f : Vector Word 256,
    leafPhase f = (allSyms.filter (present f)).foldl (fun (b : Build) x => b.addLeaf x ((freqAt f x).setWidth 40)) ⟨[], []⟩ ∧
    ∀ (k m : Nat) (i j : NodeId), (leafPhase f).seq[k]? = some i → (leafPhase f).seq[m]? = some j →
      (leafPhase f).freqOf i = (leafPhase f).freqOf j → (k < m ↔ i < j)) ∧
  ∀ (b : Build) (f : BitVec 40),
    (b.afterEqual f ≤ b.seq.length ∧ (∀ k id, k < b.afterEqual f → b.seq[k]? = some id → b.freqOf id ≤ f) ∧
      ∀ id, b.seq[b.afterEqual f]? = some id → f < b.freqOf id) ∧
    (b.beforeEqual f ≤ b.seq.length ∧ (∀ k id, k < b.beforeEqual f → b.seq[k]? = some id → b.freqOf id < f) ∧
      ∀ id, b.seq[b.beforeEqual f]? = some id → f ≤ b.freqOf id) ∧
    (∀ x, (b.addLeaf x f).node = b.node ++ [⟨.leaf, x, f, 0, 0⟩] ∧ (b.addLeaf x f).seq =
      b.seq.take (b.afterEqual f) ++ BitVec.ofNat 9 b.node.length :: b.seq.drop (b.afterEqual f)) ∧
    ∀ l r rest, b.seq = l :: r :: rest →
      let k := ({ b with seq := rest } : Build).beforeEqual (b.freqOf l + b.freqOf r)
      (∀ n, mergePhase (n + 1) b = mergePhase n (b.merge l r rest)) ∧
      (b.merge l r rest).seq = rest.take k ++ BitVec.ofNat 9 b.node.length :: rest.drop k

/-- 41_tree.md R133: round by round of the merge phase, the two nodes taken, the roles they get, the id of the new node,
and that the rounds go on until one node is left. -/
def Obligations.MergeRounds : Prop :=
  ∀ f : Vector Word 256,
    let n := nsymOf f
    let after (k : Nat) : Build := mergePhase k (leafPhase f)
    ((after 0).node.length = n ∧ (after 0).seq.length = n ∧ buildTree f = after (n - 1)) ∧
    (∀ k, k + 1 < n → ∃ l r rest,
      let b := after k
      let sum := b.freqOf l + b.freqOf r
      let place := ({ b with seq := rest } : Build).beforeEqual sum
      b.seq = l :: r :: rest ∧ b.freqOf l ≤ b.freqOf r ∧ (∀ id ∈ rest, b.freqOf r ≤ b.freqOf id) ∧
        sum.toNat = (b.freqOf l).toNat + (b.freqOf r).toNat ∧
        (after (k + 1)).node = b.node ++ [⟨.internal, 0, sum, l, r⟩] ∧ b.node.length = n + k ∧
        (after (k + 1)).seq = rest.take place ++ BitVec.ofNat 9 (n + k) :: rest.drop place) ∧
    (2 ≤ n → (buildTree f).seq = [BitVec.ofNat 9 (2 * n - 2)] ∧ (buildTree f).root = some (BitVec.ofNat 9 (2 * n - 2)))

/-- 41_tree.md R135: SEQ is sorted after every leaf and after every merge. -/
def Obligations.SeqStaysSorted : Prop :=
  ∀ (f : Vector Word 256) (k : Nat),
    (let b : Build := ((presentEntries f).take k).foldl (fun (b : Build) e => b.addLeaf e.1 (e.2.setWidth 40)) ⟨[], []⟩
     b.seq.Pairwise fun i j => b.freqOf i ≤ b.freqOf j) ∧
    (let b : Build := mergePhase k (leafPhase f)
     b.seq.Pairwise fun i j => b.freqOf i ≤ b.freqOf j)

/-- 10_state.md R58: every node id but ROOT is a child exactly once, ROOT never. -/
def Obligations.TreeOwnership : Prop :=
  ∀ (f : Vector Word 256) (i : Nat), i < (buildTree f).node.length →
    ((buildTree f).node.flatMap fun m => if m.kind = .internal then [m.left, m.right] else []).count (BitVec.ofNat 9 i) =
      if (buildTree f).root = some (BitVec.ofNat 9 i) then 0 else 1

/-! ## Code table -/

/-- 42_codetable.md R150, R151: the table CGEN stores; the tree it needs. -/
def Obligations.CgenRecordsPaths : Prop :=
  ∀ s : State, Idle s →
    (s.treeValid = true → HoldsTree s →
      ∃ t, TableFor s.freq t ∧ exec .cgen s = .next { latched .cgen s with code := t, codesValid := true }) ∧
    (s.treeValid = false → exec .cgen s = .next (raise .sequenceError 0 none (some 0x30) .src s))

/-- 42_codetable.md R152, R153: the properties of the table after CGEN. -/
def Obligations.CodesPrefixFree : Prop :=
  ∀ s t : State, Idle s → s.treeValid = true → HoldsTree s → exec .cgen s = .next t →
    (∀ x, (codeAt t.code x).assigned = present t.freq x) ∧
    (∀ x y, present t.freq x = true → present t.freq y = true → x ≠ y →
      ¬ (codeAt t.code x).bitString <+: (codeAt t.code y).bitString) ∧
    (∀ x, present t.freq x = true → (codeAt t.code x).len.toNat ≤ nsymOf t.freq - 1 ∧
      (2 ≤ nsymOf t.freq → 1 ≤ (codeAt t.code x).len.toNat) ∧
      (nsymOf t.freq = 1 → (codeAt t.code x).len = 0)) ∧
    (2 ≤ nsymOf t.freq →
      ((allSyms.filter (present t.freq)).map fun x => 2 ^ (256 - (codeAt t.code x).len.toNat)).sum = 2 ^ 256)

/-- 70_reset_and_hazards.md R279: a stale tree or table is refused. -/
def Obligations.StaleTreeRefused : Prop :=
  ∀ (i : Instr) (s : State), Idle s →
    ((i = .cgen ∨ i = .udec ∨ i = .udecall) ∧ s.treeValid = false ∨
      ((∃ x, i = .psym x) ∨ i = .pscan) ∧ s.codesValid = false) →
    exec i s = .next (raise .sequenceError 0 none (some ((encode i).extractLsb' 0 8)) .src s)

/-! ## Bit-packer -/

/-- 43_bitpack.md R172. -/
def Obligations.PsymPacks : Prop :=
  ∀ (x : Sym) (s : State), Idle s → s.codesValid = true →
    (SinkOk s → PackerOk s → (codeAt s.code x).assigned = true →
      exec (.psym x) s = .next (afterPacking (packed s ++ (codeAt s.code x).bitString) (latched (.psym x) s))) ∧
    ((codeAt s.code x).assigned = false →
      exec (.psym x) s = .next (raise .noCode 0 none (some x) .src s))

/-- 43_bitpack.md R173. -/
def Obligations.PscanPacks : Prop :=
  ∀ s : State, Idle s → s.codesValid = true →
    (s.cfg.ibufSize < s.ilen.toNat →
      exec .pscan s = .next (raise .inputLength (s.ilen.setWidth 64) none none .src s)) ∧
    (SinkOk s → PackerOk s → s.ilen.toNat ≤ s.cfg.ibufSize → AllCoded s.code (ibufBytes s s.ilen.toNat) →
      exec .pscan s = .next
        (afterPacking (packed s ++ codeBits s.code (ibufBytes s s.ilen.toNat)) (latched .pscan s))) ∧
    (∀ i, SinkOk s → PackerOk s → s.ilen.toNat ≤ s.cfg.ibufSize → i < s.ilen.toNat → AllCoded s.code (ibufBytes s i) →
      (codeAt s.code (memRead s i)).assigned = false →
      exec .pscan s = .next (raise .noCode (BitVec.ofNat 64 i) none (some (memRead s i)) .src
        (afterPacking (packed s ++ codeBits s.code (ibufBytes s i)) s)))

/-- 43_bitpack.md R174. -/
def Obligations.PflushPads : Prop :=
  ∀ s : State, Idle s →
    (s.nbits = 0 → exec .pflush s = .next (latched .pflush s)) ∧
    (SinkOk s → s.nbits ≠ 0 →
      exec .pflush s = .next { delivered [s.acc <<< (8 - s.nbits.toNat)] (latched .pflush s) with acc := 0, nbits := 0 })

/-- 43_bitpack.md R175: the body bytes of a symbol sequence, packed with PSYM or with PSCAN. -/
def Obligations.BodyLength : Prop :=
  let bodyOf (bits : List Bool) (body : List Byte) : Prop :=
    body.length = (bits.length + 7) / 8 ∧
      ∀ k < 8 * body.length, (body.flatMap byteBits)[k]? = some (bits.getD k false)
  ∀ s : State, Idle s → SinkOk s → s.codesValid = true → s.acc = 0 → s.nbits = 0 →
    (∀ xs : List Sym, AllCoded s.code xs →
      ∃ t body, execAll (xs.map .psym ++ [.pflush]) s = .next t ∧ t.err = false ∧ t.snk = s.snk ++ body ∧
        bodyOf (codeBits s.code xs) body) ∧
    (s.ilen.toNat ≤ s.cfg.ibufSize → AllCoded s.code (ibufBytes s s.ilen.toNat) →
      ∃ t body, execAll [.pscan, .pflush] s = .next t ∧ t.err = false ∧ t.snk = s.snk ++ body ∧
        bodyOf (codeBits s.code (ibufBytes s s.ilen.toNat)) body)

/-- 20_memory.md R69, 60_exceptions.md R242, R248: the first write the host answers with IOERR ends the command, be it one
of a rule that ENCODE or DECODE runs; the bytes before it are delivered and OUT_COUNT is its output offset. -/
def Obligations.SinkFailure : Prop :=
  ∀ (s : State) (k : Nat) (as : List SnkAns), Idle s → s.snkAns = List.replicate k .ok ++ .ioerr :: as →
    let failed (base : BitVec 64) (out : List Byte) (u : State) : Host.Outcome State Fault Refusal :=
      .next (raise .ioFailure (base + BitVec.ofNat 64 k) none none .snk
        { u with snk := s.snk ++ out.take k, outCount := base + BitVec.ofNat 64 k, snkAns := as })
    let whole (bits : List Bool) : List Byte := bitsToBytes (bits.take (8 * (bits.length / 8)))
    (k < (headerBytes s.freq (minWidth (maxFreq s.freq))).length →
      exec .hwrite s = failed 0 (headerBytes s.freq (minWidth (maxFreq s.freq))) s) ∧
    (k = 0 → s.nbits ≠ 0 → exec .pflush s = failed s.outCount [] s) ∧
    (∀ x, PackerOk s → s.codesValid = true → (codeAt s.code x).assigned = true →
      k < (whole (packed s ++ (codeAt s.code x).bitString)).length →
      exec (.psym x) s = failed s.outCount (whole (packed s ++ (codeAt s.code x).bitString)) s) ∧
    (PackerOk s → s.codesValid = true → s.ilen.toNat ≤ s.cfg.ibufSize → AllCoded s.code (ibufBytes s s.ilen.toNat) →
      k < (whole (packed s ++ codeBits s.code (ibufBytes s s.ilen.toNat))).length →
      exec .pscan s = failed s.outCount (whole (packed s ++ codeBits s.code (ibufBytes s s.ilen.toNat))) s) ∧
    (∀ (r : NodeId) (p left : List Bool) (x : Sym) (body : List Byte) (rest : List SrcElem), k = 0 →
      s.treeValid = true → s.root = some r → s.emit.toNat < totalOf s.freq → s.rem.toNat ≤ 8 →
      LeadsTo (nodeAt s) r p x → bodyBits s.cur s.rem.toNat body = p ++ left → (body = [] ∨ left.length < 8) →
      s.src = body.map .byte ++ rest →
      exec .udec s = failed s.outCount [x] { s with src := rest, inCount := s.inCount + BitVec.ofNat 64 body.length }) ∧
    (∀ (t : Vector CodeEntry 256) (xs : List Sym) (left : List Bool) (body : List Byte) (rest : List SrcElem),
      s.treeValid = true → HoldsTree s → TableFor s.freq t → s.rem.toNat ≤ 8 → (∀ x ∈ xs, present s.freq x = true) →
      xs.length = k + 1 → s.emit.toNat + xs.length ≤ totalOf s.freq →
      bodyBits s.cur s.rem.toNat body = codeBits t xs ++ left → (body = [] ∨ left.length < 8) →
      s.src = body.map .byte ++ rest →
      exec .udecall s = failed s.outCount xs { s with src := rest, inCount := s.inCount + BitVec.ofNat 64 body.length }) ∧
    (∀ t : Vector CodeEntry 256, s.ilen.toNat ≤ s.cfg.ibufSize →
      let input := ibufBytes s s.ilen.toNat
      TableFor (histogram input) t → k < (containerBytes (histogram input) t input).length →
      exec .encode s = failed 0 (containerBytes (histogram input) t input) s) ∧
    ∀ (f : Vector Word 256) (w : Nat) (t : Vector CodeEntry 256) (xs : List Sym) (left : List Bool) (body : List Byte)
      (rest : List SrcElem), FitsWidth f w → TableFor f t → (∀ x ∈ xs, present f x = true) → xs.length = k + 1 →
      xs.length ≤ totalOf f → body.flatMap byteBits = codeBits t xs ++ left → left.length < 8 →
      s.src = (headerBytes f w ++ body).map .byte ++ rest →
      exec .decode s = failed 0 xs
        { s with src := rest, inCount := BitVec.ofNat 64 (37 + w * nsymOf f + body.length) }

/-! ## Bit-unpacker -/

/-- 43_bitpack.md R180: one symbol, for any tree in the arena; `body` are the bytes that had to be taken. -/
def Obligations.UdecDecodes : Prop :=
  ∀ (s : State) (r : NodeId) (p left : List Bool) (x : Sym) (body : List Byte) (rest : List SrcElem),
    Idle s → SinkOk s → s.treeValid = true → s.root = some r → s.emit.toNat < totalOf s.freq → s.rem.toNat ≤ 8 →
    LeadsTo (nodeAt s) r p x → bodyBits s.cur s.rem.toNat body = p ++ left → (body = [] ∨ left.length < 8) →
    s.src = body.map .byte ++ rest →
    exec .udec s = .next { delivered [x] (latched .udec s) with
      cur := body.getLastD s.cur, rem := BitVec.ofNat 4 left.length, src := rest,
      inCount := s.inCount + BitVec.ofNat 64 body.length, emit := s.emit + 1 }

/-- 43_bitpack.md R180, R181: at EMIT ≥ TOTAL nothing is read and nothing written. -/
def Obligations.DecodeStopsAtCount : Prop :=
  ∀ s : State, Idle s → s.treeValid = true → totalOf s.freq ≤ s.emit.toNat →
    exec .udec s = .next (latched .udec s) ∧ exec .udecall s = .next (latched .udecall s)

/-- 20_memory.md R68, 43_bitpack.md R180, R181, 44_container.md R206, 60_exceptions.md R248: a walk that needs a byte SRC
cannot give, in UDEC, in UDECALL and in DECODE, after the symbols decoded before it. -/
def Obligations.UdecTruncated : Prop :=
  ∀ (s : State) (e : SrcElem) (kind : ErrKind) (body : List Byte) (rest : List SrcElem), Idle s →
    (e = .eoi ∧ kind = .truncatedInput ∨ e = .ioerr ∧ kind = .ioFailure) →
    let stuck (node : NodeId → Node) (r : NodeId) (bits : List Bool) : Prop :=
      ∀ j, j ≤ bits.length → (node (follow node (bits.take j) r)).kind = .internal
    (∀ r : NodeId, s.treeValid = true → s.root = some r → s.emit.toNat < totalOf s.freq → s.rem.toNat ≤ 8 →
      stuck (nodeAt s) r (bodyBits s.cur s.rem.toNat body) → s.src = body.map .byte ++ e :: rest →
      let at_ := s.inCount + BitVec.ofNat 64 body.length
      exec .udec s = .next (raise kind at_ none none .src { s with src := rest, inCount := at_ })) ∧
    (∀ (t : Vector CodeEntry 256) (xs : List Sym) (left : List Bool) (r : NodeId), SinkOk s → s.treeValid = true →
      HoldsTree s → TableFor s.freq t → s.root = some r → s.rem.toNat ≤ 8 → (∀ x ∈ xs, present s.freq x = true) →
      s.emit.toNat + xs.length < totalOf s.freq → bodyBits s.cur s.rem.toNat body = codeBits t xs ++ left →
      stuck (nodeAt s) r left → s.src = body.map .byte ++ e :: rest →
      let at_ := s.inCount + BitVec.ofNat 64 body.length
      exec .udecall s = .next (raise kind at_ none none .src (delivered xs { s with src := rest, inCount := at_ }))) ∧
    ∀ (f : Vector Word 256) (w : Nat) (t : Vector CodeEntry 256) (xs : List Sym) (left : List Bool) (r : NodeId), SinkOk s →
      FitsWidth f w → TableFor f t → (buildTree f).root = some r → (∀ x ∈ xs, present f x = true) →
      xs.length < totalOf f → body.flatMap byteBits = codeBits t xs ++ left →
      stuck ((buildTree f).nodeAt s.nodeDraw) r left → s.src = (headerBytes f w ++ body).map .byte ++ e :: rest →
      let at_ := BitVec.ofNat 64 (37 + w * nsymOf f + body.length)
      exec .decode s =
        .next (raise kind at_ none none .src (delivered xs { s with src := rest, inCount := at_, outCount := 0 }))

/-- 43_bitpack.md R181, R182: the symbols until EMIT = TOTAL, whatever the bits left over are. -/
def Obligations.UdecallDecodes : Prop :=
  ∀ (s : State) (t : Vector CodeEntry 256) (xs : List Sym) (left : List Bool) (body : List Byte) (rest : List SrcElem),
    Idle s → SinkOk s → s.treeValid = true → HoldsTree s → TableFor s.freq t → s.rem.toNat ≤ 8 →
    (∀ x ∈ xs, present s.freq x = true) → s.emit.toNat + xs.length = totalOf s.freq →
    bodyBits s.cur s.rem.toNat body = codeBits t xs ++ left → (body = [] ∨ left.length < 8) →
    s.src = body.map .byte ++ rest →
    exec .udecall s = .next { delivered xs (latched .udecall s) with
      cur := body.getLastD s.cur, rem := BitVec.ofNat 4 left.length, src := rest,
      inCount := s.inCount + BitVec.ofNat 64 body.length, emit := BitVec.ofNat 40 (totalOf s.freq) }

/-- 43_bitpack.md R183: UDEC undoes the packing. -/
def Obligations.DecodeInvertsPacking : Prop :=
  ∀ (s : State) (t : Vector CodeEntry 256) (xs : List Sym) (rest : List SrcElem),
    Idle s → SinkOk s → s.treeValid = true → HoldsTree s → TableFor s.freq t →
    (∀ x ∈ xs, present s.freq x = true) → s.emit = 0 → s.rem = 0 → xs.length ≤ totalOf s.freq →
    s.src = (bitsToBytes (codeBits t xs)).map .byte ++ rest →
    ∃ u, execAll (List.replicate xs.length .udec) s = .next u ∧ u.err = false ∧ u.snk = s.snk ++ xs ∧ u.src = rest ∧
      u.inCount = s.inCount + BitVec.ofNat 64 (((codeBits t xs).length + 7) / 8)

/-! ## Container -/

/-- 44_container.md R202. -/
def Obligations.HwriteWrites : Prop :=
  ∀ s : State, Idle s → SinkOk s →
    let w := minWidth (maxFreq s.freq)
    exec .hwrite s = .next { delivered (headerBytes s.freq w) { latched .hwrite s with outCount := 0 } with
      width := BitVec.ofNat 3 w, acc := 0, nbits := 0 }

/-- 44_container.md R200, 20_memory.md R72, R73: the header byte by byte. -/
def Obligations.HeaderLayout : Prop :=
  ∀ (f : Vector Word 256) (w : Nat), FitsWidth f w →
    let h := headerBytes f w
    h.length = 37 + w * nsymOf f ∧ h.take 4 = [0x4C, 0x70, 0xF0, 0x7C] ∧ (h.getD 36 0).toNat = w ∧
    (∀ x : Sym, (h.getD (4 + x.toNat / 8) 0).getLsbD (7 - x.toNat % 8) = present f x) ∧
    ∀ k j x, (allSyms.filter (present f))[k]? = some x → j < w →
      (h.getD (37 + w * k + j) 0).toNat = (freqAt f x).toNat / 256 ^ (w - 1 - j) % 256

/-- 44_container.md R203, R204: a header of any width its frequencies fit in. -/
def Obligations.HreadReads : Prop :=
  ∀ (s : State) (f : Vector Word 256) (w : Nat) (rest : List SrcElem), Idle s → FitsWidth f w →
    s.src = (headerBytes f w).map .byte ++ rest →
    exec .hread s = .next { latched .hread s with
      freq := f, width := BitVec.ofNat 3 w, treeValid := false, codesValid := false, cur := 0, rem := 0, emit := 0,
      inCount := BitVec.ofNat 64 (37 + w * nsymOf f), src := rest }

/-- 44_container.md R203, R206, 60_exceptions.md R242, R245, R248: the four ways a header is refused, by HREAD and by the
HREAD that DECODE runs. -/
def Obligations.HeaderRefused : Prop :=
  ∀ (i : Instr) (s : State) (rest : List SrcElem), i = .hread ∨ i = .decode → Idle s →
    let at_ (n : Nat) : State :=
      { s with src := rest, inCount := BitVec.ofNat 64 n, outCount := if i = .decode then 0 else s.outCount }
    (∀ (k : Nat) (m b : Byte), magic[k]? = some m → b ≠ m →
      s.src = (magic.take k ++ [b]).map .byte ++ rest →
      exec i s = .next (raise .magicMismatch (BitVec.ofNat 64 k) (some m) (some b) .src (at_ (k + 1)))) ∧
    (∀ (bm : List Byte) (b : Byte), bm.length = 32 → (b.toNat = 0 ∨ 4 < b.toNat) →
      s.src = (magic ++ bm ++ [b]).map .byte ++ rest →
      exec i s = .next (raise .invalidByteWidth 36 none (some b) .src (at_ 37))) ∧
    (∀ (bm : List Byte) (w : Nat) (pre : List (Sym × Word)) (x : Sym) (post : List Sym), bm.length = 32 → 1 ≤ w → w ≤ 4 →
      (allSyms.filter fun y => (bm.getD (y.toNat / 8) 0).getLsbD (7 - y.toNat % 8)) = pre.map Prod.fst ++ x :: post →
      (∀ e ∈ pre, 0 < e.2.toNat ∧ e.2.toNat < 256 ^ w) →
      s.src = (magic ++ bm ++ [BitVec.ofNat 8 w] ++ pre.flatMap (fun e : Sym × Word => beBytes w e.2) ++ List.replicate w 0).map .byte
        ++ rest →
      exec i s = .next (raise .invalidFrequency (BitVec.ofNat 64 (37 + w * pre.length)) none (some x) .src
        (at_ (37 + w * (pre.length + 1))))) ∧
    (∀ (f : Vector Word 256) (w k : Nat), FitsWidth f w → k < (headerBytes f w).length →
      (s.src = ((headerBytes f w).take k).map .byte ++ .eoi :: rest →
        exec i s = .next (raise .truncatedInput (BitVec.ofNat 64 k) none none .src (at_ k))) ∧
      (s.src = ((headerBytes f w).take k).map .byte ++ .ioerr :: rest →
        exec i s = .next (raise .ioFailure (BitVec.ofNat 64 k) none none .src (at_ k))))

/-- 44_container.md R209. -/
def Obligations.HeaderConsistent : Prop :=
  ∀ s t : State, Idle s → exec .hread s = .next t → t.err = false → t.busy = false →
    ∃ (bytes : List Byte) (rest : List SrcElem), s.src = bytes.map .byte ++ rest ∧ t.src = rest ∧
      t.inCount = BitVec.ofNat 64 bytes.length ∧ bytes.length = 37 + t.width.toNat * nsymOf t.freq ∧
      (∀ x : Sym, present t.freq x = (bytes.getD (4 + x.toNat / 8) 0).getLsbD (7 - x.toNat % 8)) ∧
      (∀ x : Sym, present t.freq x = true → 0 < (freqAt t.freq x).toNat) ∧
      nsymOf t.freq = (((bytes.drop 4).take 32).flatMap byteBits).count true

/-- 44_container.md R201, R205: the container ENCODE writes and the state it leaves. -/
def Obligations.EncodeWrites : Prop :=
  ∀ s : State, Idle s →
    (s.cfg.ibufSize < s.ilen.toNat →
      exec .encode s = .next (raise .inputLength (s.ilen.setWidth 64) none none .src s)) ∧
    (SinkOk s → s.ilen.toNat ≤ s.cfg.ibufSize →
      let input := ibufBytes s s.ilen.toNat
      let f := histogram input
      let w := minWidth (maxFreq f)
      let b := buildTree f
      ∃ t, TableFor f t ∧
        exec .encode s = .next { delivered (containerBytes f t input) { latched .encode s with outCount := 0 } with
          freq := f, width := BitVec.ofNat 3 w, node := b.node, nnodes := BitVec.ofNat 10 b.node.length, seq := b.seq,
          root := b.root, treeValid := true, code := t, codesValid := true, acc := 0, nbits := 0 } ∧
        (containerBytes f t input).length =
          37 + w * nsymOf f + ((input.map fun x => (codeAt t x).len.toNat).sum + 7) / 8 ∧
        (headerBytes f w).length = 37 + w * nsymOf f ∧ (headerBytes f w).length ≤ 1061)

/-- 44_container.md R206, 43_bitpack.md R182: a container of any admitted width, any pad bits. -/
def Obligations.DecodeReads : Prop :=
  ∀ (s : State) (f : Vector Word 256) (w : Nat) (t : Vector CodeEntry 256) (xs : List Sym) (pad : List Bool)
    (body : List Byte) (rest : List SrcElem),
    Idle s → SinkOk s → FitsWidth f w → TableFor f t → (∀ x ∈ xs, present f x = true) → xs.length = totalOf f →
    body.flatMap byteBits = codeBits t xs ++ pad → pad.length < 8 →
    s.src = (headerBytes f w ++ body).map .byte ++ rest →
    let b := buildTree f
    exec .decode s = .next { delivered xs { latched .decode s with outCount := 0 } with
      freq := f, width := BitVec.ofNat 3 w, node := b.node, nnodes := BitVec.ofNat 10 b.node.length, seq := b.seq,
      root := b.root, treeValid := true, codesValid := false, cur := body.getLastD 0, rem := BitVec.ofNat 4 pad.length,
      emit := BitVec.ofNat 40 (totalOf f), inCount := BitVec.ofNat 64 (37 + w * nsymOf f + body.length), src := rest }

/-- 44_container.md R207: for every input, decoding what ENCODE wrote gives the input back, on any idle machine. -/
def Obligations.RoundTrip : Prop :=
  ∀ s : State, Idle s → SinkOk s → s.ilen.toNat ≤ s.cfg.ibufSize →
    ∃ t container, exec .encode s = .next t ∧ t.busy = false ∧ t.err = false ∧ t.snk = s.snk ++ container ∧
      ∀ (u : State) (rest : List SrcElem), Idle u → SinkOk u → u.src = container.map .byte ++ rest →
        ∃ v, exec .decode u = .next v ∧ v.busy = false ∧ v.err = false ∧
          v.snk = u.snk ++ ibufBytes s s.ilen.toNat ∧ v.src = rest

/-- 44_container.md R208: what ENCODE writes depends on IBUF[0..ILEN−1] alone. -/
def Obligations.EncodeDeterministic : Prop :=
  ∀ s u : State, Idle s → Idle u → SinkOk s → SinkOk u → s.ilen = u.ilen → s.ilen.toNat ≤ s.cfg.ibufSize →
    u.ilen.toNat ≤ u.cfg.ibufSize → (∀ i < s.ilen.toNat, memRead s i = memRead u i) →
    ∃ t v container, exec .encode s = .next t ∧ exec .encode u = .next v ∧
      t.snk = s.snk ++ container ∧ v.snk = u.snk ++ container

/-! ## The host's side -/

/-- 10_state.md R41, R54, R55: what a read of any register does and the value it notes, and what a write of any register
but CMD does. The count of drawn free values is the model's own (log 5). -/
def Obligations.RegisterAccess : Prop :=
  ∀ (s : State) (off : BitVec 8) (v : Word), off.toNat % 4 = 0 →
    ((∃ d, (csrRead s off).2 = { s with draws := d }) ∧
      hostStep (.rd off) s =
        .next { (csrRead s off).2 with notes := s.notes ++ [.csr off (csrRead s off).1] } ∧
      (off = 0 ∨ 0xA0 ≤ off.toNat → (csrRead s off).1 = 0)) ∧
    (off ≠ 0 → hostStep (.wr off v) s = .next (
      if off = 0x04 then { s with arg := v }
      else if off = 0x18 then { s with ilen := v }
      else if off = 0x4C then { s with freqSel := v.extractLsb' 0 8 }
      else if off = 0x54 then { s with codeSel := v.extractLsb' 0 8 }
      else s)) ∧
    (off ≠ 0 → ∃ t, hostStep (.wr off v) s = .next t ∧
      ((off = 0x04 ∨ off = 0x18) → (csrRead t off).1 = v) ∧
      ((off = 0x4C ∨ off = 0x54) → (csrRead t off).1 = v &&& 0xFF))

/-- 10_state.md R43: the STATUS word. -/
def Obligations.StatusFields : Prop :=
  (∀ s : State,
    let v := (csrRead s 0x08).1
    v.getLsbD 0 = s.busy ∧ v.getLsbD 1 = s.err ∧ v.getLsbD 5 = s.cmdOvr ∧ v.extractLsb' 8 4 = s.errcode ∧
    v.extractLsb' 6 2 = 0 ∧ v.extractLsb' 12 20 = 0 ∧
    (s.busy = false → v.getLsbD 2 = s.treeValid ∧ v.getLsbD 3 = s.codesValid ∧
      (v.getLsbD 4 = true ↔ s.err = false ∧ totalOf s.freq ≤ s.emit.toNat)) ∧
    (s.err = true → v.getLsbD 4 = false)) ∧
  (csrRead State.reset 0x08).1 = 0x00000010

/-- 10_state.md R49 to R53: the windows on the packer, the unpacker, FREQ, CODE, the tree and PRES, while BUSY = 0. -/
def Obligations.WindowRegisters : Prop :=
  ∀ s : State, s.busy = false →
    ((csrRead s 0x44).1.extractLsb' 0 8 = s.acc ∧ (csrRead s 0x44).1.extractLsb' 8 4 = s.nbits ∧
      (csrRead s 0x44).1.extractLsb' 12 20 = 0) ∧
    ((csrRead s 0x48).1.extractLsb' 0 8 = s.cur ∧ (csrRead s 0x48).1.extractLsb' 8 4 = s.rem ∧
      (csrRead s 0x48).1.extractLsb' 12 20 = 0) ∧
    (csrRead s 0x50).1 = freqAt s.freq s.freqSel ∧
    ((csrRead s 0x58).1.extractLsb' 0 9 = (codeAt s.code s.codeSel).len ∧
      (csrRead s 0x58).1.getLsbD 16 = (codeAt s.code s.codeSel).assigned ∧
      (csrRead s 0x58).1.extractLsb' 9 7 = 0 ∧ (csrRead s 0x58).1.extractLsb' 17 15 = 0) ∧
    ((csrRead s 0x5C).1.extractLsb' 0 9 = s.root.getD 0 ∧ (csrRead s 0x5C).1.getLsbD 15 = s.root.isSome ∧
      (csrRead s 0x5C).1.extractLsb' 16 10 = s.nnodes ∧ (csrRead s 0x5C).1.extractLsb' 9 6 = 0 ∧
      (csrRead s 0x5C).1.extractLsb' 26 6 = 0) ∧
    ∀ k j : Nat, k < 8 → j < 32 →
      (csrRead s (BitVec.ofNat 8 (0x60 + 4 * k))).1.getLsbD j = present s.freq (BitVec.ofNat 8 (32 * k + j)) ∧
      (csrRead s (BitVec.ofNat 8 (0x80 + 4 * k))).1.getLsbD (31 - j) = (codeAt s.code s.codeSel).bits.getLsbD (32 * k + j)

/-- 10_state.md R47, R48: the counters and the views of FREQ, while BUSY = 0; R44, R45: the error registers, always. -/
def Obligations.CounterRegisters : Prop :=
  (∀ s : State, s.busy = false →
    (csrRead s 0x1C).1.toNat = s.width.toNat ∧ (csrRead s 0x20).1.toNat = nsymOf s.freq ∧
    (csrRead s 0x24).1.toNat + 2 ^ 32 * (csrRead s 0x28).1.toNat = totalOf s.freq ∧
    (csrRead s 0x2C).1.toNat + 2 ^ 32 * (csrRead s 0x30).1.toNat = s.emit.toNat ∧
    (csrRead s 0x34).1.toNat + 2 ^ 32 * (csrRead s 0x38).1.toNat = s.inCount.toNat ∧
    (csrRead s 0x3C).1.toNat + 2 ^ 32 * (csrRead s 0x40).1.toNat = s.outCount.toNat) ∧
  ∀ s : State,
    (csrRead s 0x0C).1.toNat + 2 ^ 32 * (csrRead s 0x10).1.toNat = s.errOffset.toNat ∧
    (csrRead s 0x14).1.extractLsb' 0 8 = s.errActual ∧ (csrRead s 0x14).1.extractLsb' 8 8 = s.errExpected ∧
    (csrRead s 0x14).1.getLsbD 16 = s.errValid ∧ (csrRead s 0x14).1.getLsbD 17 = s.errPort ∧
    (csrRead s 0x14).1.extractLsb' 18 14 = 0

/-- 20_memory.md R62, R66, 70_reset_and_hazards.md R276: the host's view of IBUF, idle and while a command
runs, and the accesses the interface does not admit (R61), which the model refuses by names of its own (log 19). -/
def Obligations.InputBufferAccess : Prop :=
  ∀ (s : State) (i : Nat) (b : Byte) (off : BitVec 8) (v : Word),
    (i < s.cfg.ibufSize →
      s.busy = false ∨ (∃ c, s.curCmd = encode c ∧ c ≠ .fscan ∧ c ≠ .pscan ∧ c ≠ .encode) →
      ∃ m, hostStep (.ibufWr i b) s = .next { s with ibuf := m } ∧
        memRead { s with ibuf := m } i = b ∧ ∀ j, j ≠ i → memRead { s with ibuf := m } j = memRead s j) ∧
    (i < s.cfg.ibufSize → s.busy = true →
      s.curCmd = encode .fscan ∨ s.curCmd = encode .pscan ∨ s.curCmd = encode .encode →
      hostStep (.ibufWr i b) s = .refused .ibufBusy) ∧
    (i < s.cfg.ibufSize → hostStep (.ibufRd i) s = .next { s with notes := s.notes ++ [.ibuf i (memRead s i)] }) ∧
    (s.cfg.ibufSize ≤ i → hostStep (.ibufWr i b) s = .refused .ibufIndex ∧ hostStep (.ibufRd i) s = .refused .ibufIndex) ∧
    (off.toNat % 4 ≠ 0 → hostStep (.wr off v) s = .refused .csrMisaligned ∧ hostStep (.rd off) s = .refused .csrMisaligned)

/-- 20_memory.md R62, R64, R65, 10_state.md R22: whatever a command does, it leaves IBUF and the host's side alone, takes SRC
only from the front and extends SNK only at the end; every command but SRESET leaves the registers ARG, ILEN, FREQ_SEL and
CODE_SEL alone, which SRESET sets to 0 (45_control.md R231; SresetClears states it). -/
def Obligations.CommandsLeaveHostAlone : Prop :=
  let kept (s t : State) : Prop :=
    t.ibuf = s.ibuf ∧ (∀ i, memRead t i = memRead s i) ∧ t.cfg = s.cfg ∧ t.hostOps = s.hostOps ∧ t.notes = s.notes ∧
      t.snkStanding = s.snkStanding ∧ t.src <:+ s.src ∧ s.snk <+: t.snk
  let registers (s t : State) : Prop :=
    t.arg = s.arg ∧ t.ilen = s.ilen ∧ t.freqSel = s.freqSel ∧ t.codeSel = s.codeSel
  (∀ (i : Instr) (s t : State), exec i s = .next t → kept s t ∧ (i ≠ .sreset → registers s t)) ∧
  ∀ s t : State, resume s = .next t → kept s t ∧ registers s t

/-- 70_reset_and_hazards.md R282: a wait has no Core step; the host's offer or answer, SRESET and the power-on reset are
the ways out. That the wait is a step that changes nothing is the model's choice (log 9). -/
def Obligations.WaitsForStream : Prop :=
  (∀ s : State, s.busy = true →
    (s.waitOn = .src ∧ s.src = [] ∨ (∃ b, s.waitOn = .snk b) ∧ s.snkAns = [] ∧ s.snkStanding = none) →
    (s.hostOps = [] → step s = .next s) ∧
    (∀ e es, s.waitOn = .src → s.hostOps = [] → step { s with src := e :: es } = resume { s with src := e :: es }) ∧
    (∀ b a, s.waitOn = .snk b → s.hostOps = [] →
      ∃ u, hostStep (.snkAnswer a) s = .next u ∧ u.snk = s.snk ++ (if a = .ok then [b] else []) ∧ u.busy = true ∧
        step u = resume u) ∧
    (∃ t, exec .sreset s = .next t ∧ t.busy = false) ∧ ∃ t, hostStep .powerOn s = .next t ∧ t.busy = false) ∧
  (∀ s : State, Idle s → s.src = [] → ∃ t, exec .hread s = .next t ∧ t.busy = true ∧ t.waitOn = .src ∧ t.inCount = 0) ∧
  ∀ s : State, Idle s → s.snkAns = [] → s.snkStanding = none →
    ∃ t, exec .hwrite s = .next t ∧ t.busy = true ∧ t.waitOn = .snk 0x4C ∧ t.snk = s.snk ∧ t.outCount = 0

/-- 20_memory.md R79, 70_reset_and_hazards.md R285: the host can move before a command begins and before it ends, well or
by a raise, whatever commands ran before; one that stopped just before its end completes or raises with the next Core step.
Each such point has a turn of its own: what the end leaves of the schedule is for the commands after it. The schedule and
the position `.raise` are the model's (log 4). -/
def Obligations.EndWaitsForHost : Prop :=
  let hostFirst (s : State) (turns : List Agent) : Prop := s.hostOps ≠ [] ∧ turns.head? = some .host
  let endsIn (s t : State) : Prop :=
    ∃ turns, turns <:+ s.sched ∧ ¬ hostFirst s turns ∧ t.hostOps = s.hostOps ∧ t.sched = afterCore turns
  (∀ turns : List Agent, afterCore (.core :: turns) = turns ∧ afterCore (.host :: turns) = .host :: turns) ∧
  (∀ (i : Instr) (s t : State), i ≠ .sreset → s.busy = false → s.err = false → exec i s = .next t → t.busy = false →
    endsIn s t) ∧
  (∀ s t : State, s.busy = true → resume s = .next t → t.busy = false → endsIn s t) ∧
  (∀ s : State, s.busy = true → ¬ hostFirst s s.sched →
    (s.cont = [] → resume s = .next { s with busy := false, waitOn := .ready, sched := afterCore s.sched }) ∧
    ∀ e offset expected actual port rest, s.cont = .raise e offset expected actual port :: rest →
      resume s = .next { raise e offset expected actual port s with sched := afterCore s.sched }) ∧
  (∀ (i : Instr) (s : State), i ≠ .sreset → s.busy = false → s.err = false → hostFirst s s.sched →
    ∃ t, exec i s = .next t ∧ t.busy = true ∧ t.sched = s.sched ∧ t.hostOps = s.hostOps) ∧
  ∀ (i : Instr) (s : State) (turns : List Agent),
    i = .nop ∨ i = .fclr ∨ (∃ x, i = .fset x) ∨ i = .fwidth ∨ i = .tbuild → s.busy = false → s.err = false →
    s.hostOps ≠ [] →
    (s.sched = .core :: .host :: turns → ∃ t, exec i s = .next t ∧ t.busy = true ∧ t.sched = .host :: turns) ∧
    (s.sched = .core :: .core :: turns → ∃ t, exec i s = .next t ∧ t.busy = false ∧ t.sched = turns)

/-- 20_memory.md R64, 30_encoding.md R99, 70_reset_and_hazards.md R285: elements offered while a command waits on SRC
have the effect they have offered ahead. -/
def Obligations.LateOffers : Prop :=
  (∀ (i : Instr) (s t : State) (es : List SrcElem), Idle s → exec i s = .next t → t.busy = true → t.waitOn = .src →
    resume { t with src := es } = exec i { s with src := s.src ++ es }) ∧
  ∀ (s t : State) (es : List SrcElem), resume s = .next t → t.busy = true → t.waitOn = .src →
    resume { t with src := es } = resume { s with src := s.src ++ es }

/-- 20_memory.md R65, R78, 30_encoding.md R99, 70_reset_and_hazards.md R285: the answer to the byte a command waits on SNK
with is a whole transaction, OK takes the byte; the command then goes on as where that answer, and the answers to the writes
after it, were given ahead. -/
def Obligations.LateAnswers : Prop :=
  let answered (t : State) (b : Byte) (a : SnkAns) (as : List SnkAns) (o : Host.Outcome State Fault Refusal) : Prop :=
    ∃ u, hostStep (.snkAnswer a) t = .next u ∧ u.snk = t.snk ++ (if a = .ok then [b] else []) ∧ u.snkAns = [] ∧
      resume { u with snkAns := as } = o
  (∀ (i : Instr) (s t : State) (b : Byte) (a : SnkAns) (as : List SnkAns), Idle s → exec i s = .next t → t.busy = true →
    t.waitOn = .snk b → answered t b a as (exec i { s with snkAns := s.snkAns ++ a :: as })) ∧
  ∀ (s t : State) (b : Byte) (a : SnkAns) (as : List SnkAns), resume s = .next t → t.busy = true → t.waitOn = .snk b →
    answered t b a as (resume { s with snkAns := s.snkAns ++ a :: as })

/-! ## The invariant -/

/-- 70_reset_and_hazards.md R270, 10_state.md R57: the invariant holds right after reset. -/
def Obligations.ResetMeetsInvariant : Prop := Inv State.reset

/-- 10_state.md R31, R33, R34, R57, 20_memory.md R65, 60_exceptions.md R241, R243, R246: every step keeps the invariant. -/
def Obligations.StepKeepsInvariant : Prop :=
  ∀ s t : State, Inv s → step s = .next t → Inv t

/-- 43_bitpack.md R180, 41_tree.md R134: in a state that meets the invariant no step ends in a fault. The two
faults are the model's, for states the rules give no next step (log 11). -/
def Obligations.NoFaults : Prop :=
  ∀ (s : State) (r : Fault), Inv s → step s ≠ .fault r
end

