-- ==== Sys2Proof/Laws/Bits.lean ====
section
/-! SUPPORT. Bit strings as bit vectors, code entries, and big-endian fields. -/

namespace Sys2Proof.Machine

theorem bitsLE_lt (bs : List Bool) : bitsLE bs < 2 ^ bs.length := by
  induction bs with
  | nil => simp [bitsLE]
  | cons b bs ih => cases b <;> simp [bitsLE, Nat.pow_succ] <;> omega

theorem testBit_bitsLE (bs : List Bool) (i : Nat) : (bitsLE bs).testBit i = bs.getD i false := by
  induction bs generalizing i with
  | nil => simp [bitsLE]
  | cons b bs ih =>
    cases i with
    | zero => cases b <;> simp [bitsLE, Nat.testBit_zero]
    | succ i =>
      rw [Nat.testBit_succ, show bitsLE (b :: bs) / 2 = bitsLE bs by cases b <;> simp [bitsLE]; omega, ih]
      simp

@[simp] theorem getLsbD_vecLE (w : Nat) (bs : List Bool) (i : Nat) :
    (vecLE w bs).getLsbD i = (decide (i < w) && bs.getD i false) := by
  simp [vecLE, BitVec.getLsbD_ofNat, testBit_bitsLE]

@[simp] theorem getLsbD_vecMSB (w : Nat) (bs : List Bool) (i : Nat) :
    (vecMSB w bs).getLsbD i = (decide (i < w ∧ i < bs.length) && bs.getD (bs.length - 1 - i) false) := by
  rw [vecMSB, getLsbD_vecLE]
  by_cases h : i < bs.length
  · simp [h, List.getD_eq_getElem?_getD, show bs.length - 1 - i < bs.length by omega]
  · simp [h, List.getD_eq_getElem?_getD]

@[simp] theorem getElem_vecLE (w : Nat) (bs : List Bool) (i : Nat) (h : i < w) : (vecLE w bs)[i] = bs.getD i false := by
  rw [← BitVec.getLsbD_eq_getElem, getLsbD_vecLE]; simp [h]

@[simp] theorem getElem_vecMSB (w : Nat) (bs : List Bool) (i : Nat) (h : i < w) :
    (vecMSB w bs)[i] = (decide (i < bs.length) && bs.getD (bs.length - 1 - i) false) := by
  rw [← BitVec.getLsbD_eq_getElem, getLsbD_vecMSB]; simp [h]

theorem toNat_vecMSB_lt (w : Nat) (bs : List Bool) : (vecMSB w bs).toNat < 2 ^ bs.length := by
  rw [vecMSB, vecLE, BitVec.toNat_ofNat]
  have := bitsLE_lt bs.reverse
  rw [List.length_reverse] at this
  exact Nat.lt_of_le_of_lt (Nat.mod_le _ _) this

@[simp] theorem length_byteBits (b : Byte) : (byteBits b).length = 8 := by simp [byteBits]

theorem byteBits_vecMSB {bs : List Bool} (h : bs.length = 8) : byteBits (vecMSB 8 bs) = bs := by
  refine List.ext_getElem (by simp [h]) fun i hi _ => ?_
  have hi : i < 8 := by simpa using hi
  simp only [byteBits, List.getElem_map, List.getElem_range, getLsbD_vecMSB, h]
  simp [show 8 - 1 - (7 - i) = i by omega, show 7 - i < 8 by omega, h, hi]

@[simp] theorem CodeEntry.length_bitString (e : CodeEntry) : e.bitString.length = e.len.toNat := by
  simp [CodeEntry.bitString]

@[simp] theorem CodeEntry.bitString_none : CodeEntry.none.bitString = [] := rfl

@[simp] theorem CodeEntry.assigned_ofPath (p : List Bool) : (CodeEntry.ofPath p).assigned = true := rfl

/-- A path of at most CODE_CAP bits is stored whole. -/
theorem CodeEntry.bitString_ofPath {p : List Bool} (h : p.length ≤ 256) : (CodeEntry.ofPath p).bitString = p := by
  refine List.ext_getElem (by simp [CodeEntry.ofPath]; omega) fun i hi h2 => ?_
  simp [CodeEntry.bitString, CodeEntry.ofPath, show i < 256 by omega, List.getD_eq_getElem?_getD, h2,
    ← BitVec.getLsbD_eq_getElem]

theorem CodeEntry.len_ofPath {p : List Bool} (h : p.length ≤ 256) : (CodeEntry.ofPath p).len.toNat = p.length := by
  simp [CodeEntry.ofPath]; omega

@[simp] theorem length_beBytes (w : Nat) (v : Word) : (beBytes w v).length = w := by simp [beBytes]

/-- The value of a big-endian byte string, after a value already read (20_memory.md R73). -/
def beValue (v : Nat) (bs : List Byte) : Nat := bs.foldl (fun v b => v * 256 + b.toNat) v

@[simp] theorem beValue_nil (v : Nat) : beValue v [] = v := rfl

@[simp] theorem beValue_cons (v : Nat) (b : Byte) (bs : List Byte) :
    beValue v (b :: bs) = beValue (v * 256 + b.toNat) bs := rfl

theorem beBytes_succ (w : Nat) (v : Word) : beBytes (w + 1) v = v.extractLsb' (8 * w) 8 :: beBytes w v := by
  simp [beBytes, List.range_succ]

/-- Reading the bytes of a value that fits gives the value back. -/
theorem beValue_beBytes (w : Nat) (v : Word) (n : Nat) :
    beValue n (beBytes w v) = n * 256 ^ w + v.toNat % 256 ^ w := by
  induction w generalizing n with
  | zero => simp [beBytes, beValue, Nat.mod_one]
  | succ w ih =>
    rw [beBytes_succ, beValue_cons, ih, BitVec.extractLsb'_toNat, Nat.shiftRight_eq_div_pow]
    have h1 : 2 ^ (8 * w) = 256 ^ w := by rw [Nat.pow_mul]
    have h2 : v.toNat % 256 ^ (w + 1) = v.toNat % 256 ^ w + 256 ^ w * (v.toNat / 256 ^ w % 256) := by
      rw [Nat.pow_succ, Nat.mod_mul]
    rw [h1, h2, Nat.pow_succ]
    ring

end Sys2Proof.Machine
end

