-- ==== Sys2Proof/Laws/Entries.lean ====
section
/-! SUPPORT. The tables FREQ and CODE, and the present entries of FREQ (10_state.md R24 to R26). -/

namespace Sys2Proof.Machine

@[simp] theorem freqAt_freqSet_same (f : Vector Word 256) (x : Sym) (v : Word) : freqAt (freqSet f x v) x = v := by
  simp [freqAt, freqSet]

theorem freqAt_freqSet_other (f : Vector Word 256) {x y : Sym} (v : Word) (h : y ≠ x) :
    freqAt (freqSet f x v) y = freqAt f y := by
  have : x.toNat ≠ y.toNat := fun e => h (BitVec.eq_of_toNat_eq e.symm)
  simp [freqAt, freqSet, this]

theorem freqAt_freqSet (f : Vector Word 256) (x y : Sym) (v : Word) :
    freqAt (freqSet f x v) y = if y = x then v else freqAt f y := by
  split
  · rename_i h; simp [h]
  · rename_i h; exact freqAt_freqSet_other f v h

@[simp] theorem codeAt_codeSet_same (t : Vector CodeEntry 256) (x : Sym) (e : CodeEntry) :
    codeAt (codeSet t x e) x = e := by simp [codeAt, codeSet]

theorem codeAt_codeSet_other (t : Vector CodeEntry 256) {x y : Sym} (e : CodeEntry) (h : y ≠ x) :
    codeAt (codeSet t x e) y = codeAt t y := by
  have : x.toNat ≠ y.toNat := fun e => h (BitVec.eq_of_toNat_eq e.symm)
  simp [codeAt, codeSet, this]

@[simp] theorem freqAt_replicate (v : Word) (x : Sym) : freqAt (Vector.replicate 256 v) x = v := by simp [freqAt]

@[simp] theorem codeAt_emptyCodes (x : Sym) : codeAt emptyCodes x = CodeEntry.none := by simp [codeAt, emptyCodes]

/-- Two FREQ tables that agree on every symbol are equal. -/
theorem freq_ext {f g : Vector Word 256} (h : ∀ x, freqAt f x = freqAt g x) : f = g := by
  refine Vector.ext fun i hi => ?_
  have := h (BitVec.ofNat 8 i)
  simpa [freqAt, Nat.mod_eq_of_lt hi] using this

/-- Two CODE tables that agree on every symbol are equal. -/
theorem code_ext {t u : Vector CodeEntry 256} (h : ∀ x, codeAt t x = codeAt u x) : t = u := by
  refine Vector.ext fun i hi => ?_
  have := h (BitVec.ofNat 8 i)
  simpa [codeAt, Nat.mod_eq_of_lt hi] using this

@[simp] theorem length_allSyms : allSyms.length = 256 := by simp [allSyms]

theorem mem_allSyms (x : Sym) : x ∈ allSyms := by
  simp only [allSyms, List.mem_map, List.mem_range]
  exact ⟨x.toNat, x.isLt, by simp⟩

theorem getElem_allSyms (i : Nat) (h : i < allSyms.length) : allSyms[i] = BitVec.ofNat 8 i := by
  simp [allSyms]

theorem nodup_allSyms : allSyms.Nodup := by
  refine List.Nodup.map_on ?_ List.nodup_range
  intro a ha b hb h
  have := congrArg BitVec.toNat h
  simp only [List.mem_range] at ha hb
  simpa [Nat.mod_eq_of_lt ha, Nat.mod_eq_of_lt hb] using this

/-- FREQ as a list is FREQ read at every symbol in order. -/
theorem toList_eq_map_freqAt (f : Vector Word 256) : f.toList = allSyms.map (freqAt f) := by
  refine List.ext_getElem (by simp) fun i h1 h2 => ?_
  have hi : i < 256 := by simpa using h2
  simp [getElem_allSyms, freqAt, Nat.mod_eq_of_lt hi]

theorem zip_allSyms (f : Vector Word 256) : allSyms.zip f.toList = allSyms.map fun x => (x, freqAt f x) := by
  rw [toList_eq_map_freqAt]
  exact List.map_prod_left_eq_zip.symm

/-- The present entries are the present symbols in ascending order, each with its count. -/
theorem presentEntries_eq (f : Vector Word 256) :
    presentEntries f = (allSyms.filter (present f)).map fun x => (x, freqAt f x) := by
  rw [presentEntries, zip_allSyms, List.filter_map]
  rfl

theorem mem_presentEntries {f : Vector Word 256} {x : Sym} {v : Word} :
    (x, v) ∈ presentEntries f ↔ v = freqAt f x ∧ v ≠ 0 := by
  rw [presentEntries_eq]
  simp only [List.mem_map, List.mem_filter, Prod.mk.injEq, present, bne_iff_ne, mem_allSyms, true_and]
  constructor
  · rintro ⟨y, hy, rfl, rfl⟩; exact ⟨rfl, hy⟩
  · rintro ⟨rfl, h⟩; exact ⟨x, h, rfl, rfl⟩

theorem presentEntries_syms (f : Vector Word 256) :
    (presentEntries f).map Prod.fst = allSyms.filter (present f) := by
  rw [presentEntries_eq, List.map_map]; simp [Function.comp_def]

theorem nodup_presentEntries (f : Vector Word 256) : ((presentEntries f).map Prod.fst).Nodup := by
  rw [presentEntries_syms]; exact nodup_allSyms.filter _

theorem nsymOf_le (f : Vector Word 256) : nsymOf f ≤ 256 := by
  have := List.length_filter_le (fun e : Sym × Word => e.2 != 0) (allSyms.zip f.toList)
  simpa [nsymOf, presentEntries] using this

theorem sum_filter_ne_zero {α : Type} (l : List α) (g : α → Nat) (p : α → Bool) (h : ∀ a, p a = false → g a = 0) :
    ((l.filter p).map g).sum = (l.map g).sum := by
  induction l with
  | nil => rfl
  | cons a l ih =>
    by_cases hp : p a
    · simp [hp, ih]
    · simp [hp, ih, h a (by simpa using hp)]

/-- TOTAL is the sum of the present counts. -/
theorem sum_presentEntries (f : Vector Word 256) : ((presentEntries f).map fun e => e.2.toNat).sum = totalOf f := by
  rw [totalOf, toList_eq_map_freqAt, presentEntries_eq, List.map_map, List.map_map]
  refine sum_filter_ne_zero _ (fun x => (freqAt f x).toNat) _ fun x hx => ?_
  have : freqAt f x = 0 := by simpa [present] using hx
  simp [this]

/-- TOTAL never wraps (10_state.md R26). -/
theorem totalOf_lt (f : Vector Word 256) : totalOf f < 2 ^ 40 := by
  have h : ∀ l : List Word, (l.map BitVec.toNat).sum ≤ l.length * (2 ^ 32 - 1) := by
    intro l
    induction l with
    | nil => simp
    | cons a l ih => simp only [List.map_cons, List.sum_cons, List.length_cons]; have := a.isLt; omega
  have := h f.toList
  simp only [Vector.length_toList] at this
  unfold totalOf; omega

theorem nsymOf_eq_zero {f : Vector Word 256} : nsymOf f = 0 ↔ ∀ x, freqAt f x = 0 := by
  rw [nsymOf, List.length_eq_zero_iff, presentEntries_eq, List.map_eq_nil_iff, List.filter_eq_nil_iff]
  simp [mem_allSyms, present]

theorem totalOf_eq_zero {f : Vector Word 256} : totalOf f = 0 ↔ nsymOf f = 0 := by
  rw [← sum_presentEntries, nsymOf, List.length_eq_zero_iff, List.sum_eq_zero_iff]
  constructor
  · intro h
    rcases he : presentEntries f with _ | ⟨⟨x, v⟩, es⟩
    · rfl
    · have hm : (x, v) ∈ presentEntries f := by simp [he]
      have h0 := h v.toNat (List.mem_map.2 ⟨_, hm, rfl⟩)
      exact absurd (BitVec.eq_of_toNat_eq (by simpa using h0)) (mem_presentEntries.1 hm).2
  · intro h; simp [h]

end Sys2Proof.Machine
end

