-- ==== Sys2Proof/Laws/Tree.lean ====
section
/-! SUPPORT. What TBUILD builds (41_tree.md R130 to R135): the arena holds one tree whose leaves are the present
symbols with their counts. -/

namespace Sys2Proof.Machine

/-- A Huffman tree, free of its arena. -/
inductive HTree where
  | leaf (x : Sym) (f : BitVec 40)
  | node (l r : HTree)

namespace HTree

/-- The leaves from left to right. -/
def leaves : HTree → List (Sym × BitVec 40)
  | .leaf x f => [(x, f)]
  | .node l r => l.leaves ++ r.leaves

/-- The sum of the leaves' frequencies. -/
def weight : HTree → Nat
  | .leaf _ f => f.toNat
  | .node l r => l.weight + r.weight

/-- The greatest depth of a leaf. -/
def depth : HTree → Nat
  | .leaf _ _ => 0
  | .node l r => max l.depth r.depth + 1

theorem leaves_pos (T : HTree) : 0 < T.leaves.length := by
  induction T with
  | leaf => simp [leaves]
  | node l r ihl ihr => simp [leaves]; omega

/-- A leaf lies at most (number of leaves − 1) deep (41_tree.md R134). -/
theorem depth_lt (T : HTree) : T.depth < T.leaves.length := by
  induction T with
  | leaf => simp [depth, leaves]
  | node l r ihl ihr =>
    have := leaves_pos l; have := leaves_pos r
    simp only [depth, leaves, List.length_append]; omega

theorem weight_eq (T : HTree) : T.weight = (T.leaves.map fun e => e.2.toNat).sum := by
  induction T with
  | leaf => simp [weight, leaves]
  | node l r ihl ihr => simp [weight, leaves, ihl, ihr]

end HTree

/-- The arena `l` holds tree `T` at node `i` (10_state.md R28). -/
inductive Holds (l : List Node) : NodeId → HTree → Prop
  | leaf {i : NodeId} {x : Sym} {f : BitVec 40} (h : l[i.toNat]? = some ⟨.leaf, x, f, 0, 0⟩) : Holds l i (.leaf x f)
  | node {i a b : NodeId} {f : BitVec 40} {A B : HTree} (h : l[i.toNat]? = some ⟨.internal, 0, f, a, b⟩)
      (ha : Holds l a A) (hb : Holds l b B) (hf : f.toNat = A.weight + B.weight) : Holds l i (.node A B)

namespace Holds

/-- New entries do not disturb a tree. -/
theorem append {l : List Node} {i : NodeId} {T : HTree} (h : Holds l i T) (m : List Node) : Holds (l ++ m) i T := by
  have grow : ∀ {k : Nat} {n : Node}, l[k]? = some n → (l ++ m)[k]? = some n := by
    intro k n hk
    rw [List.getElem?_append_left (List.getElem?_eq_some_iff.1 hk).1, hk]
  induction h with
  | leaf h => exact .leaf (grow h)
  | node h _ _ hf iha ihb => exact .node (grow h) iha ihb hf

/-- A tree's root is an entry whose freq is the tree's weight. -/
theorem entry {l : List Node} {i : NodeId} {T : HTree} (h : Holds l i T) :
    ∃ n, l[i.toNat]? = some n ∧ n.freq.toNat = T.weight := by
  cases h with
  | leaf h => exact ⟨_, h, rfl⟩
  | node h _ _ hf => exact ⟨_, h, hf⟩

theorem freqOf {b : Build} {i : NodeId} {T : HTree} (h : Holds b.node i T) : (b.freqOf i).toNat = T.weight := by
  obtain ⟨n, hn, hw⟩ := h.entry
  simp [Build.freqOf, hn, hw]

end Holds

theorem insertAt_perm (q : List NodeId) (k : Nat) (x : NodeId) : (insertAt q k x).Perm (x :: q) := by
  rw [insertAt]
  exact List.perm_middle.trans (by rw [List.take_append_drop])

/-- What the working state of TBUILD is at any moment for the leaves `es` inserted so far: SEQ lists trees that between
them hold each leaf once, and each merge has traded two of SEQ for one node. -/
structure Forest (b : Build) (es : List (Sym × BitVec 40)) : Prop where
  trees : ∃ Ts : List HTree, List.Forall₂ (Holds b.node) b.seq Ts ∧ (Ts.flatMap HTree.leaves).Perm es
  count : b.node.length + b.seq.length = 2 * es.length
  last : ∀ r, b.seq = [r] → r.toNat + 1 = b.node.length

theorem Forest.empty : Forest ⟨[], []⟩ [] := ⟨⟨[], .nil, by simp⟩, rfl, by simp⟩

theorem forall₂_insertAt {l : List Node} {q : List NodeId} {Ts : List HTree} (h : List.Forall₂ (Holds l) q Ts)
    {i : NodeId} {T : HTree} (hT : Holds l i T) (k : Nat) :
    List.Forall₂ (Holds l) (insertAt q k i) (Ts.take k ++ T :: Ts.drop k) :=
  List.rel_append (List.forall₂_take k h) (.cons hT (List.forall₂_drop k h))

theorem leaves_insert (Ts : List HTree) (T : HTree) (k : Nat) :
    ((Ts.take k ++ T :: Ts.drop k).flatMap HTree.leaves).Perm (T.leaves ++ Ts.flatMap HTree.leaves) := by
  have h : (Ts.take k ++ T :: Ts.drop k).Perm (T :: Ts) :=
    List.perm_middle.trans (by rw [List.take_append_drop])
  exact (h.flatMap_right HTree.leaves).trans (by simp)

theorem insertAt_eq_singleton {q : List NodeId} {k : Nat} {x r : NodeId} (h : insertAt q k x = [r]) :
    q = [] ∧ r = x := by
  have hl := congrArg List.length h
  rw [(insertAt_perm q k x).length_eq] at hl
  obtain rfl : q = [] := by cases q with
    | nil => rfl
    | cons => simp at hl
  simp [insertAt] at h
  exact ⟨rfl, h.symm⟩

/-- The id a new entry gets is its place in the arena. -/
theorem toNat_newId {n : Nat} (h : n < 512) : (BitVec.ofNat 9 n).toNat = n := by simp; omega

/-- A leaf enters the forest (41_tree.md R131). -/
theorem Forest.addLeaf {b : Build} {es : List (Sym × BitVec 40)} (h : Forest b es) (x : Sym) (f : BitVec 40)
    (hn : b.node.length < 512) (he : b.node.length = es.length) : Forest (b.addLeaf x f) (es ++ [(x, f)]) := by
  obtain ⟨⟨Ts, hT, hp⟩, hc, hl⟩ := h
  refine ⟨⟨_, forall₂_insertAt (hT.imp fun i T hi => hi.append _) (T := .leaf x f) (.leaf ?_) _, ?_⟩, ?_, ?_⟩
  · rw [toNat_newId hn]; simp [Build.addLeaf]
  · exact (leaves_insert _ _ _).trans (by simpa [HTree.leaves] using (hp.cons _).trans (List.perm_append_singleton _ _).symm)
  · simp [Build.addLeaf, (insertAt_perm _ _ _).length_eq]; omega
  · intro r hr
    obtain ⟨h1, rfl⟩ := insertAt_eq_singleton hr
    simp [Build.addLeaf, toNat_newId hn]

/-- The sum of the weights of a forest is the sum of its leaves' frequencies. -/
theorem weights_eq {Ts : List HTree} {es : List (Sym × BitVec 40)} (h : (Ts.flatMap HTree.leaves).Perm es) :
    (Ts.map HTree.weight).sum = (es.map fun e => e.2.toNat).sum := by
  rw [← (h.map fun e => e.2.toNat).sum_eq]
  induction Ts generalizing es with
  | nil => rfl
  | cons T Ts ih => simp [HTree.weight_eq, ih (.refl _)]

/-- One merge keeps the forest (41_tree.md R133). -/
theorem Forest.merge {b : Build} {es : List (Sym × BitVec 40)} (h : Forest b es) {l r : NodeId} {rest : List NodeId}
    (hs : b.seq = l :: r :: rest) (hn : es.length ≤ 256) (hw : (es.map fun e => e.2.toNat).sum < 2 ^ 40) :
    Forest (b.merge l r rest) es := by
  obtain ⟨⟨Ts, hT, hp⟩, hc, hl⟩ := h
  rw [hs] at hT hc
  obtain ⟨A, _, hA, hT', rfl⟩ := List.forall₂_cons_left_iff.1 hT
  obtain ⟨B, Us, hB, hU, rfl⟩ := List.forall₂_cons_left_iff.1 hT'
  have hlen : b.node.length < 512 := by simp at hc; omega
  have hsum := weights_eq hp
  simp only [List.map_cons, List.sum_cons] at hsum
  have hf : (b.freqOf l + b.freqOf r).toNat = A.weight + B.weight := by
    rw [BitVec.toNat_add, hA.freqOf, hB.freqOf, Nat.mod_eq_of_lt (by omega)]
  have hnew : Holds (b.node ++ [⟨.internal, 0, b.freqOf l + b.freqOf r, l, r⟩]) (BitVec.ofNat 9 b.node.length)
      (.node A B) := .node (by rw [toNat_newId hlen]; simp) (hA.append _) (hB.append _) hf
  refine ⟨⟨_, forall₂_insertAt (hU.imp fun i T hi => hi.append _) hnew _, ?_⟩, ?_, ?_⟩
  · exact (leaves_insert _ _ _).trans (by simpa [HTree.leaves] using hp)
  · simp [Build.merge, (insertAt_perm _ _ _).length_eq]; simp at hc; omega
  · intro k hk
    obtain ⟨h1, rfl⟩ := insertAt_eq_singleton hk
    simp only [Build.merge, List.length_append, List.length_singleton, toNat_newId hlen]

/-- The entries of FREQ as leaves (41_tree.md R130: `freq = zext_40(FREQ[s])`). -/
def leafEntries (f : Vector Word 256) : List (Sym × BitVec 40) := (presentEntries f).map fun e => (e.1, e.2.setWidth 40)

theorem length_leafEntries (f : Vector Word 256) : (leafEntries f).length = nsymOf f := by simp [leafEntries, nsymOf]

theorem sum_leafEntries (f : Vector Word 256) : ((leafEntries f).map fun e => e.2.toNat).sum = totalOf f := by
  rw [← sum_presentEntries, leafEntries, List.map_map]
  refine congrArg List.sum (List.map_congr_left fun e _ => ?_)
  have := e.2.isLt
  simp only [Function.comp, BitVec.toNat_setWidth]
  omega

/-- The leaf phase (41_tree.md R131): one leaf per present symbol, ids in ascending symbol order. -/
theorem leafPhase_spec (f : Vector Word 256) :
    Forest (leafPhase f) (leafEntries f) ∧
      (leafPhase f).node = (leafEntries f).map fun e => ⟨.leaf, e.1, e.2, 0, 0⟩ := by
  have key : ∀ (es : List (Sym × Word)) (b : Build) (pre : List (Sym × BitVec 40)),
      Forest b pre → b.node = pre.map (fun e => ⟨.leaf, e.1, e.2, 0, 0⟩) → pre.length + es.length ≤ 256 →
      let b' := es.foldl (fun b e => b.addLeaf e.1 (e.2.setWidth 40)) b
      let all := pre ++ es.map fun e => (e.1, e.2.setWidth 40)
      Forest b' all ∧ b'.node = all.map fun e => ⟨.leaf, e.1, e.2, 0, 0⟩ := by
    intro es
    induction es with
    | nil => intro b pre hb hn _; simpa using ⟨hb, hn⟩
    | cons e es ih =>
      intro b pre hb hn hlen
      have hlen' : b.node.length = pre.length := by simp [hn]
      simp only [List.length_cons] at hlen
      have := ih (b.addLeaf e.1 (e.2.setWidth 40)) (pre ++ [(e.1, e.2.setWidth 40)])
        (hb.addLeaf _ _ (by omega) hlen') (by simp [Build.addLeaf, hn]) (by simp; omega)
      simpa using this
  have := key (presentEntries f) ⟨[], []⟩ [] .empty rfl (by simpa [nsymOf] using nsymOf_le f)
  simpa [leafPhase, leafEntries] using this

/-- The merge phase keeps the forest and leaves at most one node in SEQ (41_tree.md R133). -/
theorem mergePhase_spec {es : List (Sym × BitVec 40)} (hn : es.length ≤ 256)
    (hw : (es.map fun e => e.2.toNat).sum < 2 ^ 40) (n : Nat) (b : Build) (h : Forest b es) (hb : b.seq.length ≤ n) :
    Forest (mergePhase n b) es ∧ (mergePhase n b).seq.length ≤ 1 ∧
      (1 ≤ b.seq.length → 1 ≤ (mergePhase n b).seq.length) ∧
      ∃ more, (mergePhase n b).node = b.node ++ more ∧ ∀ m ∈ more, m.kind = .internal := by
  induction n generalizing b with
  | zero => exact ⟨h, by simp [mergePhase]; omega, id, [], by simp [mergePhase], by simp⟩
  | succ n ih =>
    unfold mergePhase
    split
    · rename_i l r rest hs
      have hlen : (b.merge l r rest).seq.length = rest.length + 1 := by
        simp [Build.merge, (insertAt_perm _ _ _).length_eq]
      simp only [hs, List.length_cons] at hb
      obtain ⟨h1, h2, h3, more, h4, h5⟩ := ih _ (h.merge hs hn hw) (by omega)
      refine ⟨h1, h2, fun _ => h3 (by omega), ⟨.internal, 0, b.freqOf l + b.freqOf r, l, r⟩ :: more, ?_, ?_⟩
      · rw [h4]; simp [Build.merge]
      · intro m hm
        rcases List.mem_cons.1 hm with rfl | hm
        · rfl
        · exact h5 m hm
    · rename_i hne
      refine ⟨h, ?_, id, [], by simp, by simp⟩
      rcases hq : b.seq with _ | ⟨x, _ | ⟨y, q⟩⟩
      · simp
      · simp
      · exact absurd hq (hne x y q)

/-- An empty FREQ gives the empty tree (41_tree.md R130). -/
theorem buildTree_empty {f : Vector Word 256} (h : nsymOf f = 0) : buildTree f = ⟨[], []⟩ := by
  have : presentEntries f = [] := List.length_eq_zero_iff.1 h
  simp [buildTree, leafPhase, this, mergePhase]

/-- A FREQ with a present symbol gives one tree: SEQ holds its root, the last entry made; its leaves are the present
symbols with their counts (41_tree.md R134). -/
theorem buildTree_spec {f : Vector Word 256} (h : 0 < nsymOf f) :
    ∃ r T, (buildTree f).seq = [r] ∧ Holds (buildTree f).node r T ∧ T.leaves.Perm (leafEntries f) ∧
      (buildTree f).node.length + 1 = 2 * nsymOf f ∧ r.toNat + 1 = (buildTree f).node.length := by
  obtain ⟨hf, hl⟩ := leafPhase_spec f
  have hn : (leafEntries f).length ≤ 256 := by rw [length_leafEntries]; exact nsymOf_le f
  have hw : ((leafEntries f).map fun e => e.2.toNat).sum < 2 ^ 40 := by rw [sum_leafEntries]; exact totalOf_lt f
  have hseq : (leafPhase f).seq.length = nsymOf f := by
    have := hf.count
    rw [hl, List.length_map, length_leafEntries] at this; omega
  obtain ⟨h1, h2, h3, -⟩ := mergePhase_spec hn hw _ _ hf (Nat.le_refl _)
  have h3 := h3 (by omega)
  obtain ⟨r, hr⟩ : ∃ r, (buildTree f).seq = [r] := List.length_eq_one_iff.1 (Nat.le_antisymm h2 h3)
  have hF : Forest (buildTree f) (leafEntries f) := h1
  obtain ⟨⟨Ts, hT, hp⟩, hc, hlast⟩ := hF
  rw [hr] at hT hc
  obtain ⟨T, _, hT1, hT2, rfl⟩ := List.forall₂_cons_left_iff.1 hT
  cases hT2
  refine ⟨r, T, hr, hT1, by simpa using hp, ?_, hlast r hr⟩
  rw [length_leafEntries] at hc; simpa using hc

end Sys2Proof.Machine
end

