-- ==== Sys2Proof/Laws/Codes.lean ====
section
/-! SUPPORT. What CGEN records (42_codetable.md R150 to R152): every present symbol's path from the root. -/

namespace Sys2Proof.Machine

namespace HTree

/-- The table after the traversal of a tree (42_codetable.md R151). -/
def record : HTree → List Bool → Vector CodeEntry 256 → Vector CodeEntry 256
  | .leaf x _, p, t => codeSet t x (CodeEntry.ofPath p)
  | .node l r, p, t => r.record (p ++ [true]) (l.record (p ++ [false]) t)

/-- The bits `p` lead from the root to a leaf of symbol `x`. -/
def HasPath : HTree → List Bool → Sym → Prop
  | .leaf y _, p, x => p = [] ∧ y = x
  | .node _ _, [], _ => False
  | .node l r, b :: p, x => if b then r.HasPath p x else l.HasPath p x

theorem HasPath.length_le {T : HTree} {p : List Bool} {x : Sym} (h : T.HasPath p x) : p.length ≤ T.depth := by
  induction T generalizing p with
  | leaf => simp [h.1]
  | node l r ihl ihr =>
    cases p with
    | nil => exact h.elim
    | cons b p =>
      cases b
      · have := ihl (p := p) (by simpa [HasPath] using h); simp [depth]; omega
      · have := ihr (p := p) (by simpa [HasPath] using h); simp [depth]; omega

theorem HasPath.mem {T : HTree} {p : List Bool} {x : Sym} (h : T.HasPath p x) : x ∈ T.leaves.map Prod.fst := by
  induction T generalizing p with
  | leaf => simp [leaves, h.2]
  | node l r ihl ihr =>
    cases p with
    | nil => exact h.elim
    | cons b p =>
      cases b
      · have := ihl (p := p) (by simpa [HasPath] using h)
        simp only [leaves, List.map_append, List.mem_append]; exact .inl this
      · have := ihr (p := p) (by simpa [HasPath] using h)
        simp only [leaves, List.map_append, List.mem_append]; exact .inr this

/-- Every symbol's entry after the traversal: a path to one of its leaves, or untouched if it has none. -/
theorem record_cases (T : HTree) (p : List Bool) (t : Vector CodeEntry 256) (x : Sym) :
    (∃ q, T.HasPath q x ∧ codeAt (T.record p t) x = CodeEntry.ofPath (p ++ q)) ∨
      (x ∉ T.leaves.map Prod.fst ∧ codeAt (T.record p t) x = codeAt t x) := by
  induction T generalizing p t with
  | leaf y f =>
    by_cases h : x = y
    · subst h; exact .inl ⟨[], ⟨rfl, rfl⟩, by simp [record]⟩
    · exact .inr ⟨by simpa [leaves] using h, codeAt_codeSet_other _ _ h⟩
  | node l r ihl ihr =>
    rcases ihr (p ++ [true]) (l.record (p ++ [false]) t) with ⟨q, hq, hc⟩ | ⟨hr, hc⟩
    · exact .inl ⟨true :: q, by simpa [HasPath] using hq, by simp [record, hc]⟩
    · rcases ihl (p ++ [false]) t with ⟨q, hq, hd⟩ | ⟨hl, hd⟩
      · exact .inl ⟨false :: q, by simpa [HasPath] using hq, by simp [record, hc, hd]⟩
      · refine .inr ⟨?_, by simp [record, hc, hd]⟩
        simp only [leaves, List.map_append, List.mem_append, not_or]; exact ⟨hl, hr⟩

end HTree

/-- A node function that reads the entries of an arena. -/
def Reads (node : NodeId → Node) (l : List Node) : Prop := ∀ (i : NodeId) (n : Node), l[i.toNat]? = some n → node i = n

theorem reads_buildNodeAt (draw : Nat) (b : Build) : Reads (b.nodeAt draw) b.node := by
  intro i n h; simp [Build.nodeAt, h]

theorem HoldsTree.nodeAt_eq {s : State} (h : HoldsTree s) : nodeAt s = (buildTree s.freq).nodeAt s.nodeDraw := by
  funext i; simp [nodeAt, Build.nodeAt, h.node]

theorem reads_nodeAt (s : State) : Reads (nodeAt s) s.node := by
  intro i n h; simp [nodeAt, h]

/-- The traversal of an arena that holds a tree, if the tree is no deeper than allowed (42_codetable.md R151). -/
theorem walkCodes_holds {node : NodeId → Node} {l : List Node} (hr : Reads node l) {i : NodeId} {T : HTree}
    (h : Holds l i T) (d : Nat) (hd : T.depth < d) (p : List Bool) (t : Vector CodeEntry 256) :
    walkCodes node d i p t = some (T.record p t) := by
  induction h generalizing d p t with
  | leaf h =>
    obtain ⟨d, rfl⟩ : ∃ k, d = k + 1 := ⟨d - 1, by omega⟩
    simp [walkCodes, hr _ _ h, HTree.record]
  | node h _ _ _ iha ihb =>
    obtain ⟨d, rfl⟩ : ∃ k, d = k + 1 := ⟨d - 1, by omega⟩
    simp only [HTree.depth] at hd
    simp [walkCodes, hr _ _ h, HTree.record, iha d (by omega), ihb d (by omega)]

/-- A path of the tree is a path of the arena (`LeadsTo`). -/
theorem leadsTo_of_hasPath {node : NodeId → Node} {l : List Node} (hr : Reads node l) {i : NodeId} {T : HTree}
    (h : Holds l i T) {p : List Bool} {x : Sym} (hp : T.HasPath p x) : LeadsTo node i p x := by
  induction h generalizing p with
  | leaf h =>
    obtain ⟨rfl, rfl⟩ := hp
    simp [LeadsTo, follow, hr _ _ h]
  | @node i a b f A B h _ _ _ iha ihb =>
    cases p with
    | nil => exact hp.elim
    | cons c p =>
      have hn := hr _ _ h
      have step : LeadsTo node (if c then b else a) p x := by
        cases c
        · exact iha (by simpa [HTree.HasPath] using hp)
        · exact ihb (by simpa [HTree.HasPath] using hp)
      obtain ⟨h1, h2, h3⟩ := step
      refine ⟨by simpa [follow, hn] using h1, by simpa [follow, hn] using h2, fun k hk => ?_⟩
      cases k with
      | zero => simp [follow, hn]
      | succ k => simpa [follow, hn] using h3 k (by simpa using hk)

theorem mem_leafEntries_syms {f : Vector Word 256} {x : Sym} :
    x ∈ (leafEntries f).map Prod.fst ↔ present f x = true := by
  rw [leafEntries, List.map_map]
  have : (Prod.fst ∘ fun e : Sym × Word => (e.1, e.2.setWidth 40)) = Prod.fst := rfl
  rw [this, presentEntries_syms]
  simp [mem_allSyms]

end Sys2Proof.Machine
end

