-- ==== Sys2Proof/Laws/Arena.lean ====
section
/-! SUPPORT. The arena TBUILD fills (41_tree.md R131 to R135, 10_state.md R58): who is whose child, the sums, and that SEQ
stays sorted. -/

namespace Sys2Proof.Machine

/-- The ids that stand as children (10_state.md R58). -/
def children (l : List Node) : List NodeId := l.flatMap fun m => if m.kind = .internal then [m.left, m.right] else []

theorem children_append (l m : List Node) : children (l ++ m) = children l ++ children m := by simp [children]

/-- The ids of the first `n` entries. -/
def idsBelow (n : Nat) : List NodeId := (List.range n).map (BitVec.ofNat 9)

theorem idsBelow_succ (n : Nat) : idsBelow (n + 1) = idsBelow n ++ [BitVec.ofNat 9 n] := by
  simp [idsBelow, List.range_succ]

theorem mem_idsBelow {n : Nat} {i : NodeId} (hn : n ≤ 512) : i ∈ idsBelow n ↔ i.toNat < n := by
  simp only [idsBelow, List.mem_map, List.mem_range]
  constructor
  · rintro ⟨k, hk, rfl⟩; rw [toNat_newId (by omega)]; exact hk
  · intro h; exact ⟨i.toNat, h, by simp⟩

theorem nodup_idsBelow {n : Nat} (hn : n ≤ 512) : (idsBelow n).Nodup := by
  refine List.Nodup.map_on ?_ List.nodup_range
  intro a ha b hb h
  simp only [List.mem_range] at ha hb
  have := congrArg BitVec.toNat h
  rwa [toNat_newId (by omega), toNat_newId (by omega)] at this

/-- What TBUILD keeps true of the arena and SEQ: every id is either a child once or in SEQ once, and from entry `n` on
every entry is an internal node over two earlier ones whose freq is their sum. -/
structure Arena (n : Nat) (b : Build) : Prop where
  ids : (children b.node ++ b.seq).Perm (idsBelow b.node.length)
  inner : ∀ (k : Nat) (m : Node), n ≤ k → b.node[k]? = some m →
    m.kind = .internal ∧ m.sym = 0 ∧ m.left ≠ m.right ∧ m.left.toNat < k ∧ m.right.toNat < k ∧
      m.freq.toNat = (b.freqOf m.left).toNat + (b.freqOf m.right).toNat

/-- SEQ is sorted by ascending freq (41_tree.md R135). -/
def SeqSorted (b : Build) : Prop := b.seq.Pairwise fun i j => b.freqOf i ≤ b.freqOf j

namespace Arena

variable {n : Nat} {b : Build}

theorem seq_lt (h : Arena n b) (hb : b.node.length ≤ 512) {i : NodeId} (hi : i ∈ b.seq) : i.toNat < b.node.length :=
  (mem_idsBelow hb).1 (h.ids.subset (List.mem_append_right _ hi))

theorem seq_nodup (h : Arena n b) (hb : b.node.length ≤ 512) : b.seq.Nodup :=
  (List.nodup_append.1 (h.ids.nodup_iff.2 (nodup_idsBelow hb))).2.1

end Arena

theorem freqOf_append {b c : Build} {l : List Node} (h : c.node = b.node ++ l) {i : NodeId}
    (hi : i.toNat < b.node.length) : c.freqOf i = b.freqOf i := by
  simp [Build.freqOf, h, List.getElem?_append_left hi]

theorem Arena.addLeaf {n : Nat} {b : Build} (h : Arena n b) (hn : b.node.length < n) (x : Sym) (f : BitVec 40) :
    Arena n (b.addLeaf x f) := by
  refine ⟨?_, fun k m hk hm => ?_⟩
  · have e : children (b.addLeaf x f).node = children b.node := by simp [Build.addLeaf, children]
    rw [e]
    simp only [Build.addLeaf, List.length_append, List.length_singleton, idsBelow_succ]
    refine (List.Perm.append_left _ (insertAt_perm _ _ _)).trans ?_
    exact List.perm_middle.trans (((List.perm_cons _).2 h.ids).trans (List.perm_append_singleton _ _).symm)
  · have := (List.getElem?_eq_some_iff.1 hm).1
    simp [Build.addLeaf] at this; omega

theorem Arena.merge {n : Nat} {b : Build} (h : Arena n b) {l r : NodeId} {rest : List NodeId}
    (hs : b.seq = l :: r :: rest) (hb : b.node.length < 512)
    (hf : (b.freqOf l).toNat + (b.freqOf r).toNat < 2 ^ 40) : Arena n (b.merge l r rest) := by
  have hl := h.seq_lt (by omega) (i := l) (by simp [hs])
  have hr := h.seq_lt (by omega) (i := r) (by simp [hs])
  have hlr : l ≠ r := by
    have := h.seq_nodup (by omega)
    rw [hs] at this
    simp only [List.nodup_cons, List.mem_cons, not_or] at this
    exact this.1.1
  have hnode : (b.merge l r rest).node = b.node ++ [⟨.internal, 0, b.freqOf l + b.freqOf r, l, r⟩] := rfl
  have hseq : (b.merge l r rest).seq.Perm (BitVec.ofNat 9 b.node.length :: rest) := insertAt_perm _ _ _
  refine ⟨?_, fun k m hk hm => ?_⟩
  · rw [hnode, children_append, List.length_append, List.length_singleton, idsBelow_succ]
    have e : children [(⟨.internal, 0, b.freqOf l + b.freqOf r, l, r⟩ : Node)] = [l, r] := rfl
    rw [e, List.append_assoc]
    refine (List.Perm.append_left _ (List.Perm.append_left _ hseq)).trans ?_
    have h1 := h.ids
    rw [hs] at h1
    refine List.Perm.trans ?_ (List.perm_append_singleton _ _).symm
    refine List.Perm.trans ?_ ((List.perm_cons _).2 h1)
    rw [show (l :: r :: rest : List NodeId) = [l, r] ++ rest from rfl, ← List.append_assoc, ← List.append_assoc]
    exact List.perm_middle
  · rw [hnode] at hm
    rcases Nat.lt_trichotomy k b.node.length with hk' | rfl | hk'
    · rw [List.getElem?_append_left hk'] at hm
      obtain ⟨h1, h2, h3, h4, h5, h6⟩ := h.inner k m hk hm
      refine ⟨h1, h2, h3, h4, h5, ?_⟩
      rw [freqOf_append hnode (by omega), freqOf_append hnode (by omega)]; exact h6
    · simp only [List.getElem?_append_right (Nat.le_refl _), Nat.sub_self, List.getElem?_cons_zero,
        Option.some.injEq] at hm
      subst hm
      refine ⟨rfl, rfl, hlr, hl, hr, ?_⟩
      rw [freqOf_append hnode hl, freqOf_append hnode hr]
      show (b.freqOf l + b.freqOf r).toNat = _
      rw [BitVec.toNat_add, Nat.mod_eq_of_lt hf]
    · have := (List.getElem?_eq_some_iff.1 hm).1
      simp at this; omega

/-! ## The insertion positions (41_tree.md R132) -/

theorem afterEqual_before {b : Build} {f : BitVec 40} {k : Nat} {i : NodeId} (hk : k < b.afterEqual f)
    (hi : b.seq[k]? = some i) : b.freqOf i ≤ f := by
  obtain ⟨h1, rfl⟩ := List.getElem?_eq_some_iff.1 hi
  have := List.not_of_lt_findIdx hk
  simpa [BitVec.not_lt] using this

theorem afterEqual_at {b : Build} {f : BitVec 40} {i : NodeId} (hi : b.seq[b.afterEqual f]? = some i) :
    f < b.freqOf i := by
  obtain ⟨h1, rfl⟩ := List.getElem?_eq_some_iff.1 hi
  have := List.findIdx_getElem (w := h1)
  exact of_decide_eq_true this

theorem beforeEqual_before {b : Build} {f : BitVec 40} {k : Nat} {i : NodeId} (hk : k < b.beforeEqual f)
    (hi : b.seq[k]? = some i) : b.freqOf i < f := by
  obtain ⟨h1, rfl⟩ := List.getElem?_eq_some_iff.1 hi
  have := List.not_of_lt_findIdx hk
  simpa [BitVec.not_le] using this

theorem beforeEqual_at {b : Build} {f : BitVec 40} {i : NodeId} (hi : b.seq[b.beforeEqual f]? = some i) :
    f ≤ b.freqOf i := by
  obtain ⟨h1, rfl⟩ := List.getElem?_eq_some_iff.1 hi
  have := List.findIdx_getElem (w := h1)
  exact of_decide_eq_true this

/-- Inserting where everything before is related to the new element, and it to everything after, keeps a list ordered. -/
theorem pairwise_insertAt {q : List NodeId} {k : Nat} {x : NodeId} {R : NodeId → NodeId → Prop} (hq : q.Pairwise R)
    (h1 : ∀ i ∈ q.take k, R i x) (h2 : ∀ i ∈ q.drop k, R x i) : (insertAt q k x).Pairwise R := by
  rw [insertAt, List.pairwise_append]
  have hsplit := hq
  rw [← List.take_append_drop k q, List.pairwise_append] at hsplit
  obtain ⟨ht, hd, htd⟩ := hsplit
  refine ⟨ht, List.pairwise_cons.2 ⟨h2, hd⟩, fun i hi j hj => ?_⟩
  rcases List.mem_cons.1 hj with rfl | hj
  · exact h1 i hi
  · exact htd i hi j hj

theorem mem_take_getElem? {q : List NodeId} {k : Nat} {i : NodeId} (h : i ∈ q.take k) :
    ∃ j < k, q[j]? = some i := by
  obtain ⟨j, hj, rfl⟩ := List.getElem_of_mem h
  simp at hj
  exact ⟨j, by omega, by simp [hj]⟩

/-- In a list sorted by a key, everything from position `k` on is at least the element at `k`. -/
theorem le_of_mem_drop {q : List NodeId} {k : Nat} {key : NodeId → BitVec 40} (hq : q.Pairwise fun i j => key i ≤ key j)
    {f : BitVec 40} (hk : ∀ i, q[k]? = some i → f ≤ key i) {i : NodeId} (hi : i ∈ q.drop k) : f ≤ key i := by
  rcases hd : q.drop k with _ | ⟨a, l⟩
  · simp [hd] at hi
  · have ha : q[k]? = some a := by rw [← List.head?_drop, hd]; rfl
    have hp := hq.sublist (List.drop_sublist k q)
    rw [hd] at hp hi
    rcases List.mem_cons.1 hi with rfl | hi
    · exact hk _ ha
    · exact BitVec.le_trans (hk _ ha) ((List.pairwise_cons.1 hp).1 i hi)

theorem pairwise_congr {q : List NodeId} {key key' : NodeId → BitVec 40} (h : q.Pairwise fun i j => key i ≤ key j)
    (e : ∀ i ∈ q, key' i = key i) : q.Pairwise fun i j => key' i ≤ key' j :=
  h.imp_of_mem fun hi hj hij => by rwa [e _ hi, e _ hj]

theorem SeqSorted.addLeaf {n : Nat} {b : Build} (hs : SeqSorted b) (h : Arena n b) (hb : b.node.length < 512) (x : Sym)
    (f : BitVec 40) : SeqSorted (b.addLeaf x f) := by
  have hold : ∀ i ∈ b.seq, (b.addLeaf x f).freqOf i = b.freqOf i := fun i hi =>
    freqOf_append rfl (h.seq_lt (by omega) hi)
  have hnew : (b.addLeaf x f).freqOf (BitVec.ofNat 9 b.node.length) = f := by
    simp [Build.freqOf, toNat_newId hb, Build.addLeaf]
  refine pairwise_insertAt (pairwise_congr hs hold) (fun i hi => ?_) (fun i hi => ?_)
  · rw [hold i (List.mem_of_mem_take hi), hnew]
    obtain ⟨j, hj, hji⟩ := mem_take_getElem? hi
    exact afterEqual_before hj hji
  · rw [hold i (List.mem_of_mem_drop hi), hnew]
    exact le_of_mem_drop hs (fun i hi => BitVec.le_of_lt (afterEqual_at hi)) hi

theorem SeqSorted.merge {n : Nat} {b : Build} (hs : SeqSorted b) (h : Arena n b) (hb : b.node.length < 512)
    {l r : NodeId} {rest : List NodeId} (hq : b.seq = l :: r :: rest) : SeqSorted (b.merge l r rest) := by
  have hrest : ∀ i ∈ rest, i ∈ b.seq := fun i hi => by simp [hq, hi]
  have hold : ∀ i ∈ rest, (b.merge l r rest).freqOf i = b.freqOf i := fun i hi =>
    freqOf_append rfl (h.seq_lt (by omega) (hrest i hi))
  have hnew : (b.merge l r rest).freqOf (BitVec.ofNat 9 b.node.length) = b.freqOf l + b.freqOf r := by
    simp [Build.freqOf, toNat_newId hb, Build.merge]
  have hsr : rest.Pairwise fun i j => b.freqOf i ≤ b.freqOf j := by
    have := hs
    rw [SeqSorted, hq] at this
    exact (List.pairwise_cons.1 (List.pairwise_cons.1 this).2).2
  refine pairwise_insertAt (pairwise_congr hsr hold) (fun i hi => ?_) (fun i hi => ?_)
  · rw [hold i (List.mem_of_mem_take hi), hnew]
    obtain ⟨j, hj, hji⟩ := mem_take_getElem? hi
    exact BitVec.le_of_lt (beforeEqual_before (b := { b with seq := rest }) hj hji)
  · rw [hold i (List.mem_of_mem_drop hi), hnew]
    exact le_of_mem_drop hsr (fun i hi => beforeEqual_at (b := { b with seq := rest }) hi) hi

/-- The leaf phase, cut off anywhere (41_tree.md R131, R135). -/
theorem leafPhase_arena (f : Vector Word 256) (k : Nat) :
    let b := ((presentEntries f).take k).foldl (fun (b : Build) e => b.addLeaf e.1 (e.2.setWidth 40)) ⟨[], []⟩
    Arena (nsymOf f) b ∧ SeqSorted b ∧ b.node.length = ((presentEntries f).take k).length := by
  have key : ∀ (es : List (Sym × Word)) (b : Build), Arena (nsymOf f) b → SeqSorted b →
      b.node.length + es.length ≤ nsymOf f →
      let b' := es.foldl (fun (b : Build) e => b.addLeaf e.1 (e.2.setWidth 40)) b
      Arena (nsymOf f) b' ∧ SeqSorted b' ∧ b'.node.length = b.node.length + es.length := by
    intro es
    induction es with
    | nil => intro b h hs _; exact ⟨h, hs, rfl⟩
    | cons e es ih =>
      intro b h hs hl
      simp only [List.length_cons] at hl
      have hn := nsymOf_le f
      have hlen : (b.addLeaf e.1 (e.2.setWidth 40)).node.length = b.node.length + 1 := by simp [Build.addLeaf]
      obtain ⟨h1, h2, h3⟩ := ih (b.addLeaf e.1 (e.2.setWidth 40)) (h.addLeaf (by omega) _ _)
        (hs.addLeaf h (by omega) _ _) (by omega)
      exact ⟨h1, h2, by simp only [List.foldl_cons, List.length_cons]; omega⟩
  have := key ((presentEntries f).take k) ⟨[], []⟩ ⟨by simp [children, idsBelow], by simp⟩ List.Pairwise.nil
    (by simp only [List.length_nil, nsymOf, List.length_take]; omega)
  simpa using this

/-- SEQ in the leaf phase: ascending freq, equal freq in ascending id (41_tree.md R131, R132). -/
def LeafOrder (b : Build) : Prop :=
  b.seq.Pairwise fun i j => b.freqOf i < b.freqOf j ∨ b.freqOf i = b.freqOf j ∧ i < j

theorem LeafOrder.sorted {b : Build} (h : LeafOrder b) : SeqSorted b :=
  h.imp fun h => h.elim BitVec.le_of_lt fun h => BitVec.le_of_eq h.1

theorem LeafOrder.addLeaf {n : Nat} {b : Build} (hs : LeafOrder b) (h : Arena n b) (hb : b.node.length < 512) (x : Sym)
    (f : BitVec 40) : LeafOrder (b.addLeaf x f) := by
  have hlt : ∀ i ∈ b.seq, i.toNat < b.node.length := fun i hi => h.seq_lt (by omega) hi
  have hold : ∀ i ∈ b.seq, (b.addLeaf x f).freqOf i = b.freqOf i := fun i hi => freqOf_append rfl (hlt i hi)
  have hnew : (b.addLeaf x f).freqOf (BitVec.ofNat 9 b.node.length) = f := by
    simp [Build.freqOf, toNat_newId hb, Build.addLeaf]
  refine pairwise_insertAt (hs.imp_of_mem fun hi hj hij => by rwa [hold _ hi, hold _ hj]) (fun i hi => ?_) (fun i hi => ?_)
  · have hm := List.mem_of_mem_take hi
    obtain ⟨j, hj, hji⟩ := mem_take_getElem? hi
    rw [hold i hm, hnew]
    have hle := afterEqual_before hj hji
    have hid : i < BitVec.ofNat 9 b.node.length := by rw [BitVec.lt_def, toNat_newId hb]; exact hlt i hm
    bv_omega
  · rw [hold i (List.mem_of_mem_drop hi), hnew]
    refine .inl ?_
    rcases hd : b.seq.drop (b.afterEqual f) with _ | ⟨a, l⟩
    · simp [hd] at hi
    · have ha : b.seq[b.afterEqual f]? = some a := by rw [← List.head?_drop, hd]; rfl
      have hp := hs.sorted.sublist (List.drop_sublist (b.afterEqual f) _)
      rw [hd] at hp hi
      rcases List.mem_cons.1 hi with rfl | hi
      · exact afterEqual_at ha
      · exact Nat.lt_of_lt_of_le (afterEqual_at ha) ((List.pairwise_cons.1 hp).1 i hi)

/-- The leaf phase leaves equal frequencies in ascending id (41_tree.md R131, R132). -/
theorem leafPhase_order (f : Vector Word 256) : LeafOrder (leafPhase f) := by
  have hn := nsymOf_le f
  have key : ∀ k, k ≤ (presentEntries f).length →
      LeafOrder (((presentEntries f).take k).foldl (fun (b : Build) e => b.addLeaf e.1 (e.2.setWidth 40)) ⟨[], []⟩) := by
    intro k
    induction k with
    | zero => exact fun _ => List.Pairwise.nil
    | succ k ih =>
      intro hk
      obtain ⟨h1, -, h3⟩ := leafPhase_arena f k
      rw [List.take_succ_eq_append_getElem hk, List.foldl_append]
      refine (ih (by omega)).addLeaf h1 ?_ _ _
      rw [h3, List.length_take]
      have : (presentEntries f).length = nsymOf f := rfl
      omega
  have := key _ (Nat.le_refl _)
  rwa [List.take_length] at this

/-- The merge phase, cut off anywhere (41_tree.md R133, R135). -/
theorem mergePhase_arena {n : Nat} {es : List (Sym × BitVec 40)} (hn : es.length ≤ 256)
    (hw : (es.map fun e => e.2.toNat).sum < 2 ^ 40) (k : Nat) (b : Build) (h : Forest b es) (ha : Arena n b)
    (hs : SeqSorted b) : Arena n (mergePhase k b) ∧ SeqSorted (mergePhase k b) := by
  induction k generalizing b with
  | zero => exact ⟨ha, hs⟩
  | succ k ih =>
    unfold mergePhase
    split
    · rename_i l r rest hq
      have hlen : b.node.length < 512 := by
        have := h.count
        rw [hq] at this; simp only [List.length_cons] at this; omega
      obtain ⟨⟨Ts, hT, hp⟩, -, -⟩ := id h
      rw [hq] at hT
      obtain ⟨A, _, hA, hT', rfl⟩ := List.forall₂_cons_left_iff.1 hT
      obtain ⟨B, Us, hB, hU, rfl⟩ := List.forall₂_cons_left_iff.1 hT'
      have hsum := weights_eq hp
      simp only [List.map_cons, List.sum_cons] at hsum
      exact ih _ (h.merge hq hn hw) (ha.merge hq hlen (by rw [hA.freqOf, hB.freqOf]; omega)) (hs.merge ha hlen hq)
    · exact ⟨ha, hs⟩

/-- Every cut of the build after the leaf phase. -/
theorem mergePhase_leafPhase (f : Vector Word 256) (k : Nat) :
    Arena (nsymOf f) (mergePhase k (leafPhase f)) ∧ SeqSorted (mergePhase k (leafPhase f)) := by
  have h1 := leafPhase_arena f (presentEntries f).length
  rw [List.take_length] at h1
  exact mergePhase_arena (by rw [length_leafEntries]; exact nsymOf_le f) (by rw [sum_leafEntries]; exact totalOf_lt f) k _
    (leafPhase_spec f).1 h1.1 h1.2.1

theorem buildTree_arena (f : Vector Word 256) : Arena (nsymOf f) (buildTree f) := (mergePhase_leafPhase f _).1

/-- The first NSYM entries are the leaves in ascending symbol order (41_tree.md R131). -/
theorem buildTree_leaf (f : Vector Word 256) {k : Nat} {x : Sym} (h : (allSyms.filter (present f))[k]? = some x) :
    (buildTree f).node[k]? = some ⟨.leaf, x, (freqAt f x).setWidth 40, 0, 0⟩ := by
  obtain ⟨h1, h2⟩ := leafPhase_spec f
  obtain ⟨-, -, -, more, h4, -⟩ := mergePhase_spec (by rw [length_leafEntries]; exact nsymOf_le f)
    (by rw [sum_leafEntries]; exact totalOf_lt f) _ _ h1 (Nat.le_refl _)
  have hk := (List.getElem?_eq_some_iff.1 h).1
  have hl : (leafPhase f).node[k]? = some ⟨.leaf, x, (freqAt f x).setWidth 40, 0, 0⟩ := by
    rw [h2, leafEntries, presentEntries_eq]
    simp [h]
  rw [buildTree, h4, List.getElem?_append_left (List.getElem?_eq_some_iff.1 hl).1, hl]

/-- What leads to a leaf in the arena is a path of the tree. -/
theorem hasPath_of_leadsTo {node : NodeId → Node} {l : List Node} (hr : Reads node l) {i : NodeId} {T : HTree}
    (h : Holds l i T) {p : List Bool} {x : Sym} (hp : LeadsTo node i p x) : T.HasPath p x := by
  induction h generalizing p with
  | leaf h =>
    have hn := hr _ _ h
    cases p with
    | nil => exact ⟨rfl, by simpa [follow, hn] using hp.2.1⟩
    | cons b p => have := hp.2.2 0 (by simp); simp [follow, hn] at this
  | @node i a b f A B h _ _ _ iha ihb =>
    have hn := hr _ _ h
    cases p with
    | nil => have := hp.1; simp [follow, hn] at this
    | cons c p =>
      obtain ⟨h1, h2, h3⟩ := hp
      have step : LeadsTo node (if c then b else a) p x := by
        refine ⟨by simpa [follow, hn] using h1, by simpa [follow, hn] using h2, fun k hk => ?_⟩
        simpa [follow, hn] using h3 (k + 1) (by simpa using hk)
      cases c
      · simpa [HTree.HasPath] using iha step
      · simpa [HTree.HasPath] using ihb step

end Sys2Proof.Machine
end

