-- ==== Sys2Proof/Laws/CodeTable.lean ====
section
/-! SUPPORT. The code table of a FREQ as `TableFor` says it (42_codetable.md R150 to R152): CGEN stores it, it is the only
one, and its codes are prefix-free and complete. -/

namespace Sys2Proof.Machine

namespace HTree

/-- Two leaves on one path are the same leaf. -/
theorem HasPath.of_append {T : HTree} {p q : List Bool} {x y : Sym} (h : T.HasPath p x) (h' : T.HasPath (p ++ q) y) :
    q = [] ∧ x = y := by
  induction T generalizing p with
  | leaf z f =>
    obtain ⟨rfl, rfl⟩ := h
    obtain ⟨h1, h2⟩ := h'
    exact ⟨by simpa using h1, h2⟩
  | node l r ihl ihr =>
    cases p with
    | nil => exact h.elim
    | cons b p =>
      cases b
      · exact ihl (by simpa [HasPath] using h) (by simpa [HasPath] using h')
      · exact ihr (by simpa [HasPath] using h) (by simpa [HasPath] using h')

/-- A symbol that labels one leaf only has one path. -/
theorem HasPath.unique {T : HTree} (hn : (T.leaves.map Prod.fst).Nodup) {p q : List Bool} {x : Sym}
    (h : T.HasPath p x) (h' : T.HasPath q x) : p = q := by
  induction T generalizing p q with
  | leaf => rw [h.1, h'.1]
  | node l r ihl ihr =>
    simp only [leaves, List.map_append, List.nodup_append] at hn
    obtain ⟨hl, hr, hd⟩ := hn
    cases p with
    | nil => exact h.elim
    | cons a p =>
      cases q with
      | nil => exact h'.elim
      | cons b q =>
        cases a <;> cases b <;> simp only [HasPath, Bool.false_eq_true, if_false, if_true] at h h'
        · rw [ihl hl h h']
        · exact absurd rfl (hd _ h.mem _ h'.mem)
        · exact absurd rfl (hd _ h'.mem _ h.mem)
        · rw [ihr hr h h']

/-- Each leaf has a path; the sum of 2^(D − length) over the leaves is 2^D (R152). -/
theorem kraft (T : HTree) (hn : (T.leaves.map Prod.fst).Nodup) (len : Sym → Nat) (d D : Nat) (hD : d + T.depth ≤ D)
    (hl : ∀ x p, T.HasPath p x → len x = d + p.length) :
    (T.leaves.map fun e => 2 ^ (D - len e.1)).sum = 2 ^ (D - d) := by
  induction T generalizing d with
  | leaf x f => simp [leaves, hl x [] ⟨rfl, rfl⟩]
  | node l r ihl ihr =>
    simp only [leaves, List.map_append, List.nodup_append] at hn
    simp only [depth] at hD
    have h1 := ihl hn.1 (d + 1) (by omega) fun x p hp => by
      rw [hl x (false :: p) (by simpa [HasPath] using hp), List.length_cons]; omega
    have h2 := ihr hn.2.1 (d + 1) (by omega) fun x p hp => by
      rw [hl x (true :: p) (by simpa [HasPath] using hp), List.length_cons]; omega
    simp only [leaves, List.map_append, List.sum_append]
    rw [h1, h2, ← Nat.two_mul, ← Nat.pow_succ', show (D - (d + 1)).succ = D - d by omega]

end HTree

theorem nodup_leaves {f : Vector Word 256} {T : HTree} (h : T.leaves.Perm (leafEntries f)) :
    (T.leaves.map Prod.fst).Nodup := by
  rw [(h.map Prod.fst).nodup_iff, leafEntries, List.map_map]
  exact nodup_presentEntries f

/-- A present symbol needs a tree (41_tree.md R134). -/
theorem nsymOf_pos {f : Vector Word 256} {x : Sym} (h : present f x = true) : 0 < nsymOf f := by
  rcases Nat.eq_zero_or_pos (nsymOf f) with h0 | h0
  · simp [present, nsymOf_eq_zero.1 h0 x] at h
  · exact h0

/-- The tree of a FREQ with a present symbol, and every symbol's path in it. -/
theorem tree_of_pos {f : Vector Word 256} (h : 0 < nsymOf f) :
    ∃ r T, (buildTree f).root = some r ∧ Holds (buildTree f).node r T ∧ T.leaves.Perm (leafEntries f) ∧
      T.depth + 1 ≤ nsymOf f := by
  obtain ⟨r, T, hs, hT, hp, -, -⟩ := buildTree_spec h
  refine ⟨r, T, by rw [Build.root, hs], hT, hp, ?_⟩
  have := T.depth_lt
  rwa [hp.length_eq, length_leafEntries] at this

/-- What `TableFor` says of a present symbol, in terms of the tree. -/
theorem TableFor.path {f : Vector Word 256} {t : Vector CodeEntry 256} (h : TableFor f t) {x : Sym}
    (hx : present f x = true) : ∃ r T, (buildTree f).root = some r ∧ Holds (buildTree f).node r T ∧
      T.leaves.Perm (leafEntries f) ∧ T.HasPath (codeAt t x).bitString x ∧
      codeAt t x = CodeEntry.ofPath (codeAt t x).bitString ∧ (codeAt t x).bitString.length + 1 ≤ nsymOf f := by
  obtain ⟨r, T, hr, hT, hp, hd⟩ := tree_of_pos (nsymOf_pos hx)
  obtain ⟨r', p, hr', hl, he, hlead⟩ := (h x).1 hx
  have : r = r' := Option.some.inj (hr.symm.trans hr')
  subst this
  have hpath := hasPath_of_leadsTo (reads_buildNodeAt 0 _) hT (hlead 0)
  have hb : (codeAt t x).bitString = p := by rw [he, CodeEntry.bitString_ofPath (by omega)]
  refine ⟨r, T, hr, hT, hp, hb ▸ hpath, hb ▸ he, ?_⟩
  have := hpath.length_le
  rw [hb]; omega

theorem TableFor.absent {f : Vector Word 256} {t : Vector CodeEntry 256} (h : TableFor f t) {x : Sym}
    (hx : present f x = false) : codeAt t x = CodeEntry.none := (h x).2 hx

theorem TableFor.assigned {f : Vector Word 256} {t : Vector CodeEntry 256} (h : TableFor f t) (x : Sym) :
    (codeAt t x).assigned = present f x := by
  cases hx : present f x
  · rw [h.absent hx]; rfl
  · obtain ⟨_, _, _, _, _, _, he, _⟩ := h.path hx
    rw [he]; rfl

/-- The bits of a present symbol's code lead from ROOT to its leaf (R151). -/
theorem TableFor.leadsTo {f : Vector Word 256} {t : Vector CodeEntry 256} (h : TableFor f t) {x : Sym}
    (hx : present f x = true) (draw : Nat) :
    ∃ r, (buildTree f).root = some r ∧ LeadsTo ((buildTree f).nodeAt draw) r (codeAt t x).bitString x := by
  obtain ⟨r, T, hr, hT, _, hp, _, _⟩ := h.path hx
  exact ⟨r, hr, leadsTo_of_hasPath (reads_buildNodeAt draw _) hT hp⟩

/-- The table is the only one. -/
theorem TableFor.unique {f : Vector Word 256} {t u : Vector CodeEntry 256} (h : TableFor f t) (h' : TableFor f u) :
    t = u := by
  refine code_ext fun x => ?_
  cases hx : present f x
  · rw [h.absent hx, h'.absent hx]
  · obtain ⟨r, T, hr, hT, hp, h1, h2, _⟩ := h.path hx
    obtain ⟨r', T', hr', hT', hp', h1', h2', _⟩ := h'.path hx
    have : r = r' := Option.some.inj (hr.symm.trans hr')
    subst this
    have h3 := hasPath_of_leadsTo (reads_buildNodeAt 0 _) hT (leadsTo_of_hasPath (reads_buildNodeAt 0 _) hT' h1')
    rw [h2, h2', HTree.HasPath.unique (nodup_leaves hp) h1 h3]

/-- CGEN's table (R150). -/
theorem tableFor_codesOf (f : Vector Word 256) :
    ∃ t, TableFor f t ∧ ∀ draw, codesOf ((buildTree f).nodeAt draw) (buildTree f).root = some t := by
  rcases Nat.eq_zero_or_pos (nsymOf f) with h | h
  · refine ⟨emptyCodes, fun x => ?_, fun _ => by simp [buildTree_empty h, Build.root, codesOf]⟩
    exact ⟨fun hx => by simp [present, nsymOf_eq_zero.1 h x] at hx, fun _ => codeAt_emptyCodes x⟩
  · obtain ⟨r, T, hr, hT, hp, hd⟩ := tree_of_pos h
    have hn := nsymOf_le f
    refine ⟨T.record [] emptyCodes, fun x => ?_, fun draw => ?_⟩
    · have hx : x ∈ T.leaves.map Prod.fst ↔ present f x = true := by
        rw [(hp.map Prod.fst).mem_iff, mem_leafEntries_syms]
      rcases T.record_cases [] emptyCodes x with ⟨q, hq, hc⟩ | ⟨hx', hc⟩
      · have := hq.length_le
        exact ⟨fun _ => ⟨r, q, hr, by omega, by simpa using hc, fun draw =>
          leadsTo_of_hasPath (reads_buildNodeAt draw _) hT hq⟩, fun hf => by simp [hx.1 hq.mem] at hf⟩
      · exact ⟨fun ht => absurd (hx.2 ht) hx', fun _ => by rw [hc, codeAt_emptyCodes]⟩
    · rw [hr, codesOf]
      exact walkCodes_holds (reads_buildNodeAt draw _) hT _ (by simp only [codeCap]; omega) _ _

/-- A state that holds the tree of its FREQ has the table of its FREQ. -/
theorem HoldsTree.codesOf {s : State} (h : HoldsTree s) :
    ∃ t, TableFor s.freq t ∧ codesOf (nodeAt s) s.root = some t := by
  obtain ⟨t, h1, h2⟩ := tableFor_codesOf s.freq
  exact ⟨t, h1, by rw [h.nodeAt_eq, h.root]; exact h2 _⟩

/-- No code is a prefix of another (R152). -/
theorem TableFor.prefixFree {f : Vector Word 256} {t : Vector CodeEntry 256} (h : TableFor f t) {x y : Sym}
    (hx : present f x = true) (hy : present f y = true) (hp : (codeAt t x).bitString <+: (codeAt t y).bitString) :
    x = y := by
  obtain ⟨r, T, hr, hT, _, h1, _, _⟩ := h.path hx
  obtain ⟨r', T', hr', hT', _, h2, _, _⟩ := h.path hy
  have : r = r' := Option.some.inj (hr.symm.trans hr')
  subst this
  have h3 := hasPath_of_leadsTo (reads_buildNodeAt 0 _) hT (leadsTo_of_hasPath (reads_buildNodeAt 0 _) hT' h2)
  obtain ⟨q, hq⟩ := hp
  exact (HTree.HasPath.of_append h1 (q := q) (by rw [hq]; exact h3)).2

theorem TableFor.len_eq {f : Vector Word 256} {t : Vector CodeEntry 256} (h : TableFor f t) {x : Sym}
    (hx : present f x = true) : (codeAt t x).len.toNat + 1 ≤ nsymOf f := by
  obtain ⟨_, _, _, _, _, _, _, hl⟩ := h.path hx
  simpa using hl

/-- With two symbols or more every code has a bit (R152). -/
theorem TableFor.len_pos {f : Vector Word 256} {t : Vector CodeEntry 256} (h : TableFor f t) {x : Sym}
    (hx : present f x = true) (hn : 2 ≤ nsymOf f) : 1 ≤ (codeAt t x).len.toNat := by
  obtain ⟨r, T, hr, hT, hp, h1, _, _⟩ := h.path hx
  rw [← CodeEntry.length_bitString]
  rcases hb : (codeAt t x).bitString with _ | ⟨b, l⟩
  · rw [hb] at h1
    cases T with
    | leaf y g =>
      have := hp.length_eq
      rw [length_leafEntries] at this
      simp [HTree.leaves] at this; omega
    | node l r => exact h1.elim
  · simp

/-- The code lengths fill the code space (R152). -/
theorem TableFor.kraft {f : Vector Word 256} {t : Vector CodeEntry 256} (h : TableFor f t) (hn : 0 < nsymOf f) :
    ((allSyms.filter (present f)).map fun x => 2 ^ (256 - (codeAt t x).len.toNat)).sum = 2 ^ 256 := by
  obtain ⟨r, T, hr, hT, hp, hd⟩ := tree_of_pos hn
  have hnn := nsymOf_le f
  have hl : ∀ x p, T.HasPath p x → (codeAt t x).len.toNat = 0 + p.length := fun x p hx => by
    have hpres : present f x = true := by
      rw [← mem_leafEntries_syms, ← (hp.map Prod.fst).mem_iff]; exact hx.mem
    obtain ⟨r', T', hr', hT', _, h1, _, _⟩ := h.path hpres
    have : r = r' := Option.some.inj (hr.symm.trans hr')
    subst this
    have h3 := hasPath_of_leadsTo (reads_buildNodeAt 0 _) hT (leadsTo_of_hasPath (reads_buildNodeAt 0 _) hT' h1)
    rw [HTree.HasPath.unique (nodup_leaves hp) hx h3]; simp
  have k := T.kraft (nodup_leaves hp) (fun x => (codeAt t x).len.toNat) 0 256 (by omega) hl
  have e : T.leaves.map (fun e => 2 ^ (256 - (codeAt t e.1).len.toNat))
      = (T.leaves.map Prod.fst).map fun x => 2 ^ (256 - (codeAt t x).len.toNat) := by rw [List.map_map]; rfl
  rw [e] at k
  have hs : (T.leaves.map Prod.fst).Perm (allSyms.filter (present f)) := by
    rw [← presentEntries_syms]
    refine (hp.map Prod.fst).trans ?_
    rw [leafEntries, List.map_map]
    exact .refl _
  rw [← (hs.map _).sum_eq]
  exact k

end Sys2Proof.Machine
end

