-- ==== Sys2Proof/Laws/State.lean ====
section
/-! SUPPORT. One lemma per field per named update of the state, true by unfolding the update, so that no later proof
unfolds a record update. After `raise` the fields R244 leaves unspecified have no lemma: they are free. -/

namespace Sys2Proof.Machine

@[simp] theorem freqChanged_cfg (s : State) : (freqChanged s).cfg = s.cfg := rfl
@[simp] theorem freqChanged_freq (s : State) : (freqChanged s).freq = s.freq := rfl
@[simp] theorem freqChanged_width (s : State) : (freqChanged s).width = 0 := rfl
@[simp] theorem freqChanged_node (s : State) : (freqChanged s).node = s.node := rfl
@[simp] theorem freqChanged_nodeDraw (s : State) : (freqChanged s).nodeDraw = s.nodeDraw := rfl
@[simp] theorem freqChanged_nnodes (s : State) : (freqChanged s).nnodes = s.nnodes := rfl
@[simp] theorem freqChanged_root (s : State) : (freqChanged s).root = s.root := rfl
@[simp] theorem freqChanged_seq (s : State) : (freqChanged s).seq = s.seq := rfl
@[simp] theorem freqChanged_treeValid (s : State) : (freqChanged s).treeValid = false := rfl
@[simp] theorem freqChanged_code (s : State) : (freqChanged s).code = s.code := rfl
@[simp] theorem freqChanged_codesValid (s : State) : (freqChanged s).codesValid = false := rfl
@[simp] theorem freqChanged_acc (s : State) : (freqChanged s).acc = s.acc := rfl
@[simp] theorem freqChanged_nbits (s : State) : (freqChanged s).nbits = s.nbits := rfl
@[simp] theorem freqChanged_cur (s : State) : (freqChanged s).cur = s.cur := rfl
@[simp] theorem freqChanged_rem (s : State) : (freqChanged s).rem = s.rem := rfl
@[simp] theorem freqChanged_emit (s : State) : (freqChanged s).emit = s.emit := rfl
@[simp] theorem freqChanged_inCount (s : State) : (freqChanged s).inCount = s.inCount := rfl
@[simp] theorem freqChanged_outCount (s : State) : (freqChanged s).outCount = s.outCount := rfl
@[simp] theorem freqChanged_lArg (s : State) : (freqChanged s).lArg = s.lArg := rfl
@[simp] theorem freqChanged_lIlen (s : State) : (freqChanged s).lIlen = s.lIlen := rfl
@[simp] theorem freqChanged_lSym (s : State) : (freqChanged s).lSym = s.lSym := rfl
@[simp] theorem freqChanged_errcode (s : State) : (freqChanged s).errcode = s.errcode := rfl
@[simp] theorem freqChanged_errOffset (s : State) : (freqChanged s).errOffset = s.errOffset := rfl
@[simp] theorem freqChanged_errExpected (s : State) : (freqChanged s).errExpected = s.errExpected := rfl
@[simp] theorem freqChanged_errActual (s : State) : (freqChanged s).errActual = s.errActual := rfl
@[simp] theorem freqChanged_errValid (s : State) : (freqChanged s).errValid = s.errValid := rfl
@[simp] theorem freqChanged_errPort (s : State) : (freqChanged s).errPort = s.errPort := rfl
@[simp] theorem freqChanged_err (s : State) : (freqChanged s).err = s.err := rfl
@[simp] theorem freqChanged_cmdOvr (s : State) : (freqChanged s).cmdOvr = s.cmdOvr := rfl
@[simp] theorem freqChanged_busy (s : State) : (freqChanged s).busy = s.busy := rfl
@[simp] theorem freqChanged_curCmd (s : State) : (freqChanged s).curCmd = s.curCmd := rfl
@[simp] theorem freqChanged_arg (s : State) : (freqChanged s).arg = s.arg := rfl
@[simp] theorem freqChanged_ilen (s : State) : (freqChanged s).ilen = s.ilen := rfl
@[simp] theorem freqChanged_freqSel (s : State) : (freqChanged s).freqSel = s.freqSel := rfl
@[simp] theorem freqChanged_codeSel (s : State) : (freqChanged s).codeSel = s.codeSel := rfl
@[simp] theorem freqChanged_ibuf (s : State) : (freqChanged s).ibuf = s.ibuf := rfl
@[simp] theorem freqChanged_ibufDraw (s : State) : (freqChanged s).ibufDraw = s.ibufDraw := rfl
@[simp] theorem freqChanged_cont (s : State) : (freqChanged s).cont = s.cont := rfl
@[simp] theorem freqChanged_waitOn (s : State) : (freqChanged s).waitOn = s.waitOn := rfl
@[simp] theorem freqChanged_src (s : State) : (freqChanged s).src = s.src := rfl
@[simp] theorem freqChanged_snk (s : State) : (freqChanged s).snk = s.snk := rfl
@[simp] theorem freqChanged_snkAns (s : State) : (freqChanged s).snkAns = s.snkAns := rfl
@[simp] theorem freqChanged_snkStanding (s : State) : (freqChanged s).snkStanding = s.snkStanding := rfl
@[simp] theorem freqChanged_hostOps (s : State) : (freqChanged s).hostOps = s.hostOps := rfl
@[simp] theorem freqChanged_notes (s : State) : (freqChanged s).notes = s.notes := rfl
@[simp] theorem freqChanged_sched (s : State) : (freqChanged s).sched = s.sched := rfl
@[simp] theorem freqChanged_draws (s : State) : (freqChanged s).draws = s.draws := rfl

@[simp] theorem storeFreq_cfg (f : Vector Word 256) (s : State) : (storeFreq f s).cfg = s.cfg := rfl
@[simp] theorem storeFreq_freq (f : Vector Word 256) (s : State) : (storeFreq f s).freq = f := rfl
@[simp] theorem storeFreq_width (f : Vector Word 256) (s : State) : (storeFreq f s).width = 0 := rfl
@[simp] theorem storeFreq_node (f : Vector Word 256) (s : State) : (storeFreq f s).node = s.node := rfl
@[simp] theorem storeFreq_nodeDraw (f : Vector Word 256) (s : State) : (storeFreq f s).nodeDraw = s.nodeDraw := rfl
@[simp] theorem storeFreq_nnodes (f : Vector Word 256) (s : State) : (storeFreq f s).nnodes = s.nnodes := rfl
@[simp] theorem storeFreq_root (f : Vector Word 256) (s : State) : (storeFreq f s).root = s.root := rfl
@[simp] theorem storeFreq_seq (f : Vector Word 256) (s : State) : (storeFreq f s).seq = s.seq := rfl
@[simp] theorem storeFreq_treeValid (f : Vector Word 256) (s : State) : (storeFreq f s).treeValid = false := rfl
@[simp] theorem storeFreq_code (f : Vector Word 256) (s : State) : (storeFreq f s).code = s.code := rfl
@[simp] theorem storeFreq_codesValid (f : Vector Word 256) (s : State) : (storeFreq f s).codesValid = false := rfl
@[simp] theorem storeFreq_acc (f : Vector Word 256) (s : State) : (storeFreq f s).acc = s.acc := rfl
@[simp] theorem storeFreq_nbits (f : Vector Word 256) (s : State) : (storeFreq f s).nbits = s.nbits := rfl
@[simp] theorem storeFreq_cur (f : Vector Word 256) (s : State) : (storeFreq f s).cur = s.cur := rfl
@[simp] theorem storeFreq_rem (f : Vector Word 256) (s : State) : (storeFreq f s).rem = s.rem := rfl
@[simp] theorem storeFreq_emit (f : Vector Word 256) (s : State) : (storeFreq f s).emit = s.emit := rfl
@[simp] theorem storeFreq_inCount (f : Vector Word 256) (s : State) : (storeFreq f s).inCount = s.inCount := rfl
@[simp] theorem storeFreq_outCount (f : Vector Word 256) (s : State) : (storeFreq f s).outCount = s.outCount := rfl
@[simp] theorem storeFreq_lArg (f : Vector Word 256) (s : State) : (storeFreq f s).lArg = s.lArg := rfl
@[simp] theorem storeFreq_lIlen (f : Vector Word 256) (s : State) : (storeFreq f s).lIlen = s.lIlen := rfl
@[simp] theorem storeFreq_lSym (f : Vector Word 256) (s : State) : (storeFreq f s).lSym = s.lSym := rfl
@[simp] theorem storeFreq_errcode (f : Vector Word 256) (s : State) : (storeFreq f s).errcode = s.errcode := rfl
@[simp] theorem storeFreq_errOffset (f : Vector Word 256) (s : State) : (storeFreq f s).errOffset = s.errOffset := rfl
@[simp] theorem storeFreq_errExpected (f : Vector Word 256) (s : State) : (storeFreq f s).errExpected = s.errExpected := rfl
@[simp] theorem storeFreq_errActual (f : Vector Word 256) (s : State) : (storeFreq f s).errActual = s.errActual := rfl
@[simp] theorem storeFreq_errValid (f : Vector Word 256) (s : State) : (storeFreq f s).errValid = s.errValid := rfl
@[simp] theorem storeFreq_errPort (f : Vector Word 256) (s : State) : (storeFreq f s).errPort = s.errPort := rfl
@[simp] theorem storeFreq_err (f : Vector Word 256) (s : State) : (storeFreq f s).err = s.err := rfl
@[simp] theorem storeFreq_cmdOvr (f : Vector Word 256) (s : State) : (storeFreq f s).cmdOvr = s.cmdOvr := rfl
@[simp] theorem storeFreq_busy (f : Vector Word 256) (s : State) : (storeFreq f s).busy = s.busy := rfl
@[simp] theorem storeFreq_curCmd (f : Vector Word 256) (s : State) : (storeFreq f s).curCmd = s.curCmd := rfl
@[simp] theorem storeFreq_arg (f : Vector Word 256) (s : State) : (storeFreq f s).arg = s.arg := rfl
@[simp] theorem storeFreq_ilen (f : Vector Word 256) (s : State) : (storeFreq f s).ilen = s.ilen := rfl
@[simp] theorem storeFreq_freqSel (f : Vector Word 256) (s : State) : (storeFreq f s).freqSel = s.freqSel := rfl
@[simp] theorem storeFreq_codeSel (f : Vector Word 256) (s : State) : (storeFreq f s).codeSel = s.codeSel := rfl
@[simp] theorem storeFreq_ibuf (f : Vector Word 256) (s : State) : (storeFreq f s).ibuf = s.ibuf := rfl
@[simp] theorem storeFreq_ibufDraw (f : Vector Word 256) (s : State) : (storeFreq f s).ibufDraw = s.ibufDraw := rfl
@[simp] theorem storeFreq_cont (f : Vector Word 256) (s : State) : (storeFreq f s).cont = s.cont := rfl
@[simp] theorem storeFreq_waitOn (f : Vector Word 256) (s : State) : (storeFreq f s).waitOn = s.waitOn := rfl
@[simp] theorem storeFreq_src (f : Vector Word 256) (s : State) : (storeFreq f s).src = s.src := rfl
@[simp] theorem storeFreq_snk (f : Vector Word 256) (s : State) : (storeFreq f s).snk = s.snk := rfl
@[simp] theorem storeFreq_snkAns (f : Vector Word 256) (s : State) : (storeFreq f s).snkAns = s.snkAns := rfl
@[simp] theorem storeFreq_snkStanding (f : Vector Word 256) (s : State) : (storeFreq f s).snkStanding = s.snkStanding := rfl
@[simp] theorem storeFreq_hostOps (f : Vector Word 256) (s : State) : (storeFreq f s).hostOps = s.hostOps := rfl
@[simp] theorem storeFreq_notes (f : Vector Word 256) (s : State) : (storeFreq f s).notes = s.notes := rfl
@[simp] theorem storeFreq_sched (f : Vector Word 256) (s : State) : (storeFreq f s).sched = s.sched := rfl
@[simp] theorem storeFreq_draws (f : Vector Word 256) (s : State) : (storeFreq f s).draws = s.draws := rfl

@[simp] theorem writeFreq_cfg (x : Sym) (v : Word) (s : State) : (writeFreq x v s).cfg = s.cfg := rfl
@[simp] theorem writeFreq_freq (x : Sym) (v : Word) (s : State) : (writeFreq x v s).freq = freqSet s.freq x v := rfl
@[simp] theorem writeFreq_width (x : Sym) (v : Word) (s : State) : (writeFreq x v s).width = 0 := rfl
@[simp] theorem writeFreq_node (x : Sym) (v : Word) (s : State) : (writeFreq x v s).node = s.node := rfl
@[simp] theorem writeFreq_nodeDraw (x : Sym) (v : Word) (s : State) : (writeFreq x v s).nodeDraw = s.nodeDraw := rfl
@[simp] theorem writeFreq_nnodes (x : Sym) (v : Word) (s : State) : (writeFreq x v s).nnodes = s.nnodes := rfl
@[simp] theorem writeFreq_root (x : Sym) (v : Word) (s : State) : (writeFreq x v s).root = s.root := rfl
@[simp] theorem writeFreq_seq (x : Sym) (v : Word) (s : State) : (writeFreq x v s).seq = s.seq := rfl
@[simp] theorem writeFreq_treeValid (x : Sym) (v : Word) (s : State) : (writeFreq x v s).treeValid = false := rfl
@[simp] theorem writeFreq_code (x : Sym) (v : Word) (s : State) : (writeFreq x v s).code = s.code := rfl
@[simp] theorem writeFreq_codesValid (x : Sym) (v : Word) (s : State) : (writeFreq x v s).codesValid = false := rfl
@[simp] theorem writeFreq_acc (x : Sym) (v : Word) (s : State) : (writeFreq x v s).acc = s.acc := rfl
@[simp] theorem writeFreq_nbits (x : Sym) (v : Word) (s : State) : (writeFreq x v s).nbits = s.nbits := rfl
@[simp] theorem writeFreq_cur (x : Sym) (v : Word) (s : State) : (writeFreq x v s).cur = s.cur := rfl
@[simp] theorem writeFreq_rem (x : Sym) (v : Word) (s : State) : (writeFreq x v s).rem = s.rem := rfl
@[simp] theorem writeFreq_emit (x : Sym) (v : Word) (s : State) : (writeFreq x v s).emit = s.emit := rfl
@[simp] theorem writeFreq_inCount (x : Sym) (v : Word) (s : State) : (writeFreq x v s).inCount = s.inCount := rfl
@[simp] theorem writeFreq_outCount (x : Sym) (v : Word) (s : State) : (writeFreq x v s).outCount = s.outCount := rfl
@[simp] theorem writeFreq_lArg (x : Sym) (v : Word) (s : State) : (writeFreq x v s).lArg = s.lArg := rfl
@[simp] theorem writeFreq_lIlen (x : Sym) (v : Word) (s : State) : (writeFreq x v s).lIlen = s.lIlen := rfl
@[simp] theorem writeFreq_lSym (x : Sym) (v : Word) (s : State) : (writeFreq x v s).lSym = s.lSym := rfl
@[simp] theorem writeFreq_errcode (x : Sym) (v : Word) (s : State) : (writeFreq x v s).errcode = s.errcode := rfl
@[simp] theorem writeFreq_errOffset (x : Sym) (v : Word) (s : State) : (writeFreq x v s).errOffset = s.errOffset := rfl
@[simp] theorem writeFreq_errExpected (x : Sym) (v : Word) (s : State) : (writeFreq x v s).errExpected = s.errExpected := rfl
@[simp] theorem writeFreq_errActual (x : Sym) (v : Word) (s : State) : (writeFreq x v s).errActual = s.errActual := rfl
@[simp] theorem writeFreq_errValid (x : Sym) (v : Word) (s : State) : (writeFreq x v s).errValid = s.errValid := rfl
@[simp] theorem writeFreq_errPort (x : Sym) (v : Word) (s : State) : (writeFreq x v s).errPort = s.errPort := rfl
@[simp] theorem writeFreq_err (x : Sym) (v : Word) (s : State) : (writeFreq x v s).err = s.err := rfl
@[simp] theorem writeFreq_cmdOvr (x : Sym) (v : Word) (s : State) : (writeFreq x v s).cmdOvr = s.cmdOvr := rfl
@[simp] theorem writeFreq_busy (x : Sym) (v : Word) (s : State) : (writeFreq x v s).busy = s.busy := rfl
@[simp] theorem writeFreq_curCmd (x : Sym) (v : Word) (s : State) : (writeFreq x v s).curCmd = s.curCmd := rfl
@[simp] theorem writeFreq_arg (x : Sym) (v : Word) (s : State) : (writeFreq x v s).arg = s.arg := rfl
@[simp] theorem writeFreq_ilen (x : Sym) (v : Word) (s : State) : (writeFreq x v s).ilen = s.ilen := rfl
@[simp] theorem writeFreq_freqSel (x : Sym) (v : Word) (s : State) : (writeFreq x v s).freqSel = s.freqSel := rfl
@[simp] theorem writeFreq_codeSel (x : Sym) (v : Word) (s : State) : (writeFreq x v s).codeSel = s.codeSel := rfl
@[simp] theorem writeFreq_ibuf (x : Sym) (v : Word) (s : State) : (writeFreq x v s).ibuf = s.ibuf := rfl
@[simp] theorem writeFreq_ibufDraw (x : Sym) (v : Word) (s : State) : (writeFreq x v s).ibufDraw = s.ibufDraw := rfl
@[simp] theorem writeFreq_cont (x : Sym) (v : Word) (s : State) : (writeFreq x v s).cont = s.cont := rfl
@[simp] theorem writeFreq_waitOn (x : Sym) (v : Word) (s : State) : (writeFreq x v s).waitOn = s.waitOn := rfl
@[simp] theorem writeFreq_src (x : Sym) (v : Word) (s : State) : (writeFreq x v s).src = s.src := rfl
@[simp] theorem writeFreq_snk (x : Sym) (v : Word) (s : State) : (writeFreq x v s).snk = s.snk := rfl
@[simp] theorem writeFreq_snkAns (x : Sym) (v : Word) (s : State) : (writeFreq x v s).snkAns = s.snkAns := rfl
@[simp] theorem writeFreq_snkStanding (x : Sym) (v : Word) (s : State) : (writeFreq x v s).snkStanding = s.snkStanding := rfl
@[simp] theorem writeFreq_hostOps (x : Sym) (v : Word) (s : State) : (writeFreq x v s).hostOps = s.hostOps := rfl
@[simp] theorem writeFreq_notes (x : Sym) (v : Word) (s : State) : (writeFreq x v s).notes = s.notes := rfl
@[simp] theorem writeFreq_sched (x : Sym) (v : Word) (s : State) : (writeFreq x v s).sched = s.sched := rfl
@[simp] theorem writeFreq_draws (x : Sym) (v : Word) (s : State) : (writeFreq x v s).draws = s.draws := rfl

@[simp] theorem storeWidth_cfg (w : Nat) (s : State) : (storeWidth w s).cfg = s.cfg := rfl
@[simp] theorem storeWidth_freq (w : Nat) (s : State) : (storeWidth w s).freq = s.freq := rfl
@[simp] theorem storeWidth_width (w : Nat) (s : State) : (storeWidth w s).width = BitVec.ofNat 3 w := rfl
@[simp] theorem storeWidth_node (w : Nat) (s : State) : (storeWidth w s).node = s.node := rfl
@[simp] theorem storeWidth_nodeDraw (w : Nat) (s : State) : (storeWidth w s).nodeDraw = s.nodeDraw := rfl
@[simp] theorem storeWidth_nnodes (w : Nat) (s : State) : (storeWidth w s).nnodes = s.nnodes := rfl
@[simp] theorem storeWidth_root (w : Nat) (s : State) : (storeWidth w s).root = s.root := rfl
@[simp] theorem storeWidth_seq (w : Nat) (s : State) : (storeWidth w s).seq = s.seq := rfl
@[simp] theorem storeWidth_treeValid (w : Nat) (s : State) : (storeWidth w s).treeValid = s.treeValid := rfl
@[simp] theorem storeWidth_code (w : Nat) (s : State) : (storeWidth w s).code = s.code := rfl
@[simp] theorem storeWidth_codesValid (w : Nat) (s : State) : (storeWidth w s).codesValid = s.codesValid := rfl
@[simp] theorem storeWidth_acc (w : Nat) (s : State) : (storeWidth w s).acc = s.acc := rfl
@[simp] theorem storeWidth_nbits (w : Nat) (s : State) : (storeWidth w s).nbits = s.nbits := rfl
@[simp] theorem storeWidth_cur (w : Nat) (s : State) : (storeWidth w s).cur = s.cur := rfl
@[simp] theorem storeWidth_rem (w : Nat) (s : State) : (storeWidth w s).rem = s.rem := rfl
@[simp] theorem storeWidth_emit (w : Nat) (s : State) : (storeWidth w s).emit = s.emit := rfl
@[simp] theorem storeWidth_inCount (w : Nat) (s : State) : (storeWidth w s).inCount = s.inCount := rfl
@[simp] theorem storeWidth_outCount (w : Nat) (s : State) : (storeWidth w s).outCount = s.outCount := rfl
@[simp] theorem storeWidth_lArg (w : Nat) (s : State) : (storeWidth w s).lArg = s.lArg := rfl
@[simp] theorem storeWidth_lIlen (w : Nat) (s : State) : (storeWidth w s).lIlen = s.lIlen := rfl
@[simp] theorem storeWidth_lSym (w : Nat) (s : State) : (storeWidth w s).lSym = s.lSym := rfl
@[simp] theorem storeWidth_errcode (w : Nat) (s : State) : (storeWidth w s).errcode = s.errcode := rfl
@[simp] theorem storeWidth_errOffset (w : Nat) (s : State) : (storeWidth w s).errOffset = s.errOffset := rfl
@[simp] theorem storeWidth_errExpected (w : Nat) (s : State) : (storeWidth w s).errExpected = s.errExpected := rfl
@[simp] theorem storeWidth_errActual (w : Nat) (s : State) : (storeWidth w s).errActual = s.errActual := rfl
@[simp] theorem storeWidth_errValid (w : Nat) (s : State) : (storeWidth w s).errValid = s.errValid := rfl
@[simp] theorem storeWidth_errPort (w : Nat) (s : State) : (storeWidth w s).errPort = s.errPort := rfl
@[simp] theorem storeWidth_err (w : Nat) (s : State) : (storeWidth w s).err = s.err := rfl
@[simp] theorem storeWidth_cmdOvr (w : Nat) (s : State) : (storeWidth w s).cmdOvr = s.cmdOvr := rfl
@[simp] theorem storeWidth_busy (w : Nat) (s : State) : (storeWidth w s).busy = s.busy := rfl
@[simp] theorem storeWidth_curCmd (w : Nat) (s : State) : (storeWidth w s).curCmd = s.curCmd := rfl
@[simp] theorem storeWidth_arg (w : Nat) (s : State) : (storeWidth w s).arg = s.arg := rfl
@[simp] theorem storeWidth_ilen (w : Nat) (s : State) : (storeWidth w s).ilen = s.ilen := rfl
@[simp] theorem storeWidth_freqSel (w : Nat) (s : State) : (storeWidth w s).freqSel = s.freqSel := rfl
@[simp] theorem storeWidth_codeSel (w : Nat) (s : State) : (storeWidth w s).codeSel = s.codeSel := rfl
@[simp] theorem storeWidth_ibuf (w : Nat) (s : State) : (storeWidth w s).ibuf = s.ibuf := rfl
@[simp] theorem storeWidth_ibufDraw (w : Nat) (s : State) : (storeWidth w s).ibufDraw = s.ibufDraw := rfl
@[simp] theorem storeWidth_cont (w : Nat) (s : State) : (storeWidth w s).cont = s.cont := rfl
@[simp] theorem storeWidth_waitOn (w : Nat) (s : State) : (storeWidth w s).waitOn = s.waitOn := rfl
@[simp] theorem storeWidth_src (w : Nat) (s : State) : (storeWidth w s).src = s.src := rfl
@[simp] theorem storeWidth_snk (w : Nat) (s : State) : (storeWidth w s).snk = s.snk := rfl
@[simp] theorem storeWidth_snkAns (w : Nat) (s : State) : (storeWidth w s).snkAns = s.snkAns := rfl
@[simp] theorem storeWidth_snkStanding (w : Nat) (s : State) : (storeWidth w s).snkStanding = s.snkStanding := rfl
@[simp] theorem storeWidth_hostOps (w : Nat) (s : State) : (storeWidth w s).hostOps = s.hostOps := rfl
@[simp] theorem storeWidth_notes (w : Nat) (s : State) : (storeWidth w s).notes = s.notes := rfl
@[simp] theorem storeWidth_sched (w : Nat) (s : State) : (storeWidth w s).sched = s.sched := rfl
@[simp] theorem storeWidth_draws (w : Nat) (s : State) : (storeWidth w s).draws = s.draws := rfl

@[simp] theorem storeTree_cfg (b : Build) (s : State) : (storeTree b s).cfg = s.cfg := rfl
@[simp] theorem storeTree_freq (b : Build) (s : State) : (storeTree b s).freq = s.freq := rfl
@[simp] theorem storeTree_width (b : Build) (s : State) : (storeTree b s).width = s.width := rfl
@[simp] theorem storeTree_node (b : Build) (s : State) : (storeTree b s).node = b.node := rfl
@[simp] theorem storeTree_nodeDraw (b : Build) (s : State) : (storeTree b s).nodeDraw = s.nodeDraw := rfl
@[simp] theorem storeTree_nnodes (b : Build) (s : State) : (storeTree b s).nnodes = BitVec.ofNat 10 b.node.length := rfl
@[simp] theorem storeTree_root (b : Build) (s : State) : (storeTree b s).root = b.root := rfl
@[simp] theorem storeTree_seq (b : Build) (s : State) : (storeTree b s).seq = b.seq := rfl
@[simp] theorem storeTree_treeValid (b : Build) (s : State) : (storeTree b s).treeValid = true := rfl
@[simp] theorem storeTree_code (b : Build) (s : State) : (storeTree b s).code = s.code := rfl
@[simp] theorem storeTree_codesValid (b : Build) (s : State) : (storeTree b s).codesValid = false := rfl
@[simp] theorem storeTree_acc (b : Build) (s : State) : (storeTree b s).acc = s.acc := rfl
@[simp] theorem storeTree_nbits (b : Build) (s : State) : (storeTree b s).nbits = s.nbits := rfl
@[simp] theorem storeTree_cur (b : Build) (s : State) : (storeTree b s).cur = s.cur := rfl
@[simp] theorem storeTree_rem (b : Build) (s : State) : (storeTree b s).rem = s.rem := rfl
@[simp] theorem storeTree_emit (b : Build) (s : State) : (storeTree b s).emit = s.emit := rfl
@[simp] theorem storeTree_inCount (b : Build) (s : State) : (storeTree b s).inCount = s.inCount := rfl
@[simp] theorem storeTree_outCount (b : Build) (s : State) : (storeTree b s).outCount = s.outCount := rfl
@[simp] theorem storeTree_lArg (b : Build) (s : State) : (storeTree b s).lArg = s.lArg := rfl
@[simp] theorem storeTree_lIlen (b : Build) (s : State) : (storeTree b s).lIlen = s.lIlen := rfl
@[simp] theorem storeTree_lSym (b : Build) (s : State) : (storeTree b s).lSym = s.lSym := rfl
@[simp] theorem storeTree_errcode (b : Build) (s : State) : (storeTree b s).errcode = s.errcode := rfl
@[simp] theorem storeTree_errOffset (b : Build) (s : State) : (storeTree b s).errOffset = s.errOffset := rfl
@[simp] theorem storeTree_errExpected (b : Build) (s : State) : (storeTree b s).errExpected = s.errExpected := rfl
@[simp] theorem storeTree_errActual (b : Build) (s : State) : (storeTree b s).errActual = s.errActual := rfl
@[simp] theorem storeTree_errValid (b : Build) (s : State) : (storeTree b s).errValid = s.errValid := rfl
@[simp] theorem storeTree_errPort (b : Build) (s : State) : (storeTree b s).errPort = s.errPort := rfl
@[simp] theorem storeTree_err (b : Build) (s : State) : (storeTree b s).err = s.err := rfl
@[simp] theorem storeTree_cmdOvr (b : Build) (s : State) : (storeTree b s).cmdOvr = s.cmdOvr := rfl
@[simp] theorem storeTree_busy (b : Build) (s : State) : (storeTree b s).busy = s.busy := rfl
@[simp] theorem storeTree_curCmd (b : Build) (s : State) : (storeTree b s).curCmd = s.curCmd := rfl
@[simp] theorem storeTree_arg (b : Build) (s : State) : (storeTree b s).arg = s.arg := rfl
@[simp] theorem storeTree_ilen (b : Build) (s : State) : (storeTree b s).ilen = s.ilen := rfl
@[simp] theorem storeTree_freqSel (b : Build) (s : State) : (storeTree b s).freqSel = s.freqSel := rfl
@[simp] theorem storeTree_codeSel (b : Build) (s : State) : (storeTree b s).codeSel = s.codeSel := rfl
@[simp] theorem storeTree_ibuf (b : Build) (s : State) : (storeTree b s).ibuf = s.ibuf := rfl
@[simp] theorem storeTree_ibufDraw (b : Build) (s : State) : (storeTree b s).ibufDraw = s.ibufDraw := rfl
@[simp] theorem storeTree_cont (b : Build) (s : State) : (storeTree b s).cont = s.cont := rfl
@[simp] theorem storeTree_waitOn (b : Build) (s : State) : (storeTree b s).waitOn = s.waitOn := rfl
@[simp] theorem storeTree_src (b : Build) (s : State) : (storeTree b s).src = s.src := rfl
@[simp] theorem storeTree_snk (b : Build) (s : State) : (storeTree b s).snk = s.snk := rfl
@[simp] theorem storeTree_snkAns (b : Build) (s : State) : (storeTree b s).snkAns = s.snkAns := rfl
@[simp] theorem storeTree_snkStanding (b : Build) (s : State) : (storeTree b s).snkStanding = s.snkStanding := rfl
@[simp] theorem storeTree_hostOps (b : Build) (s : State) : (storeTree b s).hostOps = s.hostOps := rfl
@[simp] theorem storeTree_notes (b : Build) (s : State) : (storeTree b s).notes = s.notes := rfl
@[simp] theorem storeTree_sched (b : Build) (s : State) : (storeTree b s).sched = s.sched := rfl
@[simp] theorem storeTree_draws (b : Build) (s : State) : (storeTree b s).draws = s.draws := rfl

@[simp] theorem storeCodes_cfg (t : Vector CodeEntry 256) (s : State) : (storeCodes t s).cfg = s.cfg := rfl
@[simp] theorem storeCodes_freq (t : Vector CodeEntry 256) (s : State) : (storeCodes t s).freq = s.freq := rfl
@[simp] theorem storeCodes_width (t : Vector CodeEntry 256) (s : State) : (storeCodes t s).width = s.width := rfl
@[simp] theorem storeCodes_node (t : Vector CodeEntry 256) (s : State) : (storeCodes t s).node = s.node := rfl
@[simp] theorem storeCodes_nodeDraw (t : Vector CodeEntry 256) (s : State) : (storeCodes t s).nodeDraw = s.nodeDraw := rfl
@[simp] theorem storeCodes_nnodes (t : Vector CodeEntry 256) (s : State) : (storeCodes t s).nnodes = s.nnodes := rfl
@[simp] theorem storeCodes_root (t : Vector CodeEntry 256) (s : State) : (storeCodes t s).root = s.root := rfl
@[simp] theorem storeCodes_seq (t : Vector CodeEntry 256) (s : State) : (storeCodes t s).seq = s.seq := rfl
@[simp] theorem storeCodes_treeValid (t : Vector CodeEntry 256) (s : State) : (storeCodes t s).treeValid = s.treeValid := rfl
@[simp] theorem storeCodes_code (t : Vector CodeEntry 256) (s : State) : (storeCodes t s).code = t := rfl
@[simp] theorem storeCodes_codesValid (t : Vector CodeEntry 256) (s : State) : (storeCodes t s).codesValid = true := rfl
@[simp] theorem storeCodes_acc (t : Vector CodeEntry 256) (s : State) : (storeCodes t s).acc = s.acc := rfl
@[simp] theorem storeCodes_nbits (t : Vector CodeEntry 256) (s : State) : (storeCodes t s).nbits = s.nbits := rfl
@[simp] theorem storeCodes_cur (t : Vector CodeEntry 256) (s : State) : (storeCodes t s).cur = s.cur := rfl
@[simp] theorem storeCodes_rem (t : Vector CodeEntry 256) (s : State) : (storeCodes t s).rem = s.rem := rfl
@[simp] theorem storeCodes_emit (t : Vector CodeEntry 256) (s : State) : (storeCodes t s).emit = s.emit := rfl
@[simp] theorem storeCodes_inCount (t : Vector CodeEntry 256) (s : State) : (storeCodes t s).inCount = s.inCount := rfl
@[simp] theorem storeCodes_outCount (t : Vector CodeEntry 256) (s : State) : (storeCodes t s).outCount = s.outCount := rfl
@[simp] theorem storeCodes_lArg (t : Vector CodeEntry 256) (s : State) : (storeCodes t s).lArg = s.lArg := rfl
@[simp] theorem storeCodes_lIlen (t : Vector CodeEntry 256) (s : State) : (storeCodes t s).lIlen = s.lIlen := rfl
@[simp] theorem storeCodes_lSym (t : Vector CodeEntry 256) (s : State) : (storeCodes t s).lSym = s.lSym := rfl
@[simp] theorem storeCodes_errcode (t : Vector CodeEntry 256) (s : State) : (storeCodes t s).errcode = s.errcode := rfl
@[simp] theorem storeCodes_errOffset (t : Vector CodeEntry 256) (s : State) : (storeCodes t s).errOffset = s.errOffset := rfl
@[simp] theorem storeCodes_errExpected (t : Vector CodeEntry 256) (s : State) : (storeCodes t s).errExpected = s.errExpected := rfl
@[simp] theorem storeCodes_errActual (t : Vector CodeEntry 256) (s : State) : (storeCodes t s).errActual = s.errActual := rfl
@[simp] theorem storeCodes_errValid (t : Vector CodeEntry 256) (s : State) : (storeCodes t s).errValid = s.errValid := rfl
@[simp] theorem storeCodes_errPort (t : Vector CodeEntry 256) (s : State) : (storeCodes t s).errPort = s.errPort := rfl
@[simp] theorem storeCodes_err (t : Vector CodeEntry 256) (s : State) : (storeCodes t s).err = s.err := rfl
@[simp] theorem storeCodes_cmdOvr (t : Vector CodeEntry 256) (s : State) : (storeCodes t s).cmdOvr = s.cmdOvr := rfl
@[simp] theorem storeCodes_busy (t : Vector CodeEntry 256) (s : State) : (storeCodes t s).busy = s.busy := rfl
@[simp] theorem storeCodes_curCmd (t : Vector CodeEntry 256) (s : State) : (storeCodes t s).curCmd = s.curCmd := rfl
@[simp] theorem storeCodes_arg (t : Vector CodeEntry 256) (s : State) : (storeCodes t s).arg = s.arg := rfl
@[simp] theorem storeCodes_ilen (t : Vector CodeEntry 256) (s : State) : (storeCodes t s).ilen = s.ilen := rfl
@[simp] theorem storeCodes_freqSel (t : Vector CodeEntry 256) (s : State) : (storeCodes t s).freqSel = s.freqSel := rfl
@[simp] theorem storeCodes_codeSel (t : Vector CodeEntry 256) (s : State) : (storeCodes t s).codeSel = s.codeSel := rfl
@[simp] theorem storeCodes_ibuf (t : Vector CodeEntry 256) (s : State) : (storeCodes t s).ibuf = s.ibuf := rfl
@[simp] theorem storeCodes_ibufDraw (t : Vector CodeEntry 256) (s : State) : (storeCodes t s).ibufDraw = s.ibufDraw := rfl
@[simp] theorem storeCodes_cont (t : Vector CodeEntry 256) (s : State) : (storeCodes t s).cont = s.cont := rfl
@[simp] theorem storeCodes_waitOn (t : Vector CodeEntry 256) (s : State) : (storeCodes t s).waitOn = s.waitOn := rfl
@[simp] theorem storeCodes_src (t : Vector CodeEntry 256) (s : State) : (storeCodes t s).src = s.src := rfl
@[simp] theorem storeCodes_snk (t : Vector CodeEntry 256) (s : State) : (storeCodes t s).snk = s.snk := rfl
@[simp] theorem storeCodes_snkAns (t : Vector CodeEntry 256) (s : State) : (storeCodes t s).snkAns = s.snkAns := rfl
@[simp] theorem storeCodes_snkStanding (t : Vector CodeEntry 256) (s : State) : (storeCodes t s).snkStanding = s.snkStanding := rfl
@[simp] theorem storeCodes_hostOps (t : Vector CodeEntry 256) (s : State) : (storeCodes t s).hostOps = s.hostOps := rfl
@[simp] theorem storeCodes_notes (t : Vector CodeEntry 256) (s : State) : (storeCodes t s).notes = s.notes := rfl
@[simp] theorem storeCodes_sched (t : Vector CodeEntry 256) (s : State) : (storeCodes t s).sched = s.sched := rfl
@[simp] theorem storeCodes_draws (t : Vector CodeEntry 256) (s : State) : (storeCodes t s).draws = s.draws := rfl

@[simp] theorem accept_cfg (v : Word) (s : State) : (accept v s).cfg = s.cfg := rfl
@[simp] theorem accept_freq (v : Word) (s : State) : (accept v s).freq = s.freq := rfl
@[simp] theorem accept_width (v : Word) (s : State) : (accept v s).width = s.width := rfl
@[simp] theorem accept_node (v : Word) (s : State) : (accept v s).node = s.node := rfl
@[simp] theorem accept_nodeDraw (v : Word) (s : State) : (accept v s).nodeDraw = s.nodeDraw := rfl
@[simp] theorem accept_nnodes (v : Word) (s : State) : (accept v s).nnodes = s.nnodes := rfl
@[simp] theorem accept_root (v : Word) (s : State) : (accept v s).root = s.root := rfl
@[simp] theorem accept_seq (v : Word) (s : State) : (accept v s).seq = s.seq := rfl
@[simp] theorem accept_treeValid (v : Word) (s : State) : (accept v s).treeValid = s.treeValid := rfl
@[simp] theorem accept_code (v : Word) (s : State) : (accept v s).code = s.code := rfl
@[simp] theorem accept_codesValid (v : Word) (s : State) : (accept v s).codesValid = s.codesValid := rfl
@[simp] theorem accept_acc (v : Word) (s : State) : (accept v s).acc = s.acc := rfl
@[simp] theorem accept_nbits (v : Word) (s : State) : (accept v s).nbits = s.nbits := rfl
@[simp] theorem accept_cur (v : Word) (s : State) : (accept v s).cur = s.cur := rfl
@[simp] theorem accept_rem (v : Word) (s : State) : (accept v s).rem = s.rem := rfl
@[simp] theorem accept_emit (v : Word) (s : State) : (accept v s).emit = s.emit := rfl
@[simp] theorem accept_inCount (v : Word) (s : State) : (accept v s).inCount = s.inCount := rfl
@[simp] theorem accept_outCount (v : Word) (s : State) : (accept v s).outCount = s.outCount := rfl
@[simp] theorem accept_lArg (v : Word) (s : State) : (accept v s).lArg = s.arg := rfl
@[simp] theorem accept_lIlen (v : Word) (s : State) : (accept v s).lIlen = s.ilen := rfl
@[simp] theorem accept_lSym (v : Word) (s : State) : (accept v s).lSym = symField v := rfl
@[simp] theorem accept_errcode (v : Word) (s : State) : (accept v s).errcode = s.errcode := rfl
@[simp] theorem accept_errOffset (v : Word) (s : State) : (accept v s).errOffset = s.errOffset := rfl
@[simp] theorem accept_errExpected (v : Word) (s : State) : (accept v s).errExpected = s.errExpected := rfl
@[simp] theorem accept_errActual (v : Word) (s : State) : (accept v s).errActual = s.errActual := rfl
@[simp] theorem accept_errValid (v : Word) (s : State) : (accept v s).errValid = s.errValid := rfl
@[simp] theorem accept_errPort (v : Word) (s : State) : (accept v s).errPort = s.errPort := rfl
@[simp] theorem accept_err (v : Word) (s : State) : (accept v s).err = s.err := rfl
@[simp] theorem accept_cmdOvr (v : Word) (s : State) : (accept v s).cmdOvr = s.cmdOvr := rfl
@[simp] theorem accept_busy (v : Word) (s : State) : (accept v s).busy = true := rfl
@[simp] theorem accept_curCmd (v : Word) (s : State) : (accept v s).curCmd = v := rfl
@[simp] theorem accept_arg (v : Word) (s : State) : (accept v s).arg = s.arg := rfl
@[simp] theorem accept_ilen (v : Word) (s : State) : (accept v s).ilen = s.ilen := rfl
@[simp] theorem accept_freqSel (v : Word) (s : State) : (accept v s).freqSel = s.freqSel := rfl
@[simp] theorem accept_codeSel (v : Word) (s : State) : (accept v s).codeSel = s.codeSel := rfl
@[simp] theorem accept_ibuf (v : Word) (s : State) : (accept v s).ibuf = s.ibuf := rfl
@[simp] theorem accept_ibufDraw (v : Word) (s : State) : (accept v s).ibufDraw = s.ibufDraw := rfl
@[simp] theorem accept_cont (v : Word) (s : State) : (accept v s).cont = s.cont := rfl
@[simp] theorem accept_waitOn (v : Word) (s : State) : (accept v s).waitOn = s.waitOn := rfl
@[simp] theorem accept_src (v : Word) (s : State) : (accept v s).src = s.src := rfl
@[simp] theorem accept_snk (v : Word) (s : State) : (accept v s).snk = s.snk := rfl
@[simp] theorem accept_snkAns (v : Word) (s : State) : (accept v s).snkAns = s.snkAns := rfl
@[simp] theorem accept_snkStanding (v : Word) (s : State) : (accept v s).snkStanding = s.snkStanding := rfl
@[simp] theorem accept_hostOps (v : Word) (s : State) : (accept v s).hostOps = s.hostOps := rfl
@[simp] theorem accept_notes (v : Word) (s : State) : (accept v s).notes = s.notes := rfl
@[simp] theorem accept_sched (v : Word) (s : State) : (accept v s).sched = s.sched := rfl
@[simp] theorem accept_draws (v : Word) (s : State) : (accept v s).draws = s.draws := rfl

@[simp] theorem idleAgain_cfg (s : State) : (idleAgain s).cfg = s.cfg := rfl
@[simp] theorem idleAgain_freq (s : State) : (idleAgain s).freq = s.freq := rfl
@[simp] theorem idleAgain_width (s : State) : (idleAgain s).width = s.width := rfl
@[simp] theorem idleAgain_node (s : State) : (idleAgain s).node = s.node := rfl
@[simp] theorem idleAgain_nodeDraw (s : State) : (idleAgain s).nodeDraw = s.nodeDraw := rfl
@[simp] theorem idleAgain_nnodes (s : State) : (idleAgain s).nnodes = s.nnodes := rfl
@[simp] theorem idleAgain_root (s : State) : (idleAgain s).root = s.root := rfl
@[simp] theorem idleAgain_seq (s : State) : (idleAgain s).seq = s.seq := rfl
@[simp] theorem idleAgain_treeValid (s : State) : (idleAgain s).treeValid = s.treeValid := rfl
@[simp] theorem idleAgain_code (s : State) : (idleAgain s).code = s.code := rfl
@[simp] theorem idleAgain_codesValid (s : State) : (idleAgain s).codesValid = s.codesValid := rfl
@[simp] theorem idleAgain_acc (s : State) : (idleAgain s).acc = s.acc := rfl
@[simp] theorem idleAgain_nbits (s : State) : (idleAgain s).nbits = s.nbits := rfl
@[simp] theorem idleAgain_cur (s : State) : (idleAgain s).cur = s.cur := rfl
@[simp] theorem idleAgain_rem (s : State) : (idleAgain s).rem = s.rem := rfl
@[simp] theorem idleAgain_emit (s : State) : (idleAgain s).emit = s.emit := rfl
@[simp] theorem idleAgain_inCount (s : State) : (idleAgain s).inCount = s.inCount := rfl
@[simp] theorem idleAgain_outCount (s : State) : (idleAgain s).outCount = s.outCount := rfl
@[simp] theorem idleAgain_lArg (s : State) : (idleAgain s).lArg = s.lArg := rfl
@[simp] theorem idleAgain_lIlen (s : State) : (idleAgain s).lIlen = s.lIlen := rfl
@[simp] theorem idleAgain_lSym (s : State) : (idleAgain s).lSym = s.lSym := rfl
@[simp] theorem idleAgain_errcode (s : State) : (idleAgain s).errcode = s.errcode := rfl
@[simp] theorem idleAgain_errOffset (s : State) : (idleAgain s).errOffset = s.errOffset := rfl
@[simp] theorem idleAgain_errExpected (s : State) : (idleAgain s).errExpected = s.errExpected := rfl
@[simp] theorem idleAgain_errActual (s : State) : (idleAgain s).errActual = s.errActual := rfl
@[simp] theorem idleAgain_errValid (s : State) : (idleAgain s).errValid = s.errValid := rfl
@[simp] theorem idleAgain_errPort (s : State) : (idleAgain s).errPort = s.errPort := rfl
@[simp] theorem idleAgain_err (s : State) : (idleAgain s).err = s.err := rfl
@[simp] theorem idleAgain_cmdOvr (s : State) : (idleAgain s).cmdOvr = s.cmdOvr := rfl
@[simp] theorem idleAgain_busy (s : State) : (idleAgain s).busy = false := rfl
@[simp] theorem idleAgain_curCmd (s : State) : (idleAgain s).curCmd = s.curCmd := rfl
@[simp] theorem idleAgain_arg (s : State) : (idleAgain s).arg = s.arg := rfl
@[simp] theorem idleAgain_ilen (s : State) : (idleAgain s).ilen = s.ilen := rfl
@[simp] theorem idleAgain_freqSel (s : State) : (idleAgain s).freqSel = s.freqSel := rfl
@[simp] theorem idleAgain_codeSel (s : State) : (idleAgain s).codeSel = s.codeSel := rfl
@[simp] theorem idleAgain_ibuf (s : State) : (idleAgain s).ibuf = s.ibuf := rfl
@[simp] theorem idleAgain_ibufDraw (s : State) : (idleAgain s).ibufDraw = s.ibufDraw := rfl
@[simp] theorem idleAgain_cont (s : State) : (idleAgain s).cont = [] := rfl
@[simp] theorem idleAgain_waitOn (s : State) : (idleAgain s).waitOn = .ready := rfl
@[simp] theorem idleAgain_src (s : State) : (idleAgain s).src = s.src := rfl
@[simp] theorem idleAgain_snk (s : State) : (idleAgain s).snk = s.snk := rfl
@[simp] theorem idleAgain_snkAns (s : State) : (idleAgain s).snkAns = s.snkAns := rfl
@[simp] theorem idleAgain_snkStanding (s : State) : (idleAgain s).snkStanding = s.snkStanding := rfl
@[simp] theorem idleAgain_hostOps (s : State) : (idleAgain s).hostOps = s.hostOps := rfl
@[simp] theorem idleAgain_notes (s : State) : (idleAgain s).notes = s.notes := rfl
@[simp] theorem idleAgain_sched (s : State) : (idleAgain s).sched = s.sched := rfl
@[simp] theorem idleAgain_draws (s : State) : (idleAgain s).draws = s.draws := rfl

@[simp] theorem stoppedAt_cfg (w : Wait) (r : List Task) (s : State) : (stoppedAt w r s).cfg = s.cfg := rfl
@[simp] theorem stoppedAt_freq (w : Wait) (r : List Task) (s : State) : (stoppedAt w r s).freq = s.freq := rfl
@[simp] theorem stoppedAt_width (w : Wait) (r : List Task) (s : State) : (stoppedAt w r s).width = s.width := rfl
@[simp] theorem stoppedAt_node (w : Wait) (r : List Task) (s : State) : (stoppedAt w r s).node = s.node := rfl
@[simp] theorem stoppedAt_nodeDraw (w : Wait) (r : List Task) (s : State) : (stoppedAt w r s).nodeDraw = s.nodeDraw := rfl
@[simp] theorem stoppedAt_nnodes (w : Wait) (r : List Task) (s : State) : (stoppedAt w r s).nnodes = s.nnodes := rfl
@[simp] theorem stoppedAt_root (w : Wait) (r : List Task) (s : State) : (stoppedAt w r s).root = s.root := rfl
@[simp] theorem stoppedAt_seq (w : Wait) (r : List Task) (s : State) : (stoppedAt w r s).seq = s.seq := rfl
@[simp] theorem stoppedAt_treeValid (w : Wait) (r : List Task) (s : State) : (stoppedAt w r s).treeValid = s.treeValid := rfl
@[simp] theorem stoppedAt_code (w : Wait) (r : List Task) (s : State) : (stoppedAt w r s).code = s.code := rfl
@[simp] theorem stoppedAt_codesValid (w : Wait) (r : List Task) (s : State) : (stoppedAt w r s).codesValid = s.codesValid := rfl
@[simp] theorem stoppedAt_acc (w : Wait) (r : List Task) (s : State) : (stoppedAt w r s).acc = s.acc := rfl
@[simp] theorem stoppedAt_nbits (w : Wait) (r : List Task) (s : State) : (stoppedAt w r s).nbits = s.nbits := rfl
@[simp] theorem stoppedAt_cur (w : Wait) (r : List Task) (s : State) : (stoppedAt w r s).cur = s.cur := rfl
@[simp] theorem stoppedAt_rem (w : Wait) (r : List Task) (s : State) : (stoppedAt w r s).rem = s.rem := rfl
@[simp] theorem stoppedAt_emit (w : Wait) (r : List Task) (s : State) : (stoppedAt w r s).emit = s.emit := rfl
@[simp] theorem stoppedAt_inCount (w : Wait) (r : List Task) (s : State) : (stoppedAt w r s).inCount = s.inCount := rfl
@[simp] theorem stoppedAt_outCount (w : Wait) (r : List Task) (s : State) : (stoppedAt w r s).outCount = s.outCount := rfl
@[simp] theorem stoppedAt_lArg (w : Wait) (r : List Task) (s : State) : (stoppedAt w r s).lArg = s.lArg := rfl
@[simp] theorem stoppedAt_lIlen (w : Wait) (r : List Task) (s : State) : (stoppedAt w r s).lIlen = s.lIlen := rfl
@[simp] theorem stoppedAt_lSym (w : Wait) (r : List Task) (s : State) : (stoppedAt w r s).lSym = s.lSym := rfl
@[simp] theorem stoppedAt_errcode (w : Wait) (r : List Task) (s : State) : (stoppedAt w r s).errcode = s.errcode := rfl
@[simp] theorem stoppedAt_errOffset (w : Wait) (r : List Task) (s : State) : (stoppedAt w r s).errOffset = s.errOffset := rfl
@[simp] theorem stoppedAt_errExpected (w : Wait) (r : List Task) (s : State) : (stoppedAt w r s).errExpected = s.errExpected := rfl
@[simp] theorem stoppedAt_errActual (w : Wait) (r : List Task) (s : State) : (stoppedAt w r s).errActual = s.errActual := rfl
@[simp] theorem stoppedAt_errValid (w : Wait) (r : List Task) (s : State) : (stoppedAt w r s).errValid = s.errValid := rfl
@[simp] theorem stoppedAt_errPort (w : Wait) (r : List Task) (s : State) : (stoppedAt w r s).errPort = s.errPort := rfl
@[simp] theorem stoppedAt_err (w : Wait) (r : List Task) (s : State) : (stoppedAt w r s).err = s.err := rfl
@[simp] theorem stoppedAt_cmdOvr (w : Wait) (r : List Task) (s : State) : (stoppedAt w r s).cmdOvr = s.cmdOvr := rfl
@[simp] theorem stoppedAt_busy (w : Wait) (r : List Task) (s : State) : (stoppedAt w r s).busy = s.busy := rfl
@[simp] theorem stoppedAt_curCmd (w : Wait) (r : List Task) (s : State) : (stoppedAt w r s).curCmd = s.curCmd := rfl
@[simp] theorem stoppedAt_arg (w : Wait) (r : List Task) (s : State) : (stoppedAt w r s).arg = s.arg := rfl
@[simp] theorem stoppedAt_ilen (w : Wait) (r : List Task) (s : State) : (stoppedAt w r s).ilen = s.ilen := rfl
@[simp] theorem stoppedAt_freqSel (w : Wait) (r : List Task) (s : State) : (stoppedAt w r s).freqSel = s.freqSel := rfl
@[simp] theorem stoppedAt_codeSel (w : Wait) (r : List Task) (s : State) : (stoppedAt w r s).codeSel = s.codeSel := rfl
@[simp] theorem stoppedAt_ibuf (w : Wait) (r : List Task) (s : State) : (stoppedAt w r s).ibuf = s.ibuf := rfl
@[simp] theorem stoppedAt_ibufDraw (w : Wait) (r : List Task) (s : State) : (stoppedAt w r s).ibufDraw = s.ibufDraw := rfl
@[simp] theorem stoppedAt_cont (w : Wait) (r : List Task) (s : State) : (stoppedAt w r s).cont = r := rfl
@[simp] theorem stoppedAt_waitOn (w : Wait) (r : List Task) (s : State) : (stoppedAt w r s).waitOn = w := rfl
@[simp] theorem stoppedAt_src (w : Wait) (r : List Task) (s : State) : (stoppedAt w r s).src = s.src := rfl
@[simp] theorem stoppedAt_snk (w : Wait) (r : List Task) (s : State) : (stoppedAt w r s).snk = s.snk := rfl
@[simp] theorem stoppedAt_snkAns (w : Wait) (r : List Task) (s : State) : (stoppedAt w r s).snkAns = s.snkAns := rfl
@[simp] theorem stoppedAt_snkStanding (w : Wait) (r : List Task) (s : State) : (stoppedAt w r s).snkStanding = s.snkStanding := rfl
@[simp] theorem stoppedAt_hostOps (w : Wait) (r : List Task) (s : State) : (stoppedAt w r s).hostOps = s.hostOps := rfl
@[simp] theorem stoppedAt_notes (w : Wait) (r : List Task) (s : State) : (stoppedAt w r s).notes = s.notes := rfl
@[simp] theorem stoppedAt_sched (w : Wait) (r : List Task) (s : State) : (stoppedAt w r s).sched = s.sched := rfl
@[simp] theorem stoppedAt_draws (w : Wait) (r : List Task) (s : State) : (stoppedAt w r s).draws = s.draws := rfl

@[simp] theorem latched_cfg (i : Instr) (s : State) : (latched i s).cfg = s.cfg := rfl
@[simp] theorem latched_freq (i : Instr) (s : State) : (latched i s).freq = s.freq := rfl
@[simp] theorem latched_width (i : Instr) (s : State) : (latched i s).width = s.width := rfl
@[simp] theorem latched_node (i : Instr) (s : State) : (latched i s).node = s.node := rfl
@[simp] theorem latched_nodeDraw (i : Instr) (s : State) : (latched i s).nodeDraw = s.nodeDraw := rfl
@[simp] theorem latched_nnodes (i : Instr) (s : State) : (latched i s).nnodes = s.nnodes := rfl
@[simp] theorem latched_root (i : Instr) (s : State) : (latched i s).root = s.root := rfl
@[simp] theorem latched_seq (i : Instr) (s : State) : (latched i s).seq = s.seq := rfl
@[simp] theorem latched_treeValid (i : Instr) (s : State) : (latched i s).treeValid = s.treeValid := rfl
@[simp] theorem latched_code (i : Instr) (s : State) : (latched i s).code = s.code := rfl
@[simp] theorem latched_codesValid (i : Instr) (s : State) : (latched i s).codesValid = s.codesValid := rfl
@[simp] theorem latched_acc (i : Instr) (s : State) : (latched i s).acc = s.acc := rfl
@[simp] theorem latched_nbits (i : Instr) (s : State) : (latched i s).nbits = s.nbits := rfl
@[simp] theorem latched_cur (i : Instr) (s : State) : (latched i s).cur = s.cur := rfl
@[simp] theorem latched_rem (i : Instr) (s : State) : (latched i s).rem = s.rem := rfl
@[simp] theorem latched_emit (i : Instr) (s : State) : (latched i s).emit = s.emit := rfl
@[simp] theorem latched_inCount (i : Instr) (s : State) : (latched i s).inCount = s.inCount := rfl
@[simp] theorem latched_outCount (i : Instr) (s : State) : (latched i s).outCount = s.outCount := rfl
@[simp] theorem latched_lArg (i : Instr) (s : State) : (latched i s).lArg = s.arg := rfl
@[simp] theorem latched_lIlen (i : Instr) (s : State) : (latched i s).lIlen = s.ilen := rfl
@[simp] theorem latched_lSym (i : Instr) (s : State) : (latched i s).lSym = i.sym := rfl
@[simp] theorem latched_errcode (i : Instr) (s : State) : (latched i s).errcode = s.errcode := rfl
@[simp] theorem latched_errOffset (i : Instr) (s : State) : (latched i s).errOffset = s.errOffset := rfl
@[simp] theorem latched_errExpected (i : Instr) (s : State) : (latched i s).errExpected = s.errExpected := rfl
@[simp] theorem latched_errActual (i : Instr) (s : State) : (latched i s).errActual = s.errActual := rfl
@[simp] theorem latched_errValid (i : Instr) (s : State) : (latched i s).errValid = s.errValid := rfl
@[simp] theorem latched_errPort (i : Instr) (s : State) : (latched i s).errPort = s.errPort := rfl
@[simp] theorem latched_err (i : Instr) (s : State) : (latched i s).err = s.err := rfl
@[simp] theorem latched_cmdOvr (i : Instr) (s : State) : (latched i s).cmdOvr = s.cmdOvr := rfl
@[simp] theorem latched_busy (i : Instr) (s : State) : (latched i s).busy = false := rfl
@[simp] theorem latched_curCmd (i : Instr) (s : State) : (latched i s).curCmd = encode i := rfl
@[simp] theorem latched_arg (i : Instr) (s : State) : (latched i s).arg = s.arg := rfl
@[simp] theorem latched_ilen (i : Instr) (s : State) : (latched i s).ilen = s.ilen := rfl
@[simp] theorem latched_freqSel (i : Instr) (s : State) : (latched i s).freqSel = s.freqSel := rfl
@[simp] theorem latched_codeSel (i : Instr) (s : State) : (latched i s).codeSel = s.codeSel := rfl
@[simp] theorem latched_ibuf (i : Instr) (s : State) : (latched i s).ibuf = s.ibuf := rfl
@[simp] theorem latched_ibufDraw (i : Instr) (s : State) : (latched i s).ibufDraw = s.ibufDraw := rfl
@[simp] theorem latched_cont (i : Instr) (s : State) : (latched i s).cont = [] := rfl
@[simp] theorem latched_waitOn (i : Instr) (s : State) : (latched i s).waitOn = .ready := rfl
@[simp] theorem latched_src (i : Instr) (s : State) : (latched i s).src = s.src := rfl
@[simp] theorem latched_snk (i : Instr) (s : State) : (latched i s).snk = s.snk := rfl
@[simp] theorem latched_snkAns (i : Instr) (s : State) : (latched i s).snkAns = s.snkAns := rfl
@[simp] theorem latched_snkStanding (i : Instr) (s : State) : (latched i s).snkStanding = s.snkStanding := rfl
@[simp] theorem latched_hostOps (i : Instr) (s : State) : (latched i s).hostOps = s.hostOps := rfl
@[simp] theorem latched_notes (i : Instr) (s : State) : (latched i s).notes = s.notes := rfl
@[simp] theorem latched_sched (i : Instr) (s : State) : (latched i s).sched = s.sched := rfl
@[simp] theorem latched_draws (i : Instr) (s : State) : (latched i s).draws = s.draws := rfl

@[simp] theorem delivered_cfg (bs : List Byte) (s : State) : (delivered bs s).cfg = s.cfg := rfl
@[simp] theorem delivered_freq (bs : List Byte) (s : State) : (delivered bs s).freq = s.freq := rfl
@[simp] theorem delivered_width (bs : List Byte) (s : State) : (delivered bs s).width = s.width := rfl
@[simp] theorem delivered_node (bs : List Byte) (s : State) : (delivered bs s).node = s.node := rfl
@[simp] theorem delivered_nodeDraw (bs : List Byte) (s : State) : (delivered bs s).nodeDraw = s.nodeDraw := rfl
@[simp] theorem delivered_nnodes (bs : List Byte) (s : State) : (delivered bs s).nnodes = s.nnodes := rfl
@[simp] theorem delivered_root (bs : List Byte) (s : State) : (delivered bs s).root = s.root := rfl
@[simp] theorem delivered_seq (bs : List Byte) (s : State) : (delivered bs s).seq = s.seq := rfl
@[simp] theorem delivered_treeValid (bs : List Byte) (s : State) : (delivered bs s).treeValid = s.treeValid := rfl
@[simp] theorem delivered_code (bs : List Byte) (s : State) : (delivered bs s).code = s.code := rfl
@[simp] theorem delivered_codesValid (bs : List Byte) (s : State) : (delivered bs s).codesValid = s.codesValid := rfl
@[simp] theorem delivered_acc (bs : List Byte) (s : State) : (delivered bs s).acc = s.acc := rfl
@[simp] theorem delivered_nbits (bs : List Byte) (s : State) : (delivered bs s).nbits = s.nbits := rfl
@[simp] theorem delivered_cur (bs : List Byte) (s : State) : (delivered bs s).cur = s.cur := rfl
@[simp] theorem delivered_rem (bs : List Byte) (s : State) : (delivered bs s).rem = s.rem := rfl
@[simp] theorem delivered_emit (bs : List Byte) (s : State) : (delivered bs s).emit = s.emit := rfl
@[simp] theorem delivered_inCount (bs : List Byte) (s : State) : (delivered bs s).inCount = s.inCount := rfl
@[simp] theorem delivered_outCount (bs : List Byte) (s : State) : (delivered bs s).outCount = s.outCount + BitVec.ofNat 64 bs.length := rfl
@[simp] theorem delivered_lArg (bs : List Byte) (s : State) : (delivered bs s).lArg = s.lArg := rfl
@[simp] theorem delivered_lIlen (bs : List Byte) (s : State) : (delivered bs s).lIlen = s.lIlen := rfl
@[simp] theorem delivered_lSym (bs : List Byte) (s : State) : (delivered bs s).lSym = s.lSym := rfl
@[simp] theorem delivered_errcode (bs : List Byte) (s : State) : (delivered bs s).errcode = s.errcode := rfl
@[simp] theorem delivered_errOffset (bs : List Byte) (s : State) : (delivered bs s).errOffset = s.errOffset := rfl
@[simp] theorem delivered_errExpected (bs : List Byte) (s : State) : (delivered bs s).errExpected = s.errExpected := rfl
@[simp] theorem delivered_errActual (bs : List Byte) (s : State) : (delivered bs s).errActual = s.errActual := rfl
@[simp] theorem delivered_errValid (bs : List Byte) (s : State) : (delivered bs s).errValid = s.errValid := rfl
@[simp] theorem delivered_errPort (bs : List Byte) (s : State) : (delivered bs s).errPort = s.errPort := rfl
@[simp] theorem delivered_err (bs : List Byte) (s : State) : (delivered bs s).err = s.err := rfl
@[simp] theorem delivered_cmdOvr (bs : List Byte) (s : State) : (delivered bs s).cmdOvr = s.cmdOvr := rfl
@[simp] theorem delivered_busy (bs : List Byte) (s : State) : (delivered bs s).busy = s.busy := rfl
@[simp] theorem delivered_curCmd (bs : List Byte) (s : State) : (delivered bs s).curCmd = s.curCmd := rfl
@[simp] theorem delivered_arg (bs : List Byte) (s : State) : (delivered bs s).arg = s.arg := rfl
@[simp] theorem delivered_ilen (bs : List Byte) (s : State) : (delivered bs s).ilen = s.ilen := rfl
@[simp] theorem delivered_freqSel (bs : List Byte) (s : State) : (delivered bs s).freqSel = s.freqSel := rfl
@[simp] theorem delivered_codeSel (bs : List Byte) (s : State) : (delivered bs s).codeSel = s.codeSel := rfl
@[simp] theorem delivered_ibuf (bs : List Byte) (s : State) : (delivered bs s).ibuf = s.ibuf := rfl
@[simp] theorem delivered_ibufDraw (bs : List Byte) (s : State) : (delivered bs s).ibufDraw = s.ibufDraw := rfl
@[simp] theorem delivered_cont (bs : List Byte) (s : State) : (delivered bs s).cont = s.cont := rfl
@[simp] theorem delivered_waitOn (bs : List Byte) (s : State) : (delivered bs s).waitOn = s.waitOn := rfl
@[simp] theorem delivered_src (bs : List Byte) (s : State) : (delivered bs s).src = s.src := rfl
@[simp] theorem delivered_snk (bs : List Byte) (s : State) : (delivered bs s).snk = s.snk ++ bs := rfl
@[simp] theorem delivered_snkAns (bs : List Byte) (s : State) : (delivered bs s).snkAns = s.snkAns.drop bs.length := rfl
@[simp] theorem delivered_snkStanding (bs : List Byte) (s : State) : (delivered bs s).snkStanding = s.snkStanding := rfl
@[simp] theorem delivered_hostOps (bs : List Byte) (s : State) : (delivered bs s).hostOps = s.hostOps := rfl
@[simp] theorem delivered_notes (bs : List Byte) (s : State) : (delivered bs s).notes = s.notes := rfl
@[simp] theorem delivered_sched (bs : List Byte) (s : State) : (delivered bs s).sched = s.sched := rfl
@[simp] theorem delivered_draws (bs : List Byte) (s : State) : (delivered bs s).draws = s.draws := rfl

@[simp] theorem srcTaken_cfg (es : List SrcElem) (s : State) : (srcTaken es s).cfg = s.cfg := rfl
@[simp] theorem srcTaken_freq (es : List SrcElem) (s : State) : (srcTaken es s).freq = s.freq := rfl
@[simp] theorem srcTaken_width (es : List SrcElem) (s : State) : (srcTaken es s).width = s.width := rfl
@[simp] theorem srcTaken_node (es : List SrcElem) (s : State) : (srcTaken es s).node = s.node := rfl
@[simp] theorem srcTaken_nodeDraw (es : List SrcElem) (s : State) : (srcTaken es s).nodeDraw = s.nodeDraw := rfl
@[simp] theorem srcTaken_nnodes (es : List SrcElem) (s : State) : (srcTaken es s).nnodes = s.nnodes := rfl
@[simp] theorem srcTaken_root (es : List SrcElem) (s : State) : (srcTaken es s).root = s.root := rfl
@[simp] theorem srcTaken_seq (es : List SrcElem) (s : State) : (srcTaken es s).seq = s.seq := rfl
@[simp] theorem srcTaken_treeValid (es : List SrcElem) (s : State) : (srcTaken es s).treeValid = s.treeValid := rfl
@[simp] theorem srcTaken_code (es : List SrcElem) (s : State) : (srcTaken es s).code = s.code := rfl
@[simp] theorem srcTaken_codesValid (es : List SrcElem) (s : State) : (srcTaken es s).codesValid = s.codesValid := rfl
@[simp] theorem srcTaken_acc (es : List SrcElem) (s : State) : (srcTaken es s).acc = s.acc := rfl
@[simp] theorem srcTaken_nbits (es : List SrcElem) (s : State) : (srcTaken es s).nbits = s.nbits := rfl
@[simp] theorem srcTaken_cur (es : List SrcElem) (s : State) : (srcTaken es s).cur = s.cur := rfl
@[simp] theorem srcTaken_rem (es : List SrcElem) (s : State) : (srcTaken es s).rem = s.rem := rfl
@[simp] theorem srcTaken_emit (es : List SrcElem) (s : State) : (srcTaken es s).emit = s.emit := rfl
@[simp] theorem srcTaken_inCount (es : List SrcElem) (s : State) : (srcTaken es s).inCount = s.inCount := rfl
@[simp] theorem srcTaken_outCount (es : List SrcElem) (s : State) : (srcTaken es s).outCount = s.outCount := rfl
@[simp] theorem srcTaken_lArg (es : List SrcElem) (s : State) : (srcTaken es s).lArg = s.lArg := rfl
@[simp] theorem srcTaken_lIlen (es : List SrcElem) (s : State) : (srcTaken es s).lIlen = s.lIlen := rfl
@[simp] theorem srcTaken_lSym (es : List SrcElem) (s : State) : (srcTaken es s).lSym = s.lSym := rfl
@[simp] theorem srcTaken_errcode (es : List SrcElem) (s : State) : (srcTaken es s).errcode = s.errcode := rfl
@[simp] theorem srcTaken_errOffset (es : List SrcElem) (s : State) : (srcTaken es s).errOffset = s.errOffset := rfl
@[simp] theorem srcTaken_errExpected (es : List SrcElem) (s : State) : (srcTaken es s).errExpected = s.errExpected := rfl
@[simp] theorem srcTaken_errActual (es : List SrcElem) (s : State) : (srcTaken es s).errActual = s.errActual := rfl
@[simp] theorem srcTaken_errValid (es : List SrcElem) (s : State) : (srcTaken es s).errValid = s.errValid := rfl
@[simp] theorem srcTaken_errPort (es : List SrcElem) (s : State) : (srcTaken es s).errPort = s.errPort := rfl
@[simp] theorem srcTaken_err (es : List SrcElem) (s : State) : (srcTaken es s).err = s.err := rfl
@[simp] theorem srcTaken_cmdOvr (es : List SrcElem) (s : State) : (srcTaken es s).cmdOvr = s.cmdOvr := rfl
@[simp] theorem srcTaken_busy (es : List SrcElem) (s : State) : (srcTaken es s).busy = s.busy := rfl
@[simp] theorem srcTaken_curCmd (es : List SrcElem) (s : State) : (srcTaken es s).curCmd = s.curCmd := rfl
@[simp] theorem srcTaken_arg (es : List SrcElem) (s : State) : (srcTaken es s).arg = s.arg := rfl
@[simp] theorem srcTaken_ilen (es : List SrcElem) (s : State) : (srcTaken es s).ilen = s.ilen := rfl
@[simp] theorem srcTaken_freqSel (es : List SrcElem) (s : State) : (srcTaken es s).freqSel = s.freqSel := rfl
@[simp] theorem srcTaken_codeSel (es : List SrcElem) (s : State) : (srcTaken es s).codeSel = s.codeSel := rfl
@[simp] theorem srcTaken_ibuf (es : List SrcElem) (s : State) : (srcTaken es s).ibuf = s.ibuf := rfl
@[simp] theorem srcTaken_ibufDraw (es : List SrcElem) (s : State) : (srcTaken es s).ibufDraw = s.ibufDraw := rfl
@[simp] theorem srcTaken_cont (es : List SrcElem) (s : State) : (srcTaken es s).cont = s.cont := rfl
@[simp] theorem srcTaken_waitOn (es : List SrcElem) (s : State) : (srcTaken es s).waitOn = s.waitOn := rfl
@[simp] theorem srcTaken_src (es : List SrcElem) (s : State) : (srcTaken es s).src = es := rfl
@[simp] theorem srcTaken_snk (es : List SrcElem) (s : State) : (srcTaken es s).snk = s.snk := rfl
@[simp] theorem srcTaken_snkAns (es : List SrcElem) (s : State) : (srcTaken es s).snkAns = s.snkAns := rfl
@[simp] theorem srcTaken_snkStanding (es : List SrcElem) (s : State) : (srcTaken es s).snkStanding = s.snkStanding := rfl
@[simp] theorem srcTaken_hostOps (es : List SrcElem) (s : State) : (srcTaken es s).hostOps = s.hostOps := rfl
@[simp] theorem srcTaken_notes (es : List SrcElem) (s : State) : (srcTaken es s).notes = s.notes := rfl
@[simp] theorem srcTaken_sched (es : List SrcElem) (s : State) : (srcTaken es s).sched = afterCore s.sched := rfl
@[simp] theorem srcTaken_draws (es : List SrcElem) (s : State) : (srcTaken es s).draws = s.draws := rfl

@[simp] theorem countIn_cfg (s : State) : (countIn s).cfg = s.cfg := rfl
@[simp] theorem countIn_freq (s : State) : (countIn s).freq = s.freq := rfl
@[simp] theorem countIn_width (s : State) : (countIn s).width = s.width := rfl
@[simp] theorem countIn_node (s : State) : (countIn s).node = s.node := rfl
@[simp] theorem countIn_nodeDraw (s : State) : (countIn s).nodeDraw = s.nodeDraw := rfl
@[simp] theorem countIn_nnodes (s : State) : (countIn s).nnodes = s.nnodes := rfl
@[simp] theorem countIn_root (s : State) : (countIn s).root = s.root := rfl
@[simp] theorem countIn_seq (s : State) : (countIn s).seq = s.seq := rfl
@[simp] theorem countIn_treeValid (s : State) : (countIn s).treeValid = s.treeValid := rfl
@[simp] theorem countIn_code (s : State) : (countIn s).code = s.code := rfl
@[simp] theorem countIn_codesValid (s : State) : (countIn s).codesValid = s.codesValid := rfl
@[simp] theorem countIn_acc (s : State) : (countIn s).acc = s.acc := rfl
@[simp] theorem countIn_nbits (s : State) : (countIn s).nbits = s.nbits := rfl
@[simp] theorem countIn_cur (s : State) : (countIn s).cur = s.cur := rfl
@[simp] theorem countIn_rem (s : State) : (countIn s).rem = s.rem := rfl
@[simp] theorem countIn_emit (s : State) : (countIn s).emit = s.emit := rfl
@[simp] theorem countIn_inCount (s : State) : (countIn s).inCount = s.inCount + 1 := rfl
@[simp] theorem countIn_outCount (s : State) : (countIn s).outCount = s.outCount := rfl
@[simp] theorem countIn_lArg (s : State) : (countIn s).lArg = s.lArg := rfl
@[simp] theorem countIn_lIlen (s : State) : (countIn s).lIlen = s.lIlen := rfl
@[simp] theorem countIn_lSym (s : State) : (countIn s).lSym = s.lSym := rfl
@[simp] theorem countIn_errcode (s : State) : (countIn s).errcode = s.errcode := rfl
@[simp] theorem countIn_errOffset (s : State) : (countIn s).errOffset = s.errOffset := rfl
@[simp] theorem countIn_errExpected (s : State) : (countIn s).errExpected = s.errExpected := rfl
@[simp] theorem countIn_errActual (s : State) : (countIn s).errActual = s.errActual := rfl
@[simp] theorem countIn_errValid (s : State) : (countIn s).errValid = s.errValid := rfl
@[simp] theorem countIn_errPort (s : State) : (countIn s).errPort = s.errPort := rfl
@[simp] theorem countIn_err (s : State) : (countIn s).err = s.err := rfl
@[simp] theorem countIn_cmdOvr (s : State) : (countIn s).cmdOvr = s.cmdOvr := rfl
@[simp] theorem countIn_busy (s : State) : (countIn s).busy = s.busy := rfl
@[simp] theorem countIn_curCmd (s : State) : (countIn s).curCmd = s.curCmd := rfl
@[simp] theorem countIn_arg (s : State) : (countIn s).arg = s.arg := rfl
@[simp] theorem countIn_ilen (s : State) : (countIn s).ilen = s.ilen := rfl
@[simp] theorem countIn_freqSel (s : State) : (countIn s).freqSel = s.freqSel := rfl
@[simp] theorem countIn_codeSel (s : State) : (countIn s).codeSel = s.codeSel := rfl
@[simp] theorem countIn_ibuf (s : State) : (countIn s).ibuf = s.ibuf := rfl
@[simp] theorem countIn_ibufDraw (s : State) : (countIn s).ibufDraw = s.ibufDraw := rfl
@[simp] theorem countIn_cont (s : State) : (countIn s).cont = s.cont := rfl
@[simp] theorem countIn_waitOn (s : State) : (countIn s).waitOn = s.waitOn := rfl
@[simp] theorem countIn_src (s : State) : (countIn s).src = s.src := rfl
@[simp] theorem countIn_snk (s : State) : (countIn s).snk = s.snk := rfl
@[simp] theorem countIn_snkAns (s : State) : (countIn s).snkAns = s.snkAns := rfl
@[simp] theorem countIn_snkStanding (s : State) : (countIn s).snkStanding = s.snkStanding := rfl
@[simp] theorem countIn_hostOps (s : State) : (countIn s).hostOps = s.hostOps := rfl
@[simp] theorem countIn_notes (s : State) : (countIn s).notes = s.notes := rfl
@[simp] theorem countIn_sched (s : State) : (countIn s).sched = s.sched := rfl
@[simp] theorem countIn_draws (s : State) : (countIn s).draws = s.draws := rfl

@[simp] theorem answerTaken_cfg (as : List SnkAns) (s : State) : (answerTaken as s).cfg = s.cfg := rfl
@[simp] theorem answerTaken_freq (as : List SnkAns) (s : State) : (answerTaken as s).freq = s.freq := rfl
@[simp] theorem answerTaken_width (as : List SnkAns) (s : State) : (answerTaken as s).width = s.width := rfl
@[simp] theorem answerTaken_node (as : List SnkAns) (s : State) : (answerTaken as s).node = s.node := rfl
@[simp] theorem answerTaken_nodeDraw (as : List SnkAns) (s : State) : (answerTaken as s).nodeDraw = s.nodeDraw := rfl
@[simp] theorem answerTaken_nnodes (as : List SnkAns) (s : State) : (answerTaken as s).nnodes = s.nnodes := rfl
@[simp] theorem answerTaken_root (as : List SnkAns) (s : State) : (answerTaken as s).root = s.root := rfl
@[simp] theorem answerTaken_seq (as : List SnkAns) (s : State) : (answerTaken as s).seq = s.seq := rfl
@[simp] theorem answerTaken_treeValid (as : List SnkAns) (s : State) : (answerTaken as s).treeValid = s.treeValid := rfl
@[simp] theorem answerTaken_code (as : List SnkAns) (s : State) : (answerTaken as s).code = s.code := rfl
@[simp] theorem answerTaken_codesValid (as : List SnkAns) (s : State) : (answerTaken as s).codesValid = s.codesValid := rfl
@[simp] theorem answerTaken_acc (as : List SnkAns) (s : State) : (answerTaken as s).acc = s.acc := rfl
@[simp] theorem answerTaken_nbits (as : List SnkAns) (s : State) : (answerTaken as s).nbits = s.nbits := rfl
@[simp] theorem answerTaken_cur (as : List SnkAns) (s : State) : (answerTaken as s).cur = s.cur := rfl
@[simp] theorem answerTaken_rem (as : List SnkAns) (s : State) : (answerTaken as s).rem = s.rem := rfl
@[simp] theorem answerTaken_emit (as : List SnkAns) (s : State) : (answerTaken as s).emit = s.emit := rfl
@[simp] theorem answerTaken_inCount (as : List SnkAns) (s : State) : (answerTaken as s).inCount = s.inCount := rfl
@[simp] theorem answerTaken_outCount (as : List SnkAns) (s : State) : (answerTaken as s).outCount = s.outCount := rfl
@[simp] theorem answerTaken_lArg (as : List SnkAns) (s : State) : (answerTaken as s).lArg = s.lArg := rfl
@[simp] theorem answerTaken_lIlen (as : List SnkAns) (s : State) : (answerTaken as s).lIlen = s.lIlen := rfl
@[simp] theorem answerTaken_lSym (as : List SnkAns) (s : State) : (answerTaken as s).lSym = s.lSym := rfl
@[simp] theorem answerTaken_errcode (as : List SnkAns) (s : State) : (answerTaken as s).errcode = s.errcode := rfl
@[simp] theorem answerTaken_errOffset (as : List SnkAns) (s : State) : (answerTaken as s).errOffset = s.errOffset := rfl
@[simp] theorem answerTaken_errExpected (as : List SnkAns) (s : State) : (answerTaken as s).errExpected = s.errExpected := rfl
@[simp] theorem answerTaken_errActual (as : List SnkAns) (s : State) : (answerTaken as s).errActual = s.errActual := rfl
@[simp] theorem answerTaken_errValid (as : List SnkAns) (s : State) : (answerTaken as s).errValid = s.errValid := rfl
@[simp] theorem answerTaken_errPort (as : List SnkAns) (s : State) : (answerTaken as s).errPort = s.errPort := rfl
@[simp] theorem answerTaken_err (as : List SnkAns) (s : State) : (answerTaken as s).err = s.err := rfl
@[simp] theorem answerTaken_cmdOvr (as : List SnkAns) (s : State) : (answerTaken as s).cmdOvr = s.cmdOvr := rfl
@[simp] theorem answerTaken_busy (as : List SnkAns) (s : State) : (answerTaken as s).busy = s.busy := rfl
@[simp] theorem answerTaken_curCmd (as : List SnkAns) (s : State) : (answerTaken as s).curCmd = s.curCmd := rfl
@[simp] theorem answerTaken_arg (as : List SnkAns) (s : State) : (answerTaken as s).arg = s.arg := rfl
@[simp] theorem answerTaken_ilen (as : List SnkAns) (s : State) : (answerTaken as s).ilen = s.ilen := rfl
@[simp] theorem answerTaken_freqSel (as : List SnkAns) (s : State) : (answerTaken as s).freqSel = s.freqSel := rfl
@[simp] theorem answerTaken_codeSel (as : List SnkAns) (s : State) : (answerTaken as s).codeSel = s.codeSel := rfl
@[simp] theorem answerTaken_ibuf (as : List SnkAns) (s : State) : (answerTaken as s).ibuf = s.ibuf := rfl
@[simp] theorem answerTaken_ibufDraw (as : List SnkAns) (s : State) : (answerTaken as s).ibufDraw = s.ibufDraw := rfl
@[simp] theorem answerTaken_cont (as : List SnkAns) (s : State) : (answerTaken as s).cont = s.cont := rfl
@[simp] theorem answerTaken_waitOn (as : List SnkAns) (s : State) : (answerTaken as s).waitOn = s.waitOn := rfl
@[simp] theorem answerTaken_src (as : List SnkAns) (s : State) : (answerTaken as s).src = s.src := rfl
@[simp] theorem answerTaken_snk (as : List SnkAns) (s : State) : (answerTaken as s).snk = s.snk := rfl
@[simp] theorem answerTaken_snkAns (as : List SnkAns) (s : State) : (answerTaken as s).snkAns = as := rfl
@[simp] theorem answerTaken_snkStanding (as : List SnkAns) (s : State) : (answerTaken as s).snkStanding = s.snkStanding := rfl
@[simp] theorem answerTaken_hostOps (as : List SnkAns) (s : State) : (answerTaken as s).hostOps = s.hostOps := rfl
@[simp] theorem answerTaken_notes (as : List SnkAns) (s : State) : (answerTaken as s).notes = s.notes := rfl
@[simp] theorem answerTaken_sched (as : List SnkAns) (s : State) : (answerTaken as s).sched = afterCore s.sched := rfl
@[simp] theorem answerTaken_draws (as : List SnkAns) (s : State) : (answerTaken as s).draws = s.draws := rfl

@[simp] theorem deliver_cfg (b : Byte) (s : State) : (deliver b s).cfg = s.cfg := rfl
@[simp] theorem deliver_freq (b : Byte) (s : State) : (deliver b s).freq = s.freq := rfl
@[simp] theorem deliver_width (b : Byte) (s : State) : (deliver b s).width = s.width := rfl
@[simp] theorem deliver_node (b : Byte) (s : State) : (deliver b s).node = s.node := rfl
@[simp] theorem deliver_nodeDraw (b : Byte) (s : State) : (deliver b s).nodeDraw = s.nodeDraw := rfl
@[simp] theorem deliver_nnodes (b : Byte) (s : State) : (deliver b s).nnodes = s.nnodes := rfl
@[simp] theorem deliver_root (b : Byte) (s : State) : (deliver b s).root = s.root := rfl
@[simp] theorem deliver_seq (b : Byte) (s : State) : (deliver b s).seq = s.seq := rfl
@[simp] theorem deliver_treeValid (b : Byte) (s : State) : (deliver b s).treeValid = s.treeValid := rfl
@[simp] theorem deliver_code (b : Byte) (s : State) : (deliver b s).code = s.code := rfl
@[simp] theorem deliver_codesValid (b : Byte) (s : State) : (deliver b s).codesValid = s.codesValid := rfl
@[simp] theorem deliver_acc (b : Byte) (s : State) : (deliver b s).acc = s.acc := rfl
@[simp] theorem deliver_nbits (b : Byte) (s : State) : (deliver b s).nbits = s.nbits := rfl
@[simp] theorem deliver_cur (b : Byte) (s : State) : (deliver b s).cur = s.cur := rfl
@[simp] theorem deliver_rem (b : Byte) (s : State) : (deliver b s).rem = s.rem := rfl
@[simp] theorem deliver_emit (b : Byte) (s : State) : (deliver b s).emit = s.emit := rfl
@[simp] theorem deliver_inCount (b : Byte) (s : State) : (deliver b s).inCount = s.inCount := rfl
@[simp] theorem deliver_outCount (b : Byte) (s : State) : (deliver b s).outCount = s.outCount + 1 := rfl
@[simp] theorem deliver_lArg (b : Byte) (s : State) : (deliver b s).lArg = s.lArg := rfl
@[simp] theorem deliver_lIlen (b : Byte) (s : State) : (deliver b s).lIlen = s.lIlen := rfl
@[simp] theorem deliver_lSym (b : Byte) (s : State) : (deliver b s).lSym = s.lSym := rfl
@[simp] theorem deliver_errcode (b : Byte) (s : State) : (deliver b s).errcode = s.errcode := rfl
@[simp] theorem deliver_errOffset (b : Byte) (s : State) : (deliver b s).errOffset = s.errOffset := rfl
@[simp] theorem deliver_errExpected (b : Byte) (s : State) : (deliver b s).errExpected = s.errExpected := rfl
@[simp] theorem deliver_errActual (b : Byte) (s : State) : (deliver b s).errActual = s.errActual := rfl
@[simp] theorem deliver_errValid (b : Byte) (s : State) : (deliver b s).errValid = s.errValid := rfl
@[simp] theorem deliver_errPort (b : Byte) (s : State) : (deliver b s).errPort = s.errPort := rfl
@[simp] theorem deliver_err (b : Byte) (s : State) : (deliver b s).err = s.err := rfl
@[simp] theorem deliver_cmdOvr (b : Byte) (s : State) : (deliver b s).cmdOvr = s.cmdOvr := rfl
@[simp] theorem deliver_busy (b : Byte) (s : State) : (deliver b s).busy = s.busy := rfl
@[simp] theorem deliver_curCmd (b : Byte) (s : State) : (deliver b s).curCmd = s.curCmd := rfl
@[simp] theorem deliver_arg (b : Byte) (s : State) : (deliver b s).arg = s.arg := rfl
@[simp] theorem deliver_ilen (b : Byte) (s : State) : (deliver b s).ilen = s.ilen := rfl
@[simp] theorem deliver_freqSel (b : Byte) (s : State) : (deliver b s).freqSel = s.freqSel := rfl
@[simp] theorem deliver_codeSel (b : Byte) (s : State) : (deliver b s).codeSel = s.codeSel := rfl
@[simp] theorem deliver_ibuf (b : Byte) (s : State) : (deliver b s).ibuf = s.ibuf := rfl
@[simp] theorem deliver_ibufDraw (b : Byte) (s : State) : (deliver b s).ibufDraw = s.ibufDraw := rfl
@[simp] theorem deliver_cont (b : Byte) (s : State) : (deliver b s).cont = s.cont := rfl
@[simp] theorem deliver_waitOn (b : Byte) (s : State) : (deliver b s).waitOn = s.waitOn := rfl
@[simp] theorem deliver_src (b : Byte) (s : State) : (deliver b s).src = s.src := rfl
@[simp] theorem deliver_snk (b : Byte) (s : State) : (deliver b s).snk = s.snk ++ [b] := rfl
@[simp] theorem deliver_snkAns (b : Byte) (s : State) : (deliver b s).snkAns = s.snkAns := rfl
@[simp] theorem deliver_snkStanding (b : Byte) (s : State) : (deliver b s).snkStanding = s.snkStanding := rfl
@[simp] theorem deliver_hostOps (b : Byte) (s : State) : (deliver b s).hostOps = s.hostOps := rfl
@[simp] theorem deliver_notes (b : Byte) (s : State) : (deliver b s).notes = s.notes := rfl
@[simp] theorem deliver_sched (b : Byte) (s : State) : (deliver b s).sched = s.sched := rfl
@[simp] theorem deliver_draws (b : Byte) (s : State) : (deliver b s).draws = s.draws := rfl

@[simp] theorem clearPacker_cfg (s : State) : (clearPacker s).cfg = s.cfg := rfl
@[simp] theorem clearPacker_freq (s : State) : (clearPacker s).freq = s.freq := rfl
@[simp] theorem clearPacker_width (s : State) : (clearPacker s).width = s.width := rfl
@[simp] theorem clearPacker_node (s : State) : (clearPacker s).node = s.node := rfl
@[simp] theorem clearPacker_nodeDraw (s : State) : (clearPacker s).nodeDraw = s.nodeDraw := rfl
@[simp] theorem clearPacker_nnodes (s : State) : (clearPacker s).nnodes = s.nnodes := rfl
@[simp] theorem clearPacker_root (s : State) : (clearPacker s).root = s.root := rfl
@[simp] theorem clearPacker_seq (s : State) : (clearPacker s).seq = s.seq := rfl
@[simp] theorem clearPacker_treeValid (s : State) : (clearPacker s).treeValid = s.treeValid := rfl
@[simp] theorem clearPacker_code (s : State) : (clearPacker s).code = s.code := rfl
@[simp] theorem clearPacker_codesValid (s : State) : (clearPacker s).codesValid = s.codesValid := rfl
@[simp] theorem clearPacker_acc (s : State) : (clearPacker s).acc = 0 := rfl
@[simp] theorem clearPacker_nbits (s : State) : (clearPacker s).nbits = 0 := rfl
@[simp] theorem clearPacker_cur (s : State) : (clearPacker s).cur = s.cur := rfl
@[simp] theorem clearPacker_rem (s : State) : (clearPacker s).rem = s.rem := rfl
@[simp] theorem clearPacker_emit (s : State) : (clearPacker s).emit = s.emit := rfl
@[simp] theorem clearPacker_inCount (s : State) : (clearPacker s).inCount = s.inCount := rfl
@[simp] theorem clearPacker_outCount (s : State) : (clearPacker s).outCount = s.outCount := rfl
@[simp] theorem clearPacker_lArg (s : State) : (clearPacker s).lArg = s.lArg := rfl
@[simp] theorem clearPacker_lIlen (s : State) : (clearPacker s).lIlen = s.lIlen := rfl
@[simp] theorem clearPacker_lSym (s : State) : (clearPacker s).lSym = s.lSym := rfl
@[simp] theorem clearPacker_errcode (s : State) : (clearPacker s).errcode = s.errcode := rfl
@[simp] theorem clearPacker_errOffset (s : State) : (clearPacker s).errOffset = s.errOffset := rfl
@[simp] theorem clearPacker_errExpected (s : State) : (clearPacker s).errExpected = s.errExpected := rfl
@[simp] theorem clearPacker_errActual (s : State) : (clearPacker s).errActual = s.errActual := rfl
@[simp] theorem clearPacker_errValid (s : State) : (clearPacker s).errValid = s.errValid := rfl
@[simp] theorem clearPacker_errPort (s : State) : (clearPacker s).errPort = s.errPort := rfl
@[simp] theorem clearPacker_err (s : State) : (clearPacker s).err = s.err := rfl
@[simp] theorem clearPacker_cmdOvr (s : State) : (clearPacker s).cmdOvr = s.cmdOvr := rfl
@[simp] theorem clearPacker_busy (s : State) : (clearPacker s).busy = s.busy := rfl
@[simp] theorem clearPacker_curCmd (s : State) : (clearPacker s).curCmd = s.curCmd := rfl
@[simp] theorem clearPacker_arg (s : State) : (clearPacker s).arg = s.arg := rfl
@[simp] theorem clearPacker_ilen (s : State) : (clearPacker s).ilen = s.ilen := rfl
@[simp] theorem clearPacker_freqSel (s : State) : (clearPacker s).freqSel = s.freqSel := rfl
@[simp] theorem clearPacker_codeSel (s : State) : (clearPacker s).codeSel = s.codeSel := rfl
@[simp] theorem clearPacker_ibuf (s : State) : (clearPacker s).ibuf = s.ibuf := rfl
@[simp] theorem clearPacker_ibufDraw (s : State) : (clearPacker s).ibufDraw = s.ibufDraw := rfl
@[simp] theorem clearPacker_cont (s : State) : (clearPacker s).cont = s.cont := rfl
@[simp] theorem clearPacker_waitOn (s : State) : (clearPacker s).waitOn = s.waitOn := rfl
@[simp] theorem clearPacker_src (s : State) : (clearPacker s).src = s.src := rfl
@[simp] theorem clearPacker_snk (s : State) : (clearPacker s).snk = s.snk := rfl
@[simp] theorem clearPacker_snkAns (s : State) : (clearPacker s).snkAns = s.snkAns := rfl
@[simp] theorem clearPacker_snkStanding (s : State) : (clearPacker s).snkStanding = s.snkStanding := rfl
@[simp] theorem clearPacker_hostOps (s : State) : (clearPacker s).hostOps = s.hostOps := rfl
@[simp] theorem clearPacker_notes (s : State) : (clearPacker s).notes = s.notes := rfl
@[simp] theorem clearPacker_sched (s : State) : (clearPacker s).sched = s.sched := rfl
@[simp] theorem clearPacker_draws (s : State) : (clearPacker s).draws = s.draws := rfl

@[simp] theorem pushBit_cfg (b : Bool) (s : State) : (pushBit b s).cfg = s.cfg := rfl
@[simp] theorem pushBit_freq (b : Bool) (s : State) : (pushBit b s).freq = s.freq := rfl
@[simp] theorem pushBit_width (b : Bool) (s : State) : (pushBit b s).width = s.width := rfl
@[simp] theorem pushBit_node (b : Bool) (s : State) : (pushBit b s).node = s.node := rfl
@[simp] theorem pushBit_nodeDraw (b : Bool) (s : State) : (pushBit b s).nodeDraw = s.nodeDraw := rfl
@[simp] theorem pushBit_nnodes (b : Bool) (s : State) : (pushBit b s).nnodes = s.nnodes := rfl
@[simp] theorem pushBit_root (b : Bool) (s : State) : (pushBit b s).root = s.root := rfl
@[simp] theorem pushBit_seq (b : Bool) (s : State) : (pushBit b s).seq = s.seq := rfl
@[simp] theorem pushBit_treeValid (b : Bool) (s : State) : (pushBit b s).treeValid = s.treeValid := rfl
@[simp] theorem pushBit_code (b : Bool) (s : State) : (pushBit b s).code = s.code := rfl
@[simp] theorem pushBit_codesValid (b : Bool) (s : State) : (pushBit b s).codesValid = s.codesValid := rfl
@[simp] theorem pushBit_acc (b : Bool) (s : State) : (pushBit b s).acc = ((s.acc <<< 1) ||| vecLE 8 [b]) := rfl
@[simp] theorem pushBit_nbits (b : Bool) (s : State) : (pushBit b s).nbits = s.nbits + 1 := rfl
@[simp] theorem pushBit_cur (b : Bool) (s : State) : (pushBit b s).cur = s.cur := rfl
@[simp] theorem pushBit_rem (b : Bool) (s : State) : (pushBit b s).rem = s.rem := rfl
@[simp] theorem pushBit_emit (b : Bool) (s : State) : (pushBit b s).emit = s.emit := rfl
@[simp] theorem pushBit_inCount (b : Bool) (s : State) : (pushBit b s).inCount = s.inCount := rfl
@[simp] theorem pushBit_outCount (b : Bool) (s : State) : (pushBit b s).outCount = s.outCount := rfl
@[simp] theorem pushBit_lArg (b : Bool) (s : State) : (pushBit b s).lArg = s.lArg := rfl
@[simp] theorem pushBit_lIlen (b : Bool) (s : State) : (pushBit b s).lIlen = s.lIlen := rfl
@[simp] theorem pushBit_lSym (b : Bool) (s : State) : (pushBit b s).lSym = s.lSym := rfl
@[simp] theorem pushBit_errcode (b : Bool) (s : State) : (pushBit b s).errcode = s.errcode := rfl
@[simp] theorem pushBit_errOffset (b : Bool) (s : State) : (pushBit b s).errOffset = s.errOffset := rfl
@[simp] theorem pushBit_errExpected (b : Bool) (s : State) : (pushBit b s).errExpected = s.errExpected := rfl
@[simp] theorem pushBit_errActual (b : Bool) (s : State) : (pushBit b s).errActual = s.errActual := rfl
@[simp] theorem pushBit_errValid (b : Bool) (s : State) : (pushBit b s).errValid = s.errValid := rfl
@[simp] theorem pushBit_errPort (b : Bool) (s : State) : (pushBit b s).errPort = s.errPort := rfl
@[simp] theorem pushBit_err (b : Bool) (s : State) : (pushBit b s).err = s.err := rfl
@[simp] theorem pushBit_cmdOvr (b : Bool) (s : State) : (pushBit b s).cmdOvr = s.cmdOvr := rfl
@[simp] theorem pushBit_busy (b : Bool) (s : State) : (pushBit b s).busy = s.busy := rfl
@[simp] theorem pushBit_curCmd (b : Bool) (s : State) : (pushBit b s).curCmd = s.curCmd := rfl
@[simp] theorem pushBit_arg (b : Bool) (s : State) : (pushBit b s).arg = s.arg := rfl
@[simp] theorem pushBit_ilen (b : Bool) (s : State) : (pushBit b s).ilen = s.ilen := rfl
@[simp] theorem pushBit_freqSel (b : Bool) (s : State) : (pushBit b s).freqSel = s.freqSel := rfl
@[simp] theorem pushBit_codeSel (b : Bool) (s : State) : (pushBit b s).codeSel = s.codeSel := rfl
@[simp] theorem pushBit_ibuf (b : Bool) (s : State) : (pushBit b s).ibuf = s.ibuf := rfl
@[simp] theorem pushBit_ibufDraw (b : Bool) (s : State) : (pushBit b s).ibufDraw = s.ibufDraw := rfl
@[simp] theorem pushBit_cont (b : Bool) (s : State) : (pushBit b s).cont = s.cont := rfl
@[simp] theorem pushBit_waitOn (b : Bool) (s : State) : (pushBit b s).waitOn = s.waitOn := rfl
@[simp] theorem pushBit_src (b : Bool) (s : State) : (pushBit b s).src = s.src := rfl
@[simp] theorem pushBit_snk (b : Bool) (s : State) : (pushBit b s).snk = s.snk := rfl
@[simp] theorem pushBit_snkAns (b : Bool) (s : State) : (pushBit b s).snkAns = s.snkAns := rfl
@[simp] theorem pushBit_snkStanding (b : Bool) (s : State) : (pushBit b s).snkStanding = s.snkStanding := rfl
@[simp] theorem pushBit_hostOps (b : Bool) (s : State) : (pushBit b s).hostOps = s.hostOps := rfl
@[simp] theorem pushBit_notes (b : Bool) (s : State) : (pushBit b s).notes = s.notes := rfl
@[simp] theorem pushBit_sched (b : Bool) (s : State) : (pushBit b s).sched = s.sched := rfl
@[simp] theorem pushBit_draws (b : Bool) (s : State) : (pushBit b s).draws = s.draws := rfl

@[simp] theorem withPacker_cfg (bits : List Bool) (s : State) : (withPacker bits s).cfg = s.cfg := rfl
@[simp] theorem withPacker_freq (bits : List Bool) (s : State) : (withPacker bits s).freq = s.freq := rfl
@[simp] theorem withPacker_width (bits : List Bool) (s : State) : (withPacker bits s).width = s.width := rfl
@[simp] theorem withPacker_node (bits : List Bool) (s : State) : (withPacker bits s).node = s.node := rfl
@[simp] theorem withPacker_nodeDraw (bits : List Bool) (s : State) : (withPacker bits s).nodeDraw = s.nodeDraw := rfl
@[simp] theorem withPacker_nnodes (bits : List Bool) (s : State) : (withPacker bits s).nnodes = s.nnodes := rfl
@[simp] theorem withPacker_root (bits : List Bool) (s : State) : (withPacker bits s).root = s.root := rfl
@[simp] theorem withPacker_seq (bits : List Bool) (s : State) : (withPacker bits s).seq = s.seq := rfl
@[simp] theorem withPacker_treeValid (bits : List Bool) (s : State) : (withPacker bits s).treeValid = s.treeValid := rfl
@[simp] theorem withPacker_code (bits : List Bool) (s : State) : (withPacker bits s).code = s.code := rfl
@[simp] theorem withPacker_codesValid (bits : List Bool) (s : State) : (withPacker bits s).codesValid = s.codesValid := rfl
@[simp] theorem withPacker_acc (bits : List Bool) (s : State) : (withPacker bits s).acc = vecMSB 8 bits := rfl
@[simp] theorem withPacker_nbits (bits : List Bool) (s : State) : (withPacker bits s).nbits = BitVec.ofNat 4 bits.length := rfl
@[simp] theorem withPacker_cur (bits : List Bool) (s : State) : (withPacker bits s).cur = s.cur := rfl
@[simp] theorem withPacker_rem (bits : List Bool) (s : State) : (withPacker bits s).rem = s.rem := rfl
@[simp] theorem withPacker_emit (bits : List Bool) (s : State) : (withPacker bits s).emit = s.emit := rfl
@[simp] theorem withPacker_inCount (bits : List Bool) (s : State) : (withPacker bits s).inCount = s.inCount := rfl
@[simp] theorem withPacker_outCount (bits : List Bool) (s : State) : (withPacker bits s).outCount = s.outCount := rfl
@[simp] theorem withPacker_lArg (bits : List Bool) (s : State) : (withPacker bits s).lArg = s.lArg := rfl
@[simp] theorem withPacker_lIlen (bits : List Bool) (s : State) : (withPacker bits s).lIlen = s.lIlen := rfl
@[simp] theorem withPacker_lSym (bits : List Bool) (s : State) : (withPacker bits s).lSym = s.lSym := rfl
@[simp] theorem withPacker_errcode (bits : List Bool) (s : State) : (withPacker bits s).errcode = s.errcode := rfl
@[simp] theorem withPacker_errOffset (bits : List Bool) (s : State) : (withPacker bits s).errOffset = s.errOffset := rfl
@[simp] theorem withPacker_errExpected (bits : List Bool) (s : State) : (withPacker bits s).errExpected = s.errExpected := rfl
@[simp] theorem withPacker_errActual (bits : List Bool) (s : State) : (withPacker bits s).errActual = s.errActual := rfl
@[simp] theorem withPacker_errValid (bits : List Bool) (s : State) : (withPacker bits s).errValid = s.errValid := rfl
@[simp] theorem withPacker_errPort (bits : List Bool) (s : State) : (withPacker bits s).errPort = s.errPort := rfl
@[simp] theorem withPacker_err (bits : List Bool) (s : State) : (withPacker bits s).err = s.err := rfl
@[simp] theorem withPacker_cmdOvr (bits : List Bool) (s : State) : (withPacker bits s).cmdOvr = s.cmdOvr := rfl
@[simp] theorem withPacker_busy (bits : List Bool) (s : State) : (withPacker bits s).busy = s.busy := rfl
@[simp] theorem withPacker_curCmd (bits : List Bool) (s : State) : (withPacker bits s).curCmd = s.curCmd := rfl
@[simp] theorem withPacker_arg (bits : List Bool) (s : State) : (withPacker bits s).arg = s.arg := rfl
@[simp] theorem withPacker_ilen (bits : List Bool) (s : State) : (withPacker bits s).ilen = s.ilen := rfl
@[simp] theorem withPacker_freqSel (bits : List Bool) (s : State) : (withPacker bits s).freqSel = s.freqSel := rfl
@[simp] theorem withPacker_codeSel (bits : List Bool) (s : State) : (withPacker bits s).codeSel = s.codeSel := rfl
@[simp] theorem withPacker_ibuf (bits : List Bool) (s : State) : (withPacker bits s).ibuf = s.ibuf := rfl
@[simp] theorem withPacker_ibufDraw (bits : List Bool) (s : State) : (withPacker bits s).ibufDraw = s.ibufDraw := rfl
@[simp] theorem withPacker_cont (bits : List Bool) (s : State) : (withPacker bits s).cont = s.cont := rfl
@[simp] theorem withPacker_waitOn (bits : List Bool) (s : State) : (withPacker bits s).waitOn = s.waitOn := rfl
@[simp] theorem withPacker_src (bits : List Bool) (s : State) : (withPacker bits s).src = s.src := rfl
@[simp] theorem withPacker_snk (bits : List Bool) (s : State) : (withPacker bits s).snk = s.snk := rfl
@[simp] theorem withPacker_snkAns (bits : List Bool) (s : State) : (withPacker bits s).snkAns = s.snkAns := rfl
@[simp] theorem withPacker_snkStanding (bits : List Bool) (s : State) : (withPacker bits s).snkStanding = s.snkStanding := rfl
@[simp] theorem withPacker_hostOps (bits : List Bool) (s : State) : (withPacker bits s).hostOps = s.hostOps := rfl
@[simp] theorem withPacker_notes (bits : List Bool) (s : State) : (withPacker bits s).notes = s.notes := rfl
@[simp] theorem withPacker_sched (bits : List Bool) (s : State) : (withPacker bits s).sched = s.sched := rfl
@[simp] theorem withPacker_draws (bits : List Bool) (s : State) : (withPacker bits s).draws = s.draws := rfl

@[simp] theorem countEmit_cfg (s : State) : (countEmit s).cfg = s.cfg := rfl
@[simp] theorem countEmit_freq (s : State) : (countEmit s).freq = s.freq := rfl
@[simp] theorem countEmit_width (s : State) : (countEmit s).width = s.width := rfl
@[simp] theorem countEmit_node (s : State) : (countEmit s).node = s.node := rfl
@[simp] theorem countEmit_nodeDraw (s : State) : (countEmit s).nodeDraw = s.nodeDraw := rfl
@[simp] theorem countEmit_nnodes (s : State) : (countEmit s).nnodes = s.nnodes := rfl
@[simp] theorem countEmit_root (s : State) : (countEmit s).root = s.root := rfl
@[simp] theorem countEmit_seq (s : State) : (countEmit s).seq = s.seq := rfl
@[simp] theorem countEmit_treeValid (s : State) : (countEmit s).treeValid = s.treeValid := rfl
@[simp] theorem countEmit_code (s : State) : (countEmit s).code = s.code := rfl
@[simp] theorem countEmit_codesValid (s : State) : (countEmit s).codesValid = s.codesValid := rfl
@[simp] theorem countEmit_acc (s : State) : (countEmit s).acc = s.acc := rfl
@[simp] theorem countEmit_nbits (s : State) : (countEmit s).nbits = s.nbits := rfl
@[simp] theorem countEmit_cur (s : State) : (countEmit s).cur = s.cur := rfl
@[simp] theorem countEmit_rem (s : State) : (countEmit s).rem = s.rem := rfl
@[simp] theorem countEmit_emit (s : State) : (countEmit s).emit = s.emit + 1 := rfl
@[simp] theorem countEmit_inCount (s : State) : (countEmit s).inCount = s.inCount := rfl
@[simp] theorem countEmit_outCount (s : State) : (countEmit s).outCount = s.outCount := rfl
@[simp] theorem countEmit_lArg (s : State) : (countEmit s).lArg = s.lArg := rfl
@[simp] theorem countEmit_lIlen (s : State) : (countEmit s).lIlen = s.lIlen := rfl
@[simp] theorem countEmit_lSym (s : State) : (countEmit s).lSym = s.lSym := rfl
@[simp] theorem countEmit_errcode (s : State) : (countEmit s).errcode = s.errcode := rfl
@[simp] theorem countEmit_errOffset (s : State) : (countEmit s).errOffset = s.errOffset := rfl
@[simp] theorem countEmit_errExpected (s : State) : (countEmit s).errExpected = s.errExpected := rfl
@[simp] theorem countEmit_errActual (s : State) : (countEmit s).errActual = s.errActual := rfl
@[simp] theorem countEmit_errValid (s : State) : (countEmit s).errValid = s.errValid := rfl
@[simp] theorem countEmit_errPort (s : State) : (countEmit s).errPort = s.errPort := rfl
@[simp] theorem countEmit_err (s : State) : (countEmit s).err = s.err := rfl
@[simp] theorem countEmit_cmdOvr (s : State) : (countEmit s).cmdOvr = s.cmdOvr := rfl
@[simp] theorem countEmit_busy (s : State) : (countEmit s).busy = s.busy := rfl
@[simp] theorem countEmit_curCmd (s : State) : (countEmit s).curCmd = s.curCmd := rfl
@[simp] theorem countEmit_arg (s : State) : (countEmit s).arg = s.arg := rfl
@[simp] theorem countEmit_ilen (s : State) : (countEmit s).ilen = s.ilen := rfl
@[simp] theorem countEmit_freqSel (s : State) : (countEmit s).freqSel = s.freqSel := rfl
@[simp] theorem countEmit_codeSel (s : State) : (countEmit s).codeSel = s.codeSel := rfl
@[simp] theorem countEmit_ibuf (s : State) : (countEmit s).ibuf = s.ibuf := rfl
@[simp] theorem countEmit_ibufDraw (s : State) : (countEmit s).ibufDraw = s.ibufDraw := rfl
@[simp] theorem countEmit_cont (s : State) : (countEmit s).cont = s.cont := rfl
@[simp] theorem countEmit_waitOn (s : State) : (countEmit s).waitOn = s.waitOn := rfl
@[simp] theorem countEmit_src (s : State) : (countEmit s).src = s.src := rfl
@[simp] theorem countEmit_snk (s : State) : (countEmit s).snk = s.snk := rfl
@[simp] theorem countEmit_snkAns (s : State) : (countEmit s).snkAns = s.snkAns := rfl
@[simp] theorem countEmit_snkStanding (s : State) : (countEmit s).snkStanding = s.snkStanding := rfl
@[simp] theorem countEmit_hostOps (s : State) : (countEmit s).hostOps = s.hostOps := rfl
@[simp] theorem countEmit_notes (s : State) : (countEmit s).notes = s.notes := rfl
@[simp] theorem countEmit_sched (s : State) : (countEmit s).sched = s.sched := rfl
@[simp] theorem countEmit_draws (s : State) : (countEmit s).draws = s.draws := rfl

@[simp] theorem loadCur_cfg (b : Byte) (s : State) : (loadCur b s).cfg = s.cfg := rfl
@[simp] theorem loadCur_freq (b : Byte) (s : State) : (loadCur b s).freq = s.freq := rfl
@[simp] theorem loadCur_width (b : Byte) (s : State) : (loadCur b s).width = s.width := rfl
@[simp] theorem loadCur_node (b : Byte) (s : State) : (loadCur b s).node = s.node := rfl
@[simp] theorem loadCur_nodeDraw (b : Byte) (s : State) : (loadCur b s).nodeDraw = s.nodeDraw := rfl
@[simp] theorem loadCur_nnodes (b : Byte) (s : State) : (loadCur b s).nnodes = s.nnodes := rfl
@[simp] theorem loadCur_root (b : Byte) (s : State) : (loadCur b s).root = s.root := rfl
@[simp] theorem loadCur_seq (b : Byte) (s : State) : (loadCur b s).seq = s.seq := rfl
@[simp] theorem loadCur_treeValid (b : Byte) (s : State) : (loadCur b s).treeValid = s.treeValid := rfl
@[simp] theorem loadCur_code (b : Byte) (s : State) : (loadCur b s).code = s.code := rfl
@[simp] theorem loadCur_codesValid (b : Byte) (s : State) : (loadCur b s).codesValid = s.codesValid := rfl
@[simp] theorem loadCur_acc (b : Byte) (s : State) : (loadCur b s).acc = s.acc := rfl
@[simp] theorem loadCur_nbits (b : Byte) (s : State) : (loadCur b s).nbits = s.nbits := rfl
@[simp] theorem loadCur_cur (b : Byte) (s : State) : (loadCur b s).cur = b := rfl
@[simp] theorem loadCur_rem (b : Byte) (s : State) : (loadCur b s).rem = 8 := rfl
@[simp] theorem loadCur_emit (b : Byte) (s : State) : (loadCur b s).emit = s.emit := rfl
@[simp] theorem loadCur_inCount (b : Byte) (s : State) : (loadCur b s).inCount = s.inCount := rfl
@[simp] theorem loadCur_outCount (b : Byte) (s : State) : (loadCur b s).outCount = s.outCount := rfl
@[simp] theorem loadCur_lArg (b : Byte) (s : State) : (loadCur b s).lArg = s.lArg := rfl
@[simp] theorem loadCur_lIlen (b : Byte) (s : State) : (loadCur b s).lIlen = s.lIlen := rfl
@[simp] theorem loadCur_lSym (b : Byte) (s : State) : (loadCur b s).lSym = s.lSym := rfl
@[simp] theorem loadCur_errcode (b : Byte) (s : State) : (loadCur b s).errcode = s.errcode := rfl
@[simp] theorem loadCur_errOffset (b : Byte) (s : State) : (loadCur b s).errOffset = s.errOffset := rfl
@[simp] theorem loadCur_errExpected (b : Byte) (s : State) : (loadCur b s).errExpected = s.errExpected := rfl
@[simp] theorem loadCur_errActual (b : Byte) (s : State) : (loadCur b s).errActual = s.errActual := rfl
@[simp] theorem loadCur_errValid (b : Byte) (s : State) : (loadCur b s).errValid = s.errValid := rfl
@[simp] theorem loadCur_errPort (b : Byte) (s : State) : (loadCur b s).errPort = s.errPort := rfl
@[simp] theorem loadCur_err (b : Byte) (s : State) : (loadCur b s).err = s.err := rfl
@[simp] theorem loadCur_cmdOvr (b : Byte) (s : State) : (loadCur b s).cmdOvr = s.cmdOvr := rfl
@[simp] theorem loadCur_busy (b : Byte) (s : State) : (loadCur b s).busy = s.busy := rfl
@[simp] theorem loadCur_curCmd (b : Byte) (s : State) : (loadCur b s).curCmd = s.curCmd := rfl
@[simp] theorem loadCur_arg (b : Byte) (s : State) : (loadCur b s).arg = s.arg := rfl
@[simp] theorem loadCur_ilen (b : Byte) (s : State) : (loadCur b s).ilen = s.ilen := rfl
@[simp] theorem loadCur_freqSel (b : Byte) (s : State) : (loadCur b s).freqSel = s.freqSel := rfl
@[simp] theorem loadCur_codeSel (b : Byte) (s : State) : (loadCur b s).codeSel = s.codeSel := rfl
@[simp] theorem loadCur_ibuf (b : Byte) (s : State) : (loadCur b s).ibuf = s.ibuf := rfl
@[simp] theorem loadCur_ibufDraw (b : Byte) (s : State) : (loadCur b s).ibufDraw = s.ibufDraw := rfl
@[simp] theorem loadCur_cont (b : Byte) (s : State) : (loadCur b s).cont = s.cont := rfl
@[simp] theorem loadCur_waitOn (b : Byte) (s : State) : (loadCur b s).waitOn = s.waitOn := rfl
@[simp] theorem loadCur_src (b : Byte) (s : State) : (loadCur b s).src = s.src := rfl
@[simp] theorem loadCur_snk (b : Byte) (s : State) : (loadCur b s).snk = s.snk := rfl
@[simp] theorem loadCur_snkAns (b : Byte) (s : State) : (loadCur b s).snkAns = s.snkAns := rfl
@[simp] theorem loadCur_snkStanding (b : Byte) (s : State) : (loadCur b s).snkStanding = s.snkStanding := rfl
@[simp] theorem loadCur_hostOps (b : Byte) (s : State) : (loadCur b s).hostOps = s.hostOps := rfl
@[simp] theorem loadCur_notes (b : Byte) (s : State) : (loadCur b s).notes = s.notes := rfl
@[simp] theorem loadCur_sched (b : Byte) (s : State) : (loadCur b s).sched = s.sched := rfl
@[simp] theorem loadCur_draws (b : Byte) (s : State) : (loadCur b s).draws = s.draws := rfl

@[simp] theorem dropBit_cfg (s : State) : (dropBit s).cfg = s.cfg := rfl
@[simp] theorem dropBit_freq (s : State) : (dropBit s).freq = s.freq := rfl
@[simp] theorem dropBit_width (s : State) : (dropBit s).width = s.width := rfl
@[simp] theorem dropBit_node (s : State) : (dropBit s).node = s.node := rfl
@[simp] theorem dropBit_nodeDraw (s : State) : (dropBit s).nodeDraw = s.nodeDraw := rfl
@[simp] theorem dropBit_nnodes (s : State) : (dropBit s).nnodes = s.nnodes := rfl
@[simp] theorem dropBit_root (s : State) : (dropBit s).root = s.root := rfl
@[simp] theorem dropBit_seq (s : State) : (dropBit s).seq = s.seq := rfl
@[simp] theorem dropBit_treeValid (s : State) : (dropBit s).treeValid = s.treeValid := rfl
@[simp] theorem dropBit_code (s : State) : (dropBit s).code = s.code := rfl
@[simp] theorem dropBit_codesValid (s : State) : (dropBit s).codesValid = s.codesValid := rfl
@[simp] theorem dropBit_acc (s : State) : (dropBit s).acc = s.acc := rfl
@[simp] theorem dropBit_nbits (s : State) : (dropBit s).nbits = s.nbits := rfl
@[simp] theorem dropBit_cur (s : State) : (dropBit s).cur = s.cur := rfl
@[simp] theorem dropBit_rem (s : State) : (dropBit s).rem = s.rem - 1 := rfl
@[simp] theorem dropBit_emit (s : State) : (dropBit s).emit = s.emit := rfl
@[simp] theorem dropBit_inCount (s : State) : (dropBit s).inCount = s.inCount := rfl
@[simp] theorem dropBit_outCount (s : State) : (dropBit s).outCount = s.outCount := rfl
@[simp] theorem dropBit_lArg (s : State) : (dropBit s).lArg = s.lArg := rfl
@[simp] theorem dropBit_lIlen (s : State) : (dropBit s).lIlen = s.lIlen := rfl
@[simp] theorem dropBit_lSym (s : State) : (dropBit s).lSym = s.lSym := rfl
@[simp] theorem dropBit_errcode (s : State) : (dropBit s).errcode = s.errcode := rfl
@[simp] theorem dropBit_errOffset (s : State) : (dropBit s).errOffset = s.errOffset := rfl
@[simp] theorem dropBit_errExpected (s : State) : (dropBit s).errExpected = s.errExpected := rfl
@[simp] theorem dropBit_errActual (s : State) : (dropBit s).errActual = s.errActual := rfl
@[simp] theorem dropBit_errValid (s : State) : (dropBit s).errValid = s.errValid := rfl
@[simp] theorem dropBit_errPort (s : State) : (dropBit s).errPort = s.errPort := rfl
@[simp] theorem dropBit_err (s : State) : (dropBit s).err = s.err := rfl
@[simp] theorem dropBit_cmdOvr (s : State) : (dropBit s).cmdOvr = s.cmdOvr := rfl
@[simp] theorem dropBit_busy (s : State) : (dropBit s).busy = s.busy := rfl
@[simp] theorem dropBit_curCmd (s : State) : (dropBit s).curCmd = s.curCmd := rfl
@[simp] theorem dropBit_arg (s : State) : (dropBit s).arg = s.arg := rfl
@[simp] theorem dropBit_ilen (s : State) : (dropBit s).ilen = s.ilen := rfl
@[simp] theorem dropBit_freqSel (s : State) : (dropBit s).freqSel = s.freqSel := rfl
@[simp] theorem dropBit_codeSel (s : State) : (dropBit s).codeSel = s.codeSel := rfl
@[simp] theorem dropBit_ibuf (s : State) : (dropBit s).ibuf = s.ibuf := rfl
@[simp] theorem dropBit_ibufDraw (s : State) : (dropBit s).ibufDraw = s.ibufDraw := rfl
@[simp] theorem dropBit_cont (s : State) : (dropBit s).cont = s.cont := rfl
@[simp] theorem dropBit_waitOn (s : State) : (dropBit s).waitOn = s.waitOn := rfl
@[simp] theorem dropBit_src (s : State) : (dropBit s).src = s.src := rfl
@[simp] theorem dropBit_snk (s : State) : (dropBit s).snk = s.snk := rfl
@[simp] theorem dropBit_snkAns (s : State) : (dropBit s).snkAns = s.snkAns := rfl
@[simp] theorem dropBit_snkStanding (s : State) : (dropBit s).snkStanding = s.snkStanding := rfl
@[simp] theorem dropBit_hostOps (s : State) : (dropBit s).hostOps = s.hostOps := rfl
@[simp] theorem dropBit_notes (s : State) : (dropBit s).notes = s.notes := rfl
@[simp] theorem dropBit_sched (s : State) : (dropBit s).sched = s.sched := rfl
@[simp] theorem dropBit_draws (s : State) : (dropBit s).draws = s.draws := rfl

@[simp] theorem zeroOut_cfg (s : State) : (zeroOut s).cfg = s.cfg := rfl
@[simp] theorem zeroOut_freq (s : State) : (zeroOut s).freq = s.freq := rfl
@[simp] theorem zeroOut_width (s : State) : (zeroOut s).width = s.width := rfl
@[simp] theorem zeroOut_node (s : State) : (zeroOut s).node = s.node := rfl
@[simp] theorem zeroOut_nodeDraw (s : State) : (zeroOut s).nodeDraw = s.nodeDraw := rfl
@[simp] theorem zeroOut_nnodes (s : State) : (zeroOut s).nnodes = s.nnodes := rfl
@[simp] theorem zeroOut_root (s : State) : (zeroOut s).root = s.root := rfl
@[simp] theorem zeroOut_seq (s : State) : (zeroOut s).seq = s.seq := rfl
@[simp] theorem zeroOut_treeValid (s : State) : (zeroOut s).treeValid = s.treeValid := rfl
@[simp] theorem zeroOut_code (s : State) : (zeroOut s).code = s.code := rfl
@[simp] theorem zeroOut_codesValid (s : State) : (zeroOut s).codesValid = s.codesValid := rfl
@[simp] theorem zeroOut_acc (s : State) : (zeroOut s).acc = s.acc := rfl
@[simp] theorem zeroOut_nbits (s : State) : (zeroOut s).nbits = s.nbits := rfl
@[simp] theorem zeroOut_cur (s : State) : (zeroOut s).cur = s.cur := rfl
@[simp] theorem zeroOut_rem (s : State) : (zeroOut s).rem = s.rem := rfl
@[simp] theorem zeroOut_emit (s : State) : (zeroOut s).emit = s.emit := rfl
@[simp] theorem zeroOut_inCount (s : State) : (zeroOut s).inCount = s.inCount := rfl
@[simp] theorem zeroOut_outCount (s : State) : (zeroOut s).outCount = 0 := rfl
@[simp] theorem zeroOut_lArg (s : State) : (zeroOut s).lArg = s.lArg := rfl
@[simp] theorem zeroOut_lIlen (s : State) : (zeroOut s).lIlen = s.lIlen := rfl
@[simp] theorem zeroOut_lSym (s : State) : (zeroOut s).lSym = s.lSym := rfl
@[simp] theorem zeroOut_errcode (s : State) : (zeroOut s).errcode = s.errcode := rfl
@[simp] theorem zeroOut_errOffset (s : State) : (zeroOut s).errOffset = s.errOffset := rfl
@[simp] theorem zeroOut_errExpected (s : State) : (zeroOut s).errExpected = s.errExpected := rfl
@[simp] theorem zeroOut_errActual (s : State) : (zeroOut s).errActual = s.errActual := rfl
@[simp] theorem zeroOut_errValid (s : State) : (zeroOut s).errValid = s.errValid := rfl
@[simp] theorem zeroOut_errPort (s : State) : (zeroOut s).errPort = s.errPort := rfl
@[simp] theorem zeroOut_err (s : State) : (zeroOut s).err = s.err := rfl
@[simp] theorem zeroOut_cmdOvr (s : State) : (zeroOut s).cmdOvr = s.cmdOvr := rfl
@[simp] theorem zeroOut_busy (s : State) : (zeroOut s).busy = s.busy := rfl
@[simp] theorem zeroOut_curCmd (s : State) : (zeroOut s).curCmd = s.curCmd := rfl
@[simp] theorem zeroOut_arg (s : State) : (zeroOut s).arg = s.arg := rfl
@[simp] theorem zeroOut_ilen (s : State) : (zeroOut s).ilen = s.ilen := rfl
@[simp] theorem zeroOut_freqSel (s : State) : (zeroOut s).freqSel = s.freqSel := rfl
@[simp] theorem zeroOut_codeSel (s : State) : (zeroOut s).codeSel = s.codeSel := rfl
@[simp] theorem zeroOut_ibuf (s : State) : (zeroOut s).ibuf = s.ibuf := rfl
@[simp] theorem zeroOut_ibufDraw (s : State) : (zeroOut s).ibufDraw = s.ibufDraw := rfl
@[simp] theorem zeroOut_cont (s : State) : (zeroOut s).cont = s.cont := rfl
@[simp] theorem zeroOut_waitOn (s : State) : (zeroOut s).waitOn = s.waitOn := rfl
@[simp] theorem zeroOut_src (s : State) : (zeroOut s).src = s.src := rfl
@[simp] theorem zeroOut_snk (s : State) : (zeroOut s).snk = s.snk := rfl
@[simp] theorem zeroOut_snkAns (s : State) : (zeroOut s).snkAns = s.snkAns := rfl
@[simp] theorem zeroOut_snkStanding (s : State) : (zeroOut s).snkStanding = s.snkStanding := rfl
@[simp] theorem zeroOut_hostOps (s : State) : (zeroOut s).hostOps = s.hostOps := rfl
@[simp] theorem zeroOut_notes (s : State) : (zeroOut s).notes = s.notes := rfl
@[simp] theorem zeroOut_sched (s : State) : (zeroOut s).sched = s.sched := rfl
@[simp] theorem zeroOut_draws (s : State) : (zeroOut s).draws = s.draws := rfl

@[simp] theorem clearCursor_cfg (s : State) : (clearCursor s).cfg = s.cfg := rfl
@[simp] theorem clearCursor_freq (s : State) : (clearCursor s).freq = s.freq := rfl
@[simp] theorem clearCursor_width (s : State) : (clearCursor s).width = s.width := rfl
@[simp] theorem clearCursor_node (s : State) : (clearCursor s).node = s.node := rfl
@[simp] theorem clearCursor_nodeDraw (s : State) : (clearCursor s).nodeDraw = s.nodeDraw := rfl
@[simp] theorem clearCursor_nnodes (s : State) : (clearCursor s).nnodes = s.nnodes := rfl
@[simp] theorem clearCursor_root (s : State) : (clearCursor s).root = s.root := rfl
@[simp] theorem clearCursor_seq (s : State) : (clearCursor s).seq = s.seq := rfl
@[simp] theorem clearCursor_treeValid (s : State) : (clearCursor s).treeValid = s.treeValid := rfl
@[simp] theorem clearCursor_code (s : State) : (clearCursor s).code = s.code := rfl
@[simp] theorem clearCursor_codesValid (s : State) : (clearCursor s).codesValid = s.codesValid := rfl
@[simp] theorem clearCursor_acc (s : State) : (clearCursor s).acc = s.acc := rfl
@[simp] theorem clearCursor_nbits (s : State) : (clearCursor s).nbits = s.nbits := rfl
@[simp] theorem clearCursor_cur (s : State) : (clearCursor s).cur = 0 := rfl
@[simp] theorem clearCursor_rem (s : State) : (clearCursor s).rem = 0 := rfl
@[simp] theorem clearCursor_emit (s : State) : (clearCursor s).emit = 0 := rfl
@[simp] theorem clearCursor_inCount (s : State) : (clearCursor s).inCount = 0 := rfl
@[simp] theorem clearCursor_outCount (s : State) : (clearCursor s).outCount = s.outCount := rfl
@[simp] theorem clearCursor_lArg (s : State) : (clearCursor s).lArg = s.lArg := rfl
@[simp] theorem clearCursor_lIlen (s : State) : (clearCursor s).lIlen = s.lIlen := rfl
@[simp] theorem clearCursor_lSym (s : State) : (clearCursor s).lSym = s.lSym := rfl
@[simp] theorem clearCursor_errcode (s : State) : (clearCursor s).errcode = s.errcode := rfl
@[simp] theorem clearCursor_errOffset (s : State) : (clearCursor s).errOffset = s.errOffset := rfl
@[simp] theorem clearCursor_errExpected (s : State) : (clearCursor s).errExpected = s.errExpected := rfl
@[simp] theorem clearCursor_errActual (s : State) : (clearCursor s).errActual = s.errActual := rfl
@[simp] theorem clearCursor_errValid (s : State) : (clearCursor s).errValid = s.errValid := rfl
@[simp] theorem clearCursor_errPort (s : State) : (clearCursor s).errPort = s.errPort := rfl
@[simp] theorem clearCursor_err (s : State) : (clearCursor s).err = s.err := rfl
@[simp] theorem clearCursor_cmdOvr (s : State) : (clearCursor s).cmdOvr = s.cmdOvr := rfl
@[simp] theorem clearCursor_busy (s : State) : (clearCursor s).busy = s.busy := rfl
@[simp] theorem clearCursor_curCmd (s : State) : (clearCursor s).curCmd = s.curCmd := rfl
@[simp] theorem clearCursor_arg (s : State) : (clearCursor s).arg = s.arg := rfl
@[simp] theorem clearCursor_ilen (s : State) : (clearCursor s).ilen = s.ilen := rfl
@[simp] theorem clearCursor_freqSel (s : State) : (clearCursor s).freqSel = s.freqSel := rfl
@[simp] theorem clearCursor_codeSel (s : State) : (clearCursor s).codeSel = s.codeSel := rfl
@[simp] theorem clearCursor_ibuf (s : State) : (clearCursor s).ibuf = s.ibuf := rfl
@[simp] theorem clearCursor_ibufDraw (s : State) : (clearCursor s).ibufDraw = s.ibufDraw := rfl
@[simp] theorem clearCursor_cont (s : State) : (clearCursor s).cont = s.cont := rfl
@[simp] theorem clearCursor_waitOn (s : State) : (clearCursor s).waitOn = s.waitOn := rfl
@[simp] theorem clearCursor_src (s : State) : (clearCursor s).src = s.src := rfl
@[simp] theorem clearCursor_snk (s : State) : (clearCursor s).snk = s.snk := rfl
@[simp] theorem clearCursor_snkAns (s : State) : (clearCursor s).snkAns = s.snkAns := rfl
@[simp] theorem clearCursor_snkStanding (s : State) : (clearCursor s).snkStanding = s.snkStanding := rfl
@[simp] theorem clearCursor_hostOps (s : State) : (clearCursor s).hostOps = s.hostOps := rfl
@[simp] theorem clearCursor_notes (s : State) : (clearCursor s).notes = s.notes := rfl
@[simp] theorem clearCursor_sched (s : State) : (clearCursor s).sched = s.sched := rfl
@[simp] theorem clearCursor_draws (s : State) : (clearCursor s).draws = s.draws := rfl

@[simp] theorem hreadClear_cfg (s : State) : (hreadClear s).cfg = s.cfg := rfl
@[simp] theorem hreadClear_freq (s : State) : (hreadClear s).freq = Vector.replicate 256 0 := rfl
@[simp] theorem hreadClear_width (s : State) : (hreadClear s).width = 0 := rfl
@[simp] theorem hreadClear_node (s : State) : (hreadClear s).node = s.node := rfl
@[simp] theorem hreadClear_nodeDraw (s : State) : (hreadClear s).nodeDraw = s.nodeDraw := rfl
@[simp] theorem hreadClear_nnodes (s : State) : (hreadClear s).nnodes = s.nnodes := rfl
@[simp] theorem hreadClear_root (s : State) : (hreadClear s).root = s.root := rfl
@[simp] theorem hreadClear_seq (s : State) : (hreadClear s).seq = s.seq := rfl
@[simp] theorem hreadClear_treeValid (s : State) : (hreadClear s).treeValid = false := rfl
@[simp] theorem hreadClear_code (s : State) : (hreadClear s).code = s.code := rfl
@[simp] theorem hreadClear_codesValid (s : State) : (hreadClear s).codesValid = false := rfl
@[simp] theorem hreadClear_acc (s : State) : (hreadClear s).acc = s.acc := rfl
@[simp] theorem hreadClear_nbits (s : State) : (hreadClear s).nbits = s.nbits := rfl
@[simp] theorem hreadClear_cur (s : State) : (hreadClear s).cur = 0 := rfl
@[simp] theorem hreadClear_rem (s : State) : (hreadClear s).rem = 0 := rfl
@[simp] theorem hreadClear_emit (s : State) : (hreadClear s).emit = 0 := rfl
@[simp] theorem hreadClear_inCount (s : State) : (hreadClear s).inCount = 0 := rfl
@[simp] theorem hreadClear_outCount (s : State) : (hreadClear s).outCount = s.outCount := rfl
@[simp] theorem hreadClear_lArg (s : State) : (hreadClear s).lArg = s.lArg := rfl
@[simp] theorem hreadClear_lIlen (s : State) : (hreadClear s).lIlen = s.lIlen := rfl
@[simp] theorem hreadClear_lSym (s : State) : (hreadClear s).lSym = s.lSym := rfl
@[simp] theorem hreadClear_errcode (s : State) : (hreadClear s).errcode = s.errcode := rfl
@[simp] theorem hreadClear_errOffset (s : State) : (hreadClear s).errOffset = s.errOffset := rfl
@[simp] theorem hreadClear_errExpected (s : State) : (hreadClear s).errExpected = s.errExpected := rfl
@[simp] theorem hreadClear_errActual (s : State) : (hreadClear s).errActual = s.errActual := rfl
@[simp] theorem hreadClear_errValid (s : State) : (hreadClear s).errValid = s.errValid := rfl
@[simp] theorem hreadClear_errPort (s : State) : (hreadClear s).errPort = s.errPort := rfl
@[simp] theorem hreadClear_err (s : State) : (hreadClear s).err = s.err := rfl
@[simp] theorem hreadClear_cmdOvr (s : State) : (hreadClear s).cmdOvr = s.cmdOvr := rfl
@[simp] theorem hreadClear_busy (s : State) : (hreadClear s).busy = s.busy := rfl
@[simp] theorem hreadClear_curCmd (s : State) : (hreadClear s).curCmd = s.curCmd := rfl
@[simp] theorem hreadClear_arg (s : State) : (hreadClear s).arg = s.arg := rfl
@[simp] theorem hreadClear_ilen (s : State) : (hreadClear s).ilen = s.ilen := rfl
@[simp] theorem hreadClear_freqSel (s : State) : (hreadClear s).freqSel = s.freqSel := rfl
@[simp] theorem hreadClear_codeSel (s : State) : (hreadClear s).codeSel = s.codeSel := rfl
@[simp] theorem hreadClear_ibuf (s : State) : (hreadClear s).ibuf = s.ibuf := rfl
@[simp] theorem hreadClear_ibufDraw (s : State) : (hreadClear s).ibufDraw = s.ibufDraw := rfl
@[simp] theorem hreadClear_cont (s : State) : (hreadClear s).cont = s.cont := rfl
@[simp] theorem hreadClear_waitOn (s : State) : (hreadClear s).waitOn = s.waitOn := rfl
@[simp] theorem hreadClear_src (s : State) : (hreadClear s).src = s.src := rfl
@[simp] theorem hreadClear_snk (s : State) : (hreadClear s).snk = s.snk := rfl
@[simp] theorem hreadClear_snkAns (s : State) : (hreadClear s).snkAns = s.snkAns := rfl
@[simp] theorem hreadClear_snkStanding (s : State) : (hreadClear s).snkStanding = s.snkStanding := rfl
@[simp] theorem hreadClear_hostOps (s : State) : (hreadClear s).hostOps = s.hostOps := rfl
@[simp] theorem hreadClear_notes (s : State) : (hreadClear s).notes = s.notes := rfl
@[simp] theorem hreadClear_sched (s : State) : (hreadClear s).sched = s.sched := rfl
@[simp] theorem hreadClear_draws (s : State) : (hreadClear s).draws = s.draws := rfl

@[simp] theorem popHost_cfg (s : State) : (popHost s).cfg = s.cfg := rfl
@[simp] theorem popHost_freq (s : State) : (popHost s).freq = s.freq := rfl
@[simp] theorem popHost_width (s : State) : (popHost s).width = s.width := rfl
@[simp] theorem popHost_node (s : State) : (popHost s).node = s.node := rfl
@[simp] theorem popHost_nodeDraw (s : State) : (popHost s).nodeDraw = s.nodeDraw := rfl
@[simp] theorem popHost_nnodes (s : State) : (popHost s).nnodes = s.nnodes := rfl
@[simp] theorem popHost_root (s : State) : (popHost s).root = s.root := rfl
@[simp] theorem popHost_seq (s : State) : (popHost s).seq = s.seq := rfl
@[simp] theorem popHost_treeValid (s : State) : (popHost s).treeValid = s.treeValid := rfl
@[simp] theorem popHost_code (s : State) : (popHost s).code = s.code := rfl
@[simp] theorem popHost_codesValid (s : State) : (popHost s).codesValid = s.codesValid := rfl
@[simp] theorem popHost_acc (s : State) : (popHost s).acc = s.acc := rfl
@[simp] theorem popHost_nbits (s : State) : (popHost s).nbits = s.nbits := rfl
@[simp] theorem popHost_cur (s : State) : (popHost s).cur = s.cur := rfl
@[simp] theorem popHost_rem (s : State) : (popHost s).rem = s.rem := rfl
@[simp] theorem popHost_emit (s : State) : (popHost s).emit = s.emit := rfl
@[simp] theorem popHost_inCount (s : State) : (popHost s).inCount = s.inCount := rfl
@[simp] theorem popHost_outCount (s : State) : (popHost s).outCount = s.outCount := rfl
@[simp] theorem popHost_lArg (s : State) : (popHost s).lArg = s.lArg := rfl
@[simp] theorem popHost_lIlen (s : State) : (popHost s).lIlen = s.lIlen := rfl
@[simp] theorem popHost_lSym (s : State) : (popHost s).lSym = s.lSym := rfl
@[simp] theorem popHost_errcode (s : State) : (popHost s).errcode = s.errcode := rfl
@[simp] theorem popHost_errOffset (s : State) : (popHost s).errOffset = s.errOffset := rfl
@[simp] theorem popHost_errExpected (s : State) : (popHost s).errExpected = s.errExpected := rfl
@[simp] theorem popHost_errActual (s : State) : (popHost s).errActual = s.errActual := rfl
@[simp] theorem popHost_errValid (s : State) : (popHost s).errValid = s.errValid := rfl
@[simp] theorem popHost_errPort (s : State) : (popHost s).errPort = s.errPort := rfl
@[simp] theorem popHost_err (s : State) : (popHost s).err = s.err := rfl
@[simp] theorem popHost_cmdOvr (s : State) : (popHost s).cmdOvr = s.cmdOvr := rfl
@[simp] theorem popHost_busy (s : State) : (popHost s).busy = s.busy := rfl
@[simp] theorem popHost_curCmd (s : State) : (popHost s).curCmd = s.curCmd := rfl
@[simp] theorem popHost_arg (s : State) : (popHost s).arg = s.arg := rfl
@[simp] theorem popHost_ilen (s : State) : (popHost s).ilen = s.ilen := rfl
@[simp] theorem popHost_freqSel (s : State) : (popHost s).freqSel = s.freqSel := rfl
@[simp] theorem popHost_codeSel (s : State) : (popHost s).codeSel = s.codeSel := rfl
@[simp] theorem popHost_ibuf (s : State) : (popHost s).ibuf = s.ibuf := rfl
@[simp] theorem popHost_ibufDraw (s : State) : (popHost s).ibufDraw = s.ibufDraw := rfl
@[simp] theorem popHost_cont (s : State) : (popHost s).cont = s.cont := rfl
@[simp] theorem popHost_waitOn (s : State) : (popHost s).waitOn = s.waitOn := rfl
@[simp] theorem popHost_src (s : State) : (popHost s).src = s.src := rfl
@[simp] theorem popHost_snk (s : State) : (popHost s).snk = s.snk := rfl
@[simp] theorem popHost_snkAns (s : State) : (popHost s).snkAns = s.snkAns := rfl
@[simp] theorem popHost_snkStanding (s : State) : (popHost s).snkStanding = s.snkStanding := rfl
@[simp] theorem popHost_hostOps (s : State) : (popHost s).hostOps = s.hostOps.tail := rfl
@[simp] theorem popHost_notes (s : State) : (popHost s).notes = s.notes := rfl
@[simp] theorem popHost_sched (s : State) : (popHost s).sched = if coreReady s then s.sched.tail else s.sched := rfl
@[simp] theorem popHost_draws (s : State) : (popHost s).draws = s.draws := rfl

@[simp] theorem raise_cfg (e : ErrKind) (o : BitVec 64) (x a : Option Byte) (p : Port) (s : State) : (raise e o x a p s).cfg = s.cfg := by unfold raise scramble; rfl
@[simp] theorem raise_node (e : ErrKind) (o : BitVec 64) (x a : Option Byte) (p : Port) (s : State) : (raise e o x a p s).node = [] := by unfold raise scramble; rfl
@[simp] theorem raise_nodeDraw (e : ErrKind) (o : BitVec 64) (x a : Option Byte) (p : Port) (s : State) : (raise e o x a p s).nodeDraw = s.draws := by unfold raise scramble; rfl
@[simp] theorem raise_treeValid (e : ErrKind) (o : BitVec 64) (x a : Option Byte) (p : Port) (s : State) : (raise e o x a p s).treeValid = false := by unfold raise scramble; rfl
@[simp] theorem raise_codesValid (e : ErrKind) (o : BitVec 64) (x a : Option Byte) (p : Port) (s : State) : (raise e o x a p s).codesValid = false := by unfold raise scramble; rfl
@[simp] theorem raise_inCount (e : ErrKind) (o : BitVec 64) (x a : Option Byte) (p : Port) (s : State) : (raise e o x a p s).inCount = s.inCount := by unfold raise scramble; rfl
@[simp] theorem raise_outCount (e : ErrKind) (o : BitVec 64) (x a : Option Byte) (p : Port) (s : State) : (raise e o x a p s).outCount = s.outCount := by unfold raise scramble; rfl
@[simp] theorem raise_errcode (e : ErrKind) (o : BitVec 64) (x a : Option Byte) (p : Port) (s : State) : (raise e o x a p s).errcode = e.code := by unfold raise scramble; rfl
@[simp] theorem raise_errOffset (e : ErrKind) (o : BitVec 64) (x a : Option Byte) (p : Port) (s : State) : (raise e o x a p s).errOffset = o := by unfold raise scramble; rfl
@[simp] theorem raise_errExpected (e : ErrKind) (o : BitVec 64) (x a : Option Byte) (p : Port) (s : State) : (raise e o x a p s).errExpected = x.getD 0 := by unfold raise scramble; rfl
@[simp] theorem raise_errActual (e : ErrKind) (o : BitVec 64) (x a : Option Byte) (p : Port) (s : State) : (raise e o x a p s).errActual = a.getD 0 := by unfold raise scramble; rfl
@[simp] theorem raise_errValid (e : ErrKind) (o : BitVec 64) (x a : Option Byte) (p : Port) (s : State) : (raise e o x a p s).errValid = a.isSome := by unfold raise scramble; rfl
@[simp] theorem raise_errPort (e : ErrKind) (o : BitVec 64) (x a : Option Byte) (p : Port) (s : State) : (raise e o x a p s).errPort = (e == .ioFailure && p == .snk) := by unfold raise scramble; rfl
@[simp] theorem raise_err (e : ErrKind) (o : BitVec 64) (x a : Option Byte) (p : Port) (s : State) : (raise e o x a p s).err = true := by unfold raise scramble; rfl
@[simp] theorem raise_cmdOvr (e : ErrKind) (o : BitVec 64) (x a : Option Byte) (p : Port) (s : State) : (raise e o x a p s).cmdOvr = s.cmdOvr := by unfold raise scramble; rfl
@[simp] theorem raise_busy (e : ErrKind) (o : BitVec 64) (x a : Option Byte) (p : Port) (s : State) : (raise e o x a p s).busy = false := by unfold raise scramble; rfl
@[simp] theorem raise_arg (e : ErrKind) (o : BitVec 64) (x a : Option Byte) (p : Port) (s : State) : (raise e o x a p s).arg = s.arg := by unfold raise scramble; rfl
@[simp] theorem raise_ilen (e : ErrKind) (o : BitVec 64) (x a : Option Byte) (p : Port) (s : State) : (raise e o x a p s).ilen = s.ilen := by unfold raise scramble; rfl
@[simp] theorem raise_freqSel (e : ErrKind) (o : BitVec 64) (x a : Option Byte) (p : Port) (s : State) : (raise e o x a p s).freqSel = s.freqSel := by unfold raise scramble; rfl
@[simp] theorem raise_codeSel (e : ErrKind) (o : BitVec 64) (x a : Option Byte) (p : Port) (s : State) : (raise e o x a p s).codeSel = s.codeSel := by unfold raise scramble; rfl
@[simp] theorem raise_ibuf (e : ErrKind) (o : BitVec 64) (x a : Option Byte) (p : Port) (s : State) : (raise e o x a p s).ibuf = s.ibuf := by unfold raise scramble; rfl
@[simp] theorem raise_ibufDraw (e : ErrKind) (o : BitVec 64) (x a : Option Byte) (p : Port) (s : State) : (raise e o x a p s).ibufDraw = s.ibufDraw := by unfold raise scramble; rfl
@[simp] theorem raise_cont (e : ErrKind) (o : BitVec 64) (x a : Option Byte) (p : Port) (s : State) : (raise e o x a p s).cont = [] := by unfold raise scramble; rfl
@[simp] theorem raise_waitOn (e : ErrKind) (o : BitVec 64) (x a : Option Byte) (p : Port) (s : State) : (raise e o x a p s).waitOn = .ready := by unfold raise scramble; rfl
@[simp] theorem raise_src (e : ErrKind) (o : BitVec 64) (x a : Option Byte) (p : Port) (s : State) : (raise e o x a p s).src = s.src := by unfold raise scramble; rfl
@[simp] theorem raise_snk (e : ErrKind) (o : BitVec 64) (x a : Option Byte) (p : Port) (s : State) : (raise e o x a p s).snk = s.snk := by unfold raise scramble; rfl
@[simp] theorem raise_snkAns (e : ErrKind) (o : BitVec 64) (x a : Option Byte) (p : Port) (s : State) : (raise e o x a p s).snkAns = s.snkAns := by unfold raise scramble; rfl
@[simp] theorem raise_snkStanding (e : ErrKind) (o : BitVec 64) (x a : Option Byte) (p : Port) (s : State) : (raise e o x a p s).snkStanding = s.snkStanding := by unfold raise scramble; rfl
@[simp] theorem raise_hostOps (e : ErrKind) (o : BitVec 64) (x a : Option Byte) (p : Port) (s : State) : (raise e o x a p s).hostOps = s.hostOps := by unfold raise scramble; rfl
@[simp] theorem raise_notes (e : ErrKind) (o : BitVec 64) (x a : Option Byte) (p : Port) (s : State) : (raise e o x a p s).notes = s.notes := by unfold raise scramble; rfl
@[simp] theorem raise_sched (e : ErrKind) (o : BitVec 64) (x a : Option Byte) (p : Port) (s : State) : (raise e o x a p s).sched = s.sched := by unfold raise scramble; rfl
@[simp] theorem raise_draws (e : ErrKind) (o : BitVec 64) (x a : Option Byte) (p : Port) (s : State) : (raise e o x a p s).draws = s.draws + 1 := by unfold raise scramble; rfl

/-! The answer to an offered byte changes the queue of answers, the taken bytes, the position and the schedule alone. -/

@[simp] theorem answerOffer_cfg (s : State) : (answerOffer s).cfg = s.cfg := by unfold answerOffer; split <;> rfl
@[simp] theorem answerOffer_freq (s : State) : (answerOffer s).freq = s.freq := by unfold answerOffer; split <;> rfl
@[simp] theorem answerOffer_width (s : State) : (answerOffer s).width = s.width := by unfold answerOffer; split <;> rfl
@[simp] theorem answerOffer_node (s : State) : (answerOffer s).node = s.node := by unfold answerOffer; split <;> rfl
@[simp] theorem answerOffer_nodeDraw (s : State) : (answerOffer s).nodeDraw = s.nodeDraw := by unfold answerOffer; split <;> rfl
@[simp] theorem answerOffer_nnodes (s : State) : (answerOffer s).nnodes = s.nnodes := by unfold answerOffer; split <;> rfl
@[simp] theorem answerOffer_root (s : State) : (answerOffer s).root = s.root := by unfold answerOffer; split <;> rfl
@[simp] theorem answerOffer_seq (s : State) : (answerOffer s).seq = s.seq := by unfold answerOffer; split <;> rfl
@[simp] theorem answerOffer_treeValid (s : State) : (answerOffer s).treeValid = s.treeValid := by unfold answerOffer; split <;> rfl
@[simp] theorem answerOffer_code (s : State) : (answerOffer s).code = s.code := by unfold answerOffer; split <;> rfl
@[simp] theorem answerOffer_codesValid (s : State) : (answerOffer s).codesValid = s.codesValid := by unfold answerOffer; split <;> rfl
@[simp] theorem answerOffer_acc (s : State) : (answerOffer s).acc = s.acc := by unfold answerOffer; split <;> rfl
@[simp] theorem answerOffer_nbits (s : State) : (answerOffer s).nbits = s.nbits := by unfold answerOffer; split <;> rfl
@[simp] theorem answerOffer_cur (s : State) : (answerOffer s).cur = s.cur := by unfold answerOffer; split <;> rfl
@[simp] theorem answerOffer_rem (s : State) : (answerOffer s).rem = s.rem := by unfold answerOffer; split <;> rfl
@[simp] theorem answerOffer_emit (s : State) : (answerOffer s).emit = s.emit := by unfold answerOffer; split <;> rfl
@[simp] theorem answerOffer_inCount (s : State) : (answerOffer s).inCount = s.inCount := by unfold answerOffer; split <;> rfl
@[simp] theorem answerOffer_outCount (s : State) : (answerOffer s).outCount = s.outCount := by unfold answerOffer; split <;> rfl
@[simp] theorem answerOffer_lArg (s : State) : (answerOffer s).lArg = s.lArg := by unfold answerOffer; split <;> rfl
@[simp] theorem answerOffer_lIlen (s : State) : (answerOffer s).lIlen = s.lIlen := by unfold answerOffer; split <;> rfl
@[simp] theorem answerOffer_lSym (s : State) : (answerOffer s).lSym = s.lSym := by unfold answerOffer; split <;> rfl
@[simp] theorem answerOffer_errcode (s : State) : (answerOffer s).errcode = s.errcode := by unfold answerOffer; split <;> rfl
@[simp] theorem answerOffer_errOffset (s : State) : (answerOffer s).errOffset = s.errOffset := by unfold answerOffer; split <;> rfl
@[simp] theorem answerOffer_errExpected (s : State) : (answerOffer s).errExpected = s.errExpected := by unfold answerOffer; split <;> rfl
@[simp] theorem answerOffer_errActual (s : State) : (answerOffer s).errActual = s.errActual := by unfold answerOffer; split <;> rfl
@[simp] theorem answerOffer_errValid (s : State) : (answerOffer s).errValid = s.errValid := by unfold answerOffer; split <;> rfl
@[simp] theorem answerOffer_errPort (s : State) : (answerOffer s).errPort = s.errPort := by unfold answerOffer; split <;> rfl
@[simp] theorem answerOffer_err (s : State) : (answerOffer s).err = s.err := by unfold answerOffer; split <;> rfl
@[simp] theorem answerOffer_cmdOvr (s : State) : (answerOffer s).cmdOvr = s.cmdOvr := by unfold answerOffer; split <;> rfl
@[simp] theorem answerOffer_busy (s : State) : (answerOffer s).busy = s.busy := by unfold answerOffer; split <;> rfl
@[simp] theorem answerOffer_curCmd (s : State) : (answerOffer s).curCmd = s.curCmd := by unfold answerOffer; split <;> rfl
@[simp] theorem answerOffer_arg (s : State) : (answerOffer s).arg = s.arg := by unfold answerOffer; split <;> rfl
@[simp] theorem answerOffer_ilen (s : State) : (answerOffer s).ilen = s.ilen := by unfold answerOffer; split <;> rfl
@[simp] theorem answerOffer_freqSel (s : State) : (answerOffer s).freqSel = s.freqSel := by unfold answerOffer; split <;> rfl
@[simp] theorem answerOffer_codeSel (s : State) : (answerOffer s).codeSel = s.codeSel := by unfold answerOffer; split <;> rfl
@[simp] theorem answerOffer_ibuf (s : State) : (answerOffer s).ibuf = s.ibuf := by unfold answerOffer; split <;> rfl
@[simp] theorem answerOffer_ibufDraw (s : State) : (answerOffer s).ibufDraw = s.ibufDraw := by unfold answerOffer; split <;> rfl
@[simp] theorem answerOffer_src (s : State) : (answerOffer s).src = s.src := by unfold answerOffer; split <;> rfl
@[simp] theorem answerOffer_snkStanding (s : State) : (answerOffer s).snkStanding = s.snkStanding := by unfold answerOffer; split <;> rfl
@[simp] theorem answerOffer_hostOps (s : State) : (answerOffer s).hostOps = s.hostOps := by unfold answerOffer; split <;> rfl
@[simp] theorem answerOffer_notes (s : State) : (answerOffer s).notes = s.notes := by unfold answerOffer; split <;> rfl
@[simp] theorem answerOffer_draws (s : State) : (answerOffer s).draws = s.draws := by unfold answerOffer; split <;> rfl

@[simp] theorem countOut_cfg (s : State) : (countOut s).cfg = s.cfg := rfl
@[simp] theorem countOut_freq (s : State) : (countOut s).freq = s.freq := rfl
@[simp] theorem countOut_width (s : State) : (countOut s).width = s.width := rfl
@[simp] theorem countOut_node (s : State) : (countOut s).node = s.node := rfl
@[simp] theorem countOut_nodeDraw (s : State) : (countOut s).nodeDraw = s.nodeDraw := rfl
@[simp] theorem countOut_nnodes (s : State) : (countOut s).nnodes = s.nnodes := rfl
@[simp] theorem countOut_root (s : State) : (countOut s).root = s.root := rfl
@[simp] theorem countOut_seq (s : State) : (countOut s).seq = s.seq := rfl
@[simp] theorem countOut_treeValid (s : State) : (countOut s).treeValid = s.treeValid := rfl
@[simp] theorem countOut_code (s : State) : (countOut s).code = s.code := rfl
@[simp] theorem countOut_codesValid (s : State) : (countOut s).codesValid = s.codesValid := rfl
@[simp] theorem countOut_acc (s : State) : (countOut s).acc = s.acc := rfl
@[simp] theorem countOut_nbits (s : State) : (countOut s).nbits = s.nbits := rfl
@[simp] theorem countOut_cur (s : State) : (countOut s).cur = s.cur := rfl
@[simp] theorem countOut_rem (s : State) : (countOut s).rem = s.rem := rfl
@[simp] theorem countOut_emit (s : State) : (countOut s).emit = s.emit := rfl
@[simp] theorem countOut_inCount (s : State) : (countOut s).inCount = s.inCount := rfl
@[simp] theorem countOut_outCount (s : State) : (countOut s).outCount = s.outCount + 1 := rfl
@[simp] theorem countOut_lArg (s : State) : (countOut s).lArg = s.lArg := rfl
@[simp] theorem countOut_lIlen (s : State) : (countOut s).lIlen = s.lIlen := rfl
@[simp] theorem countOut_lSym (s : State) : (countOut s).lSym = s.lSym := rfl
@[simp] theorem countOut_errcode (s : State) : (countOut s).errcode = s.errcode := rfl
@[simp] theorem countOut_errOffset (s : State) : (countOut s).errOffset = s.errOffset := rfl
@[simp] theorem countOut_errExpected (s : State) : (countOut s).errExpected = s.errExpected := rfl
@[simp] theorem countOut_errActual (s : State) : (countOut s).errActual = s.errActual := rfl
@[simp] theorem countOut_errValid (s : State) : (countOut s).errValid = s.errValid := rfl
@[simp] theorem countOut_errPort (s : State) : (countOut s).errPort = s.errPort := rfl
@[simp] theorem countOut_err (s : State) : (countOut s).err = s.err := rfl
@[simp] theorem countOut_cmdOvr (s : State) : (countOut s).cmdOvr = s.cmdOvr := rfl
@[simp] theorem countOut_busy (s : State) : (countOut s).busy = s.busy := rfl
@[simp] theorem countOut_curCmd (s : State) : (countOut s).curCmd = s.curCmd := rfl
@[simp] theorem countOut_arg (s : State) : (countOut s).arg = s.arg := rfl
@[simp] theorem countOut_ilen (s : State) : (countOut s).ilen = s.ilen := rfl
@[simp] theorem countOut_freqSel (s : State) : (countOut s).freqSel = s.freqSel := rfl
@[simp] theorem countOut_codeSel (s : State) : (countOut s).codeSel = s.codeSel := rfl
@[simp] theorem countOut_ibuf (s : State) : (countOut s).ibuf = s.ibuf := rfl
@[simp] theorem countOut_ibufDraw (s : State) : (countOut s).ibufDraw = s.ibufDraw := rfl
@[simp] theorem countOut_cont (s : State) : (countOut s).cont = s.cont := rfl
@[simp] theorem countOut_waitOn (s : State) : (countOut s).waitOn = s.waitOn := rfl
@[simp] theorem countOut_src (s : State) : (countOut s).src = s.src := rfl
@[simp] theorem countOut_snk (s : State) : (countOut s).snk = s.snk := rfl
@[simp] theorem countOut_snkAns (s : State) : (countOut s).snkAns = s.snkAns := rfl
@[simp] theorem countOut_snkStanding (s : State) : (countOut s).snkStanding = s.snkStanding := rfl
@[simp] theorem countOut_hostOps (s : State) : (countOut s).hostOps = s.hostOps := rfl
@[simp] theorem countOut_notes (s : State) : (countOut s).notes = s.notes := rfl
@[simp] theorem countOut_sched (s : State) : (countOut s).sched = s.sched := rfl
@[simp] theorem countOut_draws (s : State) : (countOut s).draws = s.draws := rfl

@[simp] theorem takeByte_cfg (b : Byte) (s : State) : (takeByte b s).cfg = s.cfg := rfl
@[simp] theorem takeByte_freq (b : Byte) (s : State) : (takeByte b s).freq = s.freq := rfl
@[simp] theorem takeByte_width (b : Byte) (s : State) : (takeByte b s).width = s.width := rfl
@[simp] theorem takeByte_node (b : Byte) (s : State) : (takeByte b s).node = s.node := rfl
@[simp] theorem takeByte_nodeDraw (b : Byte) (s : State) : (takeByte b s).nodeDraw = s.nodeDraw := rfl
@[simp] theorem takeByte_nnodes (b : Byte) (s : State) : (takeByte b s).nnodes = s.nnodes := rfl
@[simp] theorem takeByte_root (b : Byte) (s : State) : (takeByte b s).root = s.root := rfl
@[simp] theorem takeByte_seq (b : Byte) (s : State) : (takeByte b s).seq = s.seq := rfl
@[simp] theorem takeByte_treeValid (b : Byte) (s : State) : (takeByte b s).treeValid = s.treeValid := rfl
@[simp] theorem takeByte_code (b : Byte) (s : State) : (takeByte b s).code = s.code := rfl
@[simp] theorem takeByte_codesValid (b : Byte) (s : State) : (takeByte b s).codesValid = s.codesValid := rfl
@[simp] theorem takeByte_acc (b : Byte) (s : State) : (takeByte b s).acc = s.acc := rfl
@[simp] theorem takeByte_nbits (b : Byte) (s : State) : (takeByte b s).nbits = s.nbits := rfl
@[simp] theorem takeByte_cur (b : Byte) (s : State) : (takeByte b s).cur = s.cur := rfl
@[simp] theorem takeByte_rem (b : Byte) (s : State) : (takeByte b s).rem = s.rem := rfl
@[simp] theorem takeByte_emit (b : Byte) (s : State) : (takeByte b s).emit = s.emit := rfl
@[simp] theorem takeByte_inCount (b : Byte) (s : State) : (takeByte b s).inCount = s.inCount := rfl
@[simp] theorem takeByte_outCount (b : Byte) (s : State) : (takeByte b s).outCount = s.outCount := rfl
@[simp] theorem takeByte_lArg (b : Byte) (s : State) : (takeByte b s).lArg = s.lArg := rfl
@[simp] theorem takeByte_lIlen (b : Byte) (s : State) : (takeByte b s).lIlen = s.lIlen := rfl
@[simp] theorem takeByte_lSym (b : Byte) (s : State) : (takeByte b s).lSym = s.lSym := rfl
@[simp] theorem takeByte_errcode (b : Byte) (s : State) : (takeByte b s).errcode = s.errcode := rfl
@[simp] theorem takeByte_errOffset (b : Byte) (s : State) : (takeByte b s).errOffset = s.errOffset := rfl
@[simp] theorem takeByte_errExpected (b : Byte) (s : State) : (takeByte b s).errExpected = s.errExpected := rfl
@[simp] theorem takeByte_errActual (b : Byte) (s : State) : (takeByte b s).errActual = s.errActual := rfl
@[simp] theorem takeByte_errValid (b : Byte) (s : State) : (takeByte b s).errValid = s.errValid := rfl
@[simp] theorem takeByte_errPort (b : Byte) (s : State) : (takeByte b s).errPort = s.errPort := rfl
@[simp] theorem takeByte_err (b : Byte) (s : State) : (takeByte b s).err = s.err := rfl
@[simp] theorem takeByte_cmdOvr (b : Byte) (s : State) : (takeByte b s).cmdOvr = s.cmdOvr := rfl
@[simp] theorem takeByte_busy (b : Byte) (s : State) : (takeByte b s).busy = s.busy := rfl
@[simp] theorem takeByte_curCmd (b : Byte) (s : State) : (takeByte b s).curCmd = s.curCmd := rfl
@[simp] theorem takeByte_arg (b : Byte) (s : State) : (takeByte b s).arg = s.arg := rfl
@[simp] theorem takeByte_ilen (b : Byte) (s : State) : (takeByte b s).ilen = s.ilen := rfl
@[simp] theorem takeByte_freqSel (b : Byte) (s : State) : (takeByte b s).freqSel = s.freqSel := rfl
@[simp] theorem takeByte_codeSel (b : Byte) (s : State) : (takeByte b s).codeSel = s.codeSel := rfl
@[simp] theorem takeByte_ibuf (b : Byte) (s : State) : (takeByte b s).ibuf = s.ibuf := rfl
@[simp] theorem takeByte_ibufDraw (b : Byte) (s : State) : (takeByte b s).ibufDraw = s.ibufDraw := rfl
@[simp] theorem takeByte_cont (b : Byte) (s : State) : (takeByte b s).cont = s.cont := rfl
@[simp] theorem takeByte_waitOn (b : Byte) (s : State) : (takeByte b s).waitOn = s.waitOn := rfl
@[simp] theorem takeByte_src (b : Byte) (s : State) : (takeByte b s).src = s.src := rfl
@[simp] theorem takeByte_snk (b : Byte) (s : State) : (takeByte b s).snk = s.snk ++ [b] := rfl
@[simp] theorem takeByte_snkAns (b : Byte) (s : State) : (takeByte b s).snkAns = s.snkAns := rfl
@[simp] theorem takeByte_snkStanding (b : Byte) (s : State) : (takeByte b s).snkStanding = s.snkStanding := rfl
@[simp] theorem takeByte_hostOps (b : Byte) (s : State) : (takeByte b s).hostOps = s.hostOps := rfl
@[simp] theorem takeByte_notes (b : Byte) (s : State) : (takeByte b s).notes = s.notes := rfl
@[simp] theorem takeByte_sched (b : Byte) (s : State) : (takeByte b s).sched = s.sched := rfl
@[simp] theorem takeByte_draws (b : Byte) (s : State) : (takeByte b s).draws = s.draws := rfl

@[simp] theorem coreTurn_cfg (s : State) : (coreTurn s).cfg = s.cfg := rfl
@[simp] theorem coreTurn_freq (s : State) : (coreTurn s).freq = s.freq := rfl
@[simp] theorem coreTurn_width (s : State) : (coreTurn s).width = s.width := rfl
@[simp] theorem coreTurn_node (s : State) : (coreTurn s).node = s.node := rfl
@[simp] theorem coreTurn_nodeDraw (s : State) : (coreTurn s).nodeDraw = s.nodeDraw := rfl
@[simp] theorem coreTurn_nnodes (s : State) : (coreTurn s).nnodes = s.nnodes := rfl
@[simp] theorem coreTurn_root (s : State) : (coreTurn s).root = s.root := rfl
@[simp] theorem coreTurn_seq (s : State) : (coreTurn s).seq = s.seq := rfl
@[simp] theorem coreTurn_treeValid (s : State) : (coreTurn s).treeValid = s.treeValid := rfl
@[simp] theorem coreTurn_code (s : State) : (coreTurn s).code = s.code := rfl
@[simp] theorem coreTurn_codesValid (s : State) : (coreTurn s).codesValid = s.codesValid := rfl
@[simp] theorem coreTurn_acc (s : State) : (coreTurn s).acc = s.acc := rfl
@[simp] theorem coreTurn_nbits (s : State) : (coreTurn s).nbits = s.nbits := rfl
@[simp] theorem coreTurn_cur (s : State) : (coreTurn s).cur = s.cur := rfl
@[simp] theorem coreTurn_rem (s : State) : (coreTurn s).rem = s.rem := rfl
@[simp] theorem coreTurn_emit (s : State) : (coreTurn s).emit = s.emit := rfl
@[simp] theorem coreTurn_inCount (s : State) : (coreTurn s).inCount = s.inCount := rfl
@[simp] theorem coreTurn_outCount (s : State) : (coreTurn s).outCount = s.outCount := rfl
@[simp] theorem coreTurn_lArg (s : State) : (coreTurn s).lArg = s.lArg := rfl
@[simp] theorem coreTurn_lIlen (s : State) : (coreTurn s).lIlen = s.lIlen := rfl
@[simp] theorem coreTurn_lSym (s : State) : (coreTurn s).lSym = s.lSym := rfl
@[simp] theorem coreTurn_errcode (s : State) : (coreTurn s).errcode = s.errcode := rfl
@[simp] theorem coreTurn_errOffset (s : State) : (coreTurn s).errOffset = s.errOffset := rfl
@[simp] theorem coreTurn_errExpected (s : State) : (coreTurn s).errExpected = s.errExpected := rfl
@[simp] theorem coreTurn_errActual (s : State) : (coreTurn s).errActual = s.errActual := rfl
@[simp] theorem coreTurn_errValid (s : State) : (coreTurn s).errValid = s.errValid := rfl
@[simp] theorem coreTurn_errPort (s : State) : (coreTurn s).errPort = s.errPort := rfl
@[simp] theorem coreTurn_err (s : State) : (coreTurn s).err = s.err := rfl
@[simp] theorem coreTurn_cmdOvr (s : State) : (coreTurn s).cmdOvr = s.cmdOvr := rfl
@[simp] theorem coreTurn_busy (s : State) : (coreTurn s).busy = s.busy := rfl
@[simp] theorem coreTurn_curCmd (s : State) : (coreTurn s).curCmd = s.curCmd := rfl
@[simp] theorem coreTurn_arg (s : State) : (coreTurn s).arg = s.arg := rfl
@[simp] theorem coreTurn_ilen (s : State) : (coreTurn s).ilen = s.ilen := rfl
@[simp] theorem coreTurn_freqSel (s : State) : (coreTurn s).freqSel = s.freqSel := rfl
@[simp] theorem coreTurn_codeSel (s : State) : (coreTurn s).codeSel = s.codeSel := rfl
@[simp] theorem coreTurn_ibuf (s : State) : (coreTurn s).ibuf = s.ibuf := rfl
@[simp] theorem coreTurn_ibufDraw (s : State) : (coreTurn s).ibufDraw = s.ibufDraw := rfl
@[simp] theorem coreTurn_cont (s : State) : (coreTurn s).cont = s.cont := rfl
@[simp] theorem coreTurn_waitOn (s : State) : (coreTurn s).waitOn = s.waitOn := rfl
@[simp] theorem coreTurn_src (s : State) : (coreTurn s).src = s.src := rfl
@[simp] theorem coreTurn_snk (s : State) : (coreTurn s).snk = s.snk := rfl
@[simp] theorem coreTurn_snkAns (s : State) : (coreTurn s).snkAns = s.snkAns := rfl
@[simp] theorem coreTurn_snkStanding (s : State) : (coreTurn s).snkStanding = s.snkStanding := rfl
@[simp] theorem coreTurn_hostOps (s : State) : (coreTurn s).hostOps = s.hostOps := rfl
@[simp] theorem coreTurn_notes (s : State) : (coreTurn s).notes = s.notes := rfl
@[simp] theorem coreTurn_sched (s : State) : (coreTurn s).sched = afterCore s.sched := rfl
@[simp] theorem coreTurn_draws (s : State) : (coreTurn s).draws = s.draws := rfl

end Sys2Proof.Machine
end

