-- ==== Sys2Proof/Laws/Streams.lean ====
section
/-! SUPPORT. What a stretch of pseudocode can end in, and the two stream primitives: once in full (every way they can
end), once where the host lets the command run on. -/

namespace Sys2Proof.Machine

namespace Flow

@[simp] theorem andThen_done (s : State) (g : State → Flow) (l : List Task) : (Flow.done s).andThen g l = g s := rfl
@[simp] theorem andThen_raised (s : State) (g : State → Flow) (l : List Task) :
    (Flow.raised s).andThen g l = .raised s := rfl
@[simp] theorem andThen_wait (w : Wait) (r : List Task) (s : State) (g : State → Flow) (l : List Task) :
    (Flow.wait w r s).andThen g l = .wait w (r ++ l) s := rfl
@[simp] theorem andThen_halt (f : Fault) (g : State → Flow) (l : List Task) : (Flow.halt f).andThen g l = .halt f := rfl

theorem andThen_assoc (f : Flow) (g h : State → Flow) (l m : List Task) :
    (f.andThen g l).andThen h m = f.andThen (fun s => (g s).andThen h m) (l ++ m) := by
  cases f <;> simp

@[simp] theorem andThen_id (f : Flow) : f.andThen .done [] = f := by cases f <;> simp

@[simp] theorem finish_raised (s : State) : (Flow.raised s).finish = .next s := rfl
@[simp] theorem finish_wait (w : Wait) (r : List Task) (s : State) :
    (Flow.wait w r s).finish = .next (stoppedAt w r s) := rfl
@[simp] theorem finish_halt (f : Fault) : (Flow.halt f).finish = .fault f := rfl

/-- The end of a command where no host turn is scheduled before it. -/
def ended : Flow → Host.Outcome State Fault Refusal
  | .done s => .next (idleAgain s)
  | .raised s => .next s
  | .wait w rest s => .next (stoppedAt w rest s)
  | .halt r => .fault r

@[simp] theorem ended_done (s : State) : (Flow.done s).ended = .next (idleAgain s) := rfl
@[simp] theorem ended_raised (s : State) : (Flow.raised s).ended = .next s := rfl
@[simp] theorem ended_wait (w : Wait) (r : List Task) (s : State) :
    (Flow.wait w r s).ended = .next (stoppedAt w r s) := rfl
@[simp] theorem ended_halt (f : Fault) : (Flow.halt f).ended = .fault f := rfl

end Flow

@[simp] theorem runTasks_nil (s : State) : runTasks [] s = .done s := rfl

@[simp] theorem runTasks_cons (t : Task) (ts : List Task) (s : State) :
    runTasks (t :: ts) s = (runTask t s).andThen (runTasks ts) ts := rfl

theorem paused_of_sched {s : State} (h : s.sched = []) : s.paused = false := by simp [State.paused, h]

theorem coreTurn_of_sched {s : State} (h : s.sched = []) : coreTurn s = s := by
  rw [coreTurn, h, afterCore, ← h]; exact nofun

/-- Both ways a command begins (20_memory.md R79). -/
theorem startRule_cases (s : State) :
    (s.paused = true ∧ startRule s = .wait .ready [.start] s) ∨ (s.paused = false ∧ startRule s = .done (coreTurn s)) := by
  cases h : s.paused <;> simp [startRule, h]

/-- A command begins at once where no host turn is scheduled. -/
theorem startRule_free {s : State} (h : s.sched = []) : startRule s = .done s := by
  simp [startRule, paused_of_sched h, coreTurn_of_sched h]

/-- Completion, with the host's turn before it or not (30_encoding.md R96, 70_reset_and_hazards.md R285). -/
theorem Flow.finish_done_cases (s : State) :
    (s.paused = true ∧ (Flow.done s).finish = .next (stoppedAt .ready [] s)) ∨
    (s.paused = false ∧ (Flow.done s).finish = .next (idleAgain (coreTurn s))) := by
  cases h : s.paused <;> simp [Flow.finish, h]

/-- Completion where the host lets the command run on. -/
theorem Flow.finish_done {s : State} (h : s.sched = []) : (Flow.done s).finish = .next (idleAgain s) := by
  simp [Flow.finish, paused_of_sched h, coreTurn_of_sched h]

/-- Both ways a raise inside a command goes on (60_exceptions.md R243, 70_reset_and_hazards.md R285). -/
theorem raising_cases (e : ErrKind) (o : BitVec 64) (x a : Option Byte) (p : Port) (s : State) :
    (s.paused = true ∧ raising e o x a p s = .wait .ready [.raise e o x a p] s) ∨
    (s.paused = false ∧ raising e o x a p s = .raised (raise e o x a p (coreTurn s))) := by
  cases h : s.paused <;> simp [raising, h]

/-- A raise where the host lets the command run on. -/
theorem raising_free {s : State} (h : s.sched = []) (e : ErrKind) (o : BitVec 64) (x a : Option Byte) (p : Port) :
    raising e o x a p s = .raised (raise e o x a p s) := by
  simp [raising, paused_of_sched h, coreTurn_of_sched h]

/-- No raise ends a stretch well. -/
theorem raising_ne_done (e : ErrKind) (o : BitVec 64) (x a : Option Byte) (p : Port) (s u : State) :
    raising e o x a p s ≠ .done u := by
  unfold raising; split <;> nofun

/-- Every way SrcByte can end (20_memory.md R68). -/
theorem withSrcByte_cases (here : List Task) (s : State) (k : Byte → State → Flow) :
    (∃ w, withSrcByte here s k = .wait w here s) ∨
    (∃ b es, s.src = .byte b :: es ∧ withSrcByte here s k = k b (countIn (srcTaken es s))) ∨
    (∃ es, s.src = .eoi :: es ∧ withSrcByte here s k =
      raising .truncatedInput s.inCount none none .src (srcTaken es s)) ∨
    (∃ es, s.src = .ioerr :: es ∧ withSrcByte here s k =
      raising .ioFailure s.inCount none none .src (srcTaken es s)) := by
  unfold withSrcByte
  split
  · exact .inl ⟨.ready, rfl⟩
  · cases hs : s.src with
    | nil => exact .inl ⟨.src, rfl⟩
    | cons e es =>
      cases e with
      | byte b => exact .inr (.inl ⟨b, es, rfl, rfl⟩)
      | eoi => exact .inr (.inr (.inl ⟨es, rfl, rfl⟩))
      | ioerr => exact .inr (.inr (.inr ⟨es, rfl, rfl⟩))

/-- SrcByte where the host lets the command run on. -/
theorem withSrcByte_free {here : List Task} {s : State} {k : Byte → State → Flow} (hs : s.sched = []) :
    withSrcByte here s k = match s.src with
      | [] => .wait .src here s
      | .byte b :: es => k b (countIn (srcTaken es s))
      | .eoi :: es => .raised (raise .truncatedInput s.inCount none none .src (srcTaken es s))
      | .ioerr :: es => .raised (raise .ioFailure s.inCount none none .src (srcTaken es s)) := by
  have hr : ∀ (e : ErrKind) (es : List SrcElem), raising e s.inCount none none .src (srcTaken es s) =
      .raised (raise e s.inCount none none .src (srcTaken es s)) :=
    fun e es => raising_free (by rw [srcTaken_sched, hs]; rfl) e _ _ _ _
  rcases h : s.src with _ | ⟨_ | _ | _, es⟩ <;> simp [withSrcByte, paused_of_sched hs, h, hr]

/-- SrcByte where the host lets the command run on and a byte is offered. -/
theorem withSrcByte_byte {here : List Task} {s : State} {k : Byte → State → Flow} {b : Byte} {es : List SrcElem}
    (hs : s.sched = []) (h : s.src = .byte b :: es) :
    withSrcByte here s k = k b (countIn (srcTaken es s)) := by
  rw [withSrcByte_free hs, h]

/-- Every way SnkWrite can end (20_memory.md R69). -/
theorem snkWrite_cases (b : Byte) (s : State) :
    (∃ w, snkWrite b s = .wait w [.send [b]] s) ∨
    (∃ as, snkWrite b s = .done (deliver b (answerTaken as s))) ∨
    (∃ as, snkWrite b s = raising .ioFailure s.outCount none none .snk (answerTaken as s)) := by
  unfold snkWrite
  split
  · exact .inl ⟨_, rfl⟩
  · split
    · exact .inl ⟨_, rfl⟩
    · exact .inr (.inl ⟨_, rfl⟩)
    · exact .inr (.inr ⟨_, rfl⟩)

/-- Everything the answer to an offered byte can do (20_memory.md R65, R69). -/
theorem answerOffer_cases (s : State) :
    ((∀ b, s.waitOn = .snk b → s.snkAns = [] ∧ s.snkStanding = none) ∧ answerOffer s = s) ∨
    (∃ b as, s.waitOn = .snk b ∧ snkAnswer s = some (.ok, as) ∧
      answerOffer s = stoppedAt .ready (.countOut :: s.cont.tail) (takeByte b (answerTaken as s))) ∨
    ∃ b as, s.waitOn = .snk b ∧ snkAnswer s = some (.ioerr, as) ∧ answerOffer s =
      stoppedAt .ready (.raise .ioFailure s.outCount none none .snk :: s.cont.tail) (answerTaken as s) := by
  cases hw : s.waitOn with
  | ready => exact .inl ⟨nofun, by simp [answerOffer, hw]⟩
  | src => exact .inl ⟨nofun, by simp [answerOffer, hw]⟩
  | snk b =>
    cases ha : snkAnswer s with
    | none =>
      refine .inl ⟨fun _ _ => ?_, by simp [answerOffer, hw, ha]⟩
      unfold snkAnswer at ha
      cases hq : s.snkAns <;> cases hst : s.snkStanding <;> simp [hq, hst] at ha ⊢
    | some p =>
      obtain ⟨_ | _, as⟩ := p
      · exact .inr (.inl ⟨b, as, rfl, rfl, by simp [answerOffer, hw, ha]⟩)
      · exact .inr (.inr ⟨b, as, rfl, rfl, by simp [answerOffer, hw, ha]⟩)

/-- The byte offered is taken exactly if its answer is OK, and that answer is used up (20_memory.md R65). -/
theorem answerOffer_taken {s : State} {b : Byte} {a : SnkAns} {as : List SnkAns} (hw : s.waitOn = .snk b)
    (ha : snkAnswer s = some (a, as)) :
    (answerOffer s).snk = s.snk ++ (if a = .ok then [b] else []) ∧ (answerOffer s).snkAns = as := by
  unfold answerOffer
  rw [hw, ha]
  cases a <;> simp [takeByte, answerTaken]

/-- Where no offer has its answer nothing happens. -/
theorem answerOffer_unanswered {s : State} (h : ∀ b, s.waitOn = .snk b → s.snkAns = [] ∧ s.snkStanding = none) :
    answerOffer s = s := by
  rcases answerOffer_cases s with ⟨-, e⟩ | ⟨b, as, hw, ha, -⟩ | ⟨b, as, hw, ha, -⟩
  · exact e
  all_goals
    obtain ⟨h1, h2⟩ := h b hw
    simp [snkAnswer, h1, h2] at ha

@[simp] theorem delivered_nil (s : State) : delivered [] s = s := by simp [delivered]

theorem delivered_append (as bs : List Byte) (s : State) : delivered bs (delivered as s) = delivered (as ++ bs) s := by
  simp [delivered, BitVec.add_assoc, ← BitVec.ofNat_add]

theorem SinkOk.delivered {s : State} (h : SinkOk s) (bs : List Byte) : SinkOk (delivered bs s) :=
  ⟨fun a ha => h.queued a (List.mem_of_mem_drop ha), h.standing⟩

/-- SnkWrite where the host lets the command run on and answers OK. -/
theorem snkWrite_ok {s : State} (hs : s.sched = []) (h : SinkOk s) (b : Byte) :
    snkWrite b s = .done (delivered [b] s) := by
  have key : ∀ as, s.snkAns.drop 1 = as → deliver b (answerTaken as s) = Machine.delivered [b] s := by
    rintro as rfl
    simp [deliver, countOut, takeByte, answerTaken, Machine.delivered, hs, afterCore]
  rw [snkWrite, paused_of_sched hs, if_neg (by simp)]
  cases ha : s.snkAns with
  | cons a as =>
    have : a = .ok := h.queued a (by simp [ha])
    subst this
    rw [snkAnswer, ha]
    exact congrArg Flow.done (key as (by simp [ha]))
  | nil =>
    rw [snkAnswer, ha, h.standing]
    exact congrArg Flow.done (key [] (by simp [ha]))

/-- SnkWrite of several bytes there. -/
theorem sendBytes_ok {s : State} (hs : s.sched = []) (h : SinkOk s) (bs : List Byte) :
    sendBytes bs s = .done (delivered bs s) := by
  induction bs generalizing s with
  | nil => simp [sendBytes]
  | cons b bs ih =>
    simp only [sendBytes, snkWrite_ok hs h, Flow.andThen_done]
    rw [ih (by simpa using hs) (h.delivered _), delivered_append]
    rfl

/-- Everything `issue` can do (30_encoding.md R95). -/
theorem issue_cases (i : Instr) (rule : List Task) (s : State) :
    (s.busy = true ∧ issue i rule s = .next { s with cmdOvr := true }) ∨
    (s.busy = false ∧ s.err = true ∧ issue i rule s = .next s) ∨
    (s.busy = false ∧ s.err = false ∧ issue i rule s = (runTasks (.start :: rule) (accept (encode i) s)).finish) := by
  unfold issue
  cases hb : s.busy <;> cases he : s.err <;> simp

@[simp] theorem symField_encode (i : Instr) : symField (encode i) = i.sym := by
  apply BitVec.eq_of_getLsbD_eq
  intro k hk
  simp only [symField, encode, wordOf, Instr.fields, BitVec.getLsbD_extractLsb', BitVec.getLsbD_or,
    BitVec.getLsbD_shiftLeft, BitVec.getLsbD_setWidth]
  have h1 : (i.op).getLsbD (8 + k) = false := BitVec.getLsbD_of_ge _ _ (by omega)
  simp [hk, show ¬ (8 + k < 8) by omega, show 8 + k < 32 by omega, show k < 32 by omega]

theorem Idle.sched_accept {s : State} (h : Idle s) (v : Word) : (accept v s).sched = [] := h.sched

theorem SinkOk.accept {s : State} (h : SinkOk s) (v : Word) : SinkOk (accept v s) := ⟨h.queued, h.standing⟩

/-- A command accepted and completed (30_encoding.md R95, R96). -/
theorem idleAgain_accept (i : Instr) (s : State) : idleAgain (accept (encode i) s) = latched i s := by
  simp [idleAgain, accept, latched]

end Sys2Proof.Machine
end

