-- ==== Sys2Proof/Laws/Counting.lean ====
section
/-! SUPPORT. FSCAN's loop counts (40_frequency.md R113, R116), and the minimal width (R114). -/

namespace Sys2Proof.Machine

@[simp] theorem freqAt_countInto (f : Vector Word 256) (bs : List Byte) (x : Sym) :
    freqAt (countInto f bs) x = freqAt f x + BitVec.ofNat 32 (bs.count x) := by
  simp [freqAt, countInto]

@[simp] theorem countInto_nil (f : Vector Word 256) : countInto f [] = f := freq_ext fun x => by simp

theorem countInto_cons (f : Vector Word 256) (b : Byte) (bs : List Byte) :
    countInto f (b :: bs) = countInto (freqSet f b (freqAt f b + 1)) bs := by
  refine freq_ext fun x => ?_
  simp only [freqAt_countInto, freqAt_freqSet, List.count_cons]
  by_cases h : x = b
  · subst h
    simp only [if_true, beq_self_eq_true, BitVec.ofNat_add]
    rw [BitVec.add_assoc, BitVec.add_comm (BitVec.ofNat 32 (List.count x bs))]
    rfl
  · simp [h, show (b == x) = false by simpa using fun e : b = x => h e.symm]

theorem countInto_append (f : Vector Word 256) (as bs : List Byte) :
    countInto f (as ++ bs) = countInto (countInto f as) bs := by
  refine freq_ext fun x => ?_
  simp only [freqAt_countInto, List.count_append, BitVec.ofNat_add, BitVec.add_assoc]

theorem CountsFit.head {f : Vector Word 256} {b : Byte} {bs : List Byte} (h : CountsFit f (b :: bs)) :
    freqAt f b ≠ 0xFFFFFFFF := by
  intro e
  have := h b
  rw [e, List.count_cons_self, show (0xFFFFFFFF : Word).toNat = 2 ^ 32 - 1 from rfl] at this
  omega

theorem CountsFit.tail {f : Vector Word 256} {b : Byte} {bs : List Byte} (h : CountsFit f (b :: bs)) :
    CountsFit (freqSet f b (freqAt f b + 1)) bs := by
  intro x
  have hx := h x
  rw [freqAt_freqSet]
  by_cases e : x = b
  · subst e
    simp only [List.count_cons_self, if_true] at hx ⊢
    rw [BitVec.toNat_add]
    have : (1 : Word).toNat = 1 := rfl
    rw [this, Nat.mod_eq_of_lt (by omega)]
    omega
  · simpa [e, List.count_cons, show (b == x) = false by simpa using fun e' : b = x => e e'.symm] using hx

theorem CountsFit.take {f : Vector Word 256} {as bs : List Byte} (h : CountsFit f (as ++ bs)) : CountsFit f as := by
  intro x
  have := h x
  rw [List.count_append] at this; omega

/-- The bytes at indices `i` to `i + n − 1` of IBUF. -/
def bytesFrom (s : State) (i n : Nat) : List Byte := (List.range' i n).map (memRead s)

theorem bytesFrom_succ (s : State) (i n : Nat) : bytesFrom s i (n + 1) = memRead s i :: bytesFrom s (i + 1) n := by
  simp [bytesFrom, List.range'_succ]

@[simp] theorem bytesFrom_zero (s : State) (i : Nat) : bytesFrom s i 0 = [] := by simp [bytesFrom]

theorem ibufBytes_eq (s : State) (n : Nat) : ibufBytes s n = bytesFrom s 0 n := by
  simp [ibufBytes, bytesFrom, List.range_eq_range']

@[simp] theorem length_ibufBytes (s : State) (n : Nat) : (ibufBytes s n).length = n := by simp [ibufBytes]

theorem ibufBytes_split (s : State) {i n : Nat} (h : i ≤ n) :
    ibufBytes s n = ibufBytes s i ++ bytesFrom s i (n - i) := by
  obtain ⟨k, rfl⟩ := Nat.exists_eq_add_of_le h
  rw [ibufBytes_eq, ibufBytes_eq, Nat.add_sub_cancel_left]
  rw [bytesFrom, bytesFrom, bytesFrom, ← List.map_append, ← List.range'_append_1, Nat.zero_add]

/-- Two states with the same IBUF read the same bytes. -/
@[simp] theorem scanLength_accept (v : Word) (s : State) : scanLength (accept v s) = s.ilen.toNat := rfl

@[simp] theorem ibufBytes_accept (v : Word) (s : State) (n : Nat) : ibufBytes (accept v s) n = ibufBytes s n := rfl

@[simp] theorem bytesFrom_accept (v : Word) (s : State) (i n : Nat) : bytesFrom (accept v s) i n = bytesFrom s i n := rfl

theorem memRead_congr {s t : State} (h1 : s.ibuf = t.ibuf) (h2 : s.ibufDraw = t.ibufDraw) : memRead s = memRead t := by
  funext i; simp [memRead, h1, h2]

/-- The state with another FREQ. -/
def withFreq (f : Vector Word 256) (s : State) : State := { s with freq := f }

@[simp] theorem withFreq_freq (f : Vector Word 256) (s : State) : (withFreq f s).freq = f := rfl

@[simp] theorem withFreq_withFreq (f g : Vector Word 256) (s : State) : withFreq f (withFreq g s) = withFreq f s := rfl

@[simp] theorem memRead_withFreq (f : Vector Word 256) (s : State) : memRead (withFreq f s) = memRead s := rfl

@[simp] theorem bytesFrom_withFreq (f : Vector Word 256) (s : State) : bytesFrom (withFreq f s) = bytesFrom s := rfl

theorem freqChanged_withFreq {s : State} (h : freqChanged s = s) (f : Vector Word 256) :
    freqChanged (withFreq f s) = withFreq f s := by
  conv_rhs => rw [← h]
  rfl

theorem writeFreq_of_changed {s : State} (h : freqChanged s = s) (x : Sym) (v : Word) :
    writeFreq x v s = withFreq (freqSet s.freq x v) s := by
  conv_rhs => rw [← h]
  rfl

/-- FSCAN's loop where every count fits (R113). -/
theorem fscanLoop_fits (n i : Nat) (s : State) (h : freqChanged s = s) (hf : CountsFit s.freq (bytesFrom s i n)) :
    fscanLoop n i s = .done (withFreq (countInto s.freq (bytesFrom s i n)) s) := by
  induction n generalizing i s with
  | zero => rw [bytesFrom_zero, countInto_nil]; rfl
  | succ n ih =>
    rw [bytesFrom_succ] at hf ⊢
    rw [fscanLoop, countSym, if_neg hf.head, Flow.andThen_done, writeFreq_of_changed h,
      ih _ _ (freqChanged_withFreq h _) (by simpa using hf.tail)]
    simp [countInto_cons]

/-- FSCAN's loop where index `i + k` holds the first count that does not fit (R113). -/
theorem fscanLoop_overflow (k n i : Nat) (s : State) (h : freqChanged s = s) (hs : s.sched = [])
    (hk : k < n) (hf : CountsFit s.freq (bytesFrom s i k))
    (ho : (freqAt s.freq (memRead s (i + k))).toNat + (bytesFrom s i k).count (memRead s (i + k)) = 2 ^ 32 - 1) :
    ∃ g, fscanLoop n i s = .raised (raise .frequencyOverflow (BitVec.ofNat 64 (i + k)) none
      (some (memRead s (i + k))) .src (withFreq g s)) := by
  induction k generalizing n i s with
  | zero =>
    obtain ⟨n, rfl⟩ : ∃ m, n = m + 1 := ⟨n - 1, by omega⟩
    have e : freqAt s.freq (memRead s i) = 0xFFFFFFFF := BitVec.eq_of_toNat_eq (by simpa using ho)
    exact ⟨s.freq, by rw [fscanLoop, countSym, if_pos e, raising_free hs]; rfl⟩
  | succ k ih =>
    obtain ⟨n, rfl⟩ : ∃ m, n = m + 1 := ⟨n - 1, by omega⟩
    rw [bytesFrom_succ] at hf ho
    have hi : i + (k + 1) = i + 1 + k := by omega
    rw [hi] at ho ⊢
    rw [fscanLoop, countSym, if_neg hf.head, Flow.andThen_done, writeFreq_of_changed h]
    have key := ih n (i + 1) (withFreq (freqSet s.freq (memRead s i) (freqAt s.freq (memRead s i) + 1)) s)
      (freqChanged_withFreq h _) hs (by omega) (by simpa using hf.tail) (by
        simp only [memRead_withFreq, bytesFrom_withFreq, withFreq_freq, freqAt_freqSet]
        have h1 : (1 : Word).toNat = 1 := rfl
        by_cases e : memRead s (i + 1 + k) = memRead s i
        · rw [e] at ho ⊢
          rw [List.count_cons_self] at ho
          rw [if_pos rfl, BitVec.toNat_add, Nat.mod_eq_of_lt] <;> omega
        · rw [if_neg e]
          rw [List.count_cons_of_ne (fun e' => e e'.symm)] at ho
          exact ho)
    simpa using key

/-- Counting a sequence of fewer than 2^32 bytes into a cleared table fits (R113). -/
theorem countsFit_zero {bs : List Byte} (h : bs.length < 2 ^ 32) : CountsFit (Vector.replicate 256 0) bs := by
  intro x
  rw [freqAt_replicate, show (0 : Word).toNat = 0 from rfl]
  have := List.count_le_length (a := x) (l := bs)
  omega

theorem toNat_freqAt_countInto {f : Vector Word 256} {bs : List Byte} (h : CountsFit f bs) (x : Sym) :
    (freqAt (countInto f bs) x).toNat = (freqAt f x).toNat + bs.count x := by
  have := h x
  rw [freqAt_countInto, BitVec.toNat_add, BitVec.toNat_ofNat]
  omega

/-- The count of a symbol in a sequence of fewer than 2^32 bytes (R116). -/
theorem toNat_freqAt_histogram {bs : List Byte} (h : bs.length < 2 ^ 32) (x : Sym) :
    (freqAt (histogram bs) x).toNat = bs.count x := by
  rw [histogram, toNat_freqAt_countInto (countsFit_zero h), freqAt_replicate,
    show (0 : Word).toNat = 0 from rfl, Nat.zero_add]

theorem present_histogram {bs : List Byte} (h : bs.length < 2 ^ 32) (x : Sym) :
    present (histogram bs) x = true ↔ x ∈ bs := by
  rw [← List.count_pos_iff, ← toNat_freqAt_histogram h, present, bne_iff_ne, ne_eq, ← BitVec.toNat_inj,
    show (0 : Word).toNat = 0 from rfl]
  omega

theorem totalOf_histogram {bs : List Byte} (h : bs.length < 2 ^ 32) : totalOf (histogram bs) = bs.length := by
  rw [totalOf, toList_eq_map_freqAt, List.map_map]
  have : (BitVec.toNat ∘ freqAt (histogram bs)) = fun x => bs.count x := funext fun x => toNat_freqAt_histogram h x
  rw [this]
  clear this h
  induction bs with
  | nil => exact List.sum_eq_zero fun n hn => by obtain ⟨x, -, rfl⟩ := List.mem_map.1 hn; rfl
  | cons b bs ih =>
    have hb : (allSyms.map fun x => (b :: bs).count x) = allSyms.map fun x => bs.count x + if b == x then 1 else 0 :=
      List.map_congr_left fun x _ => List.count_cons
    have hs : ∀ l : List Sym, (l.map fun x => bs.count x + if b == x then 1 else 0).sum
        = (l.map fun x => bs.count x).sum + l.count b := by
      intro l
      induction l with
      | nil => simp
      | cons a l ihl =>
        simp only [List.map_cons, List.sum_cons, ihl, List.count_cons]
        have : (b == a) = (a == b) := BEq.comm
        rw [this]; omega
    rw [hb, hs, ih, List.count_eq_one_of_mem nodup_allSyms (mem_allSyms b), List.length_cons]

/-! ## The largest frequency and its width -/

theorem le_maxFreq (f : Vector Word 256) (x : Sym) : (freqAt f x).toNat ≤ maxFreq f := by
  have h : ∀ (l : List Nat) (m : Nat), m ≤ l.foldl max m ∧ ∀ a ∈ l, a ≤ l.foldl max m := by
    intro l
    induction l with
    | nil => simp
    | cons b l ih =>
      intro m
      obtain ⟨h1, h2⟩ := ih (max m b)
      simp only [List.foldl_cons, List.mem_cons, forall_eq_or_imp]
      exact ⟨by omega, by omega, h2⟩
  refine (h _ 0).2 _ (List.mem_map.2 ⟨freqAt f x, ?_, rfl⟩)
  rw [toList_eq_map_freqAt]; exact List.mem_map_of_mem (mem_allSyms x)

theorem maxFreq_mem (f : Vector Word 256) : maxFreq f = 0 ∨ ∃ x, maxFreq f = (freqAt f x).toNat := by
  have h : ∀ (l : List Nat) (m : Nat), l.foldl max m = m ∨ l.foldl max m ∈ l := by
    intro l
    induction l with
    | nil => simp
    | cons b l ih =>
      intro m
      simp only [List.foldl_cons, List.mem_cons]
      rcases ih (max m b) with h | h
      · rw [h]; rcases Nat.le_total m b with hm | hm
        · right; left; omega
        · left; omega
      · exact .inr (.inr h)
  rcases h (f.toList.map BitVec.toNat) 0 with h | h
  · exact .inl h
  · rw [toList_eq_map_freqAt, List.map_map] at h
    obtain ⟨x, -, hx⟩ := List.mem_map.1 h
    refine .inr ⟨x, ?_⟩
    rw [maxFreq, toList_eq_map_freqAt, List.map_map]; exact hx.symm

theorem minWidth_range (m : Nat) : 1 ≤ minWidth m ∧ minWidth m ≤ 4 := by
  unfold minWidth; repeat' split
  all_goals omega

theorem lt_minWidth {m : Nat} (h : m < 2 ^ 32) : m < 256 ^ minWidth m := by
  unfold minWidth; repeat' split
  all_goals (norm_num at *; omega)

theorem minWidth_le {m v : Nat} (h1 : 1 ≤ v) (h2 : v < minWidth m) : 256 ^ v ≤ m := by
  have : v = 1 ∨ v = 2 ∨ v = 3 := by have := (minWidth_range m).2; omega
  unfold minWidth at h2
  repeat' split at h2
  all_goals (rcases this with rfl | rfl | rfl <;> norm_num at * <;> omega)

/-- The minimal width fits (44_container.md R202). -/
theorem fitsWidth_minWidth (f : Vector Word 256) : FitsWidth f (minWidth (maxFreq f)) := by
  have hm : maxFreq f < 2 ^ 32 := by
    rcases maxFreq_mem f with h | ⟨x, h⟩
    · omega
    · rw [h]; exact (freqAt f x).isLt
  exact ⟨(minWidth_range _).1, (minWidth_range _).2, fun x => Nat.lt_of_le_of_lt (le_maxFreq f x) (lt_minWidth hm)⟩

end Sys2Proof.Machine
end

