-- ==== Sys2Proof/Laws/Packer.lean ====
section
/-! SUPPORT. The packer where the host lets the command run on (43_bitpack.md R170 to R175): whole bytes are delivered,
the rest waits in ACC. -/

namespace Sys2Proof.Machine

theorem vecMSB_concat (w : Nat) (bs : List Bool) (b : Bool) :
    vecMSB w (bs ++ [b]) = (vecMSB w bs <<< 1) ||| vecLE w [b] := by
  apply BitVec.eq_of_getLsbD_eq
  intro i hi
  simp only [getLsbD_vecMSB, BitVec.getLsbD_or, BitVec.getLsbD_shiftLeft, getLsbD_vecLE, List.length_append,
    List.length_singleton, hi, decide_true, true_and, Bool.true_and]
  cases i with
  | zero => simp [List.getD_eq_getElem?_getD]
  | succ i =>
    by_cases h : i < bs.length
    · have hy : bs.length - 1 - i < bs.length := by omega
      have hz : bs.length - (i + 1) = bs.length - 1 - i := by omega
      simp [h, show i < w by omega, List.getD_eq_getElem?_getD, hz, List.getElem?_append_left hy]
    · simp [h]

@[simp] theorem vecMSB_nil (w : Nat) : vecMSB w [] = 0 := by simp [vecMSB, vecLE, bitsLE]

@[simp] theorem length_packed (s : State) : (packed s).length = s.nbits.toNat := by simp [packed]

/-- Between commands ACC holds exactly the packed bits (10_state.md R34). -/
theorem vecMSB_packed {s : State} (h : PackerOk s) : vecMSB 8 (packed s) = s.acc := by
  apply BitVec.eq_of_getLsbD_eq
  intro i hi
  have h1 := h.1
  simp only [getLsbD_vecMSB, length_packed, hi, true_and]
  by_cases hn : i < s.nbits.toNat
  · have hk : s.nbits.toNat - 1 - i < s.nbits.toNat := by omega
    have hj : s.nbits.toNat - 1 - (s.nbits.toNat - 1 - i) = i := by omega
    simp [hn, packed, List.getD_eq_getElem?_getD, hk, hj]
  · have : s.acc.getLsbD i = false := by
      rw [BitVec.getLsbD, Nat.testBit_lt_two_pow]
      exact Nat.lt_of_lt_of_le h.2 (Nat.pow_le_pow_right (by omega) (by omega))
    simp [hn, this]

@[simp] theorem length_bitsToBytes (bits : List Bool) : (bitsToBytes bits).length = (bits.length + 7) / 8 := by
  simp [bitsToBytes]

@[simp] theorem bitsToBytes_nil : bitsToBytes [] = [] := rfl

/-- Whole bytes come out one after another. -/
theorem bitsToBytes_append {as : List Bool} (h : as.length % 8 = 0) (bs : List Bool) :
    bitsToBytes (as ++ bs) = bitsToBytes as ++ bitsToBytes bs := by
  obtain ⟨n, hn⟩ : ∃ n, as.length = 8 * n := ⟨as.length / 8, by omega⟩
  have e1 : (as.length + 7) / 8 = n := by omega
  have e2 : ((as ++ bs).length + 7) / 8 = n + (bs.length + 7) / 8 := by simp; omega
  have h1 : ∀ k < n, (List.range 8).map (fun j => (as ++ bs).getD (8 * k + j) false)
      = (List.range 8).map fun j => as.getD (8 * k + j) false := fun k hk =>
    List.map_congr_left fun j hj => by
      have hj : j < 8 := by simpa using hj
      rw [List.getD_eq_getElem?_getD, List.getD_eq_getElem?_getD, List.getElem?_append_left (by omega)]
  have h2 : ∀ k, (List.range 8).map (fun j => (as ++ bs).getD (8 * (n + k) + j) false)
      = (List.range 8).map fun j => bs.getD (8 * k + j) false := fun k =>
    List.map_congr_left fun j _ => by
      rw [List.getD_eq_getElem?_getD, List.getD_eq_getElem?_getD, List.getElem?_append_right (by omega),
        show 8 * (n + k) + j - as.length = 8 * k + j by omega]
  simp only [bitsToBytes]
  rw [e1, e2, List.range_add, List.map_append, List.map_map]
  refine congrArg₂ _ (List.map_congr_left fun k hk => ?_) (List.map_congr_left fun k _ => ?_)
  · exact congrArg (vecMSB 8) (h1 k (by simpa using hk))
  · exact congrArg (vecMSB 8) (h2 k)

theorem bitsToBytes_byte {bits : List Bool} (h : bits.length = 8) : bitsToBytes bits = [vecMSB 8 bits] := by
  have hb : (List.range 8).map (fun j => bits.getD (8 * 0 + j) false) = bits := by
    refine List.ext_getElem (by simp [h]) fun i hi h2 => ?_
    simp [List.getD_eq_getElem?_getD, h2]
  have hr : (bits.length + 7) / 8 = 1 := by omega
  rw [bitsToBytes, hr, List.range_one, List.map_singleton, hb]

@[simp] theorem length_packed' (bits : List Bool) (s : State) (h : bits.length < 8) :
    (withPacker bits s).nbits.toNat = bits.length := by
  simp only [withPacker, BitVec.toNat_ofNat]; exact Nat.mod_eq_of_lt (by omega)

theorem packed_withPacker {bits : List Bool} (h : bits.length < 8) (s : State) : packed (withPacker bits s) = bits := by
  have hn := length_packed' bits s h
  refine List.ext_getElem (by rw [length_packed, hn]) fun i hi h2 => ?_
  have e : bits.length - 1 - (bits.length - 1 - i) = i := by omega
  have hn' : (BitVec.ofNat 4 bits.length).toNat = bits.length := hn
  simp only [packed, hn', List.getElem_map, List.getElem_range, withPacker, getLsbD_vecMSB, e]
  rw [List.getD_eq_getElem?_getD, List.getElem?_eq_getElem h2]
  simp only [Option.getD_some]
  rw [decide_eq_true (by omega), Bool.true_and]

theorem packerOk_withPacker {bits : List Bool} (h : bits.length < 8) (s : State) : PackerOk (withPacker bits s) := by
  have hn := length_packed' bits s h
  exact ⟨by omega, by rw [hn]; exact toNat_vecMSB_lt 8 bits⟩

/-- A packer that is as between commands is the packer that holds its packed bits. -/
theorem withPacker_packed {s : State} (h : PackerOk s) : withPacker (packed s) s = s := by
  simp [withPacker, vecMSB_packed h]

theorem length_drop_whole (bits : List Bool) : (bits.drop (8 * (bits.length / 8))).length < 8 := by simp; omega

theorem packed_afterPacking (bits : List Bool) (s : State) :
    packed (afterPacking bits s) = bits.drop (8 * (bits.length / 8)) :=
  packed_withPacker (length_drop_whole bits) _

theorem packerOk_afterPacking (bits : List Bool) (s : State) : PackerOk (afterPacking bits s) :=
  packerOk_withPacker (length_drop_whole bits) _

theorem delivered_withPacker (bs : List Byte) (bits : List Bool) (s : State) :
    delivered bs (withPacker bits s) = withPacker bits (delivered bs s) := rfl

theorem withPacker_withPacker (as bs : List Bool) (s : State) :
    withPacker as (withPacker bs s) = withPacker as s := rfl

/-- Packing in two goes is packing at once. -/
theorem afterPacking_afterPacking (as bs : List Bool) (s : State) :
    afterPacking (packed (afterPacking as s) ++ bs) (afterPacking as s) = afterPacking (as ++ bs) s := by
  rw [packed_afterPacking]
  unfold afterPacking
  generalize hn : 8 * (as.length / 8) = n
  have hle : n ≤ as.length := by omega
  generalize hr : as.drop n ++ bs = rest
  have hsplit : as ++ bs = as.take n ++ rest := by rw [← hr, ← List.append_assoc, List.take_append_drop]
  have hlt : (as.take n).length = n := by simp [hle]
  have hlen : (as ++ bs).length = n + rest.length := by rw [hsplit, List.length_append, hlt]
  have hm : 8 * ((as ++ bs).length / 8) = n + 8 * (rest.length / 8) := by omega
  have htake : (as ++ bs).take (n + 8 * (rest.length / 8)) = as.take n ++ rest.take (8 * (rest.length / 8)) := by
    rw [hsplit, List.take_append, hlt]; simp [List.take_take]
  have hdrop : (as ++ bs).drop (n + 8 * (rest.length / 8)) = rest.drop (8 * (rest.length / 8)) := by
    rw [hsplit, List.drop_append, hlt]; simp
  rw [hm, htake, hdrop, bitsToBytes_append (by omega), delivered_withPacker, withPacker_withPacker, delivered_append]

theorem afterPacking_packed {s : State} (h : PackerOk s) : afterPacking (packed s) s = s := by
  have h1 := h.1
  have : s.nbits.toNat / 8 = 0 := by omega
  simp [afterPacking, this, withPacker_packed h]

theorem pushBit_acc_eq {s : State} (h : PackerOk s) (b : Bool) : (pushBit b s).acc = vecMSB 8 (packed s ++ [b]) := by
  rw [pushBit_acc, vecMSB_concat, vecMSB_packed h]

theorem pushBit_nbits_toNat {s : State} (h : PackerOk s) (b : Bool) : (pushBit b s).nbits.toNat = s.nbits.toNat + 1 := by
  have h1 := h.1
  rw [pushBit_nbits, BitVec.toNat_add, show (1 : BitVec 4).toNat = 1 from rfl]
  omega

/-- PackBit that does not fill the byte. -/
theorem packBit_partial {s : State} (h : PackerOk s) (b : Bool) (h8 : s.nbits.toNat ≠ 7) :
    packBit b s = .done (afterPacking (packed s ++ [b]) s) := by
  have h1 := h.1
  have hn := pushBit_nbits_toNat h b
  have hl : (packed s ++ [b]).length = s.nbits.toNat + 1 := by simp
  have e : ¬ (pushBit b s).nbits = 8 := fun e => by
    rw [e, show (8 : BitVec 4).toNat = 8 from rfl] at hn; omega
  have hz : 8 * ((packed s ++ [b]).length / 8) = 0 := by omega
  have hnb : BitVec.ofNat 4 (packed s ++ [b]).length = s.nbits + 1 := BitVec.eq_of_toNat_eq (by
    rw [hl, ← pushBit_nbits b s, hn, BitVec.toNat_ofNat]; omega)
  simp only [packBit]
  rw [if_neg e, afterPacking, hz, List.take_zero, List.drop_zero, bitsToBytes_nil, delivered_nil, withPacker, hnb,
    ← pushBit_acc_eq h]
  rfl

/-- PackBit that fills the byte. -/
theorem packBit_full {s : State} (h : PackerOk s) (b : Bool) (h8 : s.nbits.toNat = 7) :
    packBit b s = (snkWrite (vecMSB 8 (packed s ++ [b])) (pushBit b s)).andThen
      (fun s => .done (clearPacker s)) [.clearPack] := by
  have e : (pushBit b s).nbits = 8 := BitVec.eq_of_toNat_eq (by rw [pushBit_nbits_toNat h, h8]; rfl)
  simp only [packBit]
  rw [if_pos e, emitByte, pushBit_acc_eq h]

theorem packBit_full_done {s : State} (h : PackerOk s) (b : Bool) (h8 : s.nbits.toNat = 7)
    (hw : snkWrite (vecMSB 8 (packed s ++ [b])) (pushBit b s)
      = .done (delivered [vecMSB 8 (packed s ++ [b])] (pushBit b s))) :
    packBit b s = .done (afterPacking (packed s ++ [b]) s) := by
  have hl8 : (packed s ++ [b]).length = 8 := by simp [h8]
  have htk : (packed s ++ [b]).take 8 = packed s ++ [b] := List.take_of_length_le (by omega)
  have hdr : (packed s ++ [b]).drop 8 = [] := List.drop_of_length_le (by omega)
  rw [packBit_full h b h8, hw, Flow.andThen_done, afterPacking, hl8, show 8 * (8 / 8) = 8 by rfl, htk, hdr,
    bitsToBytes_byte hl8]
  rfl

/-- PackBit (43_bitpack.md R170). -/
theorem packBit_ok {s : State} (hs : s.sched = []) (hk : SinkOk s) (h : PackerOk s) (b : Bool) :
    packBit b s = .done (afterPacking (packed s ++ [b]) s) := by
  by_cases h8 : s.nbits.toNat = 7
  · exact packBit_full_done h b h8 (snkWrite_ok (s := pushBit b s) hs ⟨hk.queued, hk.standing⟩ _)
  · exact packBit_partial h b h8

theorem PackerOk.accept {s : State} (h : PackerOk s) (v : Word) : PackerOk (accept v s) := h

theorem SinkOk.afterPacking {s : State} (h : SinkOk s) (bits : List Bool) : SinkOk (afterPacking bits s) :=
  ⟨fun a ha => h.queued a (List.mem_of_mem_drop ha), h.standing⟩

/-- PackBit of a bit string (43_bitpack.md R170). -/
theorem packBits_ok {s : State} (hs : s.sched = []) (hk : SinkOk s) (h : PackerOk s) (bits : List Bool) :
    packBits bits s = .done (afterPacking (packed s ++ bits) s) := by
  induction bits generalizing s with
  | nil => simp [packBits, afterPacking_packed h]
  | cons b bits ih =>
    simp only [packBits, packBit_ok hs hk h, Flow.andThen_done]
    rw [ih (by exact hs) (hk.afterPacking _) (packerOk_afterPacking _ _), afterPacking_afterPacking]
    simp

/-- Packing a symbol that has a code (43_bitpack.md R172). -/
theorem packSym_ok {s : State} (hs : s.sched = []) (hk : SinkOk s) (h : PackerOk s) {x : Sym}
    (hx : (codeAt s.code x).assigned = true) (o : BitVec 64) :
    packSym x o s = .done (afterPacking (packed s ++ (codeAt s.code x).bitString) s) := by
  rw [packSym, if_pos hx, packBits_ok hs hk h]

@[simp] theorem memRead_afterPacking (bits : List Bool) (s : State) : memRead (afterPacking bits s) = memRead s := rfl

@[simp] theorem bytesFrom_afterPacking (bits : List Bool) (s : State) :
    bytesFrom (afterPacking bits s) = bytesFrom s := rfl

theorem codeBits_cons (t : Vector CodeEntry 256) (b : Byte) (bs : List Byte) :
    codeBits t (b :: bs) = (codeAt t b).bitString ++ codeBits t bs := rfl

/-- PSCAN's loop where every byte has a code (43_bitpack.md R173). -/
theorem pscanLoop_ok (n i : Nat) {s : State} (hs : s.sched = []) (hk : SinkOk s) (h : PackerOk s)
    (hc : AllCoded s.code (bytesFrom s i n)) :
    pscanLoop n i s = .done (afterPacking (packed s ++ codeBits s.code (bytesFrom s i n)) s) := by
  induction n generalizing i s with
  | zero => simp [pscanLoop, codeBits, afterPacking_packed h]
  | succ n ih =>
    rw [bytesFrom_succ] at hc ⊢
    rw [pscanLoop, packSym_ok hs hk h (hc _ (by simp)), Flow.andThen_done]
    rw [ih (i + 1) (s := afterPacking _ s) hs (hk.afterPacking _) (packerOk_afterPacking _ _)
      fun b hb => hc b (by simpa using .inr hb)]
    rw [afterPacking_afterPacking, codeBits_cons, List.append_assoc]
    rfl

/-- PSCAN's loop where index `i + k` holds the first byte that has no code (43_bitpack.md R173). -/
theorem pscanLoop_noCode (k n i : Nat) {s : State} (hs : s.sched = []) (hk : SinkOk s) (h : PackerOk s) (hn : k < n)
    (hc : AllCoded s.code (bytesFrom s i k)) (hx : (codeAt s.code (memRead s (i + k))).assigned = false) :
    pscanLoop n i s = .raised (raise .noCode (BitVec.ofNat 64 (i + k)) none (some (memRead s (i + k))) .src
      (afterPacking (packed s ++ codeBits s.code (bytesFrom s i k)) s)) := by
  induction k generalizing n i s with
  | zero =>
    obtain ⟨n, rfl⟩ : ∃ m, n = m + 1 := ⟨n - 1, by omega⟩
    rw [pscanLoop, packSym, if_neg (by simpa using hx)]
    simp [codeBits, afterPacking_packed h, raising_free hs]
  | succ k ih =>
    obtain ⟨n, rfl⟩ : ∃ m, n = m + 1 := ⟨n - 1, by omega⟩
    rw [bytesFrom_succ] at hc ⊢
    have hi : i + (k + 1) = i + 1 + k := by omega
    rw [hi] at hx ⊢
    rw [pscanLoop, packSym_ok hs hk h (hc _ (by simp)), Flow.andThen_done]
    rw [ih n (i + 1) (s := afterPacking _ s) hs (hk.afterPacking _) (packerOk_afterPacking _ _) (by omega)
      (fun b hb => hc b (by simpa using .inr hb)) hx]
    rw [afterPacking_afterPacking, codeBits_cons, List.append_assoc]
    rfl

/-! ## A sink that fails -/

/-- The host takes `k` more bytes and answers the next write with IOERR. -/
abbrev SinkFails (k : Nat) (as : List SnkAns) (s : State) : Prop := s.snkAns = List.replicate k .ok ++ .ioerr :: as

theorem snkWrite_fails {s : State} (hs : s.sched = []) {as : List SnkAns} (h : SinkFails 0 as s) (b : Byte) :
    snkWrite b s = .raised (raise .ioFailure s.outCount none none .snk { s with snkAns := as }) := by
  have h : s.snkAns = .ioerr :: as := h
  rw [snkWrite, paused_of_sched hs, if_neg (by simp), snkAnswer, h]
  exact (raising_free (s := answerTaken as s) (by rw [answerTaken_sched, hs]; rfl) _ _ _ _ _).trans
    (by simp only [answerTaken, hs, afterCore])

theorem snkWrite_takes {s : State} (hs : s.sched = []) {k : Nat} {as : List SnkAns} (h : SinkFails (k + 1) as s)
    (b : Byte) : snkWrite b s = .done (delivered [b] s) ∧ SinkFails k as (delivered [b] s) := by
  have h : s.snkAns = .ok :: (List.replicate k .ok ++ .ioerr :: as) := by
    rw [SinkFails] at h; rw [h, List.replicate_succ]; rfl
  refine ⟨?_, by simp [SinkFails, delivered, h]⟩
  rw [snkWrite, paused_of_sched hs, if_neg (by simp), snkAnswer, h]
  simp [deliver, countOut, takeByte, answerTaken, delivered, hs, afterCore, h]

/-- Sending `bs` to a sink that takes `k` of them. -/
theorem sendBytes_fails {s : State} (hs : s.sched = []) {k : Nat} {as : List SnkAns} (h : SinkFails k as s)
    {bs : List Byte} (hk : k < bs.length) :
    sendBytes bs s = .raised (raise .ioFailure (s.outCount + BitVec.ofNat 64 k) none none .snk
      { s with snk := s.snk ++ bs.take k, outCount := s.outCount + BitVec.ofNat 64 k, snkAns := as }) := by
  induction bs generalizing s k with
  | nil => simp at hk
  | cons b bs ih =>
    cases k with
    | zero =>
      rw [sendBytes, snkWrite_fails hs h, Flow.andThen_raised]
      have e : s.outCount + BitVec.ofNat 64 0 = s.outCount := by simp
      rw [e, List.take_zero, List.append_nil]
    | succ k =>
      obtain ⟨h1, h2⟩ := snkWrite_takes hs h b
      rw [sendBytes, h1, Flow.andThen_done, ih (s := delivered [b] s) hs h2 (by simpa using hk)]
      have e : (delivered [b] s).outCount + BitVec.ofNat 64 k = s.outCount + BitVec.ofNat 64 (k + 1) := by
        rw [show k + 1 = 1 + k by omega, BitVec.ofNat_add, ← BitVec.add_assoc]; rfl
      have e2 : (delivered [b] s).snk ++ bs.take k = s.snk ++ (b :: bs).take (k + 1) := by simp [delivered]
      rw [e, e2]
      rfl

theorem SinkFails.delivered {s : State} {k : Nat} {as : List SnkAns} (h : SinkFails k as s) {bs : List Byte}
    (hk : bs.length ≤ k) : SinkFails (k - bs.length) as (Machine.delivered bs s) := by
  have e : (Machine.delivered bs s).snkAns = s.snkAns.drop bs.length := rfl
  rw [SinkFails, e, h, List.drop_append_of_le_length (by simpa using hk), List.drop_replicate]

/-- Sending `bs` to a sink that takes all of them. -/
theorem sendBytes_takes {s : State} (hs : s.sched = []) {k : Nat} {as : List SnkAns} (h : SinkFails k as s)
    {bs : List Byte} (hk : bs.length ≤ k) : sendBytes bs s = .done (delivered bs s) := by
  induction bs generalizing s k with
  | nil => simp [sendBytes]
  | cons b bs ih =>
    obtain ⟨k, rfl⟩ : ∃ m, k = m + 1 := ⟨k - 1, by simp at hk; omega⟩
    obtain ⟨h1, h2⟩ := snkWrite_takes hs h b
    rw [sendBytes, h1, Flow.andThen_done, ih (s := Machine.delivered [b] s) hs h2 (by simpa using hk), delivered_append]
    rfl

/-- The whole bytes of a bit string. -/
def wholeBytes (bits : List Bool) : List Byte := bitsToBytes (bits.take (8 * (bits.length / 8)))

@[simp] theorem length_wholeBytes (bits : List Bool) : (wholeBytes bits).length = bits.length / 8 := by
  simp [wholeBytes]; omega

/-- The whole bytes of a longer string begin with those of its start. -/
theorem wholeBytes_append (as bs : List Bool) :
    wholeBytes (as ++ bs) = wholeBytes as ++ wholeBytes (as.drop (8 * (as.length / 8)) ++ bs) := by
  have hle : 8 * (as.length / 8) ≤ as.length := by omega
  have hlt : (as.take (8 * (as.length / 8))).length = 8 * (as.length / 8) := by simp; omega
  conv_lhs => rw [← List.take_append_drop (8 * (as.length / 8)) as, List.append_assoc]
  rw [wholeBytes, wholeBytes, wholeBytes]
  generalize hr : as.drop (8 * (as.length / 8)) ++ bs = r
  have hlen : (as.take (8 * (as.length / 8)) ++ r).length = 8 * (as.length / 8) + r.length := by
    rw [List.length_append, hlt]
  rw [hlen, show 8 * ((8 * (as.length / 8) + r.length) / 8) = 8 * (as.length / 8) + 8 * (r.length / 8) by omega]
  rw [List.take_append, hlt, List.take_of_length_le (by omega), Nat.add_sub_cancel_left,
    bitsToBytes_append (by omega)]

/-- Packing bits into a sink that takes `k` bytes: it fails at byte `k`, or does not reach it. -/
theorem packBits_fails (bits : List Bool) {s : State} (hs : s.sched = []) (h : PackerOk s) {k : Nat} {as : List SnkAns}
    (hf : SinkFails k as s) :
    (k < (wholeBytes (packed s ++ bits)).length ∧ ∃ a n,
      packBits bits s = .raised (raise .ioFailure (s.outCount + BitVec.ofNat 64 k) none none .snk
        { s with snk := s.snk ++ (wholeBytes (packed s ++ bits)).take k,
                 outCount := s.outCount + BitVec.ofNat 64 k, snkAns := as, acc := a, nbits := n })) ∨
    ((wholeBytes (packed s ++ bits)).length ≤ k ∧ packBits bits s = .done (afterPacking (packed s ++ bits) s)) := by
  induction bits generalizing s k with
  | nil => exact .inr ⟨by have := h.1; simp; omega, by simp [packBits, afterPacking_packed h]⟩
  | cons b bits ih =>
    have h1 := h.1
    have hone : packed s ++ b :: bits = (packed s ++ [b]) ++ bits := by simp
    have hl : (packed s ++ [b]).length = s.nbits.toNat + 1 := by simp
    rw [hone]
    by_cases h8 : s.nbits.toNat = 7
    · have hfull := packBit_full h b h8
      cases k with
      | zero =>
        refine .inl ⟨by simp; omega, (pushBit b s).acc, (pushBit b s).nbits, ?_⟩
        rw [packBits, hfull, snkWrite_fails (s := pushBit b s) hs hf, Flow.andThen_raised, Flow.andThen_raised]
        have e : s.outCount + BitVec.ofNat 64 0 = s.outCount := by simp
        rw [e, List.take_zero, List.append_nil]
        rfl
      | succ k =>
        obtain ⟨g1, g2⟩ := snkWrite_takes (s := pushBit b s) hs hf (vecMSB 8 (packed s ++ [b]))
        have hp := packBit_full_done h b h8 g1
        have hs1 : (afterPacking (packed s ++ [b]) s).sched = [] := hs
        have hf1 : SinkFails k as (afterPacking (packed s ++ [b]) s) := by
          have e : (afterPacking (packed s ++ [b]) s).snkAns = s.snkAns.drop 1 := by
            have : (bitsToBytes ((packed s ++ [b]).take (8 * ((packed s ++ [b]).length / 8)))).length = 1 := by
              simp; omega
            simp only [afterPacking, withPacker, delivered]; rw [this]
          rw [SinkFails, e]; exact g2
        have key := ih hs1 (packerOk_afterPacking _ _) hf1
        rw [packed_afterPacking] at key
        have hw := wholeBytes_append (packed s ++ [b]) bits
        have hw1 : (wholeBytes (packed s ++ [b])).length = 1 := by simp; omega
        have hout : (afterPacking (packed s ++ [b]) s).outCount = s.outCount + 1 := by
          show s.outCount + BitVec.ofNat 64 (wholeBytes (packed s ++ [b])).length = _
          rw [hw1]; rfl
        have hsnk : (afterPacking (packed s ++ [b]) s).snk = s.snk ++ wholeBytes (packed s ++ [b]) := rfl
        rw [packBits, hp, Flow.andThen_done]
        rcases key with ⟨k1, a, n, k2⟩ | ⟨k1, k2⟩
        · refine .inl ⟨by rw [hw, List.length_append]; omega, a, n, ?_⟩
          rw [k2, hout, hsnk]
          have e : s.outCount + 1 + BitVec.ofNat 64 k = s.outCount + BitVec.ofNat 64 (k + 1) := by
            rw [show k + 1 = 1 + k by omega, BitVec.ofNat_add, ← BitVec.add_assoc]; rfl
          have e2 : (wholeBytes (packed s ++ [b] ++ bits)).take (k + 1) = wholeBytes (packed s ++ [b]) ++
              (wholeBytes ((packed s ++ [b]).drop (8 * ((packed s ++ [b]).length / 8)) ++ bits)).take k := by
            rw [hw, List.take_append, hw1, List.take_of_length_le (by omega), Nat.add_sub_cancel]
          rw [e, e2, List.append_assoc]
          rfl
        · refine .inr ⟨by rw [hw, List.length_append]; omega, ?_⟩
          rw [k2, ← packed_afterPacking (packed s ++ [b]) s, afterPacking_afterPacking]
    · have hp := packBit_partial h b h8
      have hz : 8 * ((packed s ++ [b]).length / 8) = 0 := by omega
      have hw0 : wholeBytes (packed s ++ [b]) = [] := List.length_eq_zero_iff.1 (by simp; omega)
      have e0 : afterPacking (packed s ++ [b]) s = withPacker (packed s ++ [b]) s := by
        rw [afterPacking, hz, List.take_zero, List.drop_zero, bitsToBytes_nil, delivered_nil]
      have hf1 : SinkFails k as (afterPacking (packed s ++ [b]) s) := by rw [e0]; exact hf
      have key := ih (by exact hs) (packerOk_afterPacking _ _) hf1
      rw [packed_afterPacking] at key
      have hw := wholeBytes_append (packed s ++ [b]) bits
      rw [hw0, List.nil_append] at hw
      rw [packBits, hp, Flow.andThen_done, hw]
      rcases key with ⟨k1, a, n, k2⟩ | ⟨k1, k2⟩
      · refine .inl ⟨k1, a, n, ?_⟩
        rw [k2, e0]
        rfl
      · refine .inr ⟨k1, ?_⟩
        rw [k2, ← packed_afterPacking (packed s ++ [b]) s, afterPacking_afterPacking]

theorem SinkFails.afterPacking {s : State} {k : Nat} {as : List SnkAns} (h : SinkFails k as s) {bits : List Bool}
    (hk : (wholeBytes bits).length ≤ k) :
    SinkFails (k - (wholeBytes bits).length) as (Machine.afterPacking bits s) := by
  have e : (Machine.afterPacking bits s).snkAns = s.snkAns.drop (wholeBytes bits).length := rfl
  rw [SinkFails, e, h, List.drop_append_of_le_length (by simpa using hk), List.drop_replicate]

/-- PSCAN's loop with a sink that takes `k` bytes. -/
theorem pscanLoop_fails (n i : Nat) {s : State} (hs : s.sched = []) (h : PackerOk s)
    (hc : AllCoded s.code (bytesFrom s i n)) {k : Nat} {as : List SnkAns} (hf : SinkFails k as s)
    (hk : k < (wholeBytes (packed s ++ codeBits s.code (bytesFrom s i n))).length) :
    ∃ a m, pscanLoop n i s = .raised (raise .ioFailure (s.outCount + BitVec.ofNat 64 k) none none .snk
      { s with snk := s.snk ++ (wholeBytes (packed s ++ codeBits s.code (bytesFrom s i n))).take k,
               outCount := s.outCount + BitVec.ofNat 64 k, snkAns := as, acc := a, nbits := m }) := by
  induction n generalizing i s k with
  | zero =>
    have h1 := h.1
    rw [bytesFrom_zero] at hk
    simp [codeBits] at hk
    omega
  | succ n ih =>
    rw [bytesFrom_succ] at hc hk ⊢
    rw [codeBits_cons, ← List.append_assoc] at hk ⊢
    rw [pscanLoop, packSym, if_pos (hc _ (by simp))]
    have hw := wholeBytes_append (packed s ++ (codeAt s.code (memRead s i)).bitString)
      (codeBits s.code (bytesFrom s (i + 1) n))
    rcases packBits_fails (codeAt s.code (memRead s i)).bitString hs h hf with ⟨k1, a, m, k2⟩ | ⟨k1, k2⟩
    · refine ⟨a, m, ?_⟩
      rw [k2, Flow.andThen_raised, hw, List.take_append_of_le_length (by omega)]
    · rw [k2, Flow.andThen_done]
      generalize hA : packed s ++ (codeAt s.code (memRead s i)).bitString = A at *
      rw [hw, List.length_append] at hk
      obtain ⟨a, m, key⟩ := ih (i + 1) (s := afterPacking A s) hs (packerOk_afterPacking _ _)
        (fun b hb => hc b (by simpa using .inr hb)) (hf.afterPacking k1)
        (by rw [packed_afterPacking]; exact Nat.sub_lt_left_of_lt_add k1 hk)
      refine ⟨a, m, ?_⟩
      rw [key, hw, packed_afterPacking]
      have ho : (afterPacking A s).outCount + BitVec.ofNat 64 (k - (wholeBytes A).length)
          = s.outCount + BitVec.ofNat 64 k := by
        show s.outCount + BitVec.ofNat 64 (wholeBytes A).length + _ = _
        rw [BitVec.add_assoc, ← BitVec.ofNat_add, Nat.add_sub_cancel' k1]
      have hk' : (afterPacking A s).snk = s.snk ++ wholeBytes A := rfl
      rw [ho, hk', List.take_append, List.take_of_length_le k1, List.append_assoc]
      rfl

/-- PSCAN's loop with a sink that takes all of its whole bytes. -/
theorem pscanLoop_takes (n i : Nat) {s : State} (hs : s.sched = []) (h : PackerOk s)
    (hc : AllCoded s.code (bytesFrom s i n)) {k : Nat} {as : List SnkAns} (hf : SinkFails k as s)
    (hk : (wholeBytes (packed s ++ codeBits s.code (bytesFrom s i n))).length ≤ k) :
    pscanLoop n i s = .done (afterPacking (packed s ++ codeBits s.code (bytesFrom s i n)) s) := by
  induction n generalizing i s k with
  | zero => simp [pscanLoop, codeBits, afterPacking_packed h]
  | succ n ih =>
    rw [bytesFrom_succ] at hc hk ⊢
    rw [codeBits_cons, ← List.append_assoc] at hk ⊢
    rw [pscanLoop, packSym, if_pos (hc _ (by simp))]
    have hw := wholeBytes_append (packed s ++ (codeAt s.code (memRead s i)).bitString)
      (codeBits s.code (bytesFrom s (i + 1) n))
    rw [hw, List.length_append] at hk
    rcases packBits_fails (codeAt s.code (memRead s i)).bitString hs h hf with ⟨k1, -⟩ | ⟨k1, k2⟩
    · omega
    · rw [k2, Flow.andThen_done]
      generalize hA : packed s ++ (codeAt s.code (memRead s i)).bitString = A at *
      refine (ih (i + 1) (s := afterPacking A s) hs (packerOk_afterPacking _ _)
        (fun b hb => hc b (by simpa using .inr hb)) (hf.afterPacking k1)
        (by rw [packed_afterPacking]; exact Nat.le_sub_of_add_le (by rw [Nat.add_comm]; exact hk))).trans ?_
      exact congrArg Flow.done (afterPacking_afterPacking _ _ _)

/-- PFLUSH's byte: the packed bits with zero pad bits below them (43_bitpack.md R174). -/
theorem padded_eq {s : State} (h : PackerOk s) (h0 : s.nbits ≠ 0) : bitsToBytes (packed s) = [padded s] := by
  have h1 := h.1
  have h2 : s.nbits.toNat ≠ 0 := fun e => h0 (BitVec.eq_of_toNat_eq (by simpa using e))
  have hl : (bitsToBytes (packed s)).length = 1 := by simp; omega
  obtain ⟨b, hb⟩ := List.length_eq_one_iff.1 hl
  rw [hb]
  congr 1
  have : b = vecMSB 8 ((List.range 8).map fun j => (packed s).getD (8 * 0 + j) false) := by
    have hr : (s.nbits.toNat + 7) / 8 = 1 := by omega
    simp only [bitsToBytes, length_packed, hr, List.range_one, List.map_singleton] at hb
    exact (List.head_eq_of_cons_eq hb).symm
  rw [this]
  apply BitVec.eq_of_getLsbD_eq
  intro i hi
  simp only [getLsbD_vecMSB, padded, BitVec.getLsbD_shiftLeft, hi]
  by_cases hn : 8 - s.nbits.toNat ≤ i
  · have hk : 7 - i < s.nbits.toNat := by omega
    have hj : s.nbits.toNat - 1 - (7 - i) = i - (8 - s.nbits.toNat) := by omega
    simp [packed, List.getD_eq_getElem?_getD, hi, hk, hj, show ¬ i < 8 - s.nbits.toNat by omega, show 7 - i < 8 by omega]
  · simp [packed, List.getD_eq_getElem?_getD, hi, show ¬ 7 - i < s.nbits.toNat by omega, show i < 8 - s.nbits.toNat by omega,
      show 7 - i < 8 by omega]

end Sys2Proof.Machine
end

