-- ==== Sys2Proof/Laws/Body.lean ====
section
/-! SUPPORT. The body bytes of a bit string, read back bit by bit (43_bitpack.md R175, 20_memory.md R71). -/

namespace Sys2Proof.Machine

theorem flatMap_windows (g : Nat → Bool) (n : Nat) :
    (List.range n).flatMap (fun k => (List.range 8).map fun j => g (8 * k + j)) = (List.range (8 * n)).map g := by
  induction n with
  | zero => rfl
  | succ n ih =>
    rw [List.range_succ (n := n), List.flatMap_append, ih, Nat.mul_succ, List.range_add, List.map_append]
    simp

/-- The bits of the body bytes: the bit string, then zeros. -/
theorem bits_bitsToBytes (bits : List Bool) :
    (bitsToBytes bits).flatMap byteBits = (List.range (8 * ((bits.length + 7) / 8))).map fun k => bits.getD k false := by
  rw [← flatMap_windows, bitsToBytes, List.flatMap_map]
  refine List.flatMap_congr fun k _ => ?_
  exact byteBits_vecMSB (by simp)

theorem bits_bitsToBytes' (bits : List Bool) : ∃ pad : List Bool, (bitsToBytes bits).flatMap byteBits = bits ++ pad ∧
    pad.length < 8 := by
  refine ⟨((List.range (8 * ((bits.length + 7) / 8))).map fun k => bits.getD k false).drop bits.length, ?_, by simp; omega⟩
  rw [bits_bitsToBytes]
  conv_lhs => rw [← List.take_append_drop bits.length (List.map _ _)]
  congr 1
  refine List.ext_getElem (by simp; omega) fun i h1 h2 => ?_
  simp [List.getD_eq_getElem?_getD, h2]

@[simp] theorem length_flatMap_byteBits (bs : List Byte) : (bs.flatMap byteBits).length = 8 * bs.length := by
  induction bs with
  | nil => rfl
  | cons b bs ih => simp [ih]; omega

theorem packed_of_nbits {s : State} (h : s.nbits = 0) : packed s = [] := by simp [packed, h]

theorem packerOk_zero {s : State} (ha : s.acc = 0) (hn : s.nbits = 0) : PackerOk s := by simp [PackerOk, ha, hn]

/-- Flushing what is left after packing gives the whole body (R175). -/
theorem body_split (bits : List Bool) :
    bitsToBytes bits = wholeBytes bits ++ bitsToBytes (bits.drop (8 * (bits.length / 8))) := by
  conv_lhs => rw [← List.take_append_drop (8 * (bits.length / 8)) bits]
  rw [bitsToBytes_append (by simp; omega)]
  rfl

theorem nbits_afterPacking (bits : List Bool) (s : State) :
    (afterPacking bits s).nbits.toNat = bits.length % 8 := by
  rw [← length_packed, packed_afterPacking]; simp; omega

/-- PFLUSH after packing: the missing byte, if any (43_bitpack.md R174). -/
theorem flush_bytes (bits : List Bool) (s : State) :
    ((afterPacking bits s).nbits = 0 ∧ bitsToBytes bits = wholeBytes bits) ∨
      ((afterPacking bits s).nbits ≠ 0 ∧ bitsToBytes bits = wholeBytes bits ++ [padded (afterPacking bits s)]) := by
  by_cases h : (afterPacking bits s).nbits = 0
  · refine .inl ⟨h, ?_⟩
    rw [body_split, ← packed_afterPacking bits s, packed_of_nbits h]; simp
  · refine .inr ⟨h, ?_⟩
    rw [body_split, ← packed_afterPacking bits s, padded_eq (packerOk_afterPacking _ _) h]

end Sys2Proof.Machine
end

