-- ==== Sys2Proof/Laws/Header.lean ====
section
/-! SUPPORT. The header, written and read (44_container.md R200 to R203): its bytes, what HREAD does on them, and what a
completed HREAD must have read. -/

namespace Sys2Proof.Machine

/-! ## The header's bytes -/

@[simp] theorem length_magic : magic.length = 4 := rfl

theorem length_bitmapPart (f : Vector Word 256) : ((List.range 32).map (bitmapByte f)).length = 32 := by simp

theorem length_fields (w : Nat) (es : List (Sym × Word)) : (es.flatMap fun e => beBytes w e.2).length = w * es.length := by
  induction es with
  | nil => simp
  | cons e es ih => simp [ih, Nat.mul_succ]; omega

theorem length_headerBytes (f : Vector Word 256) (w : Nat) : (headerBytes f w).length = 37 + w * nsymOf f := by
  simp only [headerBytes, List.length_append, length_magic, length_bitmapPart, List.length_singleton, length_fields, nsymOf]

theorem headerBytes_eq (f : Vector Word 256) (w : Nat) :
    headerBytes f w = magic ++ ((List.range 32).map (bitmapByte f) ++
      ([BitVec.ofNat 8 w] ++ (presentEntries f).flatMap fun e => beBytes w e.2)) := by
  simp [headerBytes]

/-- The presence bit of a symbol on the wire (20_memory.md R72). -/
theorem bitmapByte_bit (f : Vector Word 256) (x : Sym) :
    (bitmapByte f (x.toNat / 8)).getLsbD (7 - x.toNat % 8) = present f x := by
  have hx := x.isLt
  have hl : (((f.toList.drop (8 * (x.toNat / 8))).take 8).map (· != 0)).length = 8 := by simp; omega
  rw [bitmapByte, getLsbD_vecMSB, hl, decide_eq_true (by omega), Bool.true_and,
    show 8 - 1 - (7 - x.toNat % 8) = x.toNat % 8 by omega]
  simp only [List.getD_eq_getElem?_getD, List.getElem?_map, List.getElem?_take, List.getElem?_drop]
  rw [if_pos (by omega), show 8 * (x.toNat / 8) + x.toNat % 8 = x.toNat by omega]
  simp [present, freqAt, hx]

theorem getD_bitmapPart (f : Vector Word 256) (x : Sym) :
    ((List.range 32).map (bitmapByte f)).getD (x.toNat / 8) 0 = bitmapByte f (x.toNat / 8) := by
  have hx : x.toNat / 8 < 32 := by have := x.isLt; omega
  simp [List.getD_eq_getElem?_getD, hx]

/-- The bitmap of a FREQ marks its present symbols (20_memory.md R72). -/
theorem bitmapSyms_bitmapPart (f : Vector Word 256) :
    bitmapSyms ((List.range 32).map (bitmapByte f)) = allSyms.filter (present f) := by
  rw [bitmapSyms]
  refine List.filter_congr fun x _ => ?_
  rw [getD_bitmapPart, bitmapByte_bit]

/-- The bits of a 32-byte bitmap, symbol by symbol. -/
theorem map_bitmap {bm : List Byte} (h : bm.length = 32) :
    (allSyms.map fun x : Sym => (bm.getD (x.toNat / 8) 0).getLsbD (7 - x.toNat % 8)) = bm.flatMap byteBits := by
  have h1 : bm = (List.range 32).map fun k => bm.getD k 0 := by
    refine List.ext_getElem (by simp [h]) fun i h1 h2 => ?_
    simp [List.getD_eq_getElem?_getD, h1]
  conv_rhs => rw [h1, List.flatMap_map]
  have h2 : ∀ k, byteBits (bm.getD k 0) =
      (List.range 8).map fun j => (bm.getD ((8 * k + j) / 8) 0).getLsbD (7 - (8 * k + j) % 8) := fun k =>
    List.map_congr_left fun j hj => by
      have hj : j < 8 := by simpa using hj
      rw [show (8 * k + j) / 8 = k by omega, show (8 * k + j) % 8 = j by omega]
  simp only [h2]
  rw [flatMap_windows fun i => (bm.getD (i / 8) 0).getLsbD (7 - i % 8)]
  simp only [allSyms, List.map_map]
  refine List.map_congr_left fun i hi => ?_
  have hi : i < 256 := by simpa using hi
  simp only [Function.comp, BitVec.toNat_ofNat]
  rw [Nat.mod_eq_of_lt (by omega)]

/-! ## Tables filled entry by entry -/

/-- FREQ after the writes `es`, in order. -/
def fillFreq (g : Vector Word 256) (es : List (Sym × Word)) : Vector Word 256 :=
  es.foldl (fun g e => freqSet g e.1 e.2) g

theorem freqAt_fillFreq_other {es : List (Sym × Word)} {x : Sym} (h : x ∉ es.map Prod.fst) (g : Vector Word 256) :
    freqAt (fillFreq g es) x = freqAt g x := by
  induction es generalizing g with
  | nil => rfl
  | cons e es ih =>
    simp only [List.map_cons, List.mem_cons, not_or] at h
    rw [fillFreq, List.foldl_cons]
    exact (ih h.2 _).trans (freqAt_freqSet_other g e.2 h.1)

theorem freqAt_fillFreq_mem {es : List (Sym × Word)} (hn : (es.map Prod.fst).Nodup) {x : Sym} {v : Word}
    (h : (x, v) ∈ es) (g : Vector Word 256) : freqAt (fillFreq g es) x = v := by
  induction es generalizing g with
  | nil => simp at h
  | cons e es ih =>
    simp only [List.map_cons, List.nodup_cons] at hn
    rw [fillFreq, List.foldl_cons]
    rcases List.mem_cons.1 h with rfl | h
    · exact (freqAt_fillFreq_other hn.1 _).trans (freqAt_freqSet_same g x v)
    · exact ih hn.2 h _

/-- Filling a cleared table with the present entries of a FREQ gives that FREQ. -/
theorem fillFreq_presentEntries (f : Vector Word 256) :
    fillFreq (Vector.replicate 256 0) (presentEntries f) = f := by
  refine freq_ext fun x => ?_
  by_cases h : freqAt f x = 0
  · rw [freqAt_fillFreq_other, freqAt_replicate, h]
    rw [presentEntries_syms]
    simp [present, h]
  · exact freqAt_fillFreq_mem (nodup_presentEntries f) (mem_presentEntries.2 ⟨rfl, h⟩) _

/-! ## Bytes taken from SRC -/

/-- The state after `n` bytes are taken from SRC and counted, `rest` left. -/
def taken (n : Nat) (rest : List SrcElem) (s : State) : State :=
  { s with src := rest, inCount := s.inCount + BitVec.ofNat 64 n }

theorem taken_taken (m n : Nat) (a b : List SrcElem) (s : State) : taken n b (taken m a s) = taken (m + n) b s := by
  simp [taken, BitVec.add_assoc, ← BitVec.ofNat_add]

theorem taken_zero (s : State) : taken 0 s.src s = s := by simp [taken]

theorem countIn_srcTaken {s : State} (hs : s.sched = []) (es : List SrcElem) :
    countIn (srcTaken es s) = taken 1 es s := by simp [countIn, srcTaken, taken, hs, afterCore]

theorem withSrcByte_taken {here : List Task} {s : State} {k : Byte → State → Flow} (hs : s.sched = []) {b : Byte}
    {es : List SrcElem} (h : s.src = .byte b :: es) : withSrcByte here s k = k b (taken 1 es s) := by
  rw [withSrcByte_byte hs h, countIn_srcTaken hs]

theorem withFreq_taken (f : Vector Word 256) (n : Nat) (a : List SrcElem) (s : State) :
    withFreq f (taken n a s) = taken n a (withFreq f s) := rfl

theorem freqChanged_taken {s : State} (h : freqChanged s = s) (n : Nat) (a : List SrcElem) :
    freqChanged (taken n a s) = taken n a s := by
  conv_rhs => rw [← h]
  rfl

/-- A big-endian field read (20_memory.md R73). -/
theorem readField_ok {here : Nat → Nat → List Task} {k : Nat → State → Flow} (bs : List Byte) (v : Nat) {s : State}
    {rest : List SrcElem} (hs : s.sched = []) (hsrc : s.src = bs.map .byte ++ rest) :
    readField here k bs.length v s = k (beValue v bs) (taken bs.length rest s) := by
  induction bs generalizing v s with
  | nil =>
    have e := taken_zero s
    rw [hsrc] at e
    exact congrArg (k v) e.symm
  | cons b bs ih =>
    rw [List.length_cons, readField, withSrcByte_taken hs (b := b) (es := bs.map .byte ++ rest) (by simpa using hsrc)]
    rw [ih _ (s := taken 1 _ s) hs rfl, taken_taken, beValue_cons, Nat.add_comm 1 bs.length]

/-- The fields of present symbols read, any that follow still to come (44_container.md R203). -/
theorem readFreqs_ok {w : Nat} (hw4 : w ≤ 4) (es : List (Sym × Word)) (ys : List Sym) {s : State} {rest : List SrcElem}
    (hs : s.sched = []) (hc : freqChanged s = s) (he : ∀ e ∈ es, 0 < e.2.toNat ∧ e.2.toNat < 256 ^ w)
    (hsrc : s.src = (es.flatMap fun e => beBytes w e.2).map .byte ++ rest) :
    readFreqs w (es.map Prod.fst ++ ys) s =
      readFreqs w ys (taken (w * es.length) rest (withFreq (fillFreq s.freq es) s)) := by
  induction es generalizing s with
  | nil =>
    have e := taken_zero s
    rw [hsrc] at e
    exact congrArg (readFreqs w ys) e.symm
  | cons e es ih =>
    obtain ⟨h0, h1⟩ := he e (by simp)
    have hlen : (beBytes w e.2).length = w := length_beBytes _ _
    rw [List.map_cons, List.cons_append, readFreqs]
    have hr := readField_ok (here := fun left v => [.hreadField w left v e.1 (es.map Prod.fst ++ ys)])
      (k := storeField w e.1 (readFreqs w (es.map Prod.fst ++ ys))) (beBytes w e.2) 0
      (rest := (es.flatMap fun e => beBytes w e.2).map .byte ++ rest) hs (by simpa using hsrc)
    rw [hlen] at hr
    rw [hr, beValue_beBytes, Nat.zero_mul, Nat.zero_add, Nat.mod_eq_of_lt h1, storeField, if_neg (by omega),
      writeFreq_of_changed (freqChanged_taken hc _ _), withFreq_taken]
    refine (ih (s := taken w ((es.flatMap fun e => beBytes w e.2).map .byte ++ rest)
        (withFreq (freqSet s.freq e.1 (BitVec.ofNat 32 e.2.toNat)) s)) hs
      (by rw [← withFreq_taken]; exact freqChanged_withFreq (freqChanged_taken hc _ _) _)
      (fun e' h' => he e' (by simp [h'])) rfl).trans ?_
    have hv : BitVec.ofNat 32 e.2.toNat = e.2 := by simp
    rw [hv, withFreq_taken, taken_taken, List.length_cons, Nat.mul_succ, Nat.add_comm w]
    rfl

theorem readMagic_ok (ms : List Byte) (k : Nat) {s : State} {rest : List SrcElem} (hs : s.sched = [])
    (hsrc : s.src = ms.map .byte ++ rest) : readMagic ms k s = readBitmapFrom [] (taken ms.length rest s) := by
  induction ms generalizing k s with
  | nil =>
    have e := taken_zero s
    rw [hsrc] at e
    exact congrArg (readBitmapFrom []) e.symm
  | cons m ms ih =>
    rw [readMagic, withSrcByte_taken hs (b := m) (es := ms.map .byte ++ rest) (by simpa using hsrc), if_pos rfl,
      ih (k + 1) (s := taken 1 _ s) hs rfl, taken_taken, List.length_cons, Nat.add_comm 1 ms.length]

theorem readBitmap_ok (bs bm : List Byte) {s : State} {rest : List SrcElem} (hs : s.sched = [])
    (hsrc : s.src = bs.map .byte ++ rest) : readBitmap bs.length bm s = readWidth (bm ++ bs) (taken bs.length rest s) := by
  induction bs generalizing bm s with
  | nil =>
    have e := taken_zero s
    rw [hsrc] at e
    simp only [List.length_nil, readBitmap, List.append_nil]
    exact congrArg (readWidth bm) e.symm
  | cons b bs ih =>
    rw [List.length_cons, readBitmap, withSrcByte_taken hs (b := b) (es := bs.map .byte ++ rest) (by simpa using hsrc),
      ih _ (s := taken 1 _ s) hs rfl, taken_taken, Nat.add_comm 1 bs.length]
    simp

/-- A magic byte that differs ends HREAD there (44_container.md R203). -/
theorem readMagic_bad (ms : List Byte) (k : Nat) (m b : Byte) (tl : List Byte) (hb : b ≠ m) {s : State}
    {rest : List SrcElem} (hs : s.sched = []) (hsrc : s.src = (ms ++ [b]).map .byte ++ rest) :
    readMagic (ms ++ m :: tl) k s = .raised (raise .magicMismatch (BitVec.ofNat 64 (k + ms.length)) (some m) (some b)
      .src (taken (ms.length + 1) rest s)) := by
  induction ms generalizing k s with
  | nil =>
    rw [List.nil_append, readMagic, withSrcByte_taken hs (b := b) (es := rest) (by simpa using hsrc), if_neg hb]
    exact raising_free (s := taken 1 rest s) hs _ _ _ _ _
  | cons c ms ih =>
    rw [List.cons_append, readMagic, withSrcByte_taken hs (b := c) (es := (ms ++ [b]).map .byte ++ rest) (by simpa using hsrc),
      if_pos rfl, ih (k + 1) (s := taken 1 _ s) hs rfl, taken_taken, List.length_cons,
      show k + 1 + ms.length = k + (ms.length + 1) by omega,
      Nat.add_comm 1 (ms.length + 1)]

/-- HREAD up to the frequency fields (44_container.md R203). -/
theorem readToFields {bm : List Byte} (hbm : bm.length = 32) {w : Nat} (h1 : 1 ≤ w) (h4 : w ≤ 4) {s : State}
    {rest : List SrcElem} (hs : s.sched = [])
    (hsrc : s.src = (magic ++ bm ++ [BitVec.ofNat 8 w]).map .byte ++ rest) :
    readMagicFrom 0 s = readFreqs w (bitmapSyms bm) (taken 37 rest s) := by
  rw [readMagicFrom, List.drop_zero, readMagic_ok magic 0 (rest := (bm ++ [BitVec.ofNat 8 w]).map .byte ++ rest) hs
    (by simpa using hsrc)]
  have hb := readBitmap_ok bm [] (s := taken 4 ((bm ++ [BitVec.ofNat 8 w]).map .byte ++ rest) s)
    (rest := .byte (BitVec.ofNat 8 w) :: rest) hs (by simp [taken])
  rw [hbm] at hb
  rw [length_magic, readBitmapFrom, List.length_nil, Nat.sub_zero, hb, readWidth,
    withSrcByte_taken (s := taken 32 _ (taken 4 _ s)) hs rfl]
  have hwn : (BitVec.ofNat 8 w).toNat = w := by rw [BitVec.toNat_ofNat]; omega
  rw [hwn, if_neg (by omega), taken_taken, taken_taken]
  rfl

/-- HREAD on a header of any admitted width (44_container.md R203, R204). -/
theorem hreadRule_ok {f : Vector Word 256} {w : Nat} (hf : FitsWidth f w) {s : State} {rest : List SrcElem}
    (hs : s.sched = []) (hsrc : s.src = (headerBytes f w).map .byte ++ rest) :
    hreadRule s = .done (storeWidth w (taken (37 + w * nsymOf f) rest (withFreq f (hreadClear s)))) := by
  obtain ⟨h1, h4, hfit⟩ := hf
  rw [headerBytes_eq] at hsrc
  rw [hreadRule, readToFields (bm := (List.range 32).map (bitmapByte f)) (length_bitmapPart f) h1 h4
    (rest := ((presentEntries f).flatMap fun e => beBytes w e.2).map .byte ++ rest) (s := hreadClear s) hs
    (by rw [hreadClear_src, hsrc]; simp)]
  rw [bitmapSyms_bitmapPart, ← presentEntries_syms]
  have hr := readFreqs_ok h4 (presentEntries f) [] (s := taken 37 _ (hreadClear s)) (rest := rest) hs rfl
    (fun e he => by
      obtain ⟨h2, h3⟩ := mem_presentEntries.1 he
      refine ⟨Nat.pos_of_ne_zero fun h0 => h3 (BitVec.eq_of_toNat_eq (by simpa using h0)), ?_⟩
      rw [h2]; exact hfit _) rfl
  rw [List.append_nil] at hr
  rw [hr, readFreqs, withFreq_taken, taken_taken]
  have e : fillFreq (taken 37 (((presentEntries f).flatMap fun e => beBytes w e.2).map .byte ++ rest)
      (hreadClear s)).freq (presentEntries f) = f := fillFreq_presentEntries f
  rw [e]
  rfl

/-! ## A header that gives out -/

/-- A reader of `bs` ends with the stream's error where the bytes give out (20_memory.md R68, 60_exceptions.md R245). -/
def FailsWithin (bs : List Byte) (R : State → Flow) : Prop :=
  ∀ (s : State) (e : SrcElem) (kind : ErrKind) (k : Nat) (rest : List SrcElem),
    (e = .eoi ∧ kind = .truncatedInput ∨ e = .ioerr ∧ kind = .ioFailure) → s.sched = [] → k < bs.length →
    s.src = (bs.take k).map .byte ++ e :: rest →
    R s = .raised (raise kind (s.inCount + BitVec.ofNat 64 k) none none .src
      { s with src := rest, inCount := s.inCount + BitVec.ofNat 64 k })

theorem FailsWithin.nil (R : State → Flow) : FailsWithin [] R := fun _ _ _ _ _ _ _ hk => by simp at hk

theorem FailsWithin.cons {b : Byte} {bs : List Byte} {here : State → List Task} {K : Byte → State → Flow}
    (h : FailsWithin bs (K b)) : FailsWithin (b :: bs) fun s => withSrcByte (here s) s K := by
  intro s e kind k rest he hs hk hsrc
  cases k with
  | zero =>
    have e0 : s.inCount + BitVec.ofNat 64 0 = s.inCount := by simp
    simp only [List.take_zero, List.map_nil, List.nil_append] at hsrc
    rw [e0]
    simp only [withSrcByte_free hs]
    rcases he with ⟨rfl, rfl⟩ | ⟨rfl, rfl⟩ <;> simp only [hsrc, srcTaken, hs, afterCore]
  | succ k =>
    simp only [List.take_succ_cons, List.map_cons, List.cons_append] at hsrc
    simp only
    rw [withSrcByte_taken hs hsrc, h (taken 1 _ s) e kind k rest he hs (by simpa using hk) rfl]
    have e1 : (taken 1 ((bs.take k).map .byte ++ e :: rest) s).inCount + BitVec.ofNat 64 k
        = s.inCount + BitVec.ofNat 64 (k + 1) := by
      show s.inCount + BitVec.ofNat 64 1 + _ = _
      rw [BitVec.add_assoc, ← BitVec.ofNat_add, Nat.add_comm]
    rw [e1]
    rfl

theorem FailsWithin.writeFreq {bs : List Byte} {R : State → Flow} (h : FailsWithin bs R) (x : Sym) (v : Word) :
    FailsWithin bs fun s => R (writeFreq x v s) := by
  intro s e kind k rest he hs hk hsrc
  simp only
  rw [h (Machine.writeFreq x v s) e kind k rest he hs hk hsrc]
  rfl

theorem failsWithin_readField {here : Nat → Nat → List Task} {K : Nat → State → Flow} (bs tail : List Byte) (v : Nat)
    (h : FailsWithin tail (K (beValue v bs))) : FailsWithin (bs ++ tail) (readField here K bs.length v) := by
  induction bs generalizing v with
  | nil => exact h
  | cons b bs ih =>
    exact FailsWithin.cons (here := fun _ => here (bs.length + 1) v)
      (K := fun b s => readField here K bs.length (v * 256 + b.toNat) s) (ih _ h)

theorem failsWithin_readFreqs {w : Nat} (hw4 : w ≤ 4) (es : List (Sym × Word))
    (he : ∀ e ∈ es, 0 < e.2.toNat ∧ e.2.toNat < 256 ^ w) :
    FailsWithin (es.flatMap fun e => beBytes w e.2) (readFreqs w (es.map Prod.fst)) := by
  induction es with
  | nil => exact .nil _
  | cons e es ih =>
    obtain ⟨h0, h1⟩ := he e (by simp)
    have key := failsWithin_readField (here := fun left v => [.hreadField w left v e.1 (es.map Prod.fst)])
      (K := storeField w e.1 (readFreqs w (es.map Prod.fst))) (beBytes w e.2) (es.flatMap fun e => beBytes w e.2) 0
      (by
        rw [beValue_beBytes, Nat.zero_mul, Nat.zero_add, Nat.mod_eq_of_lt h1]
        have e' : storeField w e.1 (readFreqs w (es.map Prod.fst)) e.2.toNat
            = fun s => readFreqs w (es.map Prod.fst) (Machine.writeFreq e.1 (BitVec.ofNat 32 e.2.toNat) s) :=
          funext fun s => by rw [storeField, if_neg (by omega)]
        rw [e']
        exact (ih fun e' h' => he e' (by simp [h'])).writeFreq _ _)
    rw [length_beBytes] at key
    exact key

theorem failsWithin_readMagic (ms tail : List Byte) (k : Nat) (h : FailsWithin tail (readBitmapFrom [])) :
    FailsWithin (ms ++ tail) (readMagic ms k) := by
  induction ms generalizing k with
  | nil => exact h
  | cons m ms ih =>
    refine FailsWithin.cons (here := fun _ => [.hreadMagic k]) ?_
    have e : (fun s => if m = m then readMagic ms (k + 1) s
        else raising .magicMismatch (BitVec.ofNat 64 k) (some m) (some m) .src s) = readMagic ms (k + 1) :=
      funext fun s => if_pos rfl
    have := ih (k + 1)
    rw [← e] at this
    exact this

theorem failsWithin_readBitmap (bs bm tail : List Byte) (h : FailsWithin tail (readWidth (bm ++ bs))) :
    FailsWithin (bs ++ tail) (readBitmap bs.length bm) := by
  induction bs generalizing bm with
  | nil => rw [List.append_nil] at h; exact h
  | cons b bs ih =>
    exact FailsWithin.cons (here := fun _ => [.hreadBitmap bm]) (K := fun b s => readBitmap bs.length (bm ++ [b]) s)
      (ih _ (by simpa using h))

/-- HREAD on a header that gives out (44_container.md R203). -/
theorem failsWithin_header {f : Vector Word 256} {w : Nat} (hf : FitsWidth f w) :
    FailsWithin (headerBytes f w) (readMagicFrom 0) := by
  obtain ⟨h1, h4, hfit⟩ := hf
  rw [headerBytes_eq]
  refine failsWithin_readMagic magic _ 0 ?_
  have hb := failsWithin_readBitmap ((List.range 32).map (bitmapByte f)) []
    ([BitVec.ofNat 8 w] ++ (presentEntries f).flatMap fun e => beBytes w e.2) ?_
  · rw [length_bitmapPart] at hb; exact hb
  · refine FailsWithin.cons (here := fun _ => [.hreadWidth _]) ?_
    have hwn : (BitVec.ofNat 8 w).toNat = w := by rw [BitVec.toNat_ofNat]; omega
    have key := failsWithin_readFreqs h4 (presentEntries f) fun e he => by
      obtain ⟨h2, h3⟩ := mem_presentEntries.1 he
      refine ⟨Nat.pos_of_ne_zero fun h0 => h3 (BitVec.eq_of_toNat_eq (by simpa using h0)), ?_⟩
      rw [h2]; exact hfit _
    rw [presentEntries_syms, ← bitmapSyms_bitmapPart] at key
    have e : (fun s => if (BitVec.ofNat 8 w).toNat < 1 ∨ 4 < (BitVec.ofNat 8 w).toNat then
        raising .invalidByteWidth 36 none (some (BitVec.ofNat 8 w)) .src s
        else readFreqs (BitVec.ofNat 8 w).toNat (bitmapSyms ((List.range 32).map (bitmapByte f))) s)
        = readFreqs w (bitmapSyms ((List.range 32).map (bitmapByte f))) :=
      funext fun s => by rw [hwn, if_neg (by omega)]
    rw [← e] at key
    exact key

/-! ## What a completed HREAD read -/

theorem withSrcByte_done {here : List Task} {s t : State} {k : Byte → State → Flow} (hs : s.sched = [])
    (h : withSrcByte here s k = .done t) : ∃ b es, s.src = .byte b :: es ∧ k b (taken 1 es s) = .done t := by
  rcases withSrcByte_cases here s k with ⟨w, hw⟩ | ⟨b, es, h1, h2⟩ | ⟨es, h1, h2⟩ | ⟨es, h1, h2⟩
  · rw [hw] at h; cases h
  · exact ⟨b, es, h1, by rw [← h, h2, countIn_srcTaken hs]⟩
  · rw [h2] at h; exact absurd h (raising_ne_done _ _ _ _ _ _ _)
  · rw [h2] at h; exact absurd h (raising_ne_done _ _ _ _ _ _ _)

theorem beValue_lt (bs : List Byte) (v m : Nat) (hv : v < m) : beValue v bs < m * 256 ^ bs.length := by
  induction bs generalizing v m with
  | nil => simpa using hv
  | cons b bs ih =>
    have hb := b.isLt
    have := ih (v * 256 + b.toNat) (m * 256) (by omega)
    rw [beValue_cons, List.length_cons, Nat.pow_succ, Nat.mul_comm (256 ^ bs.length), ← Nat.mul_assoc]
    exact this

theorem readField_done {here : Nat → Nat → List Task} {k : Nat → State → Flow} (n v : Nat) {s t : State}
    (hs : s.sched = []) (h : readField here k n v s = .done t) :
    ∃ bs rest, bs.length = n ∧ s.src = bs.map .byte ++ rest ∧ k (beValue v bs) (taken n rest s) = .done t := by
  induction n generalizing v s with
  | zero => exact ⟨[], s.src, rfl, rfl, by rw [taken_zero]; exact h⟩
  | succ n ih =>
    obtain ⟨b, es, h1, h2⟩ := withSrcByte_done hs h
    obtain ⟨bs, rest, h3, h4, h5⟩ := ih _ (s := taken 1 es s) hs h2
    refine ⟨b :: bs, rest, by simp [h3], ?_, ?_⟩
    · rw [h1, show es = _ from h4]; rfl
    · rw [taken_taken, Nat.add_comm 1 n] at h5; exact h5

/-- What the frequency fields of a completed HREAD were. -/
theorem readFreqs_done {w : Nat} (h4 : w ≤ 4) (xs : List Sym) {s t : State} (hs : s.sched = [])
    (hc : freqChanged s = s) (h : readFreqs w xs s = .done t) :
    ∃ (es : List (Sym × Word)) (bs : List Byte) (rest : List SrcElem), es.map Prod.fst = xs ∧ (∀ e ∈ es, e.2 ≠ 0) ∧
      bs.length = w * xs.length ∧ s.src = bs.map .byte ++ rest ∧
      t = storeWidth w (taken (w * xs.length) rest (withFreq (fillFreq s.freq es) s)) := by
  induction xs generalizing s with
  | nil =>
    refine ⟨[], [], s.src, rfl, by simp, rfl, rfl, ?_⟩
    rw [List.length_nil, Nat.mul_zero, ← (Flow.done.inj h)]
    exact congrArg (storeWidth w) (taken_zero s).symm
  | cons x xs ih =>
    rw [readFreqs] at h
    obtain ⟨bs, rest, h1, h2, h3⟩ := readField_done w 0 hs h
    have hlt := beValue_lt bs 0 1 (by omega)
    rw [h1, Nat.one_mul] at hlt
    have h256 : 256 ^ w ≤ 2 ^ 32 := by
      calc 256 ^ w ≤ 256 ^ 4 := Nat.pow_le_pow_right (by omega) h4
        _ = 2 ^ 32 := by norm_num
    rw [storeField] at h3
    split at h3
    · exact absurd h3 (raising_ne_done _ _ _ _ _ _ _)
    · rename_i hv
      rw [writeFreq_of_changed (freqChanged_taken hc _ _), withFreq_taken] at h3
      obtain ⟨es, cs, rest', g1, g2, g3, g4, g5⟩ := ih (s := taken w rest (withFreq (freqSet s.freq x (BitVec.ofNat 32 (beValue 0 bs))) s)) hs
        (by rw [← withFreq_taken]; exact freqChanged_withFreq (freqChanged_taken hc _ _) _) h3
      have hne : BitVec.ofNat 32 (beValue 0 bs) ≠ 0 := fun e => by
        have := congrArg BitVec.toNat e
        rw [BitVec.toNat_ofNat, Nat.mod_eq_of_lt (by omega)] at this
        exact hv this
      refine ⟨(x, BitVec.ofNat 32 (beValue 0 bs)) :: es, bs ++ cs, rest', by simp [g1], ?_, ?_, ?_, ?_⟩
      · intro e he
        rcases List.mem_cons.1 he with rfl | he
        · exact hne
        · exact g2 e he
      · rw [List.length_append, h1, g3, List.length_cons, Nat.mul_succ, Nat.add_comm]
      · rw [h2, show rest = _ from g4]; simp
      · rw [g5, withFreq_taken, taken_taken, List.length_cons, Nat.mul_succ, Nat.add_comm w]
        rfl

theorem readBitmap_done (n : Nat) (bm : List Byte) {s t : State} (hs : s.sched = [])
    (h : readBitmap n bm s = .done t) :
    ∃ bs rest, bs.length = n ∧ s.src = bs.map .byte ++ rest ∧ readWidth (bm ++ bs) (taken n rest s) = .done t := by
  induction n generalizing bm s with
  | zero => exact ⟨[], s.src, rfl, rfl, by rw [taken_zero, List.append_nil]; exact h⟩
  | succ n ih =>
    obtain ⟨b, es, h1, h2⟩ := withSrcByte_done hs h
    obtain ⟨bs, rest, h3, h4, h5⟩ := ih _ (s := taken 1 es s) hs h2
    refine ⟨b :: bs, rest, by simp [h3], ?_, ?_⟩
    · rw [h1, show es = _ from h4]; rfl
    · rw [taken_taken, Nat.add_comm 1 n] at h5; simpa using h5

theorem readMagic_done (ms : List Byte) (k : Nat) {s t : State} (hs : s.sched = []) (h : readMagic ms k s = .done t) :
    ∃ rest, s.src = ms.map .byte ++ rest ∧ readBitmapFrom [] (taken ms.length rest s) = .done t := by
  induction ms generalizing k s with
  | nil => exact ⟨s.src, rfl, by rw [List.length_nil, taken_zero]; exact h⟩
  | cons m ms ih =>
    obtain ⟨b, es, h1, h2⟩ := withSrcByte_done hs h
    split at h2
    · rename_i hb
      subst hb
      obtain ⟨rest, h3, h4⟩ := ih _ (s := taken 1 es s) hs h2
      refine ⟨rest, by rw [h1, show es = _ from h3]; rfl, ?_⟩
      rw [taken_taken, Nat.add_comm 1 ms.length] at h4; exact h4
    · exact absurd h2 (raising_ne_done _ _ _ _ _ _ _)

/-- What a completed HREAD read (44_container.md R203, R209). -/
theorem hreadRule_done {s t : State} (hs : s.sched = []) (h : hreadRule s = .done t) :
    ∃ (bm : List Byte) (w : Nat) (es : List (Sym × Word)) (bs : List Byte) (rest : List SrcElem), bm.length = 32 ∧
      1 ≤ w ∧ w ≤ 4 ∧ es.map Prod.fst = bitmapSyms bm ∧ (∀ e ∈ es, e.2 ≠ 0) ∧
      bs.length = w * (bitmapSyms bm).length ∧
      s.src = (magic ++ bm ++ [BitVec.ofNat 8 w] ++ bs).map .byte ++ rest ∧
      t = storeWidth w (taken (37 + bs.length) rest (withFreq (fillFreq (Vector.replicate 256 0) es) (hreadClear s))) := by
  obtain ⟨r1, h1, h2⟩ := readMagic_done _ 0 (s := hreadClear s) hs h
  obtain ⟨bm, r2, h3, h4, h5⟩ := readBitmap_done _ [] (s := taken 4 r1 (hreadClear s)) hs h2
  obtain ⟨b, es, h6, h7⟩ := withSrcByte_done (s := taken 32 r2 (taken 4 r1 (hreadClear s))) hs h5
  split at h7
  · exact absurd h7 (raising_ne_done _ _ _ _ _ _ _)
  · rename_i hb
    obtain ⟨fs, bs, rest, g1, g2, g3, g4, g5⟩ := readFreqs_done (by omega) _ (s := taken 1 es (taken 32 r2 (taken 4 r1 (hreadClear s))))
      hs rfl h7
    rw [List.nil_append] at g1 g3 g5
    refine ⟨bm, b.toNat, fs, bs, rest, by simpa using h3, by omega, by omega, g1, g2, g3, ?_, ?_⟩
    · have e1 : s.src = magic.map .byte ++ r1 := h1
      have e2 : r1 = bm.map .byte ++ r2 := h4
      have e3 : r2 = .byte b :: es := h6
      have e4 : es = bs.map .byte ++ rest := g4
      rw [e1, e2, e3, e4]; simp
    · rw [g5, g3]
      have ht : taken 1 es (taken 32 r2 (taken 4 r1 (hreadClear s))) = taken 37 es (hreadClear s) := by
        rw [taken_taken, taken_taken]
      rw [ht, withFreq_taken, taken_taken]
      rfl

end Sys2Proof.Machine
end

