-- ==== Sys2Proof/Laws/Walk.lean ====
section
/-! SUPPORT. The unpacker and the decode walk (43_bitpack.md R171, R180, R181): bits taken along a path, symbols decoded
along a bit string. -/

namespace Sys2Proof.Machine

/-- The state after the walks of some symbols: `xs` delivered and counted, the cursor at `cur` and `rem`, `used` bytes
taken, `src` left. -/
def decoded (xs : List Sym) (cur : Byte) (rem used : Nat) (src : List SrcElem) (s : State) : State :=
  { delivered xs s with
    cur := cur
    rem := BitVec.ofNat 4 rem
    src := src
    inCount := s.inCount + BitVec.ofNat 64 used
    emit := s.emit + BitVec.ofNat 40 xs.length }

theorem decoded_decoded (xs ys : List Sym) (c d : Byte) (r q u v : Nat) (a b : List SrcElem) (s : State) :
    decoded ys d q v b (decoded xs c r u a s) = decoded (xs ++ ys) d q (u + v) b s := by
  simp [decoded, delivered, BitVec.add_assoc, ← BitVec.ofNat_add]

theorem decoded_self {s : State} : decoded [] s.cur s.rem.toNat 0 s.src s = s := by
  simp [decoded]

@[simp] theorem nodeAt_decoded (xs : List Sym) (c : Byte) (r u : Nat) (a : List SrcElem) (s : State) :
    nodeAt (decoded xs c r u a s) = nodeAt s := rfl

theorem toNat_rem {r : Nat} (h : r ≤ 8) : (BitVec.ofNat 4 r).toNat = r := by
  rw [BitVec.toNat_ofNat]; exact Nat.mod_eq_of_lt (by omega)

theorem getLastD_append (a b : List Byte) (c : Byte) : (a ++ b).getLastD c = b.getLastD (a.getLastD c) := by
  cases b with
  | nil => simp
  | cons x b => simp [List.getLastD_eq_getLast?, List.getLast?_append]

@[simp] theorem length_bodyBits {r : Nat} (h : r ≤ 8) (c : Byte) (bs : List Byte) :
    (bodyBits c r bs).length = r + 8 * bs.length := by
  simp only [bodyBits, List.length_append, List.length_drop, length_byteBits, length_flatMap_byteBits]; omega

/-- The first bit left in CUR (43_bitpack.md R171). -/
theorem bodyBits_succ {r : Nat} (h : r < 8) (c : Byte) (bs : List Byte) :
    bodyBits c (r + 1) bs = c.getLsbD r :: bodyBits c r bs := by
  rw [bodyBits, bodyBits, List.drop_eq_getElem_cons (by simp; omega), show 8 - (r + 1) + 1 = 8 - r by omega]
  simp only [byteBits, List.getElem_map, List.getElem_range, List.cons_append]
  rw [show 7 - (8 - (r + 1)) = r by omega]

theorem bodyBits_zero_cons (c b : Byte) (bs : List Byte) : bodyBits c 0 (b :: bs) = bodyBits b 8 bs := by
  simp [bodyBits]

theorem bodyBits_zero_nil (c : Byte) : bodyBits c 0 [] = [] := by simp [bodyBits, byteBits]

/-- One bit taken (43_bitpack.md R171): from CUR, or from the next byte of SRC. -/
theorem unpackBit_ok {here : List Task} {s : State} {k : Bool → State → Flow} (hs : s.sched = [])
    (hr : s.rem.toNat ≤ 8) {body : List Byte} {rest : List SrcElem} (hsrc : s.src = body.map .byte ++ rest) {b : Bool}
    {bits : List Bool} (hb : bodyBits s.cur s.rem.toNat body = b :: bits) :
    ∃ b1 b2 r, body = b1 ++ b2 ∧ r ≤ 8 ∧ bodyBits (b1.getLastD s.cur) r b2 = bits ∧
      unpackBit here s k = k b (decoded [] (b1.getLastD s.cur) r b1.length (b2.map .byte ++ rest) s) := by
  by_cases h0 : s.rem = 0
  · rw [h0, show (0 : BitVec 4).toNat = 0 from rfl] at hb
    cases body with
    | nil => rw [bodyBits_zero_nil] at hb; cases hb
    | cons c body =>
      rw [bodyBits_zero_cons, bodyBits_succ (by omega)] at hb
      obtain ⟨rfl, hb⟩ := List.cons.inj hb
      refine ⟨[c], body, 7, rfl, by omega, by simpa using hb, ?_⟩
      rw [unpackBit, if_pos h0, withSrcByte_byte hs (b := c) (es := body.map .byte ++ rest) (by simpa using hsrc)]
      simp only [takeBit, List.getLastD_cons, List.getLastD_nil, List.length_singleton]
      congr 1
      simp [decoded, dropBit, loadCur, countIn, srcTaken, hs, afterCore]
  · obtain ⟨r, hr'⟩ : ∃ r, s.rem.toNat = r + 1 := by
      refine ⟨s.rem.toNat - 1, ?_⟩
      have : s.rem.toNat ≠ 0 := fun e => h0 (BitVec.eq_of_toNat_eq (by simpa using e))
      omega
    rw [hr', bodyBits_succ (by omega)] at hb
    obtain ⟨rfl, hb⟩ := List.cons.inj hb
    refine ⟨[], body, r, rfl, by omega, by simpa using hb, ?_⟩
    rw [unpackBit, if_neg h0, takeBit, hr', Nat.add_sub_cancel]
    congr 1
    have e : s.rem - 1 = BitVec.ofNat 4 r := by
      apply BitVec.eq_of_toNat_eq
      rw [BitVec.toNat_sub, hr', toNat_rem (by omega), show (1 : BitVec 4).toNat = 1 from rfl]
      omega
    simp [decoded, dropBit, ← hsrc]
    exact e

theorem leadsTo_nil {node : NodeId → Node} {i : NodeId} {x : Sym} (h : LeadsTo node i [] x) :
    (node i).kind = .leaf ∧ (node i).sym = x := ⟨h.1, h.2.1⟩

theorem leadsTo_cons {node : NodeId → Node} {i : NodeId} {b : Bool} {p : List Bool} {x : Sym}
    (h : LeadsTo node i (b :: p) x) :
    (node i).kind = .internal ∧ LeadsTo node (if b then (node i).right else (node i).left) p x :=
  ⟨by simpa [follow] using h.2.2 0 (by simp), h.1, h.2.1, fun k hk => by
    simpa [follow] using h.2.2 (k + 1) (by simpa using hk)⟩

/-- A walk along a path that leads to a leaf (43_bitpack.md R180). -/
theorem walkFrom_leadsTo {n : Nat} {i : NodeId} {p q : List Bool} {x : Sym} {s : State} {body : List Byte}
    {rest : List SrcElem} (hs : s.sched = []) (hn : p.length < n) (hr : s.rem.toNat ≤ 8)
    (hp : LeadsTo (nodeAt s) i p x) (hb : bodyBits s.cur s.rem.toNat body = p ++ q)
    (hsrc : s.src = body.map .byte ++ rest) :
    ∃ b1 b2 r, body = b1 ++ b2 ∧ r ≤ 8 ∧ bodyBits (b1.getLastD s.cur) r b2 = q ∧
      walkFrom n i s = emitSymbol x (decoded [] (b1.getLastD s.cur) r b1.length (b2.map .byte ++ rest) s) := by
  induction p generalizing n i s body with
  | nil =>
    obtain ⟨n, rfl⟩ : ∃ m, n = m + 1 := ⟨n - 1, by simp at hn; omega⟩
    obtain ⟨h1, h2⟩ := leadsTo_nil hp
    refine ⟨[], body, s.rem.toNat, rfl, hr, by simpa using hb, ?_⟩
    have e := decoded_self (s := s)
    rw [hsrc] at e
    simp only [walkFrom, h1, h2]
    exact congrArg (emitSymbol x) e.symm
  | cons b p ih =>
    obtain ⟨n, rfl⟩ : ∃ m, n = m + 1 := ⟨n - 1, by simp at hn; omega⟩
    obtain ⟨h1, h2⟩ := leadsTo_cons hp
    rw [walkFrom, h1]
    obtain ⟨b1, b2, r, rfl, hr1, hb1, he⟩ := unpackBit_ok (here := [.walk i])
      (k := fun bit s' => walkFrom n (if bit then (nodeAt s i).right else (nodeAt s i).left) s') hs hr hsrc
      (show _ = b :: (p ++ q) by simpa using hb)
    simp only at he ⊢
    rw [he]
    obtain ⟨c1, c2, r', rfl, hr2, hb2, he2⟩ := ih (n := n)
      (s := decoded [] (b1.getLastD s.cur) r b1.length (b2.map .byte ++ rest) s) (body := b2) hs (by simp at hn; omega)
      (by show (BitVec.ofNat 4 r).toNat ≤ 8; rw [toNat_rem hr1]; exact hr1) h2
      (by show bodyBits (b1.getLastD s.cur) (BitVec.ofNat 4 r).toNat b2 = _; rw [toNat_rem hr1]; exact hb1) rfl
    refine ⟨b1 ++ c1, c2, r', by simp, hr2, by rw [getLastD_append]; exact hb2, ?_⟩
    rw [he2, decoded_decoded, getLastD_append, List.length_append]
    rfl

theorem lt_walkBound {s : State} {body : List Byte} {rest : List SrcElem} (hr : s.rem.toNat ≤ 8)
    (hsrc : s.src = body.map .byte ++ rest) : (bodyBits s.cur s.rem.toNat body).length < walkBound s := by
  rw [length_bodyBits hr, walkBound, hsrc]
  simp only [List.length_append, List.length_map]
  omega

theorem SinkOk.decoded {s : State} (h : SinkOk s) (xs : List Sym) (c : Byte) (r u : Nat) (a : List SrcElem) :
    SinkOk (decoded xs c r u a s) :=
  ⟨fun b hb => h.queued b (List.mem_of_mem_drop hb), h.standing⟩

/-- The walk of one symbol, up to its write (43_bitpack.md R180). -/
theorem walkRule_leadsTo {i : NodeId} {p q : List Bool} {x : Sym} {s : State} {body : List Byte} {rest : List SrcElem}
    (hs : s.sched = []) (hr : s.rem.toNat ≤ 8) (hp : LeadsTo (nodeAt s) i p x)
    (hb : bodyBits s.cur s.rem.toNat body = p ++ q) (hsrc : s.src = body.map .byte ++ rest) :
    ∃ b1 b2 r, body = b1 ++ b2 ∧ r ≤ 8 ∧ bodyBits (b1.getLastD s.cur) r b2 = q ∧
      walkRule i s = emitSymbol x (decoded [] (b1.getLastD s.cur) r b1.length (b2.map .byte ++ rest) s) := by
  have hn : p.length < walkBound s := by
    have := lt_walkBound hr hsrc
    rw [hb, List.length_append] at this; omega
  exact walkFrom_leadsTo hs hn hr hp hb hsrc

/-- One symbol decoded (43_bitpack.md R180). -/
theorem walkRule_ok {i : NodeId} {p q : List Bool} {x : Sym} {s : State} {body : List Byte} {rest : List SrcElem}
    (hs : s.sched = []) (hk : SinkOk s) (hr : s.rem.toNat ≤ 8) (hp : LeadsTo (nodeAt s) i p x)
    (hb : bodyBits s.cur s.rem.toNat body = p ++ q) (hsrc : s.src = body.map .byte ++ rest) :
    ∃ b1 b2 r, body = b1 ++ b2 ∧ r ≤ 8 ∧ bodyBits (b1.getLastD s.cur) r b2 = q ∧
      walkRule i s = .done (decoded [x] (b1.getLastD s.cur) r b1.length (b2.map .byte ++ rest) s) := by
  obtain ⟨b1, b2, r, h1, h2, h3, h4⟩ := walkRule_leadsTo hs hr hp hb hsrc
  refine ⟨b1, b2, r, h1, h2, h3, ?_⟩
  rw [h4, emitSymbol, snkWrite_ok (s := decoded [] _ r b1.length _ s) hs (hk.decoded ..), Flow.andThen_done]
  simp [decoded, countEmit, delivered]

/-- A sequence of symbols decoded, each along its code (43_bitpack.md R181). -/
theorem decodeSymbols_ok {f : Vector Word 256} {t : Vector CodeEntry 256} (ht : TableFor f t) (xs : List Sym)
    {q : List Bool} {s : State} {body : List Byte} {rest : List SrcElem} (hs : s.sched = []) (hk : SinkOk s)
    (hr : s.rem.toNat ≤ 8) (hn : nodeAt s = (buildTree f).nodeAt s.nodeDraw) (hroot : s.root = (buildTree f).root)
    (hx : ∀ x ∈ xs, present f x = true) (hb : bodyBits s.cur s.rem.toNat body = codeBits t xs ++ q)
    (hsrc : s.src = body.map .byte ++ rest) :
    ∃ b1 b2 r, body = b1 ++ b2 ∧ r ≤ 8 ∧ bodyBits (b1.getLastD s.cur) r b2 = q ∧
      decodeSymbols xs.length s = .done (decoded xs (b1.getLastD s.cur) r b1.length (b2.map .byte ++ rest) s) := by
  induction xs generalizing s body with
  | nil =>
    refine ⟨[], body, s.rem.toNat, rfl, hr, by simpa [codeBits] using hb, ?_⟩
    have e := decoded_self (s := s)
    rw [hsrc] at e
    exact congrArg Flow.done e.symm
  | cons x xs ih =>
    obtain ⟨i, hi, hp⟩ := ht.leadsTo (hx x (by simp)) s.nodeDraw
    rw [codeBits_cons, List.append_assoc] at hb
    obtain ⟨b1, b2, r, rfl, hr1, hb1, he⟩ := walkRule_ok hs hk hr (by rw [hn]; exact hp) hb hsrc
    obtain ⟨c1, c2, r', rfl, hr2, hb2, he2⟩ := ih
      (s := decoded [x] (b1.getLastD s.cur) r b1.length (b2.map .byte ++ rest) s) (body := b2) hs (hk.decoded ..)
      (by show (BitVec.ofNat 4 r).toNat ≤ 8; rw [toNat_rem hr1]; exact hr1) hn hroot (fun y hy => hx y (by simp [hy]))
      (by show bodyBits (b1.getLastD s.cur) (BitVec.ofNat 4 r).toNat b2 = _; rw [toNat_rem hr1]; exact hb1) rfl
    refine ⟨b1 ++ c1, c2, r', by simp, hr2, by rw [getLastD_append]; exact hb2, ?_⟩
    have hd : decodeSymbol s = walkRule i s := by rw [decodeSymbol, hroot, hi]
    rw [List.length_cons, decodeSymbols, hd, he, Flow.andThen_done, he2, decoded_decoded, getLastD_append,
      List.length_append]
    rfl

/-- Where fewer bits are left than a byte, every byte offered was needed. -/
theorem body_used {c : Byte} {r : Nat} {q : List Bool} {b1 b2 : List Byte} (hr : r ≤ 8)
    (h : bodyBits c r b2 = q) (hq : b1 ++ b2 = [] ∨ q.length < 8) : b2 = [] ∧ q.length = r := by
  have hl := length_bodyBits hr c b2
  rw [h] at hl
  have : b2 = [] := by
    rcases hq with hq | hq
    · exact (List.append_eq_nil_iff.1 hq).2
    · exact List.length_eq_zero_iff.1 (by omega)
  subst this
  exact ⟨rfl, by simpa using hl⟩

/-! ## A source that gives out -/

/-- A walk that runs out of bits before a leaf: the element after the bytes ends the command (43_bitpack.md R180,
20_memory.md R68). -/
theorem walkFrom_fails {n : Nat} {i : NodeId} {s : State} {body : List Byte} {rest : List SrcElem} {e : SrcElem}
    {k : ErrKind} (he : (e = .eoi ∧ k = .truncatedInput) ∨ (e = .ioerr ∧ k = .ioFailure)) (hs : s.sched = [])
    (hn : (bodyBits s.cur s.rem.toNat body).length < n) (hr : s.rem.toNat ≤ 8)
    (hp : ∀ j, j ≤ (bodyBits s.cur s.rem.toNat body).length →
      (nodeAt s (follow (nodeAt s) ((bodyBits s.cur s.rem.toNat body).take j) i)).kind = .internal)
    (hsrc : s.src = body.map .byte ++ e :: rest) :
    ∃ c r, walkFrom n i s = .raised (raise k (s.inCount + BitVec.ofNat 64 body.length) none none .src
      { s with src := rest, inCount := s.inCount + BitVec.ofNat 64 body.length, cur := c, rem := r }) := by
  generalize hb : bodyBits s.cur s.rem.toNat body = bits at hn hp
  induction bits generalizing n i s body with
  | nil =>
    obtain ⟨n, rfl⟩ : ∃ m, n = m + 1 := ⟨n - 1, by simp at hn; omega⟩
    have hl := length_bodyBits hr s.cur body
    rw [hb] at hl
    simp only [List.length_nil] at hl
    have h0 : s.rem = 0 := BitVec.eq_of_toNat_eq (by simp; omega)
    have hbody : body = [] := List.length_eq_zero_iff.1 (by omega)
    subst hbody
    have h1 := hp 0 (by simp)
    simp only [List.take_nil, follow] at h1
    refine ⟨s.cur, s.rem, ?_⟩
    rw [walkFrom, h1]
    have e0 : s.inCount + BitVec.ofNat 64 0 = s.inCount := by simp
    rw [List.map_nil, List.nil_append] at hsrc
    simp only [unpackBit, if_pos h0, withSrcByte_free hs, List.length_nil, e0]
    rcases he with ⟨rfl, rfl⟩ | ⟨rfl, rfl⟩ <;> simp only [hsrc, srcTaken, hs, afterCore]
  | cons b bits ih =>
    obtain ⟨n, rfl⟩ : ∃ m, n = m + 1 := ⟨n - 1, by simp at hn; omega⟩
    have h1 := hp 0 (by simp)
    simp only [List.take_zero, follow] at h1
    rw [walkFrom, h1]
    obtain ⟨b1, b2, r, rfl, hr1, hb1, hu⟩ := unpackBit_ok (here := [.walk i])
      (k := fun bit s' => walkFrom n (if bit then (nodeAt s i).right else (nodeAt s i).left) s') hs hr hsrc hb
    simp only at hu ⊢
    rw [hu]
    obtain ⟨c, r', key⟩ := ih (n := n)
      (s := decoded [] (b1.getLastD s.cur) r b1.length (b2.map .byte ++ e :: rest) s) (body := b2)
      (i := if b then (nodeAt s i).right else (nodeAt s i).left) hs
      (by show (BitVec.ofNat 4 r).toNat ≤ 8; rw [toNat_rem hr1]; exact hr1) rfl
      (by show bodyBits (b1.getLastD s.cur) (BitVec.ofNat 4 r).toNat b2 = _; rw [toNat_rem hr1]; exact hb1)
      (by simp at hn; omega)
      (fun j hj => by have := hp (j + 1) (by simpa using hj); simpa [follow] using this)
    refine ⟨c, r', ?_⟩
    rw [key]
    have e1 : (decoded [] (b1.getLastD s.cur) r b1.length (b2.map .byte ++ e :: rest) s).inCount
        + BitVec.ofNat 64 b2.length = s.inCount + BitVec.ofNat 64 (b1 ++ b2).length := by
      show s.inCount + BitVec.ofNat 64 b1.length + _ = _
      rw [BitVec.add_assoc, ← BitVec.ofNat_add, List.length_append]
    rw [e1]
    simp [decoded]

/-- Rounds that complete leave the rounds after them (43_bitpack.md R181). -/
theorem decodeSymbols_add {m : Nat} (n : Nat) {s u : State} (h : decodeSymbols m s = .done u) :
    decodeSymbols (m + n) s = decodeSymbols n u := by
  induction m generalizing s with
  | zero => rw [← Flow.done.inj h, Nat.zero_add]
  | succ m ih =>
    rw [decodeSymbols] at h
    rw [Nat.succ_add, decodeSymbols]
    cases hd : decodeSymbol s with
    | done v => rw [hd] at h; exact ih h
    | _ => rw [hd] at h; cases h

/-- Symbols decoded until the bits give out inside a walk (43_bitpack.md R180, R181, 20_memory.md R68). -/
theorem decodeSymbols_fails {f : Vector Word 256} {t : Vector CodeEntry 256} (ht : TableFor f t) {xs : List Sym} {n : Nat}
    {left : List Bool} {s : State} {body : List Byte} {rest : List SrcElem} {e : SrcElem} {k : ErrKind} {i : NodeId}
    (he : (e = .eoi ∧ k = .truncatedInput) ∨ (e = .ioerr ∧ k = .ioFailure)) (hs : s.sched = []) (hk : SinkOk s)
    (hr : s.rem.toNat ≤ 8) (hn : nodeAt s = (buildTree f).nodeAt s.nodeDraw) (hroot : s.root = (buildTree f).root)
    (hi : s.root = some i) (hx : ∀ x ∈ xs, present f x = true) (hl : xs.length < n)
    (hb : bodyBits s.cur s.rem.toNat body = codeBits t xs ++ left)
    (hp : ∀ j, j ≤ left.length → (nodeAt s (follow (nodeAt s) (left.take j) i)).kind = .internal)
    (hsrc : s.src = body.map .byte ++ e :: rest) :
    decodeSymbols n s = .raised (raise k (s.inCount + BitVec.ofNat 64 body.length) none none .src
      { delivered xs s with src := rest, inCount := s.inCount + BitVec.ofNat 64 body.length }) := by
  obtain ⟨b1, b2, r, rfl, hr1, hb1, hd⟩ := decodeSymbols_ok ht xs hs hk hr hn hroot hx hb hsrc
  obtain ⟨n, rfl⟩ : ∃ m, n = xs.length + (m + 1) := ⟨n - xs.length - 1, by omega⟩
  generalize hu : decoded xs (b1.getLastD s.cur) r b1.length (b2.map .byte ++ e :: rest) s = u at hd
  have hur : u.rem.toNat = r := by rw [← hu]; exact toNat_rem hr1
  have hbu : bodyBits u.cur u.rem.toNat b2 = left := by rw [hur, ← hu]; exact hb1
  have hnu : nodeAt u = nodeAt s := by rw [← hu]; rfl
  have hsu : u.src = b2.map .byte ++ e :: rest := by rw [← hu]; rfl
  obtain ⟨c, r', hw⟩ := walkFrom_fails (n := walkBound u) (i := i) he (by rw [← hu]; exact hs) (lt_walkBound (by omega) hsu)
    (by omega) (by rw [hbu, hnu]; exact hp) hsu
  have hdu : decodeSymbol u = walkFrom (walkBound u) i u := by
    rw [decodeSymbol, show u.root = some i by rw [← hu]; exact hi]; rfl
  have e1 : u.inCount + BitVec.ofNat 64 b2.length = s.inCount + BitVec.ofNat 64 (b1 ++ b2).length := by
    rw [List.length_append, BitVec.ofNat_add, ← BitVec.add_assoc, ← hu]; rfl
  rw [decodeSymbols_add _ hd, decodeSymbols, hdu, hw, Flow.andThen_raised, e1, ← hu]
  rfl

/-! ## A sink that fails -/

/-- The write of a decoded symbol, answered with IOERR (43_bitpack.md R180, 20_memory.md R69). -/
theorem walkRule_sinkFails {i : NodeId} {p q : List Bool} {x : Sym} {s : State} {body : List Byte} {rest : List SrcElem}
    {as : List SnkAns} (hs : s.sched = []) (hf : SinkFails 0 as s) (hr : s.rem.toNat ≤ 8)
    (hp : LeadsTo (nodeAt s) i p x) (hb : bodyBits s.cur s.rem.toNat body = p ++ q) (hq : body = [] ∨ q.length < 8)
    (hsrc : s.src = body.map .byte ++ rest) :
    walkRule i s = .raised (raise .ioFailure s.outCount none none .snk
      { s with src := rest, inCount := s.inCount + BitVec.ofNat 64 body.length, snkAns := as }) := by
  obtain ⟨b1, b2, r, rfl, h2, h3, h4⟩ := walkRule_leadsTo hs hr hp hb hsrc
  obtain ⟨rfl, -⟩ := body_used h2 h3 hq
  rw [h4, emitSymbol, snkWrite_fails (s := decoded [] _ r b1.length _ s) hs hf, Flow.andThen_raised]
  simp [decoded, delivered, raise, scramble]

/-- The symbol after `k` that the sink took, answered with IOERR (43_bitpack.md R181, 20_memory.md R69). -/
theorem decodeSymbols_sinkFails {f : Vector Word 256} {t : Vector CodeEntry 256} (ht : TableFor f t) {xs : List Sym}
    {k n : Nat} {q : List Bool} {s : State} {body : List Byte} {rest : List SrcElem} {as : List SnkAns}
    (hs : s.sched = []) (hf : SinkFails k as s) (hr : s.rem.toNat ≤ 8)
    (hn : nodeAt s = (buildTree f).nodeAt s.nodeDraw) (hroot : s.root = (buildTree f).root)
    (hx : ∀ x ∈ xs, present f x = true) (hlen : xs.length = k + 1) (hl : xs.length ≤ n)
    (hb : bodyBits s.cur s.rem.toNat body = codeBits t xs ++ q) (hq : body = [] ∨ q.length < 8)
    (hsrc : s.src = body.map .byte ++ rest) :
    decodeSymbols n s = .raised (raise .ioFailure (s.outCount + BitVec.ofNat 64 k) none none .snk
      { s with snk := s.snk ++ xs.take k, outCount := s.outCount + BitVec.ofNat 64 k, snkAns := as, src := rest,
               inCount := s.inCount + BitVec.ofNat 64 body.length }) := by
  induction k generalizing n s xs body with
  | zero =>
    obtain ⟨x, rfl⟩ := List.length_eq_one_iff.1 hlen
    obtain ⟨n, rfl⟩ : ∃ m, n = m + 1 := ⟨n - 1, by simp at hl; omega⟩
    obtain ⟨i, hi, hp⟩ := ht.leadsTo (hx x (by simp)) s.nodeDraw
    have hw := walkRule_sinkFails (q := q) hs hf hr (by rw [hn]; exact hp) (by rw [hb]; simp [codeBits]) hq hsrc
    have hd : decodeSymbol s = walkRule i s := by rw [decodeSymbol, hroot, hi]
    rw [decodeSymbols, hd, hw, Flow.andThen_raised]
    simp
  | succ k ih =>
    obtain ⟨x, xs, rfl⟩ : ∃ x ys, xs = x :: ys := by cases xs with
      | nil => simp at hlen
      | cons x xs => exact ⟨x, xs, rfl⟩
    obtain ⟨n, rfl⟩ : ∃ m, n = m + 1 := ⟨n - 1, by simp at hl; omega⟩
    obtain ⟨i, hi, hp⟩ := ht.leadsTo (hx x (by simp)) s.nodeDraw
    rw [codeBits_cons, List.append_assoc] at hb
    obtain ⟨b1, b2, r, rfl, hr1, hb1, he⟩ := walkRule_leadsTo hs hr (by rw [hn]; exact hp) hb hsrc
    have hd : decodeSymbol s = walkRule i s := by rw [decodeSymbol, hroot, hi]
    obtain ⟨h1, h2⟩ := snkWrite_takes (s := decoded [] (b1.getLastD s.cur) r b1.length (b2.map .byte ++ rest) s) hs hf x
    have hw : walkRule i s = .done (decoded [x] (b1.getLastD s.cur) r b1.length (b2.map .byte ++ rest) s) := by
      rw [he, emitSymbol, h1, Flow.andThen_done]
      simp [decoded, countEmit, delivered]
    have key := ih (xs := xs) (n := n)
      (s := decoded [x] (b1.getLastD s.cur) r b1.length (b2.map .byte ++ rest) s) (body := b2) hs h2
      (by show (BitVec.ofNat 4 r).toNat ≤ 8; rw [toNat_rem hr1]; exact hr1) hn hroot (fun y hy => hx y (by simp [hy]))
      (by simpa using hlen) (by simpa using hl)
      (by show bodyBits (b1.getLastD s.cur) (BitVec.ofNat 4 r).toNat b2 = _; rw [toNat_rem hr1]; exact hb1)
      (hq.imp (fun h => (List.append_eq_nil_iff.1 h).2) id) rfl
    rw [decodeSymbols, hd, hw, Flow.andThen_done, key]
    have e1 : (decoded [x] (b1.getLastD s.cur) r b1.length (b2.map .byte ++ rest) s).outCount + BitVec.ofNat 64 k
        = s.outCount + BitVec.ofNat 64 (k + 1) := by
      rw [Nat.add_comm k 1, BitVec.ofNat_add, ← BitVec.add_assoc]; rfl
    have e2 : (decoded [x] (b1.getLastD s.cur) r b1.length (b2.map .byte ++ rest) s).inCount + BitVec.ofNat 64 b2.length
        = s.inCount + BitVec.ofNat 64 (b1 ++ b2).length := by
      rw [List.length_append, BitVec.ofNat_add, ← BitVec.add_assoc]; rfl
    rw [e1, e2]
    simp [decoded, delivered, raise, scramble]

end Sys2Proof.Machine
end

