-- ==== Sys2Proof/Laws/Container.lean ====
section
/-! SUPPORT. ENCODE and DECODE, whole (44_container.md R205, R206): the stretches they run, one after another, where the
host lets them run to their end. -/

namespace Sys2Proof.Machine

/-- NODE holds at most 511 entries (41_tree.md R134). -/
theorem length_buildTree_le (f : Vector Word 256) : (buildTree f).node.length ≤ 511 := by
  rcases Nat.eq_zero_or_pos (nsymOf f) with h | h
  · rw [buildTree_empty h]; simp
  · obtain ⟨-, -, -, -, -, hl, -⟩ := buildTree_spec h
    have := nsymOf_le f
    omega

/-- TBUILD leaves the tree R31 speaks of. -/
theorem holdsTree_storeTree (s : State) : HoldsTree (storeTree (buildTree s.freq) s) :=
  ⟨rfl, by
    have := length_buildTree_le s.freq
    show (BitVec.ofNat 10 (buildTree s.freq).node.length).toNat = (buildTree s.freq).node.length
    rw [BitVec.toNat_ofNat]; omega, rfl, rfl⟩

theorem lengthCheck_ok {s : State} (h : scanLength s ≤ s.cfg.ibufSize) : lengthCheck s = .done s :=
  if_neg (Nat.not_lt.2 h)

theorem lengthCheck_fails {s : State} (hs : s.sched = []) (h : s.cfg.ibufSize < scanLength s) :
    lengthCheck s = .raised (raise .inputLength (s.lIlen.setWidth 64) none none .src s) :=
  (if_pos h).trans (raising_free hs _ _ _ _ _)

/-- FSCAN on a cleared FREQ counts the input (40_frequency.md R113, R116). -/
theorem fscanRule_cleared {s : State} (hf : s.freq = Vector.replicate 256 0) (h : scanLength s ≤ s.cfg.ibufSize) :
    fscanRule s = .done (withFreq (histogram (bytesFrom s 0 (scanLength s))) (freqChanged s)) := by
  have hlen : (bytesFrom s 0 (scanLength s)).length < 2 ^ 32 := by
    rw [← ibufBytes_eq, length_ibufBytes]; exact s.lIlen.isLt
  have hb : bytesFrom (freqChanged s) = bytesFrom s := rfl
  have hl := fscanLoop_fits (scanLength s) 0 (freqChanged s) rfl (by
    rw [freqChanged_freq, hf, hb]; exact countsFit_zero hlen)
  rw [hb, freqChanged_freq, hf] at hl
  rw [fscanRule, lengthCheck_ok h, Flow.andThen_done, hl]
  rfl

/-- The PSCAN of a whole input on an empty packer, then PFLUSH (43_bitpack.md R173 to R175). -/
theorem pscan_pflush {s : State} (hs : s.sched = []) (hk : SinkOk s) (ha : s.acc = 0) (hn : s.nbits = 0)
    (hv : s.codesValid = true) (h : scanLength s ≤ s.cfg.ibufSize)
    (hc : AllCoded s.code (bytesFrom s 0 (scanLength s))) :
    runTasks [.pscan, .pflush] s =
      .done (delivered (bitsToBytes (codeBits s.code (bytesFrom s 0 (scanLength s)))) s) := by
  have hp := packerOk_zero ha hn
  have hz := packed_of_nbits hn
  have h1 : pscanRule s = .done (afterPacking (codeBits s.code (bytesFrom s 0 (scanLength s))) s) := by
    rw [pscanRule, sequenceCheck, if_pos hv, Flow.andThen_done, lengthCheck_ok h, Flow.andThen_done, pscanRest,
      Nat.sub_zero, pscanLoop_ok _ _ hs hk hp hc, hz, List.nil_append]
  generalize codeBits s.code (bytesFrom s 0 (scanLength s)) = bits at h1
  have clear : ∀ bs, clearPacker (delivered bs (afterPacking bits s)) = delivered (wholeBytes bits ++ bs) s := by
    intro bs
    rw [← delivered_append]
    show (delivered bs { delivered (wholeBytes bits) s with acc := 0, nbits := 0 }) = _
    have : ({ delivered (wholeBytes bits) s with acc := 0, nbits := 0 } : State) = delivered (wholeBytes bits) s := by
      rw [show (delivered (wholeBytes bits) s) = { delivered (wholeBytes bits) s with acc := s.acc, nbits := s.nbits } from rfl,
        ha, hn]
    rw [this]
  have hwhole : (afterPacking bits s).nbits = 0 → afterPacking bits s = delivered (wholeBytes bits) s := by
    intro h0
    have hb : bits.length % 8 = 0 := by rw [← nbits_afterPacking bits s, h0]; rfl
    have hd : bits.drop (8 * (bits.length / 8)) = [] := List.drop_of_length_le (by omega)
    rw [afterPacking, hd]
    show (withPacker [] (delivered (wholeBytes bits) s)) = _
    rw [withPacker]
    rw [show (delivered (wholeBytes bits) s) = { delivered (wholeBytes bits) s with acc := s.acc, nbits := s.nbits } from rfl,
      ha, hn]
    simp
  simp only [runTasks_cons, runTask, h1, Flow.andThen_done, pflushRule]
  rcases flush_bytes bits s with ⟨h0, hb⟩ | ⟨h0, hb⟩
  · rw [if_pos h0, Flow.andThen_done, runTasks_nil, hb, hwhole h0]
  · rw [if_neg h0, emitByte, snkWrite_ok (s := afterPacking bits s) hs (hk.afterPacking bits), hb]
    simp only [Flow.andThen_done, runTasks_nil, clear]

/-- PSCAN of a whole input on an empty packer, then PFLUSH, with a sink that takes `k` of the body's bytes
(43_bitpack.md R173, R174, 20_memory.md R69). -/
theorem pscan_pflush_fails {s : State} (hs : s.sched = []) (ha : s.acc = 0) (hn : s.nbits = 0)
    (hv : s.codesValid = true) (h : scanLength s ≤ s.cfg.ibufSize)
    (hc : AllCoded s.code (bytesFrom s 0 (scanLength s))) {k : Nat} {as : List SnkAns} (hf : SinkFails k as s)
    (hk : k < (bitsToBytes (codeBits s.code (bytesFrom s 0 (scanLength s)))).length) :
    runTasks [.pscan, .pflush] s = .raised (raise .ioFailure (s.outCount + BitVec.ofNat 64 k) none none .snk
      { s with snk := s.snk ++ (bitsToBytes (codeBits s.code (bytesFrom s 0 (scanLength s)))).take k,
               outCount := s.outCount + BitVec.ofNat 64 k, snkAns := as }) := by
  have hp := packerOk_zero ha hn
  have hz := packed_of_nbits hn
  have hr : pscanRule s = pscanLoop (scanLength s) 0 s := by
    rw [pscanRule, sequenceCheck, if_pos hv, Flow.andThen_done, lengthCheck_ok h, Flow.andThen_done, pscanRest,
      Nat.sub_zero]
  simp only [runTasks_cons, runTask, hr]
  by_cases hw : k < (wholeBytes (codeBits s.code (bytesFrom s 0 (scanLength s)))).length
  · obtain ⟨a, m, hl⟩ := pscanLoop_fails (scanLength s) 0 hs hp hc hf (by rw [hz]; exact hw)
    rw [hl, hz, List.nil_append, Flow.andThen_raised, body_split (codeBits _ _), List.take_append_of_le_length (by omega)]
    rfl
  · rw [pscanLoop_takes (scanLength s) 0 hs hp hc hf (by rw [hz]; simpa using hw), hz, List.nil_append, Flow.andThen_done]
    generalize codeBits s.code (bytesFrom s 0 (scanLength s)) = bits at hk hw
    have hw : (wholeBytes bits).length ≤ k := Nat.not_lt.1 hw
    rcases flush_bytes bits s with ⟨-, hb⟩ | ⟨h0, hb⟩
    · rw [hb] at hk; omega
    · have he : k = (wholeBytes bits).length := by rw [hb] at hk; simp at hk hw ⊢; omega
      have hf' := hf.afterPacking (bits := bits) hw
      rw [he, Nat.sub_self] at hf'
      rw [runTasks_cons, runTask, pflushRule, if_neg h0, emitByte, snkWrite_fails (s := afterPacking bits s) hs hf',
        Flow.andThen_raised, Flow.andThen_raised, hb, he, List.take_left]
      rfl

/-- The state ENCODE's rule leaves (44_container.md R205). -/
def encoded (f : Vector Word 256) (t : Vector CodeEntry 256) (bs : List Byte) (s : State) : State :=
  { delivered bs { s with outCount := 0 } with
    freq := f, width := BitVec.ofNat 3 (minWidth (maxFreq f)), node := (buildTree f).node
    nnodes := BitVec.ofNat 10 (buildTree f).node.length, seq := (buildTree f).seq, root := (buildTree f).root
    treeValid := true, code := t, codesValid := true, acc := 0, nbits := 0 }

@[simp] theorem encoded_snk (f : Vector Word 256) (t : Vector CodeEntry 256) (bs : List Byte) (s : State) :
    (encoded f t bs s).snk = s.snk ++ bs := rfl

@[simp] theorem encoded_err (f : Vector Word 256) (t : Vector CodeEntry 256) (bs : List Byte) (s : State) :
    (encoded f t bs s).err = s.err := rfl

/-- The state in which ENCODE's header is sent, for the input's FREQ `f`. -/
def headerStart (f : Vector Word 256) (s : State) : State :=
  storeWidth (minWidth (maxFreq f)) (clearPacker (zeroOut (withFreq f (freqChanged s))))

/-- ENCODE up to the header's bytes, on an admitted length (44_container.md R205). -/
theorem runTasks_encode_header {s : State} (h : scanLength s ≤ s.cfg.ibufSize) {f : Vector Word 256}
    (hf : histogram (ibufBytes s (scanLength s)) = f) :
    runTasks encodeTasks s = (sendBytes (headerBytes f (minWidth (maxFreq f))) (headerStart f s)).andThen
      (runTasks [.tbuild, .cgen, .pscan, .pflush]) [.tbuild, .cgen, .pscan, .pflush] := by
  have h1 : fscanRule (storeFreq (Vector.replicate 256 0) s) = .done (withFreq f (freqChanged s)) := by
    rw [← hf, ibufBytes_eq]
    exact (fscanRule_cleared (s := storeFreq (Vector.replicate 256 0) s) rfl h).trans rfl
  rw [encodeTasks, runTasks_cons, runTask, lengthCheck_ok h, Flow.andThen_done, runTasks_cons, runTask, fclrRule,
    Flow.andThen_done, runTasks_cons, runTask, h1, Flow.andThen_done, runTasks_cons, runTask]
  rfl

/-- The state in which ENCODE's PSCAN starts, with the code table `t`. -/
def bodyStart (f : Vector Word 256) (t : Vector CodeEntry 256) (s : State) : State :=
  storeCodes t (storeTree (buildTree f) (delivered (headerBytes f (minWidth (maxFreq f))) (headerStart f s)))

/-- ENCODE from TBUILD up to the body (44_container.md R205). -/
theorem runTasks_encode_body (f : Vector Word 256) (s : State) :
    ∃ t, TableFor f t ∧ runTasks [.tbuild, .cgen, .pscan, .pflush]
      (delivered (headerBytes f (minWidth (maxFreq f))) (headerStart f s)) = runTasks [.pscan, .pflush] (bodyStart f t s) := by
  unfold bodyStart
  generalize hu : delivered (headerBytes f (minWidth (maxFreq f))) (headerStart f s) = u
  have huf : u.freq = f := by rw [← hu]; rfl
  obtain ⟨t, ht, hcodes⟩ := (holdsTree_storeTree u).codesOf
  have hc : cgenRule (storeTree (buildTree u.freq) u) = .done (storeCodes t (storeTree (buildTree u.freq) u)) := by
    rw [cgenRule, sequenceCheck, if_pos (by rfl), Flow.andThen_done, hcodes]
  change TableFor u.freq t at ht
  rw [huf] at ht
  refine ⟨t, ht, ?_⟩
  rw [runTasks_cons, runTask, tbuildRule, Flow.andThen_done, runTasks_cons, runTask, hc, Flow.andThen_done, huf]

/-- What ENCODE's PSCAN finds there. -/
theorem bodyStart_reads {s : State} {f : Vector Word 256} {t : Vector CodeEntry 256} {input : List Byte}
    (hi : ibufBytes s (scanLength s) = input) (hf : histogram input = f) (ht : TableFor f t) :
    bytesFrom (bodyStart f t s) 0 (scanLength (bodyStart f t s)) = input ∧ AllCoded t input := by
  have hlen : input.length < 2 ^ 32 := by rw [← hi, length_ibufBytes]; exact s.lIlen.isLt
  refine ⟨by rw [← hi, ibufBytes_eq]; rfl, fun b hb => ?_⟩
  rw [ht.assigned, ← hf, present_histogram hlen]; exact hb

/-- ENCODE's rule on an admitted length (44_container.md R205). -/
theorem runTasks_encode {s : State} (hs : s.sched = []) (hk : SinkOk s) (h : scanLength s ≤ s.cfg.ibufSize)
    {input : List Byte} (hi : ibufBytes s (scanLength s) = input) :
    ∃ t, TableFor (histogram input) t ∧
      runTasks encodeTasks s =
        .done (encoded (histogram input) t (containerBytes (histogram input) t input) s) := by
  generalize hf : histogram input = f
  obtain ⟨t, ht, hb⟩ := runTasks_encode_body f s
  obtain ⟨hr, hc⟩ := bodyStart_reads hi hf ht
  have hp := pscan_pflush (s := bodyStart f t s) hs ⟨fun a ha => hk.queued a (List.mem_of_mem_drop ha), hk.standing⟩
    rfl rfl rfl h (by rw [hr]; exact hc)
  rw [hr] at hp
  refine ⟨t, ht, ?_⟩
  rw [runTasks_encode_header h (by rw [hi, hf]), sendBytes_ok (s := headerStart f s) hs ⟨hk.queued, hk.standing⟩,
    Flow.andThen_done, hb, hp]
  simp [encoded, bodyStart, headerStart, containerBytes, delivered, storeCodes, storeTree, storeWidth, clearPacker,
    zeroOut, withFreq, freqChanged, BitVec.ofNat_add]

/-- ENCODE with a sink that takes `k` of the container's bytes (44_container.md R205, 20_memory.md R69). -/
theorem runTasks_encode_fails {s : State} (hs : s.sched = []) (h : scanLength s ≤ s.cfg.ibufSize)
    {input : List Byte} (hi : ibufBytes s (scanLength s) = input) {f : Vector Word 256} (hf : histogram input = f)
    {t : Vector CodeEntry 256} (ht : TableFor f t) {k : Nat} {as : List SnkAns} (ha : SinkFails k as s)
    (hk : k < (containerBytes f t input).length) :
    runTasks encodeTasks s = .raised (raise .ioFailure (BitVec.ofNat 64 k) none none .snk
      { s with snk := s.snk ++ (containerBytes f t input).take k, outCount := BitVec.ofNat 64 k, snkAns := as }) := by
  rw [runTasks_encode_header h (by rw [hi, hf])]
  have ha' : SinkFails k as (headerStart f s) := ha
  by_cases hh : k < (headerBytes f (minWidth (maxFreq f))).length
  · have e : (headerStart f s).outCount + BitVec.ofNat 64 k = BitVec.ofNat 64 k := BitVec.zero_add _
    rw [sendBytes_fails (s := headerStart f s) hs ha' hh, Flow.andThen_raised, e, containerBytes,
      List.take_append_of_le_length (by omega)]
    rfl
  · have hh := Nat.not_lt.1 hh
    obtain ⟨t', ht', hb⟩ := runTasks_encode_body f s
    obtain rfl := ht.unique ht'
    obtain ⟨hr, hc⟩ := bodyStart_reads hi hf ht
    rw [containerBytes, List.length_append] at hk
    have hp := pscan_pflush_fails (s := bodyStart f t s) hs rfl rfl rfl h (by rw [hr]; exact hc) (ha'.delivered hh)
      (by rw [hr]; exact Nat.sub_lt_left_of_lt_add hh hk)
    have e : (bodyStart f t s).outCount + BitVec.ofNat 64 (k - (headerBytes f (minWidth (maxFreq f))).length)
        = BitVec.ofNat 64 k := by
      refine (congrArg (· + _) (BitVec.zero_add _)).trans ?_
      rw [← BitVec.ofNat_add, Nat.add_sub_cancel' hh]
    rw [hr, e] at hp
    rw [sendBytes_takes (s := headerStart f s) hs ha' hh, Flow.andThen_done, hb, hp, containerBytes, List.take_append,
      List.take_of_length_le hh, ← List.append_assoc]
    rfl

/-- The state DECODE's rule leaves (44_container.md R206). -/
def decodedAll (f : Vector Word 256) (w : Nat) (xs : List Sym) (body : List Byte) (rem : Nat) (rest : List SrcElem)
    (s : State) : State :=
  { delivered xs { s with outCount := 0 } with
    freq := f, width := BitVec.ofNat 3 w, node := (buildTree f).node
    nnodes := BitVec.ofNat 10 (buildTree f).node.length, seq := (buildTree f).seq, root := (buildTree f).root
    treeValid := true, codesValid := false, cur := body.getLastD 0, rem := BitVec.ofNat 4 rem
    emit := BitVec.ofNat 40 (totalOf f), inCount := BitVec.ofNat 64 (37 + w * nsymOf f + body.length), src := rest }

@[simp] theorem decodedAll_snk (f : Vector Word 256) (w : Nat) (xs : List Sym) (body : List Byte) (rem : Nat)
    (rest : List SrcElem) (s : State) : (decodedAll f w xs body rem rest s).snk = s.snk ++ xs := rfl

@[simp] theorem decodedAll_src (f : Vector Word 256) (w : Nat) (xs : List Sym) (body : List Byte) (rem : Nat)
    (rest : List SrcElem) (s : State) : (decodedAll f w xs body rem rest s).src = rest := rfl

@[simp] theorem decodedAll_err (f : Vector Word 256) (w : Nat) (xs : List Sym) (body : List Byte) (rem : Nat)
    (rest : List SrcElem) (s : State) : (decodedAll f w xs body rem rest s).err = s.err := rfl

/-- The state in which DECODE's UDECALL starts, after a header of FREQ `f` and width `w`. -/
def decodeStart (f : Vector Word 256) (w : Nat) (rest : List SrcElem) (s : State) : State :=
  storeTree (buildTree f)
    (storeWidth w (taken (37 + w * nsymOf f) rest (withFreq f (hreadClear (zeroOut s)))))

theorem holdsTree_decodeStart (f : Vector Word 256) (w : Nat) (rest : List SrcElem) (s : State) :
    HoldsTree (decodeStart f w rest s) :=
  holdsTree_storeTree (storeWidth w (taken (37 + w * nsymOf f) rest (withFreq f (hreadClear (zeroOut s)))))

/-- DECODE up to the body (44_container.md R206). -/
theorem runTasks_decode_header {s : State} {f : Vector Word 256} {w : Nat} {rest : List SrcElem} (hs : s.sched = [])
    (hf : FitsWidth f w) (hsrc : s.src = (headerBytes f w).map .byte ++ rest) :
    runTasks decodeTasks s = decodeSymbols (totalOf f) (decodeStart f w rest s) := by
  rw [decodeTasks, runTasks_cons, runTask, Flow.andThen_done, runTasks_cons, runTask,
    hreadRule_ok hf (s := zeroOut s) hs hsrc, Flow.andThen_done, runTasks_cons, runTask, tbuildRule, Flow.andThen_done,
    runTasks_cons, runTask, udecallRule, sequenceCheck, if_pos (by rfl), Flow.andThen_done]
  exact Flow.andThen_id _

/-- DECODE on a header that is refused (44_container.md R206, 60_exceptions.md R248). -/
theorem runTasks_decode_raised {s u : State} (h : hreadRule (zeroOut s) = .raised u) :
    runTasks decodeTasks s = .raised u := by
  rw [decodeTasks, runTasks_cons, runTask, Flow.andThen_done, runTasks_cons, runTask, h, Flow.andThen_raised]

theorem bodyBits_decodeStart (f : Vector Word 256) (w : Nat) (rest : List SrcElem) (s : State) (body : List Byte) :
    bodyBits (decodeStart f w rest s).cur (decodeStart f w rest s).rem.toNat body = body.flatMap byteBits := by
  show (byteBits 0).drop 8 ++ _ = _
  rw [List.drop_of_length_le (by simp), List.nil_append]

/-- DECODE's rule on a whole container (44_container.md R206). -/
theorem runTasks_decode {s : State} {f : Vector Word 256} {w : Nat} {t : Vector CodeEntry 256} {xs : List Sym}
    {pad : List Bool} {body : List Byte} {rest : List SrcElem} (hs : s.sched = []) (hk : SinkOk s) (hf : FitsWidth f w)
    (ht : TableFor f t) (hx : ∀ x ∈ xs, present f x = true) (he : xs.length = totalOf f)
    (hb : body.flatMap byteBits = codeBits t xs ++ pad) (hl : pad.length < 8)
    (hsrc : s.src = (headerBytes f w ++ body).map .byte ++ rest) :
    runTasks decodeTasks s = .done (decodedAll f w xs body pad.length rest s) := by
  obtain ⟨b1, b2, r, rfl, hr, hq, hd⟩ := decodeSymbols_ok ht xs (s := decodeStart f w (body.map .byte ++ rest) s)
    (rest := rest) hs ⟨hk.queued, hk.standing⟩ (Nat.zero_le 8) (holdsTree_decodeStart ..).nodeAt_eq rfl hx
    (by rw [bodyBits_decodeStart]; exact hb) rfl
  obtain ⟨rfl, hr'⟩ := body_used (b1 := b1) hr hq (.inr hl)
  rw [runTasks_decode_header (rest := (b1 ++ []).map .byte ++ rest) hs hf (by simpa using hsrc), ← he, hd, decodedAll, ← he]
  simp [hr', decoded, decodeStart, delivered, storeTree, storeWidth, taken, withFreq, hreadClear, storeFreq, freqChanged,
    clearCursor, zeroOut, BitVec.ofNat_add]

/-- DECODE on a container whose body gives out inside a walk (44_container.md R206, 20_memory.md R68). -/
theorem runTasks_decode_fails {s : State} {f : Vector Word 256} {w : Nat} {t : Vector CodeEntry 256} {xs : List Sym}
    {left : List Bool} {body : List Byte} {rest : List SrcElem} {e : SrcElem} {k : ErrKind} {i : NodeId}
    (hs : s.sched = []) (hk : SinkOk s) (he : (e = .eoi ∧ k = .truncatedInput) ∨ (e = .ioerr ∧ k = .ioFailure))
    (hf : FitsWidth f w) (ht : TableFor f t) (hi : (buildTree f).root = some i) (hx : ∀ x ∈ xs, present f x = true)
    (hl : xs.length < totalOf f) (hb : body.flatMap byteBits = codeBits t xs ++ left)
    (hp : ∀ j, j ≤ left.length → ((buildTree f).nodeAt s.nodeDraw
      (follow ((buildTree f).nodeAt s.nodeDraw) (left.take j) i)).kind = .internal)
    (hsrc : s.src = (headerBytes f w ++ body).map .byte ++ e :: rest) :
    runTasks decodeTasks s = .raised (raise k (BitVec.ofNat 64 (37 + w * nsymOf f + body.length)) none none .src
      (delivered xs { s with
        src := rest, inCount := BitVec.ofNat 64 (37 + w * nsymOf f + body.length), outCount := 0 })) := by
  rw [runTasks_decode_header hs hf (by simpa using hsrc)]
  have hn := (holdsTree_decodeStart f w (body.map .byte ++ e :: rest) s).nodeAt_eq
  have hbits := bodyBits_decodeStart f w (body.map .byte ++ e :: rest) s body
  rw [hb] at hbits
  have hc : (decodeStart f w (body.map .byte ++ e :: rest) s).inCount + BitVec.ofNat 64 body.length
      = BitVec.ofNat 64 (37 + w * nsymOf f + body.length) := by
    refine (congrArg (· + _) (BitVec.zero_add _)).trans ?_
    rw [← BitVec.ofNat_add]
  have hf : (decodeStart f w (body.map .byte ++ e :: rest) s).freq = f := rfl
  have hd : (decodeStart f w (body.map .byte ++ e :: rest) s).nodeDraw = s.nodeDraw := rfl
  have hroot : (decodeStart f w (body.map .byte ++ e :: rest) s).root = (buildTree f).root := rfl
  have hrem : (decodeStart f w (body.map .byte ++ e :: rest) s).rem.toNat ≤ 8 := Nat.zero_le 8
  have hsched : (decodeStart f w (body.map .byte ++ e :: rest) s).sched = [] := hs
  have hsink : SinkOk (decodeStart f w (body.map .byte ++ e :: rest) s) := ⟨hk.queued, hk.standing⟩
  have hsrc' : (decodeStart f w (body.map .byte ++ e :: rest) s).src = body.map .byte ++ e :: rest := rfl
  have hraise : ∀ o, raise k o none none .src (delivered xs { decodeStart f w (body.map .byte ++ e :: rest) s with
      src := rest, inCount := o }) = raise k o none none .src (delivered xs { s with
      src := rest, inCount := o, outCount := 0 }) := fun _ => by
    simp [raise, scramble, delivered, decodeStart, storeTree, storeWidth, taken, withFreq, hreadClear, storeFreq,
      freqChanged, clearCursor, zeroOut]
  generalize decodeStart f w (body.map .byte ++ e :: rest) s = u at *
  rw [hf] at hn
  rw [decodeSymbols_fails ht he hsched hsink hrem hn hroot (hroot.trans hi) hx hl hbits (by rw [hn, hd]; exact hp) hsrc', hc]
  exact congrArg Flow.raised (hraise _)

/-- DECODE with a sink that takes `k` symbols (44_container.md R206, 20_memory.md R69). -/
theorem runTasks_decode_sinkFails {s : State} {f : Vector Word 256} {w : Nat} {t : Vector CodeEntry 256} {xs : List Sym}
    {left : List Bool} {body : List Byte} {rest : List SrcElem} {k : Nat} {as : List SnkAns} (hs : s.sched = [])
    (hk : SinkFails k as s) (hf : FitsWidth f w) (ht : TableFor f t) (hx : ∀ x ∈ xs, present f x = true)
    (hlen : xs.length = k + 1) (hl : xs.length ≤ totalOf f) (hb : body.flatMap byteBits = codeBits t xs ++ left)
    (hq : left.length < 8) (hsrc : s.src = (headerBytes f w ++ body).map .byte ++ rest) :
    runTasks decodeTasks s = .raised (raise .ioFailure (BitVec.ofNat 64 k) none none .snk
      { s with snk := s.snk ++ xs.take k, outCount := BitVec.ofNat 64 k, snkAns := as, src := rest,
               inCount := BitVec.ofNat 64 (37 + w * nsymOf f + body.length) }) := by
  have key := decodeSymbols_sinkFails ht (s := decodeStart f w (body.map .byte ++ rest) s) hs hk (Nat.zero_le 8)
    (holdsTree_decodeStart ..).nodeAt_eq rfl hx hlen hl (by rw [bodyBits_decodeStart]; exact hb) (.inr hq) rfl
  have hc : (decodeStart f w (body.map .byte ++ rest) s).inCount + BitVec.ofNat 64 body.length
      = BitVec.ofNat 64 (37 + w * nsymOf f + body.length) := by
    refine (congrArg (· + _) (BitVec.zero_add _)).trans ?_
    rw [← BitVec.ofNat_add]
  have ho : (decodeStart f w (body.map .byte ++ rest) s).outCount + BitVec.ofNat 64 k = BitVec.ofNat 64 k := BitVec.zero_add _
  rw [hc, ho] at key
  rw [runTasks_decode_header hs hf (by simpa using hsrc), key]
  rfl

end Sys2Proof.Machine
end

