-- ==== Sys2Proof/Laws/Csr.lean ====
section
/-! SUPPORT. Packed register words: two fields side by side, and fields that read 0 (10_state.md R43 to R54). -/

namespace Sys2Proof.Machine

/-- Two fields of a word, the second at bit `k`. -/
theorem packedFields {a b : Nat} (x : BitVec a) (y : BitVec b) (k : Nat) (ha : a ≤ k) (hb : k + b ≤ 32) :
    ((x.setWidth 32 ||| y.setWidth 32 <<< k : Word).extractLsb' 0 a = x) ∧
    ((x.setWidth 32 ||| y.setWidth 32 <<< k : Word).extractLsb' k b = y) ∧
    (∀ i, k + b ≤ i → (x.setWidth 32 ||| y.setWidth 32 <<< k : Word).getLsbD i = false) ∧
    (∀ i, a ≤ i → i < k → (x.setWidth 32 ||| y.setWidth 32 <<< k : Word).getLsbD i = false) := by
  refine ⟨BitVec.eq_of_getLsbD_eq fun i hi => ?_, BitVec.eq_of_getLsbD_eq fun i hi => ?_, fun i hi => ?_, fun i hi hi2 => ?_⟩
  · simp only [BitVec.getLsbD_extractLsb', BitVec.getLsbD_or, BitVec.getLsbD_setWidth, BitVec.getLsbD_shiftLeft]
    simp [hi, show i < 32 by omega, show i < k by omega]
  · simp only [BitVec.getLsbD_extractLsb', BitVec.getLsbD_or, BitVec.getLsbD_setWidth, BitVec.getLsbD_shiftLeft]
    simp [hi, show k + i < 32 by omega, show i < 32 by omega, BitVec.getLsbD_of_ge x (k + i) (by omega)]
  · simp only [BitVec.getLsbD_extractLsb', BitVec.getLsbD_or, BitVec.getLsbD_setWidth, BitVec.getLsbD_shiftLeft]
    simp [BitVec.getLsbD_of_ge x i (by omega), BitVec.getLsbD_of_ge y (i - k) (by omega)]
  · simp only [BitVec.getLsbD_extractLsb', BitVec.getLsbD_or, BitVec.getLsbD_setWidth, BitVec.getLsbD_shiftLeft]
    simp [BitVec.getLsbD_of_ge x i (by omega), hi2]

/-- A field whose bits are 0 reads 0. -/
theorem zeroField {w : Nat} {v : Word} {a : Nat} (h : ∀ i, a ≤ i → i < a + w → v.getLsbD i = false) :
    v.extractLsb' a w = 0 :=
  BitVec.eq_of_getLsbD_eq fun i hi => by
    rw [BitVec.getLsbD_extractLsb', h _ (by omega) (by omega)]; simp

/-- The two halves of a wide counter. -/
theorem lo_hi {w : Nat} (hw2 : w ≤ 64) (x : BitVec w) :
    (x.extractLsb' 0 32).toNat + 2 ^ 32 * (x.extractLsb' 32 32).toNat = x.toNat := by
  have := x.isLt
  have h2 : (2:Nat) ^ w ≤ 2 ^ 64 := Nat.pow_le_pow_right (by omega) hw2
  simp only [BitVec.extractLsb'_toNat, Nat.shiftRight_eq_div_pow]
  omega

end Sys2Proof.Machine
end

