-- ==== Sys2Proof/Laws/Encoding.lean ====
section
/-! SUPPORT. A word and its fields (30_encoding.md R90), and that the decoder accepts just the encoder's words. -/

namespace Sys2Proof.Machine

theorem getLsbD_wordOf (f : Fields) (k : Nat) : (wordOf f).getLsbD k =
    if k < 8 then f.op.getLsbD k else if k < 16 then f.sym.getLsbD (k - 8) else f.rsv.getLsbD (k - 16) := by
  simp only [wordOf, BitVec.getLsbD_or, BitVec.getLsbD_shiftLeft, BitVec.getLsbD_setWidth]
  have ha : 8 ≤ k → f.op.getLsbD k = false := fun hj => BitVec.getLsbD_of_ge _ _ hj
  have hb : 16 ≤ k → f.sym.getLsbD (k - 8) = false := fun hj => BitVec.getLsbD_of_ge _ _ (by omega)
  have hc : 32 ≤ k → f.rsv.getLsbD (k - 16) = false := fun hj => BitVec.getLsbD_of_ge _ _ (by omega)
  by_cases h1 : k < 8
  · simp [h1, show k < 16 by omega, show k < 32 by omega]
  · by_cases h2 : k < 16
    · simp [h1, h2, ha (by omega), show k < 32 by omega, show k - 8 < 32 by omega]
    · by_cases h3 : k < 32
      · simp [h1, h2, h3, ha (by omega), hb (by omega), show k - 16 < 32 by omega]
      · simp [h1, h2, h3, hc (by omega)]

/-- The fields of a word are those it was put together from (30_encoding.md R90). -/
theorem fieldsOf_wordOf (f : Fields) : fieldsOf (wordOf f) = f := by
  obtain ⟨a, b, c⟩ := f
  simp only [fieldsOf, opField, symField, rsvField, Fields.mk.injEq]
  refine ⟨?_, ?_, ?_⟩ <;> apply BitVec.eq_of_getLsbD_eq <;> intro k hk <;>
    rw [BitVec.getLsbD_extractLsb', getLsbD_wordOf]
  · simp [hk]
  · simp [hk, show 8 + k < 16 by omega]
  · simp [hk, show ¬ 16 + k < 8 by omega]

/-- A word is put together from its fields (30_encoding.md R90). -/
theorem wordOf_fieldsOf (v : Word) : wordOf (fieldsOf v) = v := by
  apply BitVec.eq_of_getLsbD_eq
  intro k hk
  rw [getLsbD_wordOf]
  simp only [fieldsOf, opField, symField, rsvField, BitVec.getLsbD_extractLsb']
  split
  · rename_i h; simp [h]
  · split
    · simp [show k - 8 < 8 by omega, show 8 + (k - 8) = k by omega]
    · simp [show k - 16 < 16 by omega, show 16 + (k - 16) = k by omega]

theorem decodeFields_fields (i : Instr) : decodeFields i.fields = .ok i := by
  cases i <;> simp [decodeFields, Instr.fields, Instr.op, Instr.sym, formN]

/-- What the decoder accepts has the fields of the command it gives. -/
theorem fields_of_decodeFields {f : Fields} {i : Instr} (h : decodeFields f = .ok i) : f = i.fields := by
  obtain ⟨a, b, c⟩ := f
  simp only [decodeFields] at h
  split at h
  · cases h
  · rename_i hr
    have hr : c = 0 := by simpa using hr
    subst hr
    have op : ∀ {a : BitVec 8} {n : Nat}, a.toNat = n → a = BitVec.ofNat 8 n := fun h => by
      rw [← h]; simp
    split at h <;> rename_i ho <;>
      first
      | (simp only [formN] at h; split at h <;> cases h; rename_i hs; subst hs; rw [op ho]; rfl)
      | (cases h; rw [op ho]; rfl)
      | cases h

/-- Decoding undoes encoding (30_encoding.md R93). -/
theorem decode_encode (i : Instr) : decode (encode i) = .ok i := by
  rw [decode, encode, fieldsOf_wordOf, decodeFields_fields]

/-- A word the decoder accepts is the word of the command it gives. -/
theorem encode_of_decode {v : Word} {i : Instr} (h : decode v = .ok i) : encode i = v := by
  rw [encode, ← fields_of_decodeFields h, wordOf_fieldsOf]

theorem decode_eq_ok {v : Word} {i : Instr} : decode v = .ok i ↔ v = encode i :=
  ⟨fun h => (encode_of_decode h).symm, fun h => h ▸ decode_encode i⟩

end Sys2Proof.Machine
end

