-- ==== Sys2Proof/Laws/Frame.lean ====
section
/-! SUPPORT. The frame of every command: what no stretch of pseudocode changes, whatever it does (10_state.md R22,
20_memory.md R62, R64, R65), and that every raise is error entry (60_exceptions.md R243). -/

namespace Sys2Proof.Machine

/-- `s` with what a command may change blanked: what is left is the parameters, IBUF, the host's side, the operand
registers and latches, the error registers, BUSY and the position. -/
def State.rest (s : State) : State :=
  { s with
    freq := Vector.replicate 256 0, width := 0, node := [], nnodes := 0, root := none, seq := [], treeValid := false
    code := emptyCodes, codesValid := false, acc := 0, nbits := 0, cur := 0, rem := 0, emit := 0, inCount := 0
    outCount := 0, src := [], snk := [], snkAns := [], sched := [] }

/-- From `s` to `t` only elements of SRC were taken, bytes delivered, and Core state other than the latches changed. -/
structure Frame (s t : State) : Prop where
  rest : t.rest = s.rest
  src : t.src <:+ s.src
  snk : s.snk <+: t.snk
  sched : t.sched <:+ s.sched

theorem Frame.refl (s : State) : Frame s s := ⟨rfl, List.suffix_refl _, List.prefix_refl _, List.suffix_refl _⟩

/-- A change of Core state alone. -/
theorem Frame.core {s t u : State} (h : Frame s t) (hr : u.rest = t.rest) (h1 : u.src = t.src) (h2 : u.snk = t.snk)
    (h3 : u.sched = t.sched) : Frame s u := ⟨hr.trans h.rest, h1 ▸ h.src, h2 ▸ h.snk, h3 ▸ h.sched⟩

/-- Where no turn is scheduled, none is after it. -/
theorem Frame.sched_nil {s t : State} (h : Frame s t) (hs : s.sched = []) : t.sched = [] :=
  List.suffix_nil.1 (hs ▸ h.sched)

theorem afterCore_suffix (l : List Agent) : afterCore l <:+ l := by
  unfold afterCore
  split
  · exact List.suffix_cons _ _
  · exact List.suffix_refl _

/-- Passing a point where the host could have moved. -/
theorem Frame.turn {s t : State} (h : Frame s t) : Frame s (coreTurn t) :=
  ⟨h.rest, h.src, h.snk, (afterCore_suffix _).trans h.sched⟩

theorem Frame.cfg {s t : State} (h : Frame s t) : t.cfg = s.cfg :=
  show t.rest.cfg = s.rest.cfg by rw [h.rest]

theorem Frame.nodeDraw {s t : State} (h : Frame s t) : t.nodeDraw = s.nodeDraw :=
  show t.rest.nodeDraw = s.rest.nodeDraw by rw [h.rest]

theorem Frame.lArg {s t : State} (h : Frame s t) : t.lArg = s.lArg :=
  show t.rest.lArg = s.rest.lArg by rw [h.rest]

theorem Frame.lIlen {s t : State} (h : Frame s t) : t.lIlen = s.lIlen :=
  show t.rest.lIlen = s.rest.lIlen by rw [h.rest]

theorem Frame.lSym {s t : State} (h : Frame s t) : t.lSym = s.lSym :=
  show t.rest.lSym = s.rest.lSym by rw [h.rest]

theorem Frame.errcode {s t : State} (h : Frame s t) : t.errcode = s.errcode :=
  show t.rest.errcode = s.rest.errcode by rw [h.rest]

theorem Frame.errOffset {s t : State} (h : Frame s t) : t.errOffset = s.errOffset :=
  show t.rest.errOffset = s.rest.errOffset by rw [h.rest]

theorem Frame.errExpected {s t : State} (h : Frame s t) : t.errExpected = s.errExpected :=
  show t.rest.errExpected = s.rest.errExpected by rw [h.rest]

theorem Frame.errActual {s t : State} (h : Frame s t) : t.errActual = s.errActual :=
  show t.rest.errActual = s.rest.errActual by rw [h.rest]

theorem Frame.errValid {s t : State} (h : Frame s t) : t.errValid = s.errValid :=
  show t.rest.errValid = s.rest.errValid by rw [h.rest]

theorem Frame.errPort {s t : State} (h : Frame s t) : t.errPort = s.errPort :=
  show t.rest.errPort = s.rest.errPort by rw [h.rest]

theorem Frame.err {s t : State} (h : Frame s t) : t.err = s.err :=
  show t.rest.err = s.rest.err by rw [h.rest]

theorem Frame.cmdOvr {s t : State} (h : Frame s t) : t.cmdOvr = s.cmdOvr :=
  show t.rest.cmdOvr = s.rest.cmdOvr by rw [h.rest]

theorem Frame.busy {s t : State} (h : Frame s t) : t.busy = s.busy :=
  show t.rest.busy = s.rest.busy by rw [h.rest]

theorem Frame.curCmd {s t : State} (h : Frame s t) : t.curCmd = s.curCmd :=
  show t.rest.curCmd = s.rest.curCmd by rw [h.rest]

theorem Frame.arg {s t : State} (h : Frame s t) : t.arg = s.arg :=
  show t.rest.arg = s.rest.arg by rw [h.rest]

theorem Frame.ilen {s t : State} (h : Frame s t) : t.ilen = s.ilen :=
  show t.rest.ilen = s.rest.ilen by rw [h.rest]

theorem Frame.freqSel {s t : State} (h : Frame s t) : t.freqSel = s.freqSel :=
  show t.rest.freqSel = s.rest.freqSel by rw [h.rest]

theorem Frame.codeSel {s t : State} (h : Frame s t) : t.codeSel = s.codeSel :=
  show t.rest.codeSel = s.rest.codeSel by rw [h.rest]

theorem Frame.ibuf {s t : State} (h : Frame s t) : t.ibuf = s.ibuf :=
  show t.rest.ibuf = s.rest.ibuf by rw [h.rest]

theorem Frame.ibufDraw {s t : State} (h : Frame s t) : t.ibufDraw = s.ibufDraw :=
  show t.rest.ibufDraw = s.rest.ibufDraw by rw [h.rest]

theorem Frame.cont {s t : State} (h : Frame s t) : t.cont = s.cont :=
  show t.rest.cont = s.rest.cont by rw [h.rest]

theorem Frame.waitOn {s t : State} (h : Frame s t) : t.waitOn = s.waitOn :=
  show t.rest.waitOn = s.rest.waitOn by rw [h.rest]

theorem Frame.snkStanding {s t : State} (h : Frame s t) : t.snkStanding = s.snkStanding :=
  show t.rest.snkStanding = s.rest.snkStanding by rw [h.rest]

theorem Frame.hostOps {s t : State} (h : Frame s t) : t.hostOps = s.hostOps :=
  show t.rest.hostOps = s.rest.hostOps by rw [h.rest]

theorem Frame.notes {s t : State} (h : Frame s t) : t.notes = s.notes :=
  show t.rest.notes = s.rest.notes by rw [h.rest]

theorem Frame.draws {s t : State} (h : Frame s t) : t.draws = s.draws :=
  show t.rest.draws = s.rest.draws by rw [h.rest]

theorem Frame.memRead {s t : State} (h : Frame s t) : Machine.memRead t = Machine.memRead s := by
  funext i
  rw [Machine.memRead, Machine.memRead, h.ibuf, h.ibufDraw]

/-- How a stretch that keeps the frame of `s` ends. -/
def Framed (s : State) : Flow → Prop
  | .done u => Frame s u
  | .raised u => ∃ e o x a p v, Frame s v ∧ v.paused = false ∧ u = raise e o x a p (coreTurn v)
  | .wait _ _ u => Frame s u
  | .halt _ => True

theorem Framed.andThen {s : State} {f : Flow} {g : State → Flow} {l : List Task} (h : Framed s f)
    (hg : ∀ u, Frame s u → Framed s (g u)) : Framed s (f.andThen g l) := by
  cases f <;> first | exact hg _ h | exact h

theorem Framed.raise {s u : State} (h : Frame s u) (e : ErrKind) (o : BitVec 64) (x a : Option Byte) (p : Port) :
    Framed s (raising e o x a p u) := by
  rcases raising_cases e o x a p u with ⟨-, hr⟩ | ⟨hp, hr⟩ <;> rw [hr]
  · exact h
  · exact ⟨e, o, x, a, p, u, h, hp, rfl⟩

theorem framed_withSrcByte {s u : State} (h : Frame s u) {here : List Task} {k : Byte → State → Flow}
    (hk : ∀ b v, Frame s v → Framed s (k b v)) : Framed s (withSrcByte here u k) := by
  have ht : ∀ e es, u.src = e :: es → Frame s (srcTaken es u) := fun e es hu =>
    ⟨h.rest, (hu ▸ List.suffix_cons e es : es <:+ u.src).trans h.src, h.snk, (afterCore_suffix _).trans h.sched⟩
  rcases withSrcByte_cases here u k with ⟨w, hw⟩ | ⟨b, es, h1, h2⟩ | ⟨es, h1, h2⟩ | ⟨es, h1, h2⟩
  · rw [hw]; exact h
  · rw [h2]; exact hk b _ ((ht _ es h1).core rfl rfl rfl rfl)
  · rw [h2]; exact .raise (ht _ es h1) _ _ _ _ _
  · rw [h2]; exact .raise (ht _ es h1) _ _ _ _ _

theorem framed_snkWrite {s u : State} (h : Frame s u) (b : Byte) : Framed s (snkWrite b u) := by
  rcases snkWrite_cases b u with ⟨w, hw⟩ | ⟨as, hw⟩ | ⟨as, hw⟩ <;> rw [hw]
  · exact h
  · exact ⟨h.rest, h.src, h.snk.trans (List.prefix_append _ _), (afterCore_suffix _).trans h.sched⟩
  · exact .raise (u := answerTaken as u) ⟨h.rest, h.src, h.snk, (afterCore_suffix _).trans h.sched⟩ _ _ _ _ _

theorem framed_sendBytes {s : State} (bs : List Byte) : ∀ {u}, Frame s u → Framed s (sendBytes bs u) := by
  induction bs with
  | nil => exact fun h => h
  | cons b bs ih => exact fun h => (framed_snkWrite h b).andThen fun _ => ih

theorem framed_lengthCheck {s u : State} (h : Frame s u) : Framed s (lengthCheck u) := by
  unfold lengthCheck
  split
  · exact .raise h _ _ _ _ _
  · exact h

theorem framed_sequenceCheck {s u : State} (h : Frame s u) (flag : State → Bool) (op : Byte) :
    Framed s (sequenceCheck flag op u) := by
  unfold sequenceCheck
  split
  · exact h
  · exact .raise h _ _ _ _ _

theorem framed_countSym {s u : State} (h : Frame s u) (x : Sym) (o : BitVec 64) : Framed s (countSym x o u) := by
  unfold countSym
  split
  · exact .raise h _ _ _ _ _
  · exact h.core rfl rfl rfl rfl

theorem framed_fscanLoop {s : State} (n : Nat) : ∀ (i : Nat) {u : State}, Frame s u → Framed s (fscanLoop n i u) := by
  induction n with
  | zero => exact fun _ _ h => h
  | succ n ih => exact fun i u h => (framed_countSym h _ _).andThen fun _ => ih (i + 1)

theorem framed_emitByte {s u : State} (h : Frame s u) (b : Byte) : Framed s (emitByte b u) :=
  (framed_snkWrite h b).andThen fun _ h => h.core rfl rfl rfl rfl

theorem framed_packBit {s u : State} (h : Frame s u) (b : Bool) : Framed s (packBit b u) := by
  have h' : Frame s (pushBit b u) := h.core rfl rfl rfl rfl
  unfold packBit
  dsimp only
  split
  · exact framed_emitByte h' _
  · exact h'

theorem framed_packBits {s : State} (bits : List Bool) : ∀ {u}, Frame s u → Framed s (packBits bits u) := by
  induction bits with
  | nil => exact fun h => h
  | cons b bits ih => exact fun h => (framed_packBit h b).andThen fun _ => ih

theorem framed_packSym {s u : State} (h : Frame s u) (x : Sym) (o : BitVec 64) : Framed s (packSym x o u) := by
  unfold packSym
  split
  · exact framed_packBits _ h
  · exact .raise h _ _ _ _ _

theorem framed_pscanLoop {s : State} (n : Nat) : ∀ (i : Nat) {u : State}, Frame s u → Framed s (pscanLoop n i u) := by
  induction n with
  | zero => exact fun _ _ h => h
  | succ n ih => exact fun i u h => (framed_packSym h _ _).andThen fun _ => ih (i + 1)

theorem framed_unpackBit {s u : State} (h : Frame s u) {here : List Task} {k : Bool → State → Flow}
    (hk : ∀ b v, Frame s v → Framed s (k b v)) : Framed s (unpackBit here u k) := by
  unfold unpackBit
  split
  · exact framed_withSrcByte h fun b v hv => hk _ _ (hv.core rfl rfl rfl rfl)
  · exact hk _ _ (h.core rfl rfl rfl rfl)

theorem framed_walkFrom {s : State} (n : Nat) : ∀ (id : NodeId) {u : State}, Frame s u → Framed s (walkFrom n id u) := by
  induction n with
  | zero => exact fun _ _ h => h
  | succ n ih =>
    intro id u h
    rw [walkFrom]
    split
    · exact (framed_snkWrite h _).andThen fun _ h => h.core rfl rfl rfl rfl
    · exact framed_unpackBit h fun b v hv => ih _ hv

theorem framed_decodeSymbol {s u : State} (h : Frame s u) : Framed s (decodeSymbol u) := by
  unfold decodeSymbol
  split
  · trivial
  · exact framed_walkFrom _ _ h

theorem framed_decodeSymbols {s : State} (n : Nat) : ∀ {u : State}, Frame s u → Framed s (decodeSymbols n u) := by
  induction n with
  | zero => exact fun h => h
  | succ n ih => exact fun h => (framed_decodeSymbol h).andThen fun _ => ih

theorem framed_readField {s : State} {here : Nat → Nat → List Task} {k : Nat → State → Flow}
    (hk : ∀ v u, Frame s u → Framed s (k v u)) (n : Nat) :
    ∀ (v : Nat) {u : State}, Frame s u → Framed s (readField here k n v u) := by
  induction n with
  | zero => exact fun v _ h => hk v _ h
  | succ n ih => exact fun v u h => framed_withSrcByte h fun b u hu => ih _ hu

theorem framed_storeField {s : State} {k : State → Flow} (hk : ∀ u, Frame s u → Framed s (k u)) (w : Nat) (x : Sym)
    (v : Nat) {u : State} (h : Frame s u) : Framed s (storeField w x k v u) := by
  unfold storeField
  split
  · exact .raise h _ _ _ _ _
  · exact hk _ (h.core rfl rfl rfl rfl)

theorem framed_readFreqs {s : State} (w : Nat) (xs : List Sym) : ∀ {u : State}, Frame s u → Framed s (readFreqs w xs u) := by
  induction xs with
  | nil => exact fun h => h.core rfl rfl rfl rfl
  | cons x xs ih => exact fun h => framed_readField (fun v u hu => framed_storeField (fun _ => ih) w x v hu) w 0 h

theorem framed_readWidth {s u : State} (h : Frame s u) (bm : List Byte) : Framed s (readWidth bm u) :=
  framed_withSrcByte h fun b v hv => by
    split
    · exact .raise hv _ _ _ _ _
    · exact framed_readFreqs _ _ hv

theorem framed_readBitmap {s : State} (n : Nat) :
    ∀ (bm : List Byte) {u : State}, Frame s u → Framed s (readBitmap n bm u) := by
  induction n with
  | zero => exact fun bm _ h => framed_readWidth h bm
  | succ n ih => exact fun bm u h => framed_withSrcByte h fun b u hu => ih _ hu

theorem framed_readMagic {s : State} (ms : List Byte) :
    ∀ (k : Nat) {u : State}, Frame s u → Framed s (readMagic ms k u) := by
  induction ms with
  | nil => exact fun _ _ h => framed_readBitmap _ _ h
  | cons m ms ih =>
    exact fun k u h => framed_withSrcByte h fun b u hu => by
      split
      · exact ih _ hu
      · exact .raise hu _ _ _ _ _

/-- Every stretch keeps the frame. -/
theorem framed_runTask {s u : State} (h : Frame s u) (t : Task) : Framed s (runTask t u) := by
  cases t with
  | start => rcases startRule_cases u with ⟨-, hu⟩ | ⟨-, hu⟩ <;> rw [runTask, hu]; exacts [h, h.turn]
  | fclr => exact h.core rfl rfl rfl rfl
  | fadd => exact framed_countSym h _ _
  | fset => exact h.core rfl rfl rfl rfl
  | fscan => exact (framed_lengthCheck h).andThen fun v hv => framed_fscanLoop _ _ (hv.core rfl rfl rfl rfl)
  | fwidth => exact h.core rfl rfl rfl rfl
  | tbuild => exact h.core rfl rfl rfl rfl
  | cgen =>
    refine (framed_sequenceCheck h _ _).andThen fun v hv => ?_
    split
    · exact hv.core rfl rfl rfl rfl
    · trivial
  | psym => exact (framed_sequenceCheck h _ _).andThen fun v hv => framed_packSym hv _ _
  | pscan =>
    exact (framed_sequenceCheck h _ _).andThen fun v hv => (framed_lengthCheck hv).andThen fun v hv =>
      framed_pscanLoop _ _ hv
  | pflush =>
    show Framed s (pflushRule u)
    unfold pflushRule
    split
    · exact h
    · exact framed_emitByte h _
  | udec =>
    refine (framed_sequenceCheck h _ _).andThen fun v hv => ?_
    split
    · exact hv
    · exact framed_decodeSymbol hv
  | udecall => exact (framed_sequenceCheck h _ _).andThen fun v hv => framed_decodeSymbols _ hv
  | hwrite => exact framed_sendBytes _ (h.core rfl rfl rfl rfl)
  | hread => exact framed_readMagic _ _ (h.core rfl rfl rfl rfl)
  | encodeLength => exact framed_lengthCheck h
  | decodeStart => exact h.core rfl rfl rfl rfl
  | send bs => exact framed_sendBytes _ h
  | countOut => exact h.core rfl rfl rfl rfl
  | clearPack => exact h.core rfl rfl rfl rfl
  | pack bits => exact framed_packBits _ h
  | pscanFrom i => exact framed_pscanLoop _ _ h
  | walk id => exact framed_walkFrom _ _ h
  | countEmit => exact h.core rfl rfl rfl rfl
  | decodeLoop => exact framed_decodeSymbols _ h
  | hreadMagic k => exact framed_readMagic _ _ h
  | hreadBitmap bm => exact framed_readBitmap _ _ h
  | hreadWidth bm => exact framed_readWidth h bm
  | hreadField w left v x xs =>
    exact framed_readField (fun v u hu => framed_storeField (fun _ => framed_readFreqs _ _) w x v hu) left v h
  | raise e o x a p => exact .raise h e o x a p

/-- Every stretch after another keeps the frame. -/
theorem framed_runTasks {s : State} (ts : List Task) : ∀ {u : State}, Frame s u → Framed s (runTasks ts u) := by
  induction ts with
  | nil => exact fun h => h
  | cons t ts ih => exact fun h => (framed_runTask h t).andThen fun _ => ih

/-- Everything a run of stretches ends in, as a step outcome (30_encoding.md R96, 60_exceptions.md R243). -/
theorem finish_runTasks {ts : List Task} {s t : State} (h : (runTasks ts s).finish = .next t) :
    (∃ u, Frame s u ∧ u.paused = false ∧ t = idleAgain (coreTurn u)) ∨
    (∃ e o x a p u, Frame s u ∧ u.paused = false ∧ t = raise e o x a p (coreTurn u)) ∨
    ∃ w r u, Frame s u ∧ t = stoppedAt w r u ∧
      (runTasks ts s = .wait w r u ∨ runTasks ts s = .done u ∧ u.paused = true ∧ w = .ready ∧ r = []) := by
  have hf := framed_runTasks ts (Frame.refl s)
  generalize runTasks ts s = f at h hf
  cases f with
  | done u =>
    rcases Flow.finish_done_cases u with ⟨hp, hu⟩ | ⟨hp, hu⟩ <;> rw [hu] at h
    · exact .inr (.inr ⟨.ready, [], u, hf, (Host.Outcome.next.inj h).symm, .inr ⟨rfl, hp, rfl, rfl⟩⟩)
    · exact .inl ⟨u, hf, hp, (Host.Outcome.next.inj h).symm⟩
  | raised u =>
    obtain ⟨e, o, x, a, p, v, h1, h2, h3⟩ := hf
    obtain rfl := Host.Outcome.next.inj h
    exact .inr (.inl ⟨e, o, x, a, p, v, h1, h2, h3⟩)
  | wait w r u => exact .inr (.inr ⟨w, r, u, hf, (Host.Outcome.next.inj h).symm, .inl rfl⟩)
  | halt r => cases h

/-- The end of a run of stretches where no host turn is scheduled. -/
theorem finish_free {ts : List Task} {s : State} (hs : s.sched = []) :
    (runTasks ts s).finish = (runTasks ts s).ended := by
  have hf := framed_runTasks ts (Frame.refl s)
  cases h : runTasks ts s with
  | done u => rw [h] at hf; exact Flow.finish_done (Frame.sched_nil hf hs)
  | _ => rfl

/-- `issue` where the command is free to run to its end. -/
theorem issue_idle {s : State} (h : Idle s) (i : Instr) (rule : List Task) :
    issue i rule s = (runTasks rule (accept (encode i) s)).ended := by
  rw [← finish_free (h.sched_accept _)]
  rw [issue, h.busy, h.err, if_neg nofun, if_neg nofun, runTasks_cons, runTask, startRule_free (h.sched_accept _),
    Flow.andThen_done]

/-- Every command but SRESET is issued with a rule (30_encoding.md R95). -/
theorem exec_issue {i : Instr} (hi : i ≠ .sreset) : ∃ rule, ∀ s, exec i s = issue i rule s := by
  cases i <;> first | exact absurd rfl hi | exact ⟨_, fun _ => rfl⟩

end Sys2Proof.Machine
end

