-- ==== Sys2Proof/Laws/Host.lean ====
section
/-! SUPPORT. Everything a host transaction can do, and what a CMD write does where no command is accepted
(30_encoding.md R95). -/

namespace Sys2Proof.Machine

/-- While BUSY = 1 every command but SRESET is dropped (30_encoding.md R95). -/
theorem exec_busy {i : Instr} (hi : i ≠ .sreset) {s : State} (h : s.busy = true) :
    exec i s = .next { s with cmdOvr := true } := by
  cases i <;> first | exact absurd rfl hi | exact if_pos h

/-- While ERR = 1 every command but SRESET is ignored (R95). -/
theorem exec_err {i : Instr} (hi : i ≠ .sreset) {s : State} (hb : s.busy = false) (h : s.err = true) :
    exec i s = .next s := by
  cases i <;> first | exact absurd rfl hi | exact (if_neg (by simp [hb])).trans (if_pos h)

theorem decode_sreset : decode 0x00000001 = .ok .sreset := decode_encode .sreset

theorem ne_sreset {v : Word} {i : Instr} (hv : v ≠ 0x00000001) (h : decode v = .ok i) : i ≠ .sreset :=
  fun e => hv (by rw [← encode_of_decode h, e]; rfl)

/-- The SRESET word (R95). -/
theorem cmdWrite_sreset (s : State) : cmdWrite 0x00000001 s = .next (softReset s) := by
  rw [cmdWrite, decode_sreset]; rfl

theorem cmdWrite_busy {v : Word} (hv : v ≠ 0x00000001) {s : State} (h : s.busy = true) :
    cmdWrite v s = .next { s with cmdOvr := true } := by
  unfold cmdWrite
  split
  · rename_i i hd; exact exec_busy (ne_sreset hv hd) h
  · exact if_pos h

theorem cmdWrite_err {v : Word} (hv : v ≠ 0x00000001) {s : State} (hb : s.busy = false) (h : s.err = true) :
    cmdWrite v s = .next s := by
  unfold cmdWrite
  split
  · rename_i i hd; exact exec_err (ne_sreset hv hd) hb h
  · exact (if_neg (by simp [hb])).trans (if_pos h)

theorem cmdWrite_illegal {v : Word} {s : State} (hb : s.busy = false) (h : s.err = false)
    (hd : ∃ e, decode v = .error e) :
    cmdWrite v s = .next (raise .illegalCommand 0 none (some (v.extractLsb' 0 8)) .src s) := by
  obtain ⟨e, hd⟩ := hd
  simp [cmdWrite, hd, issueIllegal, hb, h, opField]

/-- A CSR read changes nothing but the count of free values drawn (10_state.md R55). -/
theorem csrRead_state (s : State) (off : BitVec 8) : ∃ d, (csrRead s off).2 = { s with draws := d } := by
  unfold csrRead
  split
  · exact ⟨_, rfl⟩
  · split <;> exact ⟨_, rfl⟩

theorem readNoted_state (s : State) (off : BitVec 8) :
    ∃ d n, readNoted off s = { s with draws := d, notes := n } := by
  obtain ⟨d, h⟩ := csrRead_state s off
  exact ⟨d, _, by rw [readNoted, h]⟩

/-- `u` is `s` with other values of what a host transaction may set at once; IBUF changed by one byte write at most
(20_memory.md R62, R76). -/
def Posted (s u : State) : Prop :=
  ∃ arg ilen freqSel codeSel ibuf src snkAns snkStanding hostOps notes draws,
    (ibuf = s.ibuf ∨ ∃ i b, i < s.cfg.ibufSize ∧ ibuf = s.ibuf.write i b) ∧
    u = { s with
      arg := arg, ilen := ilen, freqSel := freqSel, codeSel := codeSel, ibuf := ibuf, src := src, snkAns := snkAns,
      snkStanding := snkStanding, hostOps := hostOps, notes := notes, draws := draws }

/-- A transaction that writes no byte of IBUF. -/
theorem Posted.of {s u : State} (h : ∃ arg ilen freqSel codeSel src snkAns snkStanding hostOps notes draws,
    u = { s with
      arg := arg, ilen := ilen, freqSel := freqSel, codeSel := codeSel, src := src, snkAns := snkAns
      snkStanding := snkStanding, hostOps := hostOps, notes := notes, draws := draws }) : Posted s u := by
  obtain ⟨a, n, f, c, e, k, t, o, m, d, rfl⟩ := h
  exact ⟨a, n, f, c, s.ibuf, e, k, t, o, m, d, .inl rfl, rfl⟩

theorem posted_readNoted (s : State) (off : BitVec 8) (ops : List HostOp) :
    Posted s { readNoted off s with hostOps := ops } := by
  obtain ⟨d, n, e⟩ := readNoted_state s off
  rw [e]
  exact .of ⟨_, _, _, _, _, _, _, ops, n, d, rfl⟩

/-- Everything a host transaction that is not a CMD write can do: the power-on reset; values set at once, no SNK answer
among them; on an SNK line, the answers given, the first to the byte that stands offered (20_memory.md R65, R76, R78). -/
theorem hostStep_next {op : HostOp} {s t : State} (h : hostStep op s = .next t) :
    (op = .powerOn ∧ t = powerOnReset s) ∨ ∃ u, Posted s u ∧
      (t = u ∧ u.snkAns = s.snkAns ∧ (u.snkStanding = s.snkStanding ∨ u.snkStanding = none) ∨ t = answerOffer u) := by
  have read : ∀ off ops, ∃ u, Posted s u ∧ ({ readNoted off s with hostOps := ops } = u ∧ u.snkAns = s.snkAns ∧
      (u.snkStanding = s.snkStanding ∨ u.snkStanding = none) ∨ { readNoted off s with hostOps := ops } = answerOffer u) := by
    intro off ops
    refine ⟨_, posted_readNoted s off ops, .inl ⟨rfl, ?_⟩⟩
    obtain ⟨d, n, e⟩ := readNoted_state s off
    rw [e]
    exact ⟨rfl, .inl rfl⟩
  have own : ∀ off, (readNoted off s) = { readNoted off s with hostOps := s.hostOps } := fun off => by
    obtain ⟨d, n, e⟩ := readNoted_state s off
    rw [e]
  have set : ∀ {u}, Posted s u → u.snkAns = s.snkAns → u.snkStanding = s.snkStanding ∨ u.snkStanding = none →
      ∃ v, Posted s v ∧
        (u = v ∧ v.snkAns = s.snkAns ∧ (v.snkStanding = s.snkStanding ∨ v.snkStanding = none) ∨ u = answerOffer v) :=
    fun hu h1 h2 => ⟨_, hu, .inl ⟨rfl, h1, h2⟩⟩
  cases op with
  | wr off v =>
    simp only [hostStep] at h
    split at h
    · cases h
      unfold csrStore
      split <;> exact .inr (set (.of ⟨_, _, _, _, _, _, _, _, _, _, rfl⟩) rfl (.inl rfl))
    · cases h
  | rd off =>
    simp only [hostStep] at h
    split at h
    · cases h
      rw [own]
      exact .inr (read off _)
    · cases h
  | ibufWr i b =>
    simp only [hostStep] at h
    split at h
    · cases h
    · rename_i hi
      split at h
      · cases h
      · cases h
        exact .inr (set ⟨_, _, _, _, _, _, _, _, _, _, _, .inr ⟨i, b, by omega, rfl⟩, rfl⟩ rfl (.inl rfl))
  | ibufRd i =>
    simp only [hostStep] at h
    split at h
    · cases h
    · cases h; exact .inr (set (.of ⟨_, _, _, _, _, _, _, _, _, _, rfl⟩) rfl (.inl rfl))
  | wait =>
    simp only [hostStep, Host.Outcome.next.injEq] at h
    split at h
    · subst h; exact .inr (read 0x08 _)
    · subst h; rw [own]; exact .inr (read 0x08 _)
  | check =>
    simp only [hostStep, Host.Outcome.next.injEq] at h
    split at h
    · subst h; exact .inr (read 0x08 _)
    · subst h; rw [own]; exact .inr (read 0x08 _)
  | powerOn => cases h; exact .inl ⟨rfl, rfl⟩
  | src es => cases h; exact .inr (set (.of ⟨_, _, _, _, _, _, _, _, _, _, rfl⟩) rfl (.inl rfl))
  | srcDrop n => cases h; exact .inr (set (.of ⟨_, _, _, _, _, _, _, _, _, _, rfl⟩) rfl (.inl rfl))
  | snkHold => cases h; exact .inr (set (.of ⟨_, _, _, _, _, _, _, _, _, _, rfl⟩) rfl (.inr rfl))
  | snkOk => cases h; exact .inr ⟨_, .of ⟨_, _, _, _, _, _, _, _, _, _, rfl⟩, .inr rfl⟩
  | snkAnswer a => cases h; exact .inr ⟨_, .of ⟨_, _, _, _, _, _, _, _, _, _, rfl⟩, .inr rfl⟩
  | snkIoerr n =>
    simp only [hostStep] at h
    split at h
    · cases h
    · cases h; exact .inr ⟨_, .of ⟨_, _, _, _, _, _, _, _, _, _, rfl⟩, .inr rfl⟩
  | busWr32 a v => cases h
  | busRd32 a => cases h
  | busWr8 a b => cases h
  | busRd8 a => cases h

/-- Everything a host move can be: a refusal, a CMD write, or another transaction (20_memory.md R76). -/
theorem hostMove_cases (op : HostOp) (s : State) :
    (∃ r, hostMove op s = .refused r) ∨
    (∃ v, hostMove op s = cmdWrite v s ∧ (op = .wr 0x00 v ∨ ∃ a, op = .busWr32 a v ∧ s.cfg.csrBase = some a)) ∨
    ∃ op', hostMove op s = hostStep op' s ∧ (op' = .powerOn → op = .powerOn) := by
  unfold hostMove
  cases hr : resolve s.cfg op with
  | error r => exact .inl ⟨r, rfl⟩
  | ok op' =>
    simp only
    cases hc : cmdWord? op' with
    | none =>
      refine .inr (.inr ⟨op', rfl, ?_⟩)
      rintro rfl
      cases op <;> simp only [resolve, Except.ok.injEq] at hr
      case powerOn => rfl
      all_goals first
        | cases hr
        | (simp only [Option.elim] at hr; split at hr <;> cases hr)
    | some v =>
      refine .inr (.inl ⟨v, rfl, ?_⟩)
      cases op' <;> simp only [cmdWord?, reduceCtorEq] at hc
      rename_i off w
      split at hc
      · rename_i h0
        cases hc
        subst h0
        cases op <;> simp only [resolve, Except.ok.injEq] at hr
        case wr off w => exact .inl hr
        case busWr32 a w =>
          refine .inr ?_
          simp only [Option.elim] at hr
          split at hr
          · rename_i off hoff
            simp only [Except.ok.injEq, HostOp.wr.injEq] at hr
            obtain ⟨rfl, rfl⟩ := hr
            refine ⟨a, rfl, ?_⟩
            unfold csrOffset? at hoff
            split at hoff
            · rename_i base hb
              split at hoff
              · rename_i hr
                have := congrArg BitVec.toNat (Option.some.inj hoff)
                rw [BitVec.toNat_ofNat, show (0 : BitVec 8).toNat = 0 from rfl] at this
                rw [hb]; congr 1; omega
              · cases hoff
            · cases hoff
          · cases hr
        all_goals first
          | cases hr
          | (simp only [Option.elim] at hr; split at hr <;> cases hr)
      · cases hc

end Sys2Proof.Machine
end

