-- ==== Sys2Proof/Laws/Resume.lean ====
section
/-! SUPPORT. Going on after a wait (70_reset_and_hazards.md R282, R285): a command reads of the host's side only SRC and
the answers on SNK, and it takes elements and answers given late as it takes those given ahead; the operand registers
are not read at all (10_state.md R38). -/

namespace Sys2Proof.Machine

/-! ## A walk needs no more fuel than its bound -/

theorem walkFrom_fuel (n : Nat) : ∀ (m : Nat) (id : NodeId) (s : State), walkBound s ≤ n → walkBound s ≤ m →
    walkFrom n id s = walkFrom m id s := by
  induction n with
  | zero => intro m id s hn; simp [walkBound] at hn
  | succ n ih =>
    intro m id s hn hm
    obtain _ | m := m
    · simp [walkBound] at hm
    rw [walkFrom, walkFrom]
    split
    · rfl
    · unfold unpackBit
      split
      · rename_i h0
        have h0 : s.rem.toNat = 0 := by rw [h0]; rfl
        unfold withSrcByte
        split
        · rfl
        · split
          · rfl
          · rename_i b es hs
            refine ih m _ _ ?_ ?_ <;>
            · simp only [walkBound, hs, List.length_cons, h0] at hn hm
              show (8 - 1 : BitVec 4).toNat + 8 * es.length + 1 ≤ _
              simp; omega
          · rfl
          · rfl
      · rename_i h0
        have h0 : s.rem.toNat ≠ 0 := fun h => h0 (BitVec.eq_of_toNat_eq h)
        have hd : (dropBit s).rem.toNat = s.rem.toNat - 1 := by
          have := s.rem.isLt
          show (s.rem - 1).toNat = _
          rw [BitVec.toNat_sub]
          simp; omega
        have hw : walkBound (dropBit s) + 1 = walkBound s := by
          rw [walkBound, walkBound, hd, dropBit_src]; omega
        exact ih m _ _ (by omega) (by omega)

/-! ## Late elements, late answers, other operands -/

/-- Elements and answers the host gives later, other values of ARG and ILEN, another note of the position. -/
structure Late where
  es : List SrcElem
  as : List SnkAns
  arg : Option Word
  ilen : Option Word
  cont : Option (List Task)
  waitOn : Option Wait

/-- The state with them. -/
def Late.on (d : Late) (s : State) : State :=
  { s with
    src := s.src ++ d.es, snkAns := s.snkAns ++ d.as, arg := d.arg.getD s.arg, ilen := d.ilen.getD s.ilen
    cont := d.cont.getD s.cont, waitOn := d.waitOn.getD s.waitOn }

/-- Without the note of the position, which error entry clears. -/
def Late.afterRaise (d : Late) : Late := { d with cont := none, waitOn := none }

/-- The Core waits on SNK: byte `b` is offered, the host has not answered, and it is not the host's scheduled turn. -/
structure Offered (b : Byte) (r : List Task) (u : State) : Prop where
  here : ∃ r', r = .send [b] :: r'
  queued : u.snkAns = []
  standing : u.snkStanding = none
  free : u.paused = false

/-- `f'` is what `f` becomes where the elements and answers were there ahead: the same end, or the going on of `f` from
where it waits; and a wait for a stream waits because the stream has nothing. -/
def Follows (d : Late) (f f' : Flow) : Prop :=
  match f with
  | .done u => f' = .done (d.on u)
  | .raised u => f' = .raised (d.afterRaise.on u)
  | .halt r => f' = .halt r
  | .wait w r u => f' = runTasks r (d.on u) ∧ (d.es = [] → d.as = [] → f' = .wait w r (d.on u)) ∧
      (w = .src → u.src = []) ∧ ∀ b, w = .snk b → Offered b r u

theorem runTasks_append (as bs : List Task) (s : State) :
    runTasks (as ++ bs) s = (runTasks as s).andThen (runTasks bs) bs := by
  induction as generalizing s with
  | nil => rfl
  | cons a as ih =>
    rw [List.cons_append, runTasks_cons, runTasks_cons, Flow.andThen_assoc]
    exact congrArg (fun g => Flow.andThen _ g _) (funext ih)

theorem runTasks_one (t : Task) (s : State) : runTasks [t] s = runTask t s := Flow.andThen_id _

theorem Flow.andThen_congr {f : Flow} {g h : State → Flow} {l : List Task} (hd : ∀ u, f = .done u → g u = h u) :
    f.andThen g l = f.andThen h l := by
  cases f <;> first | exact hd _ rfl | rfl

theorem Follows.andThen {d : Late} {f f' : Flow} {g : State → Flow} {l : List Task} (h : Follows d f f')
    (hg : ∀ u, f = .done u → Follows d (g u) (g (d.on u))) (hl : ∀ u, f' = .done u → runTasks l u = g u) :
    Follows d (f.andThen g l) (f'.andThen g l) := by
  cases f with
  | done u => rw [show f' = _ from h]; exact hg u rfl
  | raised u => rw [show f' = _ from h]; rfl
  | halt r => rw [show f' = _ from h]; rfl
  | wait w r u =>
    obtain ⟨h1, h2, h3, h4⟩ := h
    refine ⟨?_, fun he ha => ?_, h3, fun b hb => ?_⟩
    · rw [runTasks_append, ← h1]
      exact Flow.andThen_congr fun u hu => (hl u hu).symm
    · rw [h2 he ha]; rfl
    · obtain ⟨⟨r', rfl⟩, h5, h6, h7⟩ := h4 b hb
      exact ⟨⟨r' ++ l, rfl⟩, h5, h6, h7⟩

/-- A first part that stops only where it then raises. -/
theorem Follows.andThen' {d : Late} {f f' : Flow} {g : State → Flow} {l : List Task} (h : Follows d f f')
    (hw : ∀ w r u v, f = .wait w r u → f' ≠ .done v) (hg : ∀ u, f = .done u → Follows d (g u) (g (d.on u))) :
    Follows d (f.andThen g l) (f'.andThen g l) := by
  cases f with
  | done u => rw [show f' = _ from h]; exact hg u rfl
  | raised u => rw [show f' = _ from h]; rfl
  | halt r => rw [show f' = _ from h]; rfl
  | wait w r u => exact Follows.andThen (f := .wait w r u) h (fun _ => nofun) fun v hv => absurd hv (hw w r u v rfl)

theorem follows_raise (d : Late) (e : ErrKind) (o : BitVec 64) (x a : Option Byte) (p : Port) (s : State) :
    Follows d (raising e o x a p s) (raising e o x a p (d.on s)) := by
  have hp : (d.on s).paused = s.paused := rfl
  cases hps : s.paused with
  | true =>
    have e' : ∀ u : State, u.paused = true → raising e o x a p u = .wait .ready [.raise e o x a p] u := fun u hu => by
      rw [raising, hu]; rfl
    rw [e' s hps]
    exact ⟨(runTasks_one (.raise e o x a p) _).symm, fun _ _ => e' _ (hp.trans hps), nofun, nofun⟩
  | false =>
    rw [raising, raising, hp, hps]
    exact congrArg Flow.raised (by unfold raise scramble Late.on Late.afterRaise; rfl)

theorem follows_start (d : Late) (s : State) : Follows d (startRule s) (startRule (d.on s)) := by
  have hp : (d.on s).paused = s.paused := rfl
  rcases startRule_cases s with ⟨h, e⟩ | ⟨h, e⟩ <;> rw [e]
  · refine ⟨(runTasks_one .start _).symm, fun _ _ => ?_, nofun, nofun⟩
    rw [startRule, hp, h]; rfl
  · rw [startRule, hp, h]; rfl

theorem follows_withSrcByte (d : Late) {here : List Task} {s : State} {k k' : Byte → State → Flow}
    (hh : runTasks here (d.on s) = withSrcByte here (d.on s) k')
    (hk : ∀ b es, s.src = .byte b :: es →
      Follows d (k b (countIn (srcTaken es s))) (k' b (d.on (countIn (srcTaken es s))))) :
    Follows d (withSrcByte here s k) (withSrcByte here (d.on s) k') := by
  have hp : (d.on s).paused = s.paused := rfl
  cases hps : s.paused with
  | true =>
    have e : withSrcByte here s k = .wait .ready here s := by rw [withSrcByte, hps]; rfl
    have e' : withSrcByte here (d.on s) k' = .wait .ready here (d.on s) := by rw [withSrcByte, hp, hps]; rfl
    rw [e]
    exact ⟨hh.symm, fun _ _ => e', nofun, nofun⟩
  | false =>
    cases hs : s.src with
    | nil =>
      have e : withSrcByte here s k = .wait .src here s := by rw [withSrcByte, hps, hs]; rfl
      rw [e]
      refine ⟨hh.symm, fun he _ => ?_, fun _ => hs, nofun⟩
      rw [withSrcByte, hp, hps, show (d.on s).src = [] by simp [Late.on, hs, he]]; rfl
    | cons x es =>
      have hs' : (d.on s).src = x :: (es ++ d.es) := by simp [Late.on, hs]
      rw [withSrcByte, withSrcByte, hp, hps, hs, hs']
      cases x with
      | byte b => exact hk b es hs
      | eoi => exact follows_raise d _ _ _ _ _ (srcTaken es s)
      | ioerr => exact follows_raise d _ _ _ _ _ (srcTaken es s)

theorem runTasks_sendLater (bs : List Byte) (s : State) : runTasks (sendLater bs) s = sendBytes bs s := by
  cases bs with
  | nil => rfl
  | cons b bs => exact runTasks_one _ _

theorem sendBytes_one (b : Byte) (s : State) : sendBytes [b] s = snkWrite b s := Flow.andThen_id _

theorem runTasks_send (b : Byte) (s : State) : runTasks [.send [b]] s = snkWrite b s :=
  (runTasks_one _ _).trans (sendBytes_one b s)

/-- The late answers, if any, do not come before an answer that stands. -/
def Late.quiet (d : Late) (s : State) : Prop := d.as = [] ∨ s.snkStanding = none

theorem Late.quiet.frame {d : Late} {s u : State} (h : d.quiet s) (hf : Frame s u) : d.quiet u :=
  h.imp id fun h => hf.snkStanding.trans h

theorem Framed.done {s u : State} {f : Flow} (h : Framed s f) (e : f = .done u) : Frame s u := by rw [e] at h; exact h

theorem follows_snkWrite {d : Late} {s : State} (hq : d.quiet s) (b : Byte) :
    Follows d (snkWrite b s) (snkWrite b (d.on s)) := by
  have hp : (d.on s).paused = s.paused := rfl
  cases hps : s.paused with
  | true =>
    have e : ∀ u : State, u.paused = true → snkWrite b u = .wait .ready [.send [b]] u := fun u hu => by
      rw [snkWrite, hu]; rfl
    rw [e s hps]
    exact ⟨(runTasks_send b _).symm, fun _ _ => e _ (hp.trans hps), nofun, nofun⟩
  | false =>
    cases hs : s.snkAns with
    | cons a as =>
      have hs' : (d.on s).snkAns = a :: (as ++ d.as) := by simp [Late.on, hs]
      rw [snkWrite, snkWrite, hp, hps, snkAnswer, snkAnswer, hs, hs']
      cases a with
      | ok => rfl
      | ioerr => exact follows_raise d _ _ _ _ _ (answerTaken as s)
    | nil =>
      cases hst : s.snkStanding with
      | none =>
        have e : ∀ u : State, u.paused = false → u.snkAns = [] → u.snkStanding = none →
            snkWrite b u = .wait (.snk b) [.send [b]] u := fun u h1 h2 h3 => by
          rw [snkWrite, h1, snkAnswer, h2, h3]; rfl
        rw [e s hps hs hst]
        exact ⟨(runTasks_send b _).symm, fun _ ha => e _ (hp.trans hps) (by simp [Late.on, hs, ha]) hst, nofun,
          fun c hc => ⟨⟨[], by cases hc; rfl⟩, hs, hst, hps⟩⟩
      | some a =>
        have ha : d.as = [] := hq.resolve_right (by simp [hst])
        have hs' : (d.on s).snkAns = [] := by simp [Late.on, hs, ha]
        have hst' : (d.on s).snkStanding = some a := hst
        have hon : d.on (answerTaken [] s) = answerTaken [] (d.on s) := by simp [Late.on, answerTaken, ha]
        rw [snkWrite, snkWrite, hp, hps, snkAnswer, snkAnswer, hs, hs', hst, hst']
        cases a with
        | ok => exact congrArg (fun u => Flow.done (deliver b u)) hon.symm
        | ioerr =>
          have := follows_raise d .ioFailure s.outCount none none .snk (answerTaken [] s)
          rw [hon] at this
          exact this

theorem follows_sendBytes {d : Late} (bs : List Byte) :
    ∀ {s : State}, d.quiet s → Follows d (sendBytes bs s) (sendBytes bs (d.on s)) := by
  induction bs with
  | nil => exact fun _ => rfl
  | cons b bs ih =>
    exact fun hq => (follows_snkWrite hq b).andThen (fun u hu => ih (hq.frame ((framed_snkWrite (.refl _) b).done hu)))
      fun u _ => runTasks_sendLater bs u

theorem follows_lengthCheck (d : Late) (s : State) : Follows d (lengthCheck s) (lengthCheck (d.on s)) := by
  by_cases h : s.cfg.ibufSize < scanLength s
  · rw [lengthCheck, lengthCheck, if_pos h, if_pos (by exact h)]; exact follows_raise d _ _ _ _ _ s
  · rw [lengthCheck, lengthCheck, if_neg h, if_neg (by exact h)]; rfl

theorem lengthCheck_wait (d : Late) (s : State) :
    ∀ w r u v, lengthCheck s = .wait w r u → lengthCheck (d.on s) ≠ .done v := by
  intro w r u v h
  unfold lengthCheck at h ⊢
  by_cases hl : s.cfg.ibufSize < scanLength s
  · rw [if_pos (by exact hl)]; exact raising_ne_done _ _ _ _ _ _ _
  · rw [if_neg hl] at h; cases h

theorem lengthCheck_done {s u : State} (h : lengthCheck s = .done u) : u = s := by
  unfold lengthCheck at h
  split at h
  · exact absurd h (raising_ne_done _ _ _ _ _ _ _)
  · exact (Flow.done.inj h).symm

theorem follows_sequenceCheck (d : Late) {flag : State → Bool} (hf : ∀ s, flag (d.on s) = flag s) (op : Byte) (s : State) :
    Follows d (sequenceCheck flag op s) (sequenceCheck flag op (d.on s)) := by
  rw [sequenceCheck, sequenceCheck, hf]
  split
  · rfl
  · exact follows_raise d _ _ _ _ _ s

theorem sequenceCheck_wait (d : Late) {flag : State → Bool} (hf : ∀ s, flag (d.on s) = flag s) (op : Byte) (s : State) :
    ∀ w r u v, sequenceCheck flag op s = .wait w r u → sequenceCheck flag op (d.on s) ≠ .done v := by
  intro w r u v h
  rw [sequenceCheck] at h ⊢
  rw [hf]
  split at h
  · cases h
  · rename_i hn; rw [if_neg hn]; exact raising_ne_done _ _ _ _ _ _ _

theorem sequenceCheck_done {flag : State → Bool} {op : Byte} {s u : State} (h : sequenceCheck flag op s = .done u) :
    u = s ∧ flag s = true := by
  unfold sequenceCheck at h
  split at h
  · exact ⟨(Flow.done.inj h).symm, by assumption⟩
  · exact absurd h (raising_ne_done _ _ _ _ _ _ _)

theorem follows_countSym (d : Late) (x : Sym) (o : BitVec 64) (s : State) :
    Follows d (countSym x o s) (countSym x o (d.on s)) := by
  by_cases h : freqAt s.freq x = 0xFFFFFFFF
  · rw [countSym, countSym, if_pos h, if_pos (by exact h)]; exact follows_raise d _ _ _ _ _ s
  · rw [countSym, countSym, if_neg h, if_neg (by exact h)]; rfl

theorem countSym_wait (d : Late) (x : Sym) (o : BitVec 64) (s : State) :
    ∀ w r u v, countSym x o s = .wait w r u → countSym x o (d.on s) ≠ .done v := by
  intro w r u v h
  rw [countSym] at h ⊢
  by_cases hl : freqAt s.freq x = 0xFFFFFFFF
  · rw [if_pos (by exact hl)]; exact raising_ne_done _ _ _ _ _ _ _
  · rw [if_neg hl] at h; cases h

theorem follows_fscanLoop (d : Late) (n : Nat) :
    ∀ (i : Nat) (s : State), Follows d (fscanLoop n i s) (fscanLoop n i (d.on s)) := by
  induction n with
  | zero => exact fun _ _ => rfl
  | succ n ih =>
    exact fun i s => (follows_countSym d _ _ s).andThen' (countSym_wait d _ _ s) fun u _ => ih (i + 1) u

theorem follows_emitByte {d : Late} {s : State} (hq : d.quiet s) (b : Byte) :
    Follows d (emitByte b s) (emitByte b (d.on s)) :=
  (follows_snkWrite hq b).andThen (fun _ _ => rfl) fun _ _ => rfl

theorem follows_packBit {d : Late} {s : State} (hq : d.quiet s) (b : Bool) :
    Follows d (packBit b s) (packBit b (d.on s)) := by
  by_cases h : (pushBit b s).nbits = 8
  · rw [packBit, packBit, if_pos h, if_pos (by exact h)]
    exact follows_emitByte (s := pushBit b s) hq _
  · rw [packBit, packBit, if_neg h, if_neg (by exact h)]; rfl

theorem follows_packBits {d : Late} (bits : List Bool) :
    ∀ {s : State}, d.quiet s → Follows d (packBits bits s) (packBits bits (d.on s)) := by
  induction bits with
  | nil => exact fun _ => rfl
  | cons b bits ih =>
    exact fun hq => (follows_packBit hq b).andThen (fun u hu => ih (hq.frame ((framed_packBit (.refl _) b).done hu)))
      fun u _ => runTasks_one _ u

theorem follows_packSym {d : Late} {s : State} (hq : d.quiet s) (x : Sym) (o : BitVec 64) :
    Follows d (packSym x o s) (packSym x o (d.on s)) := by
  by_cases h : (codeAt s.code x).assigned = true
  · rw [packSym, packSym, if_pos h, if_pos (by exact h)]; exact follows_packBits _ hq
  · rw [packSym, packSym, if_neg h, if_neg (by exact h)]; exact follows_raise d _ _ _ _ _ s

theorem follows_pscanLoop {d : Late} (n : Nat) : ∀ (i : Nat) {s : State}, d.quiet s → n = scanLength s - i →
    Follows d (pscanLoop n i s) (pscanLoop n i (d.on s)) := by
  induction n with
  | zero => exact fun _ _ _ _ => rfl
  | succ n ih =>
    intro i s hq hn
    refine (follows_packSym hq (memRead s i) (BitVec.ofNat 64 i)).andThen (fun u hu => ?_) fun u hu => ?_
    · have hf := (framed_packSym (.refl _) _ _).done hu
      exact ih (i + 1) (hq.frame hf) (by rw [scanLength, hf.lIlen]; rw [scanLength] at hn; omega)
    · have hf := (framed_packSym (.refl _) _ _).done hu
      have hl : n = scanLength u - (i + 1) := by
        rw [scanLength, hf.lIlen]
        rw [scanLength] at hn
        show n = s.lIlen.toNat - (i + 1)
        omega
      rw [runTasks_one, runTask, pscanRest, ← hl]

theorem follows_pflush {d : Late} {s : State} (hq : d.quiet s) : Follows d (pflushRule s) (pflushRule (d.on s)) := by
  by_cases h : s.nbits = 0
  · rw [pflushRule, pflushRule, if_pos h, if_pos (by exact h)]; rfl
  · rw [pflushRule, pflushRule, if_neg h, if_neg (by exact h)]; exact follows_emitByte hq _

theorem follows_emitSymbol {d : Late} {s : State} (hq : d.quiet s) (x : Sym) :
    Follows d (emitSymbol x s) (emitSymbol x (d.on s)) :=
  (follows_snkWrite hq x).andThen (fun _ _ => rfl) fun _ _ => rfl

theorem walkBound_on (d : Late) (s : State) : walkBound s ≤ walkBound (d.on s) := by
  simp only [walkBound, Late.on, List.length_append]; omega

theorem follows_walkFrom {d : Late} (n : Nat) : ∀ (m : Nat) (id : NodeId) {s : State}, d.quiet s → walkBound s ≤ n →
    walkBound (d.on s) ≤ m → Follows d (walkFrom n id s) (walkFrom m id (d.on s)) := by
  induction n with
  | zero => intro m id s _ h; simp [walkBound] at h
  | succ n ih =>
    intro m id s hq hn hm
    obtain _ | m := m
    · simp [walkBound] at hm
    have hfuel : runTasks [.walk id] (d.on s) = walkFrom (m + 1) id (d.on s) :=
      (runTasks_one _ _).trans (walkFrom_fuel _ _ _ _ (Nat.le_refl _) hm)
    rw [walkFrom, walkFrom] at *
    rw [show nodeAt (d.on s) = nodeAt s from rfl] at *
    cases hk : (nodeAt s id).kind with
    | leaf => exact follows_emitSymbol hq _
    | internal =>
      rw [hk] at hfuel
      simp only at hfuel ⊢
      by_cases h0 : s.rem = 0
      · rw [unpackBit, if_pos h0]
        rw [unpackBit, if_pos (by exact h0)] at hfuel ⊢
        refine follows_withSrcByte d hfuel fun b es hs => ?_
        have h0 : s.rem.toNat = 0 := by rw [h0]; rfl
        refine ih m _ (s := dropBit (loadCur b (countIn (srcTaken es s)))) hq ?_ ?_
        · simp only [walkBound, hs, List.length_cons, h0] at hn
          show (8 - 1 : BitVec 4).toNat + 8 * es.length + 1 ≤ _
          simp; omega
        · simp only [walkBound, Late.on, hs, List.length_append, List.length_cons, h0] at hm
          show (8 - 1 : BitVec 4).toNat + 8 * (es ++ d.es).length + 1 ≤ _
          simp; omega
      · rw [unpackBit, unpackBit, if_neg h0, if_neg (by exact h0)]
        have h0 : s.rem.toNat ≠ 0 := fun h => h0 (BitVec.eq_of_toNat_eq h)
        have hd : (dropBit s).rem.toNat = s.rem.toNat - 1 := by
          have := s.rem.isLt
          show (s.rem - 1).toNat = _
          rw [BitVec.toNat_sub]
          simp; omega
        refine ih m _ (s := dropBit s) hq ?_ ?_
        · rw [walkBound, hd, dropBit_src]; rw [walkBound] at hn; omega
        · rw [walkBound] at hm ⊢
          rw [show (d.on (dropBit s)).rem.toNat = s.rem.toNat - 1 from hd]
          change s.rem.toNat + 8 * (s.src ++ d.es).length + 1 ≤ m + 1 at hm
          show s.rem.toNat - 1 + 8 * (s.src ++ d.es).length + 1 ≤ m
          omega

theorem follows_walkRule {d : Late} {s : State} (hq : d.quiet s) (id : NodeId) :
    Follows d (walkRule id s) (walkRule id (d.on s)) :=
  follows_walkFrom _ _ id hq (Nat.le_refl _) (Nat.le_refl _)

theorem follows_decodeSymbol {d : Late} {s : State} (hq : d.quiet s) :
    Follows d (decodeSymbol s) (decodeSymbol (d.on s)) := by
  rw [decodeSymbol, decodeSymbol, show (d.on s).root = s.root from rfl]
  cases s.root with
  | none => rfl
  | some r => exact follows_walkRule hq r

/-- A decoded symbol is counted once, and FREQ stays (43_bitpack.md R180). -/
theorem walkFrom_done (n : Nat) : ∀ (id : NodeId) {s u : State}, walkFrom n id s = .done u →
    u.emit = s.emit + 1 ∧ u.freq = s.freq := by
  induction n with
  | zero => intro id s u h; cases h
  | succ n ih =>
    intro id s u h
    rw [walkFrom] at h
    split at h
    · rcases snkWrite_cases (nodeAt s id).sym s with ⟨w, hw⟩ | ⟨as, hw⟩ | ⟨as, hw⟩ <;> rw [emitSymbol, hw] at h
      · cases h
      · obtain rfl := Flow.done.inj h; exact ⟨rfl, rfl⟩
      · rcases raising_cases .ioFailure s.outCount none none .snk (answerTaken as s) with ⟨-, hr⟩ | ⟨-, hr⟩ <;>
          rw [hr] at h <;> cases h
    · unfold unpackBit at h
      split at h
      · rcases withSrcByte_cases [.walk id] s fun b v => takeBit (loadCur b v) fun bit s' =>
          walkFrom n (if bit then (nodeAt s id).right else (nodeAt s id).left) s' with
          ⟨w, hw⟩ | ⟨b, es, h1, h2⟩ | ⟨es, h1, h2⟩ | ⟨es, h1, h2⟩
        · exact absurd (hw.symm.trans h) nofun
        · exact ih _ (s := dropBit (loadCur b (countIn (srcTaken es s)))) (h2.symm.trans h)
        · exact absurd (h2.symm.trans h) (raising_ne_done _ _ _ _ _ _ _)
        · exact absurd (h2.symm.trans h) (raising_ne_done _ _ _ _ _ _ _)
      · exact ih _ (s := dropBit s) h

theorem decodeSymbol_done {s u : State} (h : decodeSymbol s = .done u) : u.emit = s.emit + 1 ∧ u.freq = s.freq := by
  unfold decodeSymbol at h
  split at h
  · cases h
  · exact walkFrom_done _ _ h

/-- One symbol fewer is left after a decoded symbol (43_bitpack.md R181). -/
theorem left_decodeSymbol {s u : State} {n : Nat} (h : decodeSymbol s = .done u)
    (hn : n + 1 = totalOf s.freq - s.emit.toNat) : n = totalOf u.freq - u.emit.toNat := by
  obtain ⟨h1, h2⟩ := decodeSymbol_done h
  have := totalOf_lt s.freq
  have he : (s.emit + 1).toNat = s.emit.toNat + 1 := by
    rw [BitVec.toNat_add, show (1 : BitVec 40).toNat = 1 from rfl, Nat.mod_eq_of_lt (by omega)]
  rw [h1, h2, he]; omega

theorem follows_decodeSymbols {d : Late} (n : Nat) : ∀ {s : State}, d.quiet s → n = totalOf s.freq - s.emit.toNat →
    Follows d (decodeSymbols n s) (decodeSymbols n (d.on s)) := by
  induction n with
  | zero => exact fun _ _ => rfl
  | succ n ih =>
    intro s hq hn
    refine (follows_decodeSymbol hq).andThen (fun u hu => ?_) fun u hu => ?_
    · exact ih (hq.frame ((framed_decodeSymbol (.refl _)).done hu)) (left_decodeSymbol hu hn)
    · rw [runTasks_one, runTask, decodeLoop, ← left_decodeSymbol hu hn]

theorem follows_decodeLoop {d : Late} {s : State} (hq : d.quiet s) : Follows d (decodeLoop s) (decodeLoop (d.on s)) :=
  follows_decodeSymbols _ hq rfl

theorem follows_readField {d : Late} {here : Nat → Nat → List Task} {k : Nat → State → Flow}
    (hh : ∀ n v u, runTasks (here (n + 1) v) u = readField here k (n + 1) v u)
    (hk : ∀ v u, Follows d (k v u) (k v (d.on u))) (n : Nat) :
    ∀ (v : Nat) (s : State), Follows d (readField here k n v s) (readField here k n v (d.on s)) := by
  induction n with
  | zero => exact fun v s => hk v s
  | succ n ih => exact fun v s => follows_withSrcByte d (hh n v _) fun b es _ => ih _ _

theorem follows_storeField {d : Late} {k : State → Flow} (hk : ∀ u, Follows d (k u) (k (d.on u))) (w : Nat) (x : Sym)
    (v : Nat) (s : State) : Follows d (storeField w x k v s) (storeField w x k v (d.on s)) := by
  rw [storeField, storeField]
  split
  · exact follows_raise d _ _ _ _ _ s
  · exact hk _

theorem follows_readFreqs (d : Late) (w : Nat) (xs : List Sym) :
    ∀ s : State, Follows d (readFreqs w xs s) (readFreqs w xs (d.on s)) := by
  induction xs with
  | nil => exact fun _ => rfl
  | cons x xs ih =>
    exact fun s => follows_readField (fun n v u => runTasks_one _ u) (fun v u => follows_storeField ih w x v u) w 0 s

theorem follows_readWidth (d : Late) (bm : List Byte) (s : State) :
    Follows d (readWidth bm s) (readWidth bm (d.on s)) :=
  follows_withSrcByte d (runTasks_one _ _) fun b es _ => by
    split
    · exact follows_raise d _ _ _ _ _ (countIn (srcTaken es s))
    · exact follows_readFreqs d _ _ _

theorem follows_readBitmap (d : Late) (n : Nat) : ∀ (bm : List Byte) (s : State), n = 32 - bm.length →
    Follows d (readBitmap n bm s) (readBitmap n bm (d.on s)) := by
  induction n with
  | zero => exact fun bm s _ => follows_readWidth d bm s
  | succ n ih =>
    intro bm s hn
    refine follows_withSrcByte d ?_ fun b es _ => ih _ _ (by simp; omega)
    rw [runTasks_one, runTask, readBitmapFrom, ← hn]; rfl

theorem follows_readMagic (d : Late) (ms : List Byte) : ∀ (k : Nat) (s : State), ms = magic.drop k →
    Follows d (readMagic ms k s) (readMagic ms k (d.on s)) := by
  induction ms with
  | nil => exact fun _ s _ => follows_readBitmap d _ _ s rfl
  | cons m ms ih =>
    intro k s hm
    refine follows_withSrcByte d ?_ fun b es _ => ?_
    · rw [runTasks_one, runTask, readMagicFrom, ← hm]; rfl
    · split
      · exact ih (k + 1) _ (by rw [← List.tail_drop, ← hm]; rfl)
      · exact follows_raise d _ _ _ _ _ (countIn (srcTaken es s))

theorem follows_runTask {d : Late} {s : State} (hq : d.quiet s) (t : Task) :
    Follows d (runTask t s) (runTask t (d.on s)) := by
  cases t with
  | start => exact follows_start d s
  | fclr => rfl
  | fadd => exact follows_countSym d _ _ s
  | fset => rfl
  | fscan =>
    exact (follows_lengthCheck d s).andThen' (lengthCheck_wait d s) fun u _ => follows_fscanLoop d _ _ (freqChanged u)
  | fwidth => rfl
  | tbuild => rfl
  | cgen =>
    refine (follows_sequenceCheck d (fun _ => rfl) _ s).andThen' (sequenceCheck_wait d (fun _ => rfl) _ s) fun u _ => ?_
    rw [show nodeAt (d.on u) = nodeAt u from rfl, show (d.on u).root = u.root from rfl]
    cases codesOf (nodeAt u) u.root <;> rfl
  | psym =>
    refine (follows_sequenceCheck d (fun _ => rfl) _ s).andThen' (sequenceCheck_wait d (fun _ => rfl) _ s) fun u hu => ?_
    obtain ⟨rfl, -⟩ := sequenceCheck_done hu
    exact follows_packSym hq _ _
  | pscan =>
    refine (follows_sequenceCheck d (fun _ => rfl) _ s).andThen' (sequenceCheck_wait d (fun _ => rfl) _ s) fun u hu => ?_
    obtain ⟨rfl, -⟩ := sequenceCheck_done hu
    refine (follows_lengthCheck d _).andThen' (lengthCheck_wait d _) fun v hv => ?_
    obtain rfl := lengthCheck_done hv
    exact follows_pscanLoop _ _ hq rfl
  | pflush => exact follows_pflush hq
  | udec =>
    refine (follows_sequenceCheck d (fun _ => rfl) _ s).andThen' (sequenceCheck_wait d (fun _ => rfl) _ s) fun u hu => ?_
    obtain ⟨rfl, -⟩ := sequenceCheck_done hu
    by_cases h : totalOf u.freq ≤ u.emit.toNat
    · rw [if_pos h, if_pos (by exact h)]; rfl
    · rw [if_neg h, if_neg (by exact h)]; exact follows_decodeSymbol hq
  | udecall =>
    refine (follows_sequenceCheck d (fun _ => rfl) _ s).andThen' (sequenceCheck_wait d (fun _ => rfl) _ s) fun u hu => ?_
    obtain ⟨rfl, -⟩ := sequenceCheck_done hu
    exact follows_decodeLoop hq
  | hwrite => exact follows_sendBytes (s := storeWidth _ (clearPacker (zeroOut s))) _ hq
  | hread => exact follows_readMagic d _ 0 (hreadClear s) rfl
  | encodeLength => exact follows_lengthCheck d s
  | decodeStart => rfl
  | send bs => exact follows_sendBytes bs hq
  | countOut => rfl
  | clearPack => rfl
  | pack bits => exact follows_packBits bits hq
  | pscanFrom i => exact follows_pscanLoop _ _ hq rfl
  | walk id => exact follows_walkRule hq id
  | countEmit => rfl
  | decodeLoop => exact follows_decodeLoop hq
  | hreadMagic k => exact follows_readMagic d _ k s rfl
  | hreadBitmap bm => exact follows_readBitmap d _ bm s rfl
  | hreadWidth bm => exact follows_readWidth d bm s
  | hreadField w left v x xs =>
    exact follows_readField (fun n v u => runTasks_one _ u)
      (fun v u => follows_storeField (follows_readFreqs d w xs) w x v u) left v s
  | raise e o x a p => exact follows_raise d e o x a p s

theorem follows_runTasks {d : Late} (ts : List Task) :
    ∀ {s : State}, d.quiet s → Follows d (runTasks ts s) (runTasks ts (d.on s)) := by
  induction ts with
  | nil => exact fun _ => rfl
  | cons t ts ih =>
    exact fun hq => (follows_runTask hq t).andThen (fun u hu => ih (hq.frame ((framed_runTask (.refl _) t).done hu)))
      fun _ _ => rfl

/-- A step outcome with other operands and another note of the position to start from. -/
theorem finish_on {d : Late} {ts : List Task} {s : State} (hq : d.quiet s) (he : d.es = []) (ha : d.as = []) :
    (runTasks ts (d.on s)).finish = match (runTasks ts s).finish with
      | .next t => .next { t with arg := d.arg.getD t.arg, ilen := d.ilen.getD t.ilen }
      | .fault r => .fault r
      | .refused r => .refused r := by
  have hf := follows_runTasks ts hq
  cases h : runTasks ts s with
  | done u =>
    rw [h] at hf
    rw [show _ = _ from hf]
    have hp : (d.on u).paused = u.paused := rfl
    cases hu : u.paused <;> simp only [Flow.finish, hp, hu] <;> simp [stoppedAt, idleAgain, coreTurn, Late.on, he, ha]
  | raised u => rw [h] at hf; rw [show _ = _ from hf]; simp [Late.on, Late.afterRaise, he, ha]
  | halt r => rw [h] at hf; rw [show _ = _ from hf]; rfl
  | wait w r u => rw [h] at hf; rw [hf.2.1 he ha]; simp [stoppedAt, Late.on, he, ha]

/-- A command that stopped goes on with what came late as it runs where that came ahead; and it waits for a stream only
where the stream has nothing. -/
theorem finish_late {d : Late} {ts : List Task} {s t : State} (hq : d.quiet s)
    (hd : d.arg = none ∧ d.ilen = none ∧ d.cont = none ∧ d.waitOn = none) (h : (runTasks ts s).finish = .next t)
    (hb : t.busy = true) :
    (runTasks t.cont (d.on t)).finish = (runTasks ts (d.on s)).finish ∧ (t.waitOn = .src → t.src = []) ∧
      ∀ b, t.waitOn = .snk b → Offered b t.cont t := by
  obtain ⟨h1, h2, h3, h4⟩ := hd
  have hf := follows_runTasks ts hq
  rcases finish_runTasks h with ⟨u, -, -, rfl⟩ | ⟨e, o, x, a, p, u, -, -, rfl⟩ | ⟨w, r, u, -, rfl, hu | ⟨hu, hp, rfl, rfl⟩⟩
  · cases hb
  · simp at hb
  · rw [hu] at hf
    refine ⟨?_, hf.2.2.1, fun b hb => ⟨(hf.2.2.2 b hb).here, (hf.2.2.2 b hb).queued, (hf.2.2.2 b hb).standing,
      (hf.2.2.2 b hb).free⟩⟩
    have e := finish_on (d := ⟨[], [], none, none, some r, some w⟩) (ts := r) (s := d.on u) (.inl rfl) rfl rfl
    have e2 : d.on (stoppedAt w r u) = Late.on ⟨[], [], none, none, some r, some w⟩ (d.on u) := by
      simp [Late.on, stoppedAt, h1, h2, h3, h4]
    rw [hf.1]
    show (runTasks r (d.on (stoppedAt w r u))).finish = _
    rw [e2, e]
    cases (runTasks r (d.on u)).finish <;> rfl
  · rw [hu] at hf
    refine ⟨?_, nofun, nofun⟩
    have h5 : (d.on u).paused = true := hp
    have h6 : (d.on (stoppedAt .ready [] u)).paused = true := hp
    rw [show runTasks ts (d.on s) = _ from hf]
    simp only [Flow.finish, stoppedAt_cont, runTasks_nil, h5, h6, if_true]
    simp [stoppedAt, Late.on, h3, h4]

/-- The note of the position does not matter to what runs from another. -/
theorem finish_stoppedAt (w : Wait) (r ts : List Task) (s : State) :
    (runTasks ts (stoppedAt w r s)).finish = (runTasks ts s).finish := by
  have h := finish_on (d := ⟨[], [], none, none, some r, some w⟩) (ts := ts) (s := s) (.inl rfl) rfl rfl
  rw [show Late.on _ s = stoppedAt w r s by simp [Late.on, stoppedAt]] at h
  rw [h]
  cases (runTasks ts s).finish <;> rfl

/-- The host's answer to the offered byte and the Core's share after it are the SnkWrite the Core waited in
(20_memory.md R69). -/
theorem resume_answerOffer {b : Byte} {r : List Task} {s : State} (hw : s.waitOn = .snk b) (hc : s.cont = .send [b] :: r)
    (hp : s.paused = false) : resume (answerOffer s) = resume s := by
  have hs : resume s = ((snkWrite b s).andThen (runTasks r) r).finish := by
    rw [resume, hc, runTasks_cons, runTask, sendBytes_one]
  rcases answerOffer_cases s with ⟨-, h⟩ | ⟨c, as, h1, h2, h⟩ | ⟨c, as, h1, h2, h⟩
  · rw [h]
  · obtain rfl := Wait.snk.inj (hw.symm.trans h1)
    rw [h, hs, snkWrite, hp, h2]
    exact finish_stoppedAt .ready _ (.countOut :: s.cont.tail) (takeByte b (answerTaken as s)) |>.trans (by rw [hc]; rfl)
  · rw [h, hs, snkWrite, hp, h2]
    exact finish_stoppedAt .ready _ (.raise .ioFailure s.outCount none none .snk :: s.cont.tail) (answerTaken as s)
      |>.trans (by rw [hc]; rfl)

end Sys2Proof.Machine
end

