-- ==== Sys2Proof/Laws/Invariant.lean ====
section
/-! SUPPORT. What every stretch of pseudocode keeps of the invariant, and that none ends in a fault (10_state.md R31, R33,
R34, R57; 43_bitpack.md R180; 41_tree.md R134). -/

namespace Sys2Proof.Machine

/-- The part of the invariant the Core's tables carry while a command runs. -/
structure Data (s : State) : Prop where
  width : s.width.toNat ≤ 4
  rem : s.rem.toNat ≤ 8
  tree : s.treeValid = true → HoldsTree s
  codes : s.codesValid = true → s.treeValid = true ∧ codesOf (nodeAt s) s.root = some s.code

/-- The fields `Data` speaks of, but REM. -/
def tables (s : State) :=
  (s.freq, s.width, s.node, s.nodeDraw, s.nnodes, s.root, s.seq, s.treeValid, s.code, s.codesValid)

theorem HoldsTree.congr {s u : State} (h : HoldsTree s) (hf : u.freq = s.freq) (h1 : u.node = s.node)
    (h2 : u.nnodes = s.nnodes) (h3 : u.root = s.root) (h4 : u.seq = s.seq) : HoldsTree u :=
  ⟨by rw [h1, hf]; exact h.node, by rw [h2, hf]; exact h.nnodes, by rw [h3, hf]; exact h.root,
    by rw [h4, hf]; exact h.seq⟩

theorem Data.congr {s u : State} (h : Data s) (hr : u.rem.toNat ≤ 8) (e : tables u = tables s) : Data u := by
  simp only [tables, Prod.mk.injEq] at e
  obtain ⟨e1, e2, e3, e4, e5, e6, e7, e8, e9, e10⟩ := e
  refine ⟨e2 ▸ h.width, hr, fun ht => ?_, fun hc => ?_⟩
  · exact (h.tree (e8 ▸ ht)).congr e1 e3 e5 e6 e7
  · obtain ⟨h1, h2⟩ := h.codes (e10 ▸ hc)
    have hn : nodeAt u = nodeAt s := funext fun i => by rw [nodeAt, nodeAt, e3, e4]
    exact ⟨e8 ▸ h1, by rw [hn, e6, e9]; exact h2⟩

theorem data_storeWidth {s : State} (h : Data s) {w : Nat} (hw : (BitVec.ofNat 3 w).toNat ≤ 4) :
    Data (storeWidth w s) :=
  ⟨hw, h.rem, fun hv => (h.tree hv).congr rfl rfl rfl rfl rfl, h.codes⟩

/-- Nothing is claimed of the tree and the codes. -/
theorem Data.invalid {u : State} (hw : u.width.toNat ≤ 4) (hr : u.rem.toNat ≤ 8) (ht : u.treeValid = false)
    (hc : u.codesValid = false) : Data u :=
  ⟨hw, hr, fun h => absurd (ht.symm.trans h) nofun, fun h => absurd (hc.symm.trans h) nofun⟩

/-- TREE_VALID after stretches that end well, where they fix it. -/
def through (valid : Bool) (ts : List Task) : Bool := ts.foldl (fun v t => t.treeAfter v) valid

theorem treeAfter_mono {t : Task} {a b : Bool} (h : a = true → b = true) (ha : t.treeAfter a = true) :
    t.treeAfter b = true := by
  cases t <;> first | exact h ha | exact ha

theorem through_mono {a b : Bool} (h : a = true → b = true) (ts : List Task) :
    through a ts = true → through b ts = true := by
  induction ts generalizing a b with
  | nil => exact h
  | cons t ts ih => exact ih fun ha => treeAfter_mono h ha

theorem through_append (a : Bool) (ts us : List Task) : through a (ts ++ us) = through (through a ts) us := by
  simp [through]

theorem positionOk_mono {a b : Bool} (h : a = true → b = true) {ts : List Task} (hp : positionOk a ts) :
    positionOk b ts := by
  induction ts generalizing a b with
  | nil => trivial
  | cons t ts ih => exact ⟨fun e => h (hp.1 e), ih (fun ha => treeAfter_mono h ha) hp.2⟩

theorem positionOk_append {a : Bool} {ts us : List Task} :
    positionOk a (ts ++ us) ↔ positionOk a ts ∧ positionOk (through a ts) us := by
  induction ts generalizing a with
  | nil => simp [positionOk, through]
  | cons t ts ih => simp only [List.cons_append, positionOk, ih, and_assoc]; rfl

/-- How a stretch ends: `v`, if true, says it leaves TREE_VALID = 1 behind; `pk`, that it leaves the packer in order. -/
def Sound (v : Bool) (pk : Prop) : Flow → Prop
  | .done u => Data u ∧ (pk → PackerOk u) ∧ (v = true → u.treeValid = true)
  | .raised _ => True
  | .wait _ r u => Data u ∧ (pk → .clearPack ∈ r ∨ PackerOk u) ∧ (∀ t ∈ r, t.ok) ∧ positionOk u.treeValid r ∧
      (v = true → through u.treeValid r = true)
  | .halt _ => False

theorem Sound.andThen {v v' : Bool} {pk : Prop} {f : Flow} {g : State → Flow} {l : List Task} (h : Sound v pk f)
    (hl : ∀ t ∈ l, t.ok) (hp : positionOk v l) (ht : v' = true → through v l = true)
    (hg : ∀ u, f = .done u → Data u → (pk → PackerOk u) → (v = true → u.treeValid = true) → Sound v' pk (g u)) :
    Sound v' pk (f.andThen g l) := by
  cases f with
  | done u => exact hg u rfl h.1 h.2.1 h.2.2
  | raised u => trivial
  | halt r => exact h
  | wait w r u =>
    obtain ⟨h1, h2, h3, h4, h5⟩ := h
    refine ⟨h1, fun hk => (h2 hk).imp (List.mem_append_left _) id, fun t hm => ?_, ?_, fun hv => ?_⟩
    · exact (List.mem_append.1 hm).elim (h3 t) (hl t)
    · exact positionOk_append.2 ⟨h4, positionOk_mono h5 hp⟩
    · rw [through_append]; exact through_mono h5 l (ht hv)

theorem Sound.weaken {v v' : Bool} {pk pk' : Prop} {f : Flow} (h : Sound v pk f) (hv : v' = true → v = true)
    (hk : pk' → pk) : Sound v' pk' f := by
  cases f with
  | done u => exact ⟨h.1, h.2.1 ∘ hk, h.2.2 ∘ hv⟩
  | raised u => trivial
  | halt r => exact h
  | wait w r u => exact ⟨h.1, h.2.1 ∘ hk, h.2.2.1, h.2.2.2.1, h.2.2.2.2 ∘ hv⟩

/-- A stretch that leaves TREE_VALID and the packer alone or keeps them. -/
def Keeps (s : State) (f : Flow) : Prop := Sound s.treeValid (PackerOk s) f

/-- Tasks that say nothing of the tree. -/
def Plain (valid : Bool) (l : List Task) : Prop :=
  ∀ t ∈ l, t.ok ∧ t.treeAfter = id ∧ (t = .decodeLoop → valid = true)

theorem Plain.through {valid : Bool} {l : List Task} (h : Plain valid l) :
    through valid l = valid ∧ positionOk valid l := by
  induction l with
  | nil => exact ⟨rfl, trivial⟩
  | cons t l ih =>
    obtain ⟨h1, h2⟩ := ih fun t ht => h t (List.mem_cons_of_mem _ ht)
    obtain ⟨-, h3, h4⟩ := h t List.mem_cons_self
    exact ⟨by rw [Machine.through, List.foldl_cons, h3]; exact h1, h4, by rw [h3]; exact h2⟩

theorem plain_one {valid : Bool} {t : Task} (h1 : t.ok) (h2 : t.treeAfter = id)
    (h3 : t = .decodeLoop → valid = true := by nofun) : Plain valid [t] := fun u hu => by
  obtain rfl := List.mem_singleton.1 hu
  exact ⟨h1, h2, h3⟩

theorem Keeps.andThen {s : State} {f : Flow} {g : State → Flow} {l : List Task} (h : Keeps s f)
    (hl : Plain s.treeValid l)
    (hg : ∀ u, f = .done u → Data u → (s.treeValid = true → u.treeValid = true) → Keeps u (g u)) :
    Keeps s (f.andThen g l) :=
  Sound.andThen h (fun t ht => (hl t ht).1) hl.through.2 (fun hv => by rw [hl.through.1]; exact hv)
    fun u hu hd hp hv => (hg u hu hd hv).weaken hv hp

theorem Keeps.done {s : State} (h : Data s) : Keeps s (.done s) := ⟨h, id, id⟩

theorem keeps_wait {s : State} (h : Data s) {r : List Task} (hr : Plain s.treeValid r) (w : Wait) :
    Keeps s (.wait w r s) :=
  ⟨h, .inr, fun t ht => (hr t ht).1, hr.through.2, fun hv => by rw [hr.through.1]; exact hv⟩

theorem PackerOk.congr {s u : State} (h : PackerOk s) (ha : u.acc = s.acc) (hn : u.nbits = s.nbits) : PackerOk u := by
  rw [PackerOk, ha, hn]; exact h

/-- The same state but for what neither `Data` nor the packer speaks of. -/
theorem Keeps.of {s u : State} (h : Data s) {f : Flow} (e : tables u = tables s) (hr : u.rem.toNat ≤ 8)
    (ha : u.acc = s.acc) (hn : u.nbits = s.nbits) (hk : Data u → Keeps u f) : Keeps s f := by
  have ht : u.treeValid = s.treeValid := by simp only [tables, Prod.mk.injEq] at e; exact e.2.2.2.2.2.2.2.1
  exact (hk (h.congr hr e)).weaken (fun hv => ht.trans hv) fun hp => hp.congr ha hn

/-- A raise not yet taken leaves everything as it is (60_exceptions.md R243). -/
theorem keeps_raising {s : State} (h : Data s) (e : ErrKind) (o : BitVec 64) (x a : Option Byte) (p : Port) :
    Keeps s (raising e o x a p s) := by
  rcases raising_cases e o x a p s with ⟨-, hr⟩ | ⟨-, hr⟩ <;> rw [hr]
  · exact keeps_wait h (plain_one (t := .raise e o x a p) trivial rfl) _
  · trivial

theorem keeps_withSrcByte {s : State} (h : Data s) {here : List Task} {k : Byte → State → Flow}
    (hh : Plain s.treeValid here) (hk : ∀ b es, Keeps s (k b (countIn (srcTaken es s)))) :
    Keeps s (withSrcByte here s k) := by
  rcases withSrcByte_cases here s k with ⟨w, hw⟩ | ⟨b, es, h1, h2⟩ | ⟨es, h1, h2⟩ | ⟨es, h1, h2⟩
  · rw [hw]; exact keeps_wait h hh w
  · rw [h2]; exact hk b es
  all_goals
    rw [h2]
    exact Keeps.of (u := srcTaken es s) h rfl h.rem rfl rfl fun hd => keeps_raising hd _ _ _ _ _

theorem keeps_snkWrite {s : State} (h : Data s) (b : Byte) : Keeps s (snkWrite b s) := by
  rcases snkWrite_cases b s with ⟨w, hw⟩ | ⟨as, hw⟩ | ⟨as, hw⟩ <;> rw [hw]
  · exact keeps_wait h (plain_one (t := .send [b]) trivial rfl) w
  · exact Keeps.of (u := deliver b (answerTaken as s)) h rfl h.rem rfl rfl .done
  · exact Keeps.of (u := answerTaken as s) h rfl h.rem rfl rfl fun hd => keeps_raising hd _ _ _ _ _

theorem keeps_sendBytes (bs : List Byte) : ∀ {s : State}, Data s → Keeps s (sendBytes bs s) := by
  induction bs with
  | nil => exact .done
  | cons b bs ih =>
    refine fun h => (keeps_snkWrite h b).andThen ?_ fun u _ hd _ => ih hd
    cases bs with
    | nil => exact fun _ => nofun
    | cons c cs => exact plain_one trivial rfl

/-- Emitting a byte leaves the packer in order, or clears it later (43_bitpack.md R170, R174). -/
theorem sound_emitByte {s : State} (h : Data s) (b : Byte) : Sound s.treeValid True (emitByte b s) := by
  rcases snkWrite_cases b s with ⟨w, hw⟩ | ⟨as, hw⟩ | ⟨as, hw⟩ <;> rw [emitByte, hw]
  · exact ⟨h, fun _ => .inl (by simp), by simp [Task.ok], by simp [positionOk], id⟩
  · show Sound _ _ (.done (clearPacker (deliver b (answerTaken as s))))
    exact ⟨h.congr h.rem (by simp [tables, deliver, answerTaken]), fun _ => packerOk_zero rfl rfl, id⟩
  · rcases raising_cases .ioFailure s.outCount none none .snk (answerTaken as s) with ⟨-, hr⟩ | ⟨-, hr⟩ <;> rw [hr]
    · exact ⟨h.congr h.rem rfl, fun _ => .inl (by simp), by simp [Task.ok], by simp [positionOk], id⟩
    · trivial

theorem keeps_packBit {s : State} (h : Data s) (b : Bool) : Keeps s (packBit b s) := by
  have hd : Data (pushBit b s) := h.congr h.rem rfl
  by_cases h8 : (pushBit b s).nbits = 8
  · rw [packBit, if_pos h8]
    exact (sound_emitByte hd _).weaken id fun _ => trivial
  · rw [packBit, if_neg h8]
    refine ⟨hd, fun hp => ?_, id⟩
    have h7 : s.nbits.toNat ≠ 7 := fun h7 => h8 (BitVec.eq_of_toNat_eq (by rw [pushBit_nbits_toNat hp, h7]; rfl))
    have := packBit_partial hp b h7
    rw [packBit, if_neg h8] at this
    rw [Flow.done.inj this]
    exact packerOk_afterPacking _ _

theorem keeps_packBits (bits : List Bool) : ∀ {s : State}, Data s → Keeps s (packBits bits s) := by
  induction bits with
  | nil => exact .done
  | cons b bits ih => exact fun h => (keeps_packBit h b).andThen (plain_one trivial rfl) fun u _ hd _ => ih hd

theorem keeps_packSym {s : State} (h : Data s) (x : Sym) (o : BitVec 64) : Keeps s (packSym x o s) := by
  unfold packSym
  split
  · exact keeps_packBits _ h
  · exact keeps_raising h _ _ _ _ _

theorem keeps_pscanLoop (n : Nat) : ∀ (i : Nat) {s : State}, Data s → Keeps s (pscanLoop n i s) := by
  induction n with
  | zero => exact fun _ _ => .done
  | succ n ih =>
    exact fun i s h => (keeps_packSym h _ _).andThen (plain_one trivial rfl) fun u _ hd _ => ih (i + 1) hd

theorem keeps_lengthCheck {s : State} (h : Data s) : Keeps s (lengthCheck s) := by
  unfold lengthCheck
  split
  · exact keeps_raising h _ _ _ _ _
  · exact .done h

theorem keeps_sequenceCheck {s : State} (h : Data s) (flag : State → Bool) (op : Byte) :
    Keeps s (sequenceCheck flag op s) := by
  unfold sequenceCheck
  split
  · exact .done h
  · exact keeps_raising h _ _ _ _ _

theorem sequenceCheck_flag {flag : State → Bool} {op : Byte} {s u : State} (h : sequenceCheck flag op s = .done u) :
    flag u = true := by
  unfold sequenceCheck at h
  split at h
  · obtain rfl := Flow.done.inj h; assumption
  · exact absurd h (raising_ne_done _ _ _ _ _ _ _)

theorem plain_nil (valid : Bool) : Plain valid [] := fun _ => nofun

theorem keeps_pflush {s : State} (h : Data s) : Keeps s (pflushRule s) := by
  unfold pflushRule
  split
  · exact .done h
  · exact (sound_emitByte h _).weaken id fun _ => trivial

theorem dropBit_rem_le {s : State} (h : s.rem ≠ 0) : (dropBit s).rem.toNat = s.rem.toNat - 1 := by
  have h0 : s.rem.toNat ≠ 0 := fun h' => h (BitVec.eq_of_toNat_eq h')
  have := s.rem.isLt
  show (s.rem - 1).toNat = _
  rw [BitVec.toNat_sub]
  simp; omega

theorem keeps_walkFrom (n : Nat) : ∀ (id : NodeId) {s : State}, Data s → Keeps s (walkFrom n id s) := by
  induction n with
  | zero => exact fun i _ h => keeps_wait h (plain_one (t := .walk i) trivial rfl) _
  | succ n ih =>
    intro i s h
    rw [walkFrom]
    split
    · refine (keeps_snkWrite h _).andThen (plain_one trivial rfl) fun u _ hd _ => ?_
      exact Keeps.of (u := countEmit u) hd rfl hd.rem rfl rfl .done
    · simp only [unpackBit, takeBit]
      split
      · refine keeps_withSrcByte h (plain_one (t := .walk i) trivial rfl) fun b es => ?_
        exact Keeps.of (u := dropBit (loadCur b (countIn (srcTaken es s)))) h (by simp [tables]) (by show (8 - 1 : BitVec 4).toNat ≤ 8; decide)
          rfl rfl fun hd => ih _ hd
      · rename_i h0
        exact Keeps.of (u := dropBit s) h (by simp [tables]) (by rw [dropBit_rem_le h0]; have := h.rem; omega) rfl rfl fun hd => ih _ hd

/-- A decode step finds a root: TREE_VALID = 1 and EMIT < TOTAL (43_bitpack.md R180). -/
theorem keeps_decodeSymbol {s : State} (h : Data s) (hv : s.treeValid = true) (he : s.emit.toNat < totalOf s.freq) :
    Keeps s (decodeSymbol s) := by
  unfold decodeSymbol
  cases hr : s.root with
  | some r => exact keeps_walkFrom _ _ h
  | none =>
    have hn : 0 < nsymOf s.freq := Nat.pos_of_ne_zero fun h0 => by
      rw [totalOf_eq_zero.2 h0] at he; omega
    obtain ⟨r, T, h1, -⟩ := tree_of_pos hn
    rw [(h.tree hv).root, h1] at hr
    cases hr

theorem keeps_decodeSymbols (n : Nat) : ∀ {s : State}, Data s → s.treeValid = true →
    n = totalOf s.freq - s.emit.toNat → Keeps s (decodeSymbols n s) := by
  induction n with
  | zero => exact fun h _ _ => .done h
  | succ n ih =>
    intro s h hv hn
    refine (keeps_decodeSymbol h hv (by omega)).andThen (plain_one trivial rfl fun _ => hv) fun u hu hd ht => ?_
    exact ih hd (ht hv) (left_decodeSymbol hu hn)

/-! ## The stretches that write FREQ, the tree, the codes -/

theorem data_writeFreq {s : State} (h : Data s) (f : Vector Word 256) : Data (storeFreq f s) :=
  .invalid (by show 0 ≤ 4; omega) h.rem rfl rfl

/-- A stretch that keeps the packer and may end the validity of the tree. -/
def Sets (s : State) (f : Flow) : Prop := Sound false (PackerOk s) f

theorem Sets.done {s u : State} (hd : Data u) (ha : u.acc = s.acc) (hn : u.nbits = s.nbits) : Sets s (.done u) :=
  ⟨hd, fun h => h.congr ha hn, nofun⟩

theorem sets_raising {s : State} (h : Data s) (e : ErrKind) (o : BitVec 64) (x a : Option Byte) (p : Port) :
    Sets s (raising e o x a p s) := Sound.weaken (keeps_raising h e o x a p) nofun id

theorem sets_countSym {s : State} (h : Data s) (x : Sym) (o : BitVec 64) : Sets s (countSym x o s) := by
  unfold countSym
  split
  · exact sets_raising h _ _ _ _ _
  · exact .done (data_writeFreq h _) rfl rfl

theorem sets_fscanLoop (n : Nat) : ∀ (i : Nat) {s : State}, Data s → Sets s (fscanLoop n i s) := by
  induction n with
  | zero => exact fun _ _ h => .done h rfl rfl
  | succ n ih =>
    exact fun i s h => Sound.andThen (sets_countSym h _ _) nofun trivial nofun fun u _ hd hp _ =>
      Sound.weaken (ih (i + 1) hd) nofun hp

/-- What a position inside HREAD needs to be in order. -/
theorem sets_withSrcByte {s : State} (h : Data s) {t : Task} {k : Byte → State → Flow} (hok : t.ok)
    (ht : t ≠ .decodeLoop) (hk : ∀ b es, Sets s (k b (countIn (srcTaken es s)))) : Sets s (withSrcByte [t] s k) := by
  rcases withSrcByte_cases [t] s k with ⟨w, hw⟩ | ⟨b, es, h1, h2⟩ | ⟨es, h1, h2⟩ | ⟨es, h1, h2⟩
  · rw [hw]
    refine ⟨h, .inr, fun u hu => ?_, ⟨fun e => absurd e ht, trivial⟩, nofun⟩
    obtain rfl := List.mem_singleton.1 hu; exact hok
  · rw [h2]; exact hk b es
  all_goals
    rw [h2]
    exact (sets_raising (h.congr h.rem rfl : Data (srcTaken es s)) _ _ _ _ _).weaken nofun fun hp => hp.congr rfl rfl

theorem Sets.of {s u : State} (h : Data s) {f : Flow} (e : tables u = tables s) (hr : u.rem = s.rem)
    (ha : u.acc = s.acc) (hn : u.nbits = s.nbits) (hk : Data u → Sets u f) : Sets s f :=
  (hk (h.congr (hr ▸ h.rem) e)).weaken nofun fun hp => hp.congr ha hn

theorem sets_readField {w : Nat} {x : Sym} {xs : List Sym} {k : Nat → State → Flow} (h1 : 1 ≤ w) (h4 : w ≤ 4)
    (hk : ∀ v (s : State), Data s → v < 256 ^ w → Sets s (k v s)) (n : Nat) : ∀ (v : Nat) {s : State}, Data s → n ≤ w →
      v < 256 ^ (w - n) → Sets s (readField (fun left v => [.hreadField w left v x xs]) k n v s) := by
  induction n with
  | zero => exact fun v s h _ hv => hk v s h hv
  | succ n ih =>
    intro v s h hn hv
    refine sets_withSrcByte h ⟨h1, h4, hn, hv⟩ nofun fun b es => ?_
    refine Sets.of (u := countIn (srcTaken es s)) h rfl rfl rfl rfl fun hd => ih _ hd (by omega) ?_
    have hb := b.isLt
    rw [show w - n = w - (n + 1) + 1 by omega, Nat.pow_succ]
    have : v + 1 ≤ 256 ^ (w - (n + 1)) := hv
    have := Nat.mul_le_mul_right 256 this
    omega

theorem sets_storeField {w : Nat} {x : Sym} {k : State → Flow} (hk : ∀ s : State, Data s → Sets s (k s)) (v : Nat)
    {s : State} (h : Data s) : Sets s (storeField w x k v s) := by
  unfold storeField
  split
  · exact sets_raising h _ _ _ _ _
  · exact (hk _ (data_writeFreq h _)).weaken nofun fun hp => hp.congr rfl rfl

theorem sets_readFreqs {w : Nat} (h1 : 1 ≤ w) (h4 : w ≤ 4) (xs : List Sym) :
    ∀ {s : State}, Data s → Sets s (readFreqs w xs s) := by
  induction xs with
  | nil =>
    exact fun h => .done (data_storeWidth h (by rw [BitVec.toNat_ofNat]; omega)) rfl rfl
  | cons x xs ih =>
    exact fun h => sets_readField h1 h4 (fun v s h _ => sets_storeField (fun s h => ih h) v h) w 0 h (Nat.le_refl _)
      (by simp)

theorem sets_readWidth {bm : List Byte} (hb : bm.length = 32) {s : State} (h : Data s) : Sets s (readWidth bm s) :=
  sets_withSrcByte h hb nofun fun b es => by
    split
    · exact Sets.of (u := countIn (srcTaken es s)) h rfl rfl rfl rfl fun hd => sets_raising hd _ _ _ _ _
    · exact Sets.of (u := countIn (srcTaken es s)) h rfl rfl rfl rfl (sets_readFreqs (by omega) (by omega) _)

theorem sets_readBitmap (n : Nat) : ∀ (bm : List Byte) {s : State}, Data s → n + bm.length = 32 →
    Sets s (readBitmap n bm s) := by
  induction n with
  | zero => exact fun bm s h hb => sets_readWidth (by omega) h
  | succ n ih =>
    exact fun bm s h hb => sets_withSrcByte h (show bm.length < 32 by omega) nofun fun b es =>
      Sets.of (u := countIn (srcTaken es s)) h rfl rfl rfl rfl fun hd => ih _ hd (by simp; omega)

theorem sets_readMagic (ms : List Byte) : ∀ (k : Nat) {s : State}, Data s → k + ms.length = 4 →
    Sets s (readMagic ms k s) := by
  induction ms with
  | nil => exact fun k s h _ => sets_readBitmap _ _ h rfl
  | cons m ms ih =>
    refine fun k s h hk => sets_withSrcByte h (show k < 4 by simp at hk; omega) nofun fun b es => ?_
    split
    · exact Sets.of (u := countIn (srcTaken es s)) h rfl rfl rfl rfl fun hd => ih _ hd (by simp at hk; omega)
    · exact Sets.of (u := countIn (srcTaken es s)) h rfl rfl rfl rfl fun hd => sets_raising hd _ _ _ _ _

/-! ## Every stretch -/

theorem minWidth_ofNat_le (m : Nat) : (BitVec.ofNat 3 (minWidth m)).toNat ≤ 4 := by
  have := minWidth_range m
  rw [BitVec.toNat_ofNat]; omega

/-- Every stretch keeps the invariant's part, and none ends in a fault. -/
theorem sound_runTask {s : State} (h : Data s) {t : Task} (hok : t.ok) (hp : t = .decodeLoop → s.treeValid = true) :
    Sound (t.treeAfter s.treeValid) (t = .clearPack ∨ PackerOk s) (runTask t s) := by
  have keeps : ∀ {f}, Keeps s f → t ≠ .clearPack → t.treeAfter = id →
      Sound (t.treeAfter s.treeValid) (t = .clearPack ∨ PackerOk s) f := fun hk h1 h2 => by
    rw [h2]; exact Sound.weaken hk (fun hv => hv) fun ho => ho.resolve_left h1
  have sets : ∀ {f}, Sets s f → t ≠ .clearPack → t.treeAfter s.treeValid = false →
      Sound (t.treeAfter s.treeValid) (t = .clearPack ∨ PackerOk s) f := fun hk h1 h2 => by
    rw [h2]; exact Sound.weaken hk (fun hv => hv) fun ho => ho.resolve_left h1
  cases t with
  | start =>
    refine keeps ?_ nofun rfl
    rcases startRule_cases s with ⟨-, hu⟩ | ⟨-, hu⟩ <;> rw [runTask, hu]
    · exact keeps_wait h (plain_one (t := .start) trivial rfl) _
    · exact Keeps.of (u := coreTurn s) h rfl h.rem rfl rfl .done
  | fclr => exact sets (.done (data_writeFreq h _) rfl rfl) nofun rfl
  | fadd => exact sets (sets_countSym h _ _) nofun rfl
  | fset => exact sets (.done (data_writeFreq h _) rfl rfl) nofun rfl
  | fscan =>
    refine sets ?_ nofun rfl
    refine Sound.andThen (v := false) (Sound.weaken (keeps_lengthCheck h) nofun id) nofun trivial nofun fun u _ hd hp _ => ?_
    exact (sets_fscanLoop (scanLength u) 0 (.invalid (Nat.zero_le _) hd.rem rfl rfl : Data (freqChanged u))).weaken nofun
      fun hk => (hp hk).congr rfl rfl
  | fwidth =>
    refine keeps ?_ nofun rfl
    exact ⟨data_storeWidth h (minWidth_ofNat_le _), id, id⟩
  | tbuild =>
    refine ⟨⟨h.width, h.rem, fun _ => holdsTree_storeTree s, nofun⟩, fun ho => ?_, fun _ => rfl⟩
    exact (ho.resolve_left nofun).congr rfl rfl
  | cgen =>
    refine keeps ?_ nofun rfl
    refine (keeps_sequenceCheck h _ _).andThen (plain_nil _) fun u hu hd _ => ?_
    have hv := sequenceCheck_flag hu
    obtain ⟨t, -, ht⟩ := (hd.tree hv).codesOf
    rw [ht]
    exact ⟨⟨hd.width, hd.rem, fun hv => (hd.tree hv).congr rfl rfl rfl rfl rfl, fun _ => ⟨hv, ht⟩⟩, id, id⟩
  | psym =>
    exact keeps ((keeps_sequenceCheck h _ _).andThen (plain_nil _) fun u _ hd _ => keeps_packSym hd _ _) nofun rfl
  | pscan =>
    exact keeps ((keeps_sequenceCheck h _ _).andThen (plain_nil _) fun u _ hd _ =>
      (keeps_lengthCheck hd).andThen (plain_nil _) fun v _ hd _ => keeps_pscanLoop _ _ hd) nofun rfl
  | pflush => exact keeps (keeps_pflush h) nofun rfl
  | udec =>
    refine keeps ((keeps_sequenceCheck h _ _).andThen (plain_nil _) fun u hu hd _ => ?_) nofun rfl
    split
    · exact .done hd
    · exact keeps_decodeSymbol hd (sequenceCheck_flag hu) (by omega)
  | udecall =>
    exact keeps ((keeps_sequenceCheck h _ _).andThen (plain_nil _) fun u hu hd _ =>
      keeps_decodeSymbols _ hd (sequenceCheck_flag hu) rfl) nofun rfl
  | hwrite =>
    refine keeps ?_ nofun rfl
    have hd : Data (storeWidth (minWidth (maxFreq s.freq)) (clearPacker (zeroOut s))) :=
      data_storeWidth (h.congr h.rem rfl : Data (clearPacker (zeroOut s))) (minWidth_ofNat_le _)
    exact Sound.weaken (keeps_sendBytes _ hd) id fun _ => packerOk_zero rfl rfl
  | hread =>
    refine sets ?_ nofun rfl
    have hd : Data (hreadClear s) := .invalid (Nat.zero_le _) (Nat.zero_le _) rfl rfl
    exact Sound.weaken (sets_readMagic _ 0 hd rfl) nofun fun hp => hp.congr rfl rfl
  | encodeLength => exact keeps (keeps_lengthCheck h) nofun rfl
  | decodeStart => exact keeps (Keeps.of (u := zeroOut s) h rfl h.rem rfl rfl .done) nofun rfl
  | send bs => exact keeps (keeps_sendBytes bs h) nofun rfl
  | countOut => exact keeps (Keeps.of (u := countOut s) h rfl h.rem rfl rfl .done) nofun rfl
  | clearPack => exact ⟨h.congr h.rem rfl, fun _ => packerOk_zero rfl rfl, id⟩
  | pack bits => exact keeps (keeps_packBits bits h) nofun rfl
  | pscanFrom i => exact keeps (keeps_pscanLoop _ _ h) nofun rfl
  | walk id => exact keeps (keeps_walkFrom _ _ h) nofun rfl
  | countEmit => exact keeps (Keeps.of (u := countEmit s) h rfl h.rem rfl rfl .done) nofun rfl
  | decodeLoop => exact keeps (keeps_decodeSymbols _ h (hp rfl) rfl) nofun rfl
  | hreadMagic k =>
    exact sets (sets_readMagic _ k h (by have : k < 4 := hok; simp; omega)) nofun rfl
  | hreadBitmap bm =>
    exact sets (sets_readBitmap _ bm h (by have : bm.length < 32 := hok; omega)) nofun rfl
  | hreadWidth bm => exact sets (sets_readWidth hok h) nofun rfl
  | hreadField w left v x xs =>
    obtain ⟨h1, h4, hl, hv⟩ := hok
    exact sets (sets_readField h1 h4 (fun v s h _ => sets_storeField (fun s h => sets_readFreqs h1 h4 _ h) v h) left v h hl
      hv) nofun rfl
  | raise e o x a p => exact keeps (keeps_raising h e o x a p) nofun rfl

/-- Stretches one after another, from a state in order: none ends in a fault, and where they end or stop the state is in
order again. -/
theorem sound_runTasks (ts : List Task) : ∀ {s : State}, Data s → (.clearPack ∈ ts ∨ PackerOk s) → (∀ t ∈ ts, t.ok) →
    positionOk s.treeValid ts →
    match runTasks ts s with
    | .done u => Data u ∧ PackerOk u
    | .raised _ => True
    | .wait _ r u => Data u ∧ (.clearPack ∈ r ∨ PackerOk u) ∧ (∀ t ∈ r, t.ok) ∧ positionOk u.treeValid r
    | .halt _ => False := by
  induction ts with
  | nil => exact fun h hp _ _ => ⟨h, hp.resolve_left nofun⟩
  | cons t ts ih =>
    intro s h hp hok hpos
    have ht := sound_runTask h (hok t List.mem_cons_self) hpos.1
    rw [runTasks_cons]
    have hpk : ∀ {P : Prop}, (.clearPack ∈ ts → P) → (t = .clearPack ∨ PackerOk s → P) → P := fun h1 h2 =>
      hp.elim (fun hm => (List.mem_cons.1 hm).elim (fun e => h2 (.inl e.symm)) h1) fun hk => h2 (.inr hk)
    cases hf : runTask t s with
    | done u =>
      rw [hf] at ht
      exact ih ht.1 (hpk .inl fun hk => .inr (ht.2.1 hk)) (fun t' h' => hok t' (List.mem_cons_of_mem _ h'))
        (positionOk_mono ht.2.2 hpos.2)
    | raised u => trivial
    | halt r => rw [hf] at ht; exact ht
    | wait w r u =>
      rw [hf] at ht
      obtain ⟨h1, h2, h3, h4, h5⟩ := ht
      refine ⟨h1, ?_, fun t' h' => ?_, positionOk_append.2 ⟨h4, positionOk_mono h5 hpos.2⟩⟩
      · exact hpk (fun hm => .inl (List.mem_append_right _ hm)) fun hk => (h2 hk).imp (List.mem_append_left _) id
      · exact (List.mem_append.1 h').elim (h3 t') fun h' => hok t' (List.mem_cons_of_mem _ h')

/-! ## The invariant where a command ends, raises or stops -/

theorem inv_idle {s : State} (hc : s.cfg.wf) (hm : s.ibuf.wf) (hb : ∀ c ∈ s.ibuf, c.1 < s.cfg.ibufSize) (hd : Data s)
    (hp : PackerOk s) (hbusy : s.cont = [] ∧ s.waitOn = .ready) (he : s.err = false) (hec : s.errcode = 0)
    (hdet : s.errOffset = 0 ∧ s.errExpected = 0 ∧ s.errActual = 0 ∧ s.errValid = false ∧ s.errPort = false) : Inv s where
  cfg := hc
  ibuf := hm
  ibufBound := hb
  idle _ := hbusy
  offer b h := by rw [hbusy.2] at h; cases h
  errState h := absurd (he.symm.trans h) nofun
  errcode := by rw [he]; exact hec
  errDetail _ := hdet
  width _ := hd.width
  rem _ := hd.rem
  packer _ := .inr hp
  tree := hd.tree
  codes := hd.codes
  tasks := by rw [hbusy.1]; nofun
  position := by rw [hbusy.1]; trivial

/-- The error codes of R241 are 1 to 10. -/
theorem code_range (e : ErrKind) : 1 ≤ e.code.toNat ∧ e.code.toNat ≤ 10 := by cases e <;> decide

theorem inv_raise {s : State} (hc : s.cfg.wf) (hm : s.ibuf.wf) (hb : ∀ c ∈ s.ibuf, c.1 < s.cfg.ibufSize) (e : ErrKind)
    (o : BitVec 64) (x a : Option Byte) (p : Port) : Inv (raise e o x a p s) where
  cfg := by simpa using hc
  ibuf := by simpa using hm
  ibufBound := by simpa using hb
  idle _ := by simp
  offer b h := by simp at h
  errState _ := by simp
  errcode := by simp [code_range]
  errDetail h := by simp at h
  width h := by simp at h
  rem h := by simp at h
  packer h := by simp at h
  tree h := by simp at h
  codes h := by simp at h
  tasks := by simp
  position := by simp [positionOk]

/-- A run of stretches from a state in order: no fault, and the invariant where it ends, raises or stops. -/
theorem inv_finish {s : State} (hc : s.cfg.wf) (hm : s.ibuf.wf) (hb : ∀ c ∈ s.ibuf, c.1 < s.cfg.ibufSize) (hd : Data s)
    (hbusy : s.busy = true) (he : s.err = false) (hec : s.errcode = 0)
    (hdet : s.errOffset = 0 ∧ s.errExpected = 0 ∧ s.errActual = 0 ∧ s.errValid = false ∧ s.errPort = false)
    {ts : List Task} (hp : .clearPack ∈ ts ∨ PackerOk s) (hok : ∀ t ∈ ts, t.ok) (hpos : positionOk s.treeValid ts) :
    (∀ r, (runTasks ts s).finish ≠ .fault r) ∧ ∀ t, (runTasks ts s).finish = .next t → Inv t := by
  have hs := sound_runTasks ts hd hp hok hpos
  have hf := framed_runTasks ts (Frame.refl s)
  have hw := follows_runTasks (d := ⟨[], [], none, none, none, none⟩) (s := s) ts (.inl rfl)
  have kept : ∀ {u : State}, Frame s u → u.cfg.wf ∧ u.ibuf.wf ∧ (∀ c ∈ u.ibuf, c.1 < u.cfg.ibufSize) ∧
      (u.errOffset = 0 ∧ u.errExpected = 0 ∧ u.errActual = 0 ∧ u.errValid = false ∧ u.errPort = false) := fun {u} h => by
    rw [h.cfg, h.ibuf, h.errOffset, h.errExpected, h.errActual, h.errValid, h.errPort]; exact ⟨hc, hm, hb, hdet⟩
  have stopped : ∀ {w : Wait} {r : List Task} {u : State}, Frame s u → Data u → (.clearPack ∈ r ∨ PackerOk u) →
      (∀ t ∈ r, t.ok) → positionOk u.treeValid r → (∀ b, w = .snk b → Offered b r u) → Inv (stoppedAt w r u) :=
    fun {w r u} hf h1 h2 h3 h4 ho => by
    obtain ⟨k1, k2, k3, k4⟩ := kept hf
    have hb' : (stoppedAt w r u).busy = true := (Frame.busy hf).trans hbusy
    have he' : (stoppedAt w r u).err = false := (Frame.err hf).trans he
    exact {
      cfg := k1
      ibuf := k2
      ibufBound := k3
      idle := fun h => absurd (hb'.symm.trans h) nofun
      offer := fun b h => ⟨(ho b h).here, (ho b h).queued, (ho b h).standing⟩
      errState := fun h => absurd (he'.symm.trans h) nofun
      errcode := by rw [he']; exact (Frame.errcode hf).trans hec
      errDetail := fun _ => k4
      width := fun _ => h1.width
      rem := fun _ => h1.rem
      packer := fun _ => h2.imp id fun h => h.congr rfl rfl
      tree := fun h => (h1.tree h).congr rfl rfl rfl rfl rfl
      codes := h1.codes
      tasks := h3
      position := h4 }
  generalize runTasks ts s = f at hs hf hw
  cases f with
  | halt r => exact absurd hs id
  | done u =>
    obtain ⟨k1, k2, k3, k4⟩ := kept hf
    rcases Flow.finish_done_cases u with ⟨-, hu⟩ | ⟨-, hu⟩ <;> rw [hu] <;> refine ⟨nofun, fun t ht => ?_⟩ <;>
      obtain rfl := Host.Outcome.next.inj ht
    · exact stopped hf hs.1 (.inr hs.2) nofun trivial nofun
    exact inv_idle (s := idleAgain (coreTurn u)) k1 k2 k3 (hs.1.congr hs.1.rem rfl) (hs.2.congr rfl rfl) ⟨rfl, rfl⟩
      ((Frame.err hf).trans he) ((Frame.errcode hf).trans hec) k4
  | raised u =>
    refine ⟨nofun, fun t ht => ?_⟩
    obtain rfl := Host.Outcome.next.inj ht
    obtain ⟨e, o, x, a, p, v, hv, -, rfl⟩ := hf
    obtain ⟨k1, k2, k3, -⟩ := kept hv
    exact inv_raise (s := coreTurn v) k1 k2 k3 e o x a p
  | wait w r u =>
    refine ⟨nofun, fun t ht => ?_⟩
    obtain rfl := Host.Outcome.next.inj ht
    obtain ⟨h1, h2, h3, h4⟩ := hs
    exact stopped hf h1 h2 h3 h4 hw.2.2.2

/-! ## The invariant where the host moves -/

theorem inv_softReset {s : State} (h : Inv s) : Inv (softReset s) :=
  inv_idle h.cfg h.ibuf h.ibufBound (.invalid (Nat.zero_le _) (Nat.zero_le _) rfl rfl) (packerOk_zero rfl rfl) ⟨rfl, rfl⟩
    rfl rfl ⟨rfl, rfl, rfl, rfl, rfl⟩

theorem inv_powerOnReset {s : State} (h : Inv s) : Inv (powerOnReset s) :=
  inv_idle h.cfg List.Pairwise.nil nofun (.invalid (Nat.zero_le _) (Nat.zero_le _) rfl rfl) (packerOk_zero rfl rfl)
    ⟨rfl, rfl⟩ rfl rfl ⟨rfl, rfl, rfl, rfl, rfl⟩

/-- The host sets what is its own; an offer, if one stands, stays unanswered. -/
theorem Inv.posted {s u : State} (h : Inv s) (hu : Posted s u)
    (ho : ∀ b, u.waitOn = .snk b → u.snkAns = [] ∧ u.snkStanding = none) : Inv u := by
  obtain ⟨arg, ilen, fs, cs, ib, src, sa, ss, ops, no, dr, hib, rfl⟩ := hu
  have hm : ib.wf ∧ ∀ c ∈ ib, c.1 < s.cfg.ibufSize := by
    rcases hib with rfl | ⟨i, b, hi, rfl⟩
    · exact ⟨h.ibuf, h.ibufBound⟩
    · exact ⟨Memory.wf_write i b h.ibuf, fun c hc => (Memory.mem_write hc).elim (fun e => e ▸ hi) (h.ibufBound c)⟩
  exact { h with
    ibuf := hm.1
    ibufBound := hm.2
    offer := fun b hb => ⟨(h.offer b hb).1, ho b hb⟩
    packer := fun he => (h.packer he).imp id fun hp => hp.congr rfl rfl
    tree := fun hv => (h.tree hv).congr rfl rfl rfl rfl rfl }

/-- A command that waited on SNK stands, answered, at another position: the rest of its SnkWrite is `t`. -/
theorem Inv.resumed {s : State} {b : Byte} (h : Inv s) (hw : s.waitOn = .snk b) {t : Task} (hok : t.ok)
    (ht : t.treeAfter = id) (hd : t ≠ .decodeLoop) (bs : List Byte) (as : List SnkAns) (st : Option SnkAns)
    (sch : List Agent) :
    Inv { s with
      snk := bs, snkAns := as, snkStanding := st, sched := sch, cont := t :: s.cont.tail, waitOn := .ready } := by
  obtain ⟨⟨r, hc⟩, -, -⟩ := h.offer b hw
  have hb : s.busy = true := by
    cases hb : s.busy
    · exact absurd ((h.idle hb).2.symm.trans hw) nofun
    · rfl
  have hp := h.position
  rw [hc] at hp
  exact { h with
    idle := fun h' => absurd (hb.symm.trans h') nofun
    offer := nofun
    packer := fun he => (h.packer he).imp (fun hk => by simp [hc] at hk ⊢; exact .inr hk) fun hp => hp.congr rfl rfl
    tree := fun hv => (h.tree hv).congr rfl rfl rfl rfl rfl
    tasks := fun u hu => (List.mem_cons.1 hu).elim (fun e => e ▸ hok) fun hu => h.tasks u (List.mem_of_mem_tail hu)
    position := ⟨fun e => absurd e hd, by rw [ht, hc]; exact hp.2⟩ }

/-- After the answer to an offered byte the command stands at the rest of its SnkWrite (20_memory.md R69). -/
theorem Inv.answered {s u : State} (h : Inv s) (hu : Posted s u) : Inv (answerOffer u) := by
  have hq : Inv { u with snkAns := [], snkStanding := none } := by
    obtain ⟨_, _, _, _, _, _, _, _, _, _, _, hib, rfl⟩ := hu
    exact h.posted ⟨_, _, _, _, _, _, _, _, _, _, _, hib, rfl⟩ fun _ _ => ⟨rfl, rfl⟩
  rcases answerOffer_cases u with ⟨ho, e⟩ | ⟨b, as, hw, -, e⟩ | ⟨b, as, hw, -, e⟩ <;> rw [e]
  · exact h.posted hu ho
  · exact hq.resumed hw (t := .countOut) trivial rfl nofun _ _ _ _
  · exact hq.resumed hw (t := .raise .ioFailure u.outCount none none .snk) trivial rfl nofun _ _ _ _

/-- A host transaction that is not a CMD write keeps the invariant (20_memory.md R76). -/
theorem inv_hostStep {op : HostOp} {s t : State} (h : Inv s) (ht : hostStep op s = .next t) : Inv t := by
  rcases hostStep_next ht with ⟨-, rfl⟩ | ⟨u, hu, ⟨rfl, h1, h2⟩ | rfl⟩
  · exact inv_powerOnReset h
  · refine h.posted hu fun b hb => ?_
    have hw : t.waitOn = s.waitOn := by obtain ⟨_, _, _, _, _, _, _, _, _, _, _, -, rfl⟩ := hu; rfl
    obtain ⟨-, h3, h4⟩ := h.offer b (hw.symm.trans hb)
    exact ⟨h1.trans h3, h2.elim (fun e => e.trans h4) id⟩
  · exact h.answered hu

end Sys2Proof.Machine
end

