-- ==== Sys2Proof/Laws/PerInstr.lean ====
section
/-! SUPPORT. The family `WordForm`: every command is well formed and its word is a word of its row of the opcode map
(30_encoding.md R93, R94). -/

namespace Sys2Proof.Laws.WordForm

open Sys2Proof

/-- The command's fields are legal and its word is one of its row's words. -/
def Statement (i : Instr) : Prop := i.wf = true ∧ rowMatches i.op (encode i) = true

theorem nop : Statement .nop := ⟨rfl, rfl⟩

theorem sreset : Statement .sreset := ⟨rfl, rfl⟩

theorem fclr : Statement .fclr := ⟨rfl, rfl⟩

theorem fadd (x : Sym) : Statement (.fadd x) := ⟨rfl, by revert x; decide⟩

theorem fset (x : Sym) : Statement (.fset x) := ⟨rfl, by revert x; decide⟩

theorem fscan : Statement .fscan := ⟨rfl, rfl⟩

theorem fwidth : Statement .fwidth := ⟨rfl, rfl⟩

theorem tbuild : Statement .tbuild := ⟨rfl, rfl⟩

theorem cgen : Statement .cgen := ⟨rfl, rfl⟩

theorem psym (x : Sym) : Statement (.psym x) := ⟨rfl, by revert x; decide⟩

theorem pscan : Statement .pscan := ⟨rfl, rfl⟩

theorem pflush : Statement .pflush := ⟨rfl, rfl⟩

theorem udec : Statement .udec := ⟨rfl, rfl⟩

theorem udecall : Statement .udecall := ⟨rfl, rfl⟩

theorem hwrite : Statement .hwrite := ⟨rfl, rfl⟩

theorem hread : Statement .hread := ⟨rfl, rfl⟩

theorem encode : Statement .encode := ⟨rfl, rfl⟩

theorem decode : Statement .decode := ⟨rfl, rfl⟩

end Sys2Proof.Laws.WordForm
end

