-- ==== Sys2Proof/Tests/Slice0.lean ====
section
/-! SUPPORT. Tests. Expected values come from spec/95_test_vectors.md (its ids stand in the comments) and from the bit
layout of spec/30_encoding.md, never from the model. Then, for every statement with hypotheses, a state and operands that
meet them together (`meets_…`). -/

namespace Sys2Proof.Tests

open Sys2Proof Sys2Proof.Machine

set_option Elab.async false

/-! ## Well-formedness: each check refuses an ill-formed term (30_encoding.md R94) -/

theorem test_wf_reservedOp : (Fields.mk 0x02 0 0).wf = false ∧ (Fields.mk 0x02 0 0).opDefined = false := by decide

theorem test_wf_rsvNonzero : (Fields.mk 0x10 0 1).wf = false ∧ (Fields.mk 0x10 0 1).rsvZero = false := by decide

theorem test_wf_symNonzero : (Fields.mk 0x20 1 0).wf = false ∧ (Fields.mk 0x20 1 0).symAllowed = false := by decide

theorem test_wf_symAllowed : (Fields.mk 0x11 0xFF 0).wf = true := by decide

/-! ## Decoding: words written out bit by bit, RSV 31:16, SYM 15:8, OP 7:0 (30_encoding.md R90) -/

theorem test_decode_frequency :
    [0b0000000000000000_00000000_00010000, 0b0000000000000000_01000001_00010001, 0b0000000000000000_00000111_00010010,
      0b0000000000000000_00000000_00010011, 0b0000000000000000_00000000_00010100].map (decodeTableWord 32) =
    [some .fclr, some (.fadd 0x41), some (.fset 0x07), some .fscan, some .fwidth] := by decide

theorem test_decode_tree_codes :
    [0b0000000000000000_00000000_00100000, 0b0000000000000000_00000000_00110000].map (decodeTableWord 32) =
    [some .tbuild, some .cgen] := by decide

theorem test_decode_bits :
    [0b0000000000000000_11111111_01000000, 0b0000000000000000_00000000_01000001, 0b0000000000000000_00000000_01000010,
      0b0000000000000000_00000000_01001000, 0b0000000000000000_00000000_01001001].map (decodeTableWord 32) =
    [some (.psym 0xFF), some .pscan, some .pflush, some .udec, some .udecall] := by decide

theorem test_decode_container :
    [0b0000000000000000_00000000_01010000, 0b0000000000000000_00000000_01010001, 0b0000000000000000_00000000_01011000,
      0b0000000000000000_00000000_01011001].map (decodeTableWord 32) =
    [some .hwrite, some .hread, some .encode, some .decode] := by decide

theorem test_decode_control :
    [0b0000000000000000_00000000_00000000, 0b0000000000000000_00000000_00000001].map (decodeTableWord 32) =
    [some .nop, some .sreset] := by decide

/-- EV4 to EV8: reserved OP, RSV ≠ 0, SYM ≠ 0 in form N, all ones, an SRESET with SYM ≠ 0. -/
theorem test_decode_illegal :
    [0x00000002, 0x00010010, 0x00000120, 0xFFFFFFFF, 0x00000101].map (decodeTableWord 32) =
    [none, none, none, none, none] := by decide

/-! ## Small states -/

/-- FREQ with the counts given, the rest 0. -/
def freqOf (es : List (Sym × Word)) : Vector Word 256 :=
  es.foldl (fun f e => freqSet f e.1 e.2) (Vector.replicate 256 0)

/-- CODE with the codes given, the rest unassigned. -/
def codeOf (es : List (Sym × List Bool)) : Vector CodeEntry 256 :=
  es.foldl (fun t e => codeSet t e.1 (CodeEntry.ofPath e.2)) emptyCodes

/-- After reset, IBUF loaded with `bs`, ILEN its length. -/
def loaded (bs : List Byte) : State :=
  { State.reset with ibuf := bs.mapIdx fun i b => (i, b), ilen := BitVec.ofNat 32 bs.length }

/-- With the counts given. -/
def counted (es : List (Sym × Word)) (s : State) : State := { s with freq := freqOf es }

/-- With the tree of its FREQ. -/
def withTree (s : State) : State := storeTree (buildTree s.freq) s

/-- With the codes given. -/
def withCodes (es : List (Sym × List Bool)) (s : State) : State := { s with code := codeOf es, codesValid := true }

/-- With `bs` offered on SRC. -/
def offering (bs : List SrcElem) (s : State) : State := { s with src := bs }

/-- A check of the state an outcome answers. -/
def holds (o : Host.Outcome State Fault Refusal) (p : State → Bool) : Bool :=
  match o with
  | .next t => p t
  | .fault _ => false
  | .refused _ => false

theorem next_of_holds {o : Host.Outcome State Fault Refusal} {p : State → Bool} (h : holds o p = true) :
    ∃ t, o = .next t ∧ p t = true := by
  cases o with
  | next t => exact ⟨t, rfl, h⟩
  | fault r => cases h
  | refused r => cases h

/-- A check of the state a command leaves. -/
def check (i : Instr) (s : State) (p : State → Bool) : Bool := holds (exec i s) p

/-- STATUS (offset 0x08). -/
def statusOf (s : State) : Word := csrValue s 0x08

/-- ERR_OFFSET_LO and ERR_DATA (offsets 0x0C and 0x14). -/
def errorOf (s : State) : Word × Word := (csrValue s 0x0C, csrValue s 0x14)

/-- Waiting on SNK, no answer offered and none standing. -/
def waitingSnk : State :=
  { State.reset with busy := true, cont := [.send [0x4C]], waitOn := .snk 0x4C, snkStanding := none }

/-- The input of V1, "AAAAABBBCC". -/
def v1 : List Byte := [0x41, 0x41, 0x41, 0x41, 0x41, 0x42, 0x42, 0x42, 0x43, 0x43]

/-- The frequencies of V1. -/
def f1 : List (Sym × Word) := [(0x41, 5), (0x42, 3), (0x43, 2)]

/-- The codes of V1: A = 1, B = 01, C = 00. -/
def c1 : List (Sym × List Bool) := [(0x41, [true]), (0x42, [false, true]), (0x43, [false, false])]

/-- The header of V1. -/
def h1 : List Byte :=
  [0x4C, 0x70, 0xF0, 0x7C] ++ List.replicate 8 0x00 ++ [0x70] ++ List.replicate 23 0x00 ++ [0x01, 0x05, 0x03, 0x02]

/-! ## Control -/

/-- XV1. -/
theorem test_nop : check .nop State.reset (fun t => statusOf t == 0x00000010) = true := by decide +kernel

/-- XV2. -/
theorem test_sreset :
    check .sreset (offering [.byte 0x7C] { State.reset with err := true, errcode := 1, errOffset := 2, errExpected := 0xF0 })
      (fun t => statusOf t == 0x00000010 && errorOf t == (0, 0) && t.src == [.byte 0x7C]) = true := by decide +kernel

/-- R231, R65, R78: the host answers OK to the byte offered; SRESET keeps it taken, and leaves no answer over. -/
theorem test_sreset_taken : holds (hostStep (.snkAnswer .ok) waitingSnk) (fun u => check .sreset u fun t =>
    t.snk == [0x4C] && t.snkAns == [] && !t.busy) = true := by decide +kernel

/-! ## Frequency accumulator -/

/-- FV1. -/
theorem test_fclr : check .fclr { counted [(0x41, 5)] State.reset with treeValid := true }
    (fun t => nsymOf t.freq == 0 && totalOf t.freq == 0 && !t.treeValid && t.width == 0) = true := by decide +kernel

/-- FV2. -/
theorem test_fadd : check (.fadd 0x41) (counted [(0x41, 4)] State.reset) (fun t => freqAt t.freq 0x41 == 5) = true := by
  decide +kernel

/-- FV7. -/
theorem test_fadd_overflow : check (.fadd 0x10) (counted [(0x10, 0xFFFFFFFF)] State.reset)
    (fun t => statusOf t == 0x00000502 && errorOf t == (0, 0x00010010)) = true := by decide +kernel

/-- FV3. -/
theorem test_fset : check (.fset 0x07) { State.reset with arg := 0x00012345 }
    (fun t => freqAt t.freq 7 == 0x12345 && csrValue t 0x60 == 0x00000080 && nsymOf t.freq == 1) = true := by
  decide +kernel

/-- FV4 without its FCLR: V1's counts, PRES2 and TOTAL. -/
theorem test_fscan : check .fscan (loaded v1)
    (fun t => f1.all (fun e => freqAt t.freq e.1 == e.2) && csrValue t 0x68 == 0x0000000E && csrValue t 0x24 == 10) = true := by
  decide +kernel

/-- FV8. -/
theorem test_fscan_overflow : check .fscan (counted [(0x10, 0xFFFFFFFF)] (loaded [0x00, 0x10]))
    (fun t => errorOf t == (1, 0x00010010)) = true := by decide +kernel

/-- The FWIDTH table: 255 gives 1, 256 gives 2. -/
theorem test_fwidth :
    check .fwidth (counted [(0x05, 255)] State.reset) (fun t => t.width == 1) = true ∧
    check .fwidth (counted [(0x05, 256)] State.reset) (fun t => t.width == 2) = true := by decide +kernel

/-! ## Tree and codes -/

/-- TV1. -/
theorem test_tbuild : check .tbuild (counted f1 State.reset)
    (fun t => csrValue t 0x5C == 0x00058004 && (nodeAt t 3).left == 2 && (nodeAt t 3).right == 1 &&
      (nodeAt t 4).left == 3 && (nodeAt t 4).right == 0) = true := by decide +kernel

/-- TV3: equal frequencies; node 5 is placed before node 4. -/
theorem test_tbuild_ties : check .tbuild (counted [(0, 1), (1, 1), (2, 1), (3, 1)] State.reset)
    (fun t => csrValue t 0x5C == 0x00078006 && (nodeAt t 6).left == 5 && (nodeAt t 6).right == 4) = true := by
  decide +kernel

/-- TV1: the CODE windows of 0x42. -/
theorem test_cgen : check .cgen { withTree (counted f1 State.reset) with codeSel := 0x42 }
    (fun t => csrValue t 0x58 == 0x00010002 && csrValue t 0x80 == 0x40000000) = true := by decide +kernel

/-- CV1. -/
theorem test_cgen_sequence : check .cgen State.reset
    (fun t => statusOf t == 0x00000802 && errorOf t == (0, 0x00010030)) = true := by decide +kernel

/-! ## Packer -/

/-- PV1. -/
theorem test_psym : check (.psym 0x42) (withCodes c1 { State.reset with acc := 0b111, nbits := 3 })
    (fun t => t.acc == 0b11101 && t.nbits == 5 && t.snk == []) = true := by decide +kernel

/-- PV9. -/
theorem test_psym_noCode : check (.psym 0x44) (withCodes c1 State.reset)
    (fun t => statusOf t == 0x00000702 && errorOf t == (0, 0x00010044)) = true := by decide +kernel

/-- PV2. -/
theorem test_pscan : check .pscan (withCodes c1 (loaded v1))
    (fun t => t.snk == [0xFA] && csrValue t 0x44 == 0x00000750) = true := by decide +kernel

/-- PV10, with V1's codes: the byte 0x44 has none. -/
theorem test_pscan_noCode : check .pscan (withCodes c1 (loaded [0x41, 0x42, 0x44]))
    (fun t => errorOf t == (2, 0x00010044)) = true := by decide +kernel

/-- PV3. -/
theorem test_pflush : check .pflush { State.reset with acc := 0b1010000, nbits := 7 }
    (fun t => t.snk == [0xA0] && csrValue t 0x44 == 0) = true := by decide +kernel

/-- PV5. -/
theorem test_pflush_one : check .pflush { State.reset with acc := 1, nbits := 1 } (fun t => t.snk == [0x80]) = true := by
  decide +kernel

/-! ## Unpacker -/

/-- UV1. -/
theorem test_udec : check .udec { withTree (counted f1 State.reset) with emit := 5, cur := 0xFA, rem := 3 }
    (fun t => t.snk == [0x42] && t.rem == 1 && t.emit == 6 && t.inCount == 0) = true := by decide +kernel

/-- UV4: a single leaf takes no bit. -/
theorem test_udec_single : check .udec (withTree (counted [(0x41, 100)] State.reset))
    (fun t => t.snk == [0x41] && t.emit == 1 && csrValue t 0x48 == 0 && t.busy == false) = true := by decide +kernel

/-- UV2. -/
theorem test_udecall : check .udecall (offering [.byte 0xFA, .byte 0xA0] (withTree (counted f1 State.reset)))
    (fun t => t.snk == v1 && t.emit == 10 && t.rem == 1) = true := by decide +kernel

/-- UV8, from the body on: the input ends after 8 bits. -/
theorem test_udecall_truncated :
    check .udecall (offering [.byte 0xFA, .eoi] { withTree (counted f1 State.reset) with inCount := 40 })
      (fun t => t.snk == [0x41, 0x41, 0x41, 0x41, 0x41, 0x42] && statusOf t == 0x00000202 && errorOf t == (41, 0)) = true := by
  decide +kernel

/-! ## Container -/

/-- HV1. -/
theorem test_hwrite : check .hwrite (counted f1 State.reset)
    (fun t => t.snk == h1 && t.width == 1 && t.outCount == 40) = true := by decide +kernel

/-- HV2: a field of 3 bytes. -/
theorem test_hwrite_wide : check .hwrite (counted [(0x05, 0x00012345)] State.reset)
    (fun t => t.snk == [0x4C, 0x70, 0xF0, 0x7C, 0x04] ++ List.replicate 31 0x00 ++ [0x03, 0x01, 0x23, 0x45]) = true := by
  decide +kernel

/-- HV6. -/
theorem test_hread : check .hread (offering (h1.map .byte) State.reset)
    (fun t => f1.all (fun e => freqAt t.freq e.1 == e.2) && nsymOf t.freq == 3 && t.width == 1 && t.inCount == 40 &&
      !t.treeValid) = true := by decide +kernel

/-- HV10: the field of 0x42 is 0. -/
theorem test_hread_zero : check .hread (offering ((h1.set 38 0x00).map .byte) State.reset)
    (fun t => statusOf t == 0x00000602 && errorOf t == (38, 0x00010042)) = true := by decide +kernel

/-- V1: the container, and STATUS after it. -/
theorem test_encode : check .encode (loaded v1)
    (fun t => t.snk == h1 ++ [0xFA, 0xA0] && statusOf t == 0x0000000C && csrValue t 0x5C == 0x00058004) = true := by
  decide +kernel

/-- HV15: the fifth SNK write is answered IOERR. -/
theorem test_encode_ioerr : check .encode { loaded v1 with snkAns := [.ok, .ok, .ok, .ok, .ioerr] }
    (fun t => t.snk == [0x4C, 0x70, 0xF0, 0x7C] && statusOf t == 0x00000402 && errorOf t == (4, 0x00020000)) = true := by
  decide +kernel

/-- UV6 and UV7: a pad bit of 1, and a byte after the container. -/
theorem test_decode : check .decode (offering ((h1 ++ [0xFA, 0xA1, 0x55]).map .byte) State.reset)
    (fun t => t.snk == v1 && t.inCount == 42 && t.emit == 10 && t.src == [.byte 0x55] && statusOf t == 0x00000014) = true := by
  decide +kernel

/-- V4. -/
theorem test_decode_magic : check .decode (offering ((h1.set 2 0x00).map .byte) State.reset)
    (fun t => statusOf t == 0x00000102 && errorOf t == (2, 0x0001F000) && t.inCount == 3 && t.outCount == 0) = true := by
  decide +kernel

/-! ## The host's words -/

/-- XV3: a command that comes while DECODE waits is dropped, CMD_OVR set. -/
theorem test_busy_dropped :
    check .decode State.reset (fun t => holds (cmdWrite 0x00000010 t) fun u => u.busy && u.cmdOvr && !u.err) = true := by
  decide +kernel

/-- A host turn scheduled after a command's last stream access comes before the command's end (70 R285). -/
theorem test_end_waits :
    holds (resume { State.reset with
        busy := true, cont := [.send [0xA0]], hostOps := [.wr 0x00 0x00000010], sched := [.core, .host] })
      (fun t => t.busy && t.snk == [0xA0] && t.cont == [] && t.hostOps == [.wr 0x00 0x00000010]) = true := by decide +kernel

/-- FCLR, then TBUILD, then `rd STATUS`, all accepted: a host turn scheduled at TBUILD's beginning reads STATUS
while TBUILD runs (R79). -/
theorem test_next_command_waits :
    check .fclr { State.reset with hostOps := [.wr 0x00 0x00000020, .rd 0x08], sched := [.core, .core, .host] }
      (fun t => !t.busy && holds (step t) fun u => holds (step u) fun v =>
        u.busy && v.busy && v.hostOps == [] && v.notes.length == 1 && !v.treeValid) = true := by decide +kernel

/-- EV4. -/
theorem test_illegal : holds (cmdWrite 0x00000002 State.reset)
    (fun t => statusOf t == 0x00000902 && errorOf t == (0, 0x00010002)) = true := by decide +kernel

/-- The host's word reaches the command: 0x0000AB11 is FADD 0xAB (30_encoding.md R98). -/
theorem test_fetch : holds (step (State.reset.withFetchWord 32 0x0000AB11)) (fun t => freqAt t.freq 0xAB == 1) = true := by
  decide +kernel

/-! ## Every hypothesis can be met -/

theorem idle_reset : Idle State.reset := ⟨rfl, rfl, rfl⟩

theorem sinkOk_reset : SinkOk State.reset := ⟨nofun, rfl⟩

theorem packerOk_reset : PackerOk State.reset := packerOk_zero rfl rfl

/-- NopDoesNothing, FclrClears, FsetWrites, FwidthMinimal, HwriteWrites, TbuildStores. -/
theorem meets_Idle : Idle State.reset ∧ SinkOk State.reset := ⟨idle_reset, sinkOk_reset⟩

/-- A byte stands offered on SNK, answered by a queued OK. -/
def answeredSnk : State := { waitingSnk with snkAns := [.ok, .ioerr] }

theorem meets_PowerOnReads : (0x08 : BitVec 8).toNat % 4 = 0 ∧ (0xFC : BitVec 8).toNat % 4 = 0 ∧
    (∀ b, waitingSnk.waitOn = .snk b → waitingSnk.snkAns = [] ∧ waitingSnk.snkStanding = none) ∧
    answeredSnk.waitOn = .snk 0x4C ∧ snkAnswer answeredSnk = some (.ok, [.ioerr]) :=
  ⟨by decide, by decide, fun _ _ => ⟨rfl, rfl⟩, rfl, rfl⟩

/-- A command waits on SRC. -/
def waiting : State :=
  { State.reset with busy := true, cont := [.hreadMagic 0], waitOn := .src, curCmd := 0x51 }

/-- The host's transaction `op` is next. -/
def asking (op : HostOp) (s : State) : State := { s with hostOps := [op] }

/-- After an error. -/
def failed : State := raise .noCode 0 none (some 0x44) .src State.reset

/-- V1's tree, FREQ included. -/
def tree1 : State := withTree (counted f1 State.reset)

theorem idle_tree1 : Idle tree1 := ⟨rfl, rfl, rfl⟩

theorem sinkOk_tree1 : SinkOk tree1 := ⟨nofun, rfl⟩

theorem holdsTree_tree1 : HoldsTree tree1 := holdsTree_storeTree _

theorem present_f1 : present (freqOf f1) 0x41 = true ∧ present (freqOf f1) 0x42 = true ∧ present (freqOf f1) 0x43 = true := by
  decide +kernel

theorem total_f1 : totalOf (freqOf f1) = 10 := by decide +kernel

theorem present_v1 : ∀ x ∈ v1, present (freqOf f1) x = true := by decide +kernel

/-- 0x42 leads from the root to B with the bits 0, 1 (TV1). -/
theorem leadsTo_B : LeadsTo (nodeAt tree1) 4 [false, true] 0x42 := by
  unfold LeadsTo; decide +kernel

/-- V1's codes are the table of its tree (TV1). -/
theorem table_f1 : TableFor (freqOf f1) (codeOf c1) := by
  obtain ⟨t, ht, h⟩ := tableFor_codesOf (freqOf f1)
  have e : codesOf ((buildTree (freqOf f1)).nodeAt 0) (buildTree (freqOf f1)).root = some (codeOf c1) := by decide +kernel
  rwa [← Option.some.inj ((h 0).symm.trans e)]

theorem histogram_v1 : histogram v1 = freqOf f1 := by decide +kernel

/-- The widest width, 4, for V1's frequencies. -/
theorem fits_f1 : FitsWidth (freqOf f1) 1 ∧ FitsWidth (freqOf f1) 4 := by
  have h := fitsWidth_minWidth (freqOf f1)
  rw [show minWidth (maxFreq (freqOf f1)) = 1 by decide +kernel] at h
  exact ⟨h, by decide, by decide, fun x => (h.2.2 x).trans (by decide)⟩

/-- V1's body, FA A0: 15 bits of codes and a pad bit. -/
theorem body_v1 : [0xFA, 0xA0].flatMap byteBits = codeBits (codeOf c1) v1 ++ [false] := by decide +kernel

theorem meets_DecodeInvertsEncode : decode 0x00004111 = .ok (.fadd 0x41) := by decide

theorem meets_IllegalWords :
    State.reset.busy = false ∧ State.reset.err = false ∧ ∃ e, decode 0x00000101 = .error e :=
  ⟨rfl, rfl, .symNonzero, by decide⟩

/-- The three clauses: an idle Core; a ready Core and a scheduled host; each with a legal and an illegal word. -/
theorem meets_StepRunsDecodedCommand :
    (let s := asking (.wr 0x00 0x0000AB11) State.reset
     coreReady s = false ∧ decode 0x0000AB11 = .ok (.fadd 0xAB)) ∧
    (let s := { asking (.wr 0x00 0x00000002) waiting with src := [.byte 0x4C], sched := [.host] }
     coreReady s = true ∧ s.sched.head? = some .host ∧ decode 0x00000002 = .error .reservedOp) ∧
    (let s := offering [.byte 0x4C] waiting
     coreReady s = true ∧ s.hostOps = []) ∧
    (coreReady waiting = false ∧ waiting.hostOps = []) := by decide

theorem meets_FetchedWordRuns : 0x0000FF40 < 2 ^ 32 ∧ decode (BitVec.ofNat 32 0x0000FF40) = .ok (.psym 0xFF) := by decide

theorem meets_BusyDropsCommands : waiting.busy = true := rfl

theorem meets_ErrorStateLasts : failed.busy = false ∧ failed.err = true ∧
    (∃ t, step (asking (.wr 0x00 0x00000001) failed) = .next t ∧ t.err = false) ∧
    ∃ t, step (asking (.wr 0x00 0x00000020) failed) = .next t ∧ t.err = true :=
  ⟨rfl, rfl, by simpa using next_of_holds (p := fun t => !t.err) (by decide +kernel),
    next_of_holds (p := State.err) (by decide +kernel)⟩

theorem meets_OperandsAreLatched :
    (let s := { asking (.rd 0x08) State.reset with sched := [.host] }
     s.busy = false ∧ s.err = false ∧ s.paused = true) ∧
    ∃ t, resume (offering [.byte 0x4C, .eoi] waiting) = .next t ∧ t.err = true :=
  ⟨by decide, next_of_holds (p := State.err) (by decide +kernel)⟩

/-- An illegal SRESET word, busy and after an error; an offer unanswered, and one answered. -/
theorem meets_SresetClears : (0x00000101 : Word).extractLsb' 0 8 = 0x01 ∧ (0x00000101 : Word) ≠ 0x00000001 ∧
    waiting.busy = true ∧ failed.busy = false ∧ failed.err = true ∧
    (waitingSnk.waitOn = .snk 0x4C ∧ waitingSnk.snkAns = [] ∧ waitingSnk.snkStanding = none) ∧
    answeredSnk.waitOn = .snk 0x4C ∧ snkAnswer answeredSnk = some (.ok, [.ioerr]) :=
  ⟨by decide, by decide, rfl, rfl, rfl, ⟨rfl, rfl, rfl⟩, rfl, rfl⟩

theorem meets_FaddCounts : Idle (counted [(0x10, 0xFFFFFFFF)] State.reset) ∧
    (freqAt (counted [(0x10, 0xFFFFFFFF)] State.reset).freq 0x10).toNat = 2 ^ 32 - 1 :=
  ⟨⟨rfl, rfl, rfl⟩, by decide +kernel⟩

/-- IBUF_SIZE 2: an input of 3 bytes, of 2 that fits, of 2 whose last count does not. -/
theorem meets_FscanCounts :
    (let s := { State.reset with cfg := ⟨2, none, none⟩, ilen := 3 }
     Idle s ∧ s.cfg.ibufSize < s.ilen.toNat) ∧
    (let s := { loaded [0x41, 0x42] with cfg := ⟨2, none, none⟩ }
     Idle s ∧ s.ilen.toNat ≤ s.cfg.ibufSize ∧ CountsFit s.freq (ibufBytes s s.ilen.toNat)) ∧
    (let s := { counted [(0x10, 0xFFFFFFFF)] (loaded [0x00, 0x10]) with cfg := ⟨2, none, none⟩ }
     Idle s ∧ 1 < s.ilen.toNat ∧ s.ilen.toNat ≤ s.cfg.ibufSize ∧ CountsFit s.freq (ibufBytes s 1) ∧
       (freqAt s.freq (memRead s 1)).toNat + (ibufBytes s 1).count (memRead s 1) = 2 ^ 32 - 1) := by
  refine ⟨⟨⟨rfl, rfl, rfl⟩, by decide⟩, ⟨⟨rfl, rfl, rfl⟩, by decide, ?_⟩, ⟨rfl, rfl, rfl⟩, by decide, by decide, ?_, ?_⟩
  · exact countsFit_zero (by rw [length_ibufBytes]; decide)
  · intro x
    show (freqAt (freqSet (Vector.replicate 256 0) 0x10 0xFFFFFFFF) x).toNat + [0x00].count x < 2 ^ 32
    rw [freqAt_freqSet]
    split
    · rename_i h; subst h; decide
    · rw [freqAt_replicate, List.count_singleton]; split <;> decide
  · decide +kernel

theorem meets_FrequencyModel : Idle (loaded v1) ∧ (loaded v1).ilen.toNat ≤ (loaded v1).cfg.ibufSize :=
  ⟨⟨rfl, rfl, rfl⟩, by decide⟩

theorem meets_TbuildStores : nsymOf State.reset.freq = 0 ∧ 0 < nsymOf tree1.freq := by decide +kernel

/-- The first leaf, the first and the last internal node, a root, a path of two bits; the node positions compared. -/
theorem meets_TreeShape :
    (allSyms.filter (present (freqOf f1)))[0]? = some 0x41 ∧ nsymOf (freqOf f1) = 3 ∧
    (buildTree (freqOf f1)).node[3]?.isSome = true ∧ (buildTree (freqOf f1)).node[4]?.isSome = true ∧
    (buildTree (freqOf f1)).root = some 4 ∧ LeadsTo (nodeAt tree1) 4 [false, true] 0x42 := by
  refine ⟨by decide +kernel, by decide +kernel, by decide +kernel, by decide +kernel, by decide +kernel, leadsTo_B⟩

/-- An equal frequency in SEQ: a leaf goes after it, a merged node before it. Two equal leaves of a FREQ. -/
theorem meets_InsertPositions :
    (let b : Build := ⟨[⟨.leaf, 1, 3, 0, 0⟩, ⟨.leaf, 2, 5, 0, 0⟩], [0, 1]⟩
     b.afterEqual 3 = 1 ∧ b.seq[0]? = some 0 ∧ b.seq[1]? = some 1 ∧ b.beforeEqual 3 = 0 ∧ b.beforeEqual 5 = 1) ∧
    (let b : Build := ⟨[⟨.leaf, 1, 3, 0, 0⟩, ⟨.leaf, 2, 5, 0, 0⟩, ⟨.leaf, 3, 8, 0, 0⟩], [0, 1, 2]⟩
     b.seq = 0 :: 1 :: [2] ∧ (b.merge 0 1 [2]).seq = [3, 2] ∧ ({ b with seq := [2] } : Build).afterEqual 8 = 1) ∧
    (let b := leafPhase (freqOf [(0x41, 5), (0x42, 5)])
     b.seq[0]? = some 0 ∧ b.seq[1]? = some 1 ∧ b.freqOf 0 = b.freqOf 1) :=
  ⟨by decide, by decide, by decide +kernel⟩

/-- Three symbols: a first round with a node left over, and a last one. -/
theorem meets_MergeRounds : nsymOf (freqOf f1) = 3 ∧ 1 + 1 < nsymOf (freqOf f1) ∧ 2 ≤ nsymOf (freqOf f1) := by
  decide +kernel

theorem meets_TreeOwnership : 0 < (buildTree (freqOf f1)).node.length ∧ 4 < (buildTree (freqOf f1)).node.length := by
  decide +kernel

theorem meets_CgenRecordsPaths : Idle tree1 ∧ tree1.treeValid = true ∧ HoldsTree tree1 ∧ State.reset.treeValid = false :=
  ⟨idle_tree1, rfl, holdsTree_tree1, rfl⟩

theorem meets_CodesPrefixFree : ∃ t, exec .cgen tree1 = .next t ∧
    (decide (2 ≤ nsymOf t.freq) && present t.freq 0x41 && present t.freq 0x42) = true :=
  next_of_holds (p := fun t => decide (2 ≤ nsymOf t.freq) && present t.freq 0x41 && present t.freq 0x42)
    (by decide +kernel)

theorem meets_StaleTreeRefused : Idle State.reset ∧ State.reset.treeValid = false ∧ State.reset.codesValid = false :=
  ⟨idle_reset, rfl, rfl⟩

/-- V1's codes with 7 bits waiting, so that the next bit ends a byte; a symbol without a code. -/
def codes1 : State := withCodes c1 { loaded v1 with acc := 0b1010000, nbits := 7 }

theorem meets_PsymPacks : Idle codes1 ∧ codes1.codesValid = true ∧ SinkOk codes1 ∧ PackerOk codes1 ∧
    (codeAt codes1.code 0x42).assigned = true ∧ (codeAt codes1.code 0x44).assigned = false :=
  ⟨⟨rfl, rfl, rfl⟩, rfl, ⟨nofun, rfl⟩, by unfold PackerOk; decide, by decide +kernel, by decide +kernel⟩

/-- A length past IBUF_SIZE; a whole input; an input whose last byte has no code. -/
theorem meets_PscanPacks :
    (let s := withCodes c1 { State.reset with ilen := 4097 }
     Idle s ∧ s.codesValid = true ∧ s.cfg.ibufSize < s.ilen.toNat) ∧
    (Idle codes1 ∧ codes1.codesValid = true ∧ SinkOk codes1 ∧ PackerOk codes1 ∧
      codes1.ilen.toNat ≤ codes1.cfg.ibufSize ∧ AllCoded codes1.code (ibufBytes codes1 codes1.ilen.toNat)) ∧
    (let s := withCodes c1 (loaded [0x41, 0x42, 0x44])
     Idle s ∧ s.codesValid = true ∧ SinkOk s ∧ PackerOk s ∧ s.ilen.toNat ≤ s.cfg.ibufSize ∧ 2 < s.ilen.toNat ∧
       AllCoded s.code (ibufBytes s 2) ∧ (codeAt s.code (memRead s 2)).assigned = false) := by
  refine ⟨⟨⟨rfl, rfl, rfl⟩, rfl, by decide⟩, ⟨⟨rfl, rfl, rfl⟩, rfl, ⟨nofun, rfl⟩, ?_, by decide, ?_⟩,
    ⟨rfl, rfl, rfl⟩, rfl, ⟨nofun, rfl⟩, packerOk_zero rfl rfl, by decide, by decide, ?_, by decide +kernel⟩
  · unfold PackerOk; decide
  · unfold AllCoded; decide +kernel
  · unfold AllCoded; decide +kernel

theorem meets_PflushPads : Idle State.reset ∧ State.reset.nbits = 0 ∧ Idle codes1 ∧ SinkOk codes1 ∧ codes1.nbits ≠ 0 :=
  ⟨idle_reset, rfl, ⟨rfl, rfl, rfl⟩, ⟨nofun, rfl⟩, by decide⟩

theorem meets_BodyLength :
    let s := withCodes c1 (loaded v1)
    Idle s ∧ SinkOk s ∧ s.codesValid = true ∧ s.acc = 0 ∧ s.nbits = 0 ∧ AllCoded s.code [0x43, 0x41] ∧
      s.ilen.toNat ≤ s.cfg.ibufSize ∧ AllCoded s.code (ibufBytes s s.ilen.toNat) := by
  refine ⟨⟨rfl, rfl, rfl⟩, ⟨nofun, rfl⟩, rfl, rfl, rfl, ?_, by decide, ?_⟩ <;> unfold AllCoded <;> decide +kernel

/-- The host answers OK `k` times, then IOERR. -/
def sinkFails (k : Nat) (s : State) : State := { s with snkAns := List.replicate k .ok ++ [.ioerr] }

/-- The last byte of a header of 37; PFLUSH's, PSYM's and PSCAN's first byte; UDEC's byte; the last byte of UDECALL, ENCODE
and DECODE on V1. -/
theorem meets_SinkFailure :
    (let s := sinkFails 36 State.reset
     Idle s ∧ 36 < (headerBytes s.freq (minWidth (maxFreq s.freq))).length) ∧
    (let s := sinkFails 0 codes1
     Idle s ∧ PackerOk s ∧ s.nbits ≠ 0 ∧ s.codesValid = true ∧
       (codeAt s.code 0x41).assigned = true ∧ 8 ≤ (packed s ++ (codeAt s.code 0x41).bitString).length ∧
       s.ilen.toNat ≤ s.cfg.ibufSize ∧ AllCoded s.code (ibufBytes s s.ilen.toNat) ∧
       8 ≤ (packed s ++ codeBits s.code (ibufBytes s s.ilen.toNat)).length) ∧
    (let s := sinkFails 0 { tree1 with cur := 0xFA, rem := 3 }
     Idle s ∧ s.treeValid = true ∧ s.root = some 4 ∧ s.emit.toNat < totalOf s.freq ∧ s.rem.toNat ≤ 8 ∧
       LeadsTo (nodeAt s) 4 [false, true] 0x42 ∧ bodyBits s.cur s.rem.toNat [] = [false, true] ++ [false]) ∧
    (let s := sinkFails 9 (offering [.byte 0xFA, .byte 0xA0] tree1)
     Idle s ∧ s.treeValid = true ∧ HoldsTree s ∧ TableFor s.freq (codeOf c1) ∧ s.rem.toNat ≤ 8 ∧
       (∀ x ∈ v1, present s.freq x = true) ∧ v1.length = 9 + 1 ∧ s.emit.toNat + v1.length ≤ totalOf s.freq ∧
       bodyBits s.cur s.rem.toNat [0xFA, 0xA0] = codeBits (codeOf c1) v1 ++ [false]) ∧
    (let s := sinkFails 41 (loaded v1)
     Idle s ∧ s.ilen.toNat ≤ s.cfg.ibufSize ∧ ibufBytes s s.ilen.toNat = v1 ∧ TableFor (histogram v1) (codeOf c1) ∧
       41 < (containerBytes (histogram v1) (codeOf c1) v1).length) ∧
    (let s := sinkFails 9 (offering ((headerBytes (freqOf f1) 4 ++ [0xFA, 0xA0]).map .byte) State.reset)
     Idle s ∧ FitsWidth (freqOf f1) 4 ∧ TableFor (freqOf f1) (codeOf c1) ∧ (∀ x ∈ v1, present (freqOf f1) x = true) ∧
       v1.length = 9 + 1 ∧ v1.length ≤ totalOf (freqOf f1) ∧
       [0xFA, 0xA0].flatMap byteBits = codeBits (codeOf c1) v1 ++ [false]) := by
  refine ⟨⟨⟨rfl, rfl, rfl⟩, by decide +kernel⟩, ⟨⟨rfl, rfl, rfl⟩, ?_, by decide, rfl, by decide +kernel, by decide +kernel,
      by decide, ?_, by decide +kernel⟩,
    ⟨⟨rfl, rfl, rfl⟩, rfl, by decide +kernel, by decide +kernel, by decide, leadsTo_B, by decide⟩,
    ⟨⟨rfl, rfl, rfl⟩, rfl, holdsTree_tree1.congr rfl rfl rfl rfl rfl, table_f1, Nat.zero_le 8, present_v1, rfl, total_f1.ge,
      body_v1⟩,
    ⟨⟨rfl, rfl, rfl⟩, by decide, by decide +kernel, histogram_v1 ▸ table_f1, by decide +kernel⟩,
    ⟨rfl, rfl, rfl⟩, fits_f1.2, table_f1, present_v1, rfl, total_f1.ge, body_v1⟩
  · unfold PackerOk; decide
  · unfold AllCoded; decide +kernel

/-- UV1: one byte FA, three bits of it left, the code 01 of B, then one bit left over. -/
theorem meets_UdecDecodes :
    let s := { tree1 with emit := 5, cur := 0xFA, rem := 3 }
    Idle s ∧ SinkOk s ∧ s.treeValid = true ∧ s.root = some 4 ∧ s.emit.toNat < totalOf s.freq ∧ s.rem.toNat ≤ 8 ∧
      LeadsTo (nodeAt s) 4 [false, true] 0x42 ∧ bodyBits s.cur s.rem.toNat [] = [false, true] ++ [false] ∧
      s.src = ([] : List Byte).map .byte ++ [] := by
  refine ⟨⟨rfl, rfl, rfl⟩, ⟨nofun, rfl⟩, rfl, by decide +kernel, by decide +kernel, by decide, leadsTo_B, by decide, rfl⟩

theorem meets_DecodeStopsAtCount :
    let s := { tree1 with emit := 10 }
    Idle s ∧ s.treeValid = true ∧ totalOf s.freq ≤ s.emit.toNat := ⟨⟨rfl, rfl, rfl⟩, rfl, by decide +kernel⟩

/-- A bit 0 leads from V1's root to an internal node. -/
theorem stuck_zero : ∀ j, j ≤ [false].length → (nodeAt tree1 (follow (nodeAt tree1) ([false].take j) 4)).kind = .internal := by
  decide +kernel

/-- The walk needs a second bit; CUR holds one, and the input ends: in UDEC; after FA (AAAAAB and a bit 0) in UDECALL and
in DECODE. -/
theorem meets_UdecTruncated :
    (let s := { tree1 with cur := 0x00, rem := 1, src := [.eoi] }
     Idle s ∧ s.treeValid = true ∧ s.root = some 4 ∧ s.emit.toNat < totalOf s.freq ∧ s.rem.toNat ≤ 8 ∧
       bodyBits s.cur s.rem.toNat [] = [false] ∧
       ∀ j, j ≤ [false].length → (nodeAt s (follow (nodeAt s) ([false].take j) 4)).kind = .internal) ∧
    (let s := offering [.byte 0xFA, .eoi] tree1
     Idle s ∧ SinkOk s ∧ s.treeValid = true ∧ HoldsTree s ∧ TableFor s.freq (codeOf c1) ∧ s.root = some 4 ∧ s.rem.toNat ≤ 8 ∧
       (∀ x ∈ v1.take 6, present s.freq x = true) ∧ s.emit.toNat + (v1.take 6).length < totalOf s.freq ∧
       bodyBits s.cur s.rem.toNat [0xFA] = codeBits (codeOf c1) (v1.take 6) ++ [false] ∧
       ∀ j, j ≤ [false].length → (nodeAt s (follow (nodeAt s) ([false].take j) 4)).kind = .internal) ∧
    (let s := offering ((headerBytes (freqOf f1) 4 ++ [0xFA]).map .byte ++ [.ioerr]) State.reset
     Idle s ∧ SinkOk s ∧ FitsWidth (freqOf f1) 4 ∧ TableFor (freqOf f1) (codeOf c1) ∧
       (buildTree (freqOf f1)).root = some 4 ∧ (∀ x ∈ v1.take 6, present (freqOf f1) x = true) ∧
       (v1.take 6).length < totalOf (freqOf f1) ∧ [0xFA].flatMap byteBits = codeBits (codeOf c1) (v1.take 6) ++ [false] ∧
       ∀ j, j ≤ [false].length → ((buildTree (freqOf f1)).nodeAt s.nodeDraw
         (follow ((buildTree (freqOf f1)).nodeAt s.nodeDraw) ([false].take j) 4)).kind = .internal) := by
  have bits : [0xFA].flatMap byteBits = codeBits (codeOf c1) (v1.take 6) ++ [false] := by decide +kernel
  have pres : ∀ x ∈ v1.take 6, present (freqOf f1) x = true := fun x hx => present_v1 x (List.mem_of_mem_take hx)
  have few : (v1.take 6).length < totalOf (freqOf f1) := by rw [total_f1]; decide
  exact ⟨⟨⟨rfl, rfl, rfl⟩, rfl, by decide +kernel, by decide +kernel, by decide, by decide, stuck_zero⟩,
    ⟨⟨rfl, rfl, rfl⟩, ⟨nofun, rfl⟩, rfl, holdsTree_tree1.congr rfl rfl rfl rfl rfl, table_f1, by decide +kernel, Nat.zero_le 8,
      pres, by decide +kernel, bits, stuck_zero⟩,
    ⟨rfl, rfl, rfl⟩, ⟨nofun, rfl⟩, fits_f1.2, table_f1, by decide +kernel, pres, few, bits, stuck_zero⟩

theorem meets_UdecallDecodes :
    let s := offering [.byte 0xFA, .byte 0xA0] tree1
    Idle s ∧ SinkOk s ∧ s.treeValid = true ∧ HoldsTree s ∧ TableFor s.freq (codeOf c1) ∧ s.rem.toNat ≤ 8 ∧
      (∀ x ∈ v1, present s.freq x = true) ∧ s.emit.toNat + v1.length = totalOf s.freq ∧
      bodyBits s.cur s.rem.toNat [0xFA, 0xA0] = codeBits (codeOf c1) v1 ++ [false] ∧ [false].length < 8 :=
  ⟨⟨rfl, rfl, rfl⟩, ⟨nofun, rfl⟩, rfl, holdsTree_tree1.congr rfl rfl rfl rfl rfl, table_f1, Nat.zero_le 8, present_v1,
    total_f1.symm, body_v1, by decide⟩

theorem meets_DecodeInvertsPacking :
    let s := offering ((bitsToBytes (codeBits (codeOf c1) v1)).map .byte) tree1
    Idle s ∧ SinkOk s ∧ s.treeValid = true ∧ HoldsTree s ∧ TableFor s.freq (codeOf c1) ∧
      (∀ x ∈ v1, present s.freq x = true) ∧ s.emit = 0 ∧ s.rem = 0 ∧ v1.length ≤ totalOf s.freq :=
  ⟨⟨rfl, rfl, rfl⟩, ⟨nofun, rfl⟩, rfl, holdsTree_tree1.congr rfl rfl rfl rfl rfl, table_f1, present_v1, rfl, rfl,
    total_f1.symm.le⟩

/-- The first symbol of V1. -/
theorem first_f1 : (allSyms.filter (present (freqOf f1)))[0]? = some 0x41 := by decide +kernel

theorem meets_HeaderLayout : FitsWidth (freqOf f1) 4 ∧ (allSyms.filter (present (freqOf f1)))[0]? = some 0x41 :=
  ⟨fits_f1.2, first_f1⟩

theorem meets_HreadReads :
    let s := offering ((headerBytes (freqOf f1) 4).map .byte ++ [.eoi]) State.reset
    Idle s ∧ FitsWidth (freqOf f1) 4 ∧ s.src = (headerBytes (freqOf f1) 4).map .byte ++ [.eoi] :=
  ⟨⟨rfl, rfl, rfl⟩, fits_f1.2, rfl⟩

/-- Whatever SRC offers; the last magic byte differs; W is 0 and 5; the only field is 0; the last header byte is missing. -/
theorem meets_HeaderRefused :
    (∀ es, Idle (offering es State.reset) ∧ (offering es State.reset).src = es) ∧
    (magic[3]? = some 0x7C ∧ (0x7D : Byte) ≠ 0x7C) ∧
    ((List.replicate 32 (0x00 : Byte)).length = 32 ∧ ((0 : Byte).toNat = 0 ∧ 4 < (5 : Byte).toNat)) ∧
    (let bm := (List.replicate 8 (0x00 : Byte)) ++ [0x40] ++ List.replicate 23 0x00
     bm.length = 32 ∧
       (allSyms.filter fun y => (bm.getD (y.toNat / 8) 0).getLsbD (7 - y.toNat % 8)) =
         ([] : List (Sym × Word)).map Prod.fst ++ 0x41 :: []) ∧
    (FitsWidth (freqOf f1) 1 ∧ 39 < (headerBytes (freqOf f1) 1).length) := by
  refine ⟨fun _ => ⟨⟨rfl, rfl, rfl⟩, rfl⟩, by decide, by decide, by decide +kernel, fits_f1.1, by decide +kernel⟩

theorem meets_HeaderConsistent : ∃ t, exec .hread (offering (h1.map .byte) State.reset) = .next t ∧
    (!t.err && !t.busy) = true := next_of_holds (p := fun t => !t.err && !t.busy) (by decide +kernel)

theorem meets_EncodeWrites :
    (let s := { State.reset with cfg := ⟨1, none, none⟩, ilen := 2 }
     Idle s ∧ s.cfg.ibufSize < s.ilen.toNat) ∧
    (let s := { loaded [0x41] with cfg := ⟨1, none, none⟩ }
     Idle s ∧ SinkOk s ∧ s.ilen.toNat ≤ s.cfg.ibufSize) :=
  ⟨⟨⟨rfl, rfl, rfl⟩, by decide⟩, ⟨rfl, rfl, rfl⟩, ⟨nofun, rfl⟩, by decide⟩

theorem meets_DecodeReads :
    let s := offering ((headerBytes (freqOf f1) 4 ++ [0xFA, 0xA0]).map .byte) State.reset
    Idle s ∧ SinkOk s ∧ FitsWidth (freqOf f1) 4 ∧ TableFor (freqOf f1) (codeOf c1) ∧
      (∀ x ∈ v1, present (freqOf f1) x = true) ∧ v1.length = totalOf (freqOf f1) ∧
      [0xFA, 0xA0].flatMap byteBits = codeBits (codeOf c1) v1 ++ [false] ∧ [false].length < 8 :=
  ⟨⟨rfl, rfl, rfl⟩, ⟨nofun, rfl⟩, fits_f1.2, table_f1, present_v1, total_f1.symm, body_v1, by decide⟩

/-- A whole IBUF of one byte, and the machine that decodes. -/
theorem meets_RoundTrip :
    (let s := { loaded [0x41] with cfg := ⟨1, none, none⟩ }
     Idle s ∧ SinkOk s ∧ s.ilen.toNat ≤ s.cfg.ibufSize) ∧
    ∀ container : List Byte, let u := offering (container.map .byte ++ [.eoi]) State.reset
      Idle u ∧ SinkOk u ∧ u.src = container.map .byte ++ [.eoi] :=
  ⟨meets_EncodeWrites.2, fun _ => ⟨⟨rfl, rfl, rfl⟩, ⟨nofun, rfl⟩, rfl⟩⟩

theorem meets_EncodeDeterministic :
    let s := loaded v1
    let u := { loaded v1 with cfg := ⟨10, none, none⟩, emit := 3 }
    Idle s ∧ Idle u ∧ SinkOk s ∧ SinkOk u ∧ s.ilen = u.ilen ∧ s.ilen.toNat ≤ s.cfg.ibufSize ∧
      u.ilen.toNat ≤ u.cfg.ibufSize ∧ ∀ i < s.ilen.toNat, memRead s i = memRead u i :=
  ⟨⟨rfl, rfl, rfl⟩, ⟨rfl, rfl, rfl⟩, ⟨nofun, rfl⟩, ⟨nofun, rfl⟩, rfl, by decide, by decide, fun _ _ => rfl⟩

/-- CMD, the first and the last register after it, and the first reserved offset. -/
theorem meets_RegisterAccess : (0x00 : BitVec 8).toNat % 4 = 0 ∧ (0x04 : BitVec 8).toNat % 4 = 0 ∧ (0x04 : BitVec 8) ≠ 0 ∧
    (0xA0 : BitVec 8).toNat % 4 = 0 ∧ (0xFC : BitVec 8).toNat % 4 = 0 ∧ 0xA0 ≤ (0xA0 : BitVec 8).toNat := by decide

theorem meets_StatusFields : State.reset.busy = false ∧ failed.err = true := ⟨rfl, rfl⟩

theorem meets_WindowRegisters : State.reset.busy = false ∧ (7 < 8 ∧ 31 < 32) := by decide

theorem meets_CounterRegisters : State.reset.busy = false := rfl

/-- The last index of IBUF, the first past it, a misaligned offset; idle, HREAD running, PSCAN running. -/
theorem meets_InputBufferAccess : 4095 < State.reset.cfg.ibufSize ∧ State.reset.cfg.ibufSize ≤ 4096 ∧
    State.reset.busy = false ∧ (0xFF : BitVec 8).toNat % 4 ≠ 0 ∧
    (4095 < waiting.cfg.ibufSize ∧ waiting.curCmd = encode .hread) ∧
    (let s := { waiting with curCmd := encode .pscan }
     4095 < s.cfg.ibufSize ∧ s.busy = true ∧ s.curCmd = encode .pscan) := by decide

theorem meets_CommandsLeaveHostAlone : (∃ t, exec .cgen tree1 = .next t ∧ t.codesValid = true) ∧
    ∃ t, resume (offering [.byte 0x4C] waiting) = .next t ∧ t.busy = true :=
  ⟨next_of_holds (p := State.codesValid) (by decide +kernel), next_of_holds (p := State.busy) (by decide +kernel)⟩

theorem meets_WaitsForStream : (waiting.busy = true ∧ waiting.waitOn = .src ∧ waiting.src = []) ∧
    (waitingSnk.busy = true ∧ waitingSnk.waitOn = .snk 0x4C ∧ waitingSnk.snkAns = [] ∧ waitingSnk.snkStanding = none) ∧
    (Idle State.reset ∧ State.reset.src = []) ∧
    (let s := { State.reset with snkStanding := none }
     Idle s ∧ s.snkAns = [] ∧ s.snkStanding = none) :=
  ⟨⟨rfl, rfl, rfl⟩, ⟨rfl, rfl, rfl, rfl⟩, ⟨idle_reset, rfl⟩, ⟨rfl, rfl, rfl⟩, rfl, rfl⟩

/-- A command that ends though a host turn is scheduled, for no transaction is pending; a turn before the end, taken; a
host turn at the beginning, at the end, and none. -/
theorem meets_EndWaitsForHost :
    (let s := { State.reset with sched := [.host] }
     s.busy = false ∧ s.err = false ∧ ∃ t, exec .nop s = .next t ∧ (!t.busy) = true) ∧
    (let s := { State.reset with busy := true, cont := [.send [0xA0]], hostOps := [.wait] }
     s.busy = true ∧ ∃ t, resume s = .next t ∧ (!t.busy) = true) ∧
    (let s := { State.reset with busy := true, hostOps := [.wait], sched := [.core] }
     s.busy = true ∧ s.cont = [] ∧ ¬ (s.hostOps ≠ [] ∧ s.sched.head? = some .host)) ∧
    (let s := { State.reset with busy := true, cont := [.raise .ioFailure 4 none none .snk, .clearPack], sched := [.host] }
     s.busy = true ∧ s.cont = .raise .ioFailure 4 none none .snk :: [.clearPack] ∧
       ¬ (s.hostOps ≠ [] ∧ s.sched.head? = some .host)) ∧
    (∀ turns : List Agent, let s := { State.reset with hostOps := [.rd 0x08], sched := turns }
     s.busy = false ∧ s.err = false ∧ s.hostOps ≠ [] ∧ s.sched = turns) :=
  ⟨⟨rfl, rfl, next_of_holds (p := fun t => !t.busy) (by decide +kernel)⟩,
    ⟨rfl, next_of_holds (p := fun t => !t.busy) (by decide +kernel)⟩, ⟨rfl, rfl, by decide⟩, ⟨rfl, rfl, by decide⟩,
    fun _ => ⟨rfl, rfl, nofun, rfl⟩⟩

theorem meets_LateOffers :
    (∃ t, exec .hread State.reset = .next t ∧ (t.busy && t.waitOn == .src) = true) ∧
    ∃ t, resume (offering [.byte 0x4C] waiting) = .next t ∧ (t.busy && t.waitOn == .src) = true :=
  ⟨next_of_holds (p := fun t => t.busy && t.waitOn == .src) (by decide +kernel),
    next_of_holds (p := fun t => t.busy && t.waitOn == .src) (by decide +kernel)⟩

theorem meets_LateAnswers :
    (∃ t, exec .pflush { codes1 with snkStanding := none } = .next t ∧ (t.busy && t.waitOn == .snk 0xA0) = true) ∧
    ∃ t, resume waitingSnk = .next t ∧ (t.busy && t.waitOn == .snk 0x4C) = true :=
  ⟨next_of_holds (p := fun t => t.busy && t.waitOn == .snk 0xA0) (by decide +kernel),
    next_of_holds (p := fun t => t.busy && t.waitOn == .snk 0x4C) (by decide +kernel)⟩

/-- A tree command with its tree in place, about to run. -/
theorem meets_StepKeepsInvariant : Inv (State.withFetchWord tree1 32 0x00000030) ∧
    ∃ t, step (State.withFetchWord tree1 32 0x00000030) = .next t ∧ t.codesValid = true :=
  ⟨inv_idle ⟨by decide, by decide⟩ List.Pairwise.nil nofun
    ⟨Nat.zero_le _, Nat.zero_le _, fun _ => holdsTree_tree1.congr rfl rfl rfl rfl rfl, nofun⟩ (packerOk_zero rfl rfl)
    ⟨rfl, rfl⟩ rfl rfl ⟨rfl, rfl, rfl, rfl, rfl⟩, next_of_holds (p := State.codesValid) (by decide +kernel)⟩

end Sys2Proof.Tests
end

section
/-! PROOFS. The invariant from reset through every step (10_state.md R31, R33, R34, R57; 60_exceptions.md R241, R243). -/

namespace Sys2Proof.Machine

/-- A step outcome the invariant allows: a next state meets it, and no fault is reached (log 11). -/
def KeepsInv : Host.Outcome State Fault Refusal → Prop
  | .next t => Inv t
  | .fault _ => False
  | .refused _ => True

/-- A step outcome that meets `Inv` in its next state and never faults keeps the invariant. -/
theorem keepsInv_of {o : Host.Outcome State Fault Refusal} (hf : ∀ r, o ≠ .fault r) (hn : ∀ t, o = .next t → Inv t) :
    KeepsInv o := by
  cases o with
  | next t => exact hn t rfl
  | fault r => exact hf r rfl
  | refused r => trivial

/-- Everything a step can be: the host's next transaction, the running command's going on, or nothing (20_memory.md R79,
70_reset_and_hazards.md R282). -/
theorem step_cases (s : State) :
    (∃ op, step s = hostMove op (popHost s)) ∨ (coreReady s = true ∧ step s = resume s) ∨ step s = .next s := by
  have core : ∀ {o}, o = (if coreReady s then resume s else .next s) →
      coreReady s = true ∧ o = resume s ∨ o = .next s := fun ho => by
    subst ho
    split
    · exact .inl ⟨‹_›, rfl⟩
    · exact .inr rfl
  unfold step
  split
  · split
    · exact .inl ⟨_, rfl⟩
    · exact .inr (core rfl)
  · exact .inr (core rfl)

theorem busy_of_coreReady {s : State} (h : coreReady s = true) : s.busy = true := (Bool.and_eq_true_iff.1 h).1

/-- A host transaction other than a CMD write never faults. -/
theorem hostStep_ne_fault (op : HostOp) (s : State) (r : Fault) : hostStep op s ≠ .fault r := by
  cases op
  case wr | rd | ibufRd | snkIoerr => rw [hostStep]; split <;> nofun
  case ibufWr =>
    rw [hostStep]
    split
    · nofun
    · split <;> nofun
  all_goals nofun

namespace Inv

/-- CMD_OVR, the host's script and the schedule are not in the invariant. -/
theorem script {s : State} (h : Inv s) (ovr : Bool) (ops : List HostOp) (turns : List Agent) :
    Inv { s with cmdOvr := ovr, hostOps := ops, sched := turns } :=
  { h with
    packer := fun he => (h.packer he).imp id fun hp => hp.congr rfl rfl
    tree := fun hv => (h.tree hv).congr rfl rfl rfl rfl rfl }

theorem popHost {s : State} (h : Inv s) : Inv (popHost s) := h.script _ _ _

theorem data {s : State} (h : Inv s) (he : s.err = false) : Data s := ⟨h.width he, h.rem he, h.tree, h.codes⟩

/-- A running command has no error recorded (60_exceptions.md R243). -/
theorem err_of_busy {s : State} (h : Inv s) (hb : s.busy = true) : s.err = false := by
  cases he : s.err
  · rfl
  · exact absurd ((h.errState he).1.symm.trans hb) nofun

/-- ERRCODE reads 0 without an error (60_exceptions.md R241). -/
theorem errcode_zero {s : State} (h : Inv s) (he : s.err = false) : s.errcode = 0 := by
  have := h.errcode
  rwa [he] at this

/-- The packer is in order where no command runs (10_state.md R34). -/
theorem packerOk {s : State} (h : Inv s) (hb : s.busy = false) (he : s.err = false) : PackerOk s :=
  (h.packer he).resolve_left (by rw [(h.idle hb).1]; nofun)

end Inv

/-- The running command goes on (70_reset_and_hazards.md R282). -/
theorem keepsInv_resume {s : State} (h : Inv s) (hb : s.busy = true) : KeepsInv (resume s) :=
  have he := h.err_of_busy hb
  have hf := inv_finish h.cfg h.ibuf h.ibufBound (h.data he) hb he (h.errcode_zero he) (h.errDetail he) (h.packer he)
    h.tasks h.position
  keepsInv_of hf.1 hf.2

/-- A command arrives: dropped, ignored, or accepted and run from its rule (30_encoding.md R95). The rule carries no
bounds of HREAD's and no loop of UDECALL's yet. -/
theorem keepsInv_issue {s : State} (h : Inv s) (i : Instr) {rule : List Task} (hok : ∀ t ∈ rule, t.ok)
    (hpos : positionOk s.treeValid rule) : KeepsInv (issue i rule s) := by
  rcases issue_cases i rule s with ⟨-, e⟩ | ⟨-, -, e⟩ | ⟨hb, he, e⟩ <;> rw [e]
  · exact h.script true _ _
  · exact h
  · have hp : PackerOk (accept (encode i) s) := (h.packerOk hb he).congr rfl rfl
    have hd : Data (accept (encode i) s) := (h.data he).congr (h.rem he) rfl
    have hok' : ∀ t ∈ Task.start :: rule, t.ok := fun t ht =>
      (List.mem_cons.1 ht).elim (fun e => e ▸ trivial) (hok t)
    have hf := inv_finish (s := accept (encode i) s) h.cfg h.ibuf h.ibufBound hd rfl he (h.errcode_zero he)
      (h.errDetail he) (.inr hp) hok' ⟨nofun, hpos⟩
    exact keepsInv_of hf.1 hf.2

/-- Every command's arrival (30_encoding.md R95, 45_control.md R231). -/
theorem keepsInv_exec {s : State} (h : Inv s) (i : Instr) : KeepsInv (exec i s) := by
  cases i
  case sreset => exact inv_softReset h
  all_goals
    exact keepsInv_issue h _ (by simp [Task.ok, encodeTasks, decodeTasks])
      (by simp [positionOk, encodeTasks, decodeTasks])

/-- A write of any word to CMD (30_encoding.md R95). -/
theorem keepsInv_cmdWrite {s : State} (h : Inv s) (v : Word) : KeepsInv (cmdWrite v s) := by
  unfold cmdWrite
  split
  · exact keepsInv_exec h _
  · unfold issueIllegal
    split
    · exact h.script true _ _
    · split
      · exact h
      · exact inv_raise h.cfg h.ibuf h.ibufBound _ _ _ _ _

/-- Every transaction of the host (20_memory.md R76). -/
theorem keepsInv_hostMove {s : State} (h : Inv s) (op : HostOp) : KeepsInv (hostMove op s) := by
  rcases hostMove_cases op s with ⟨r, e⟩ | ⟨v, e, -⟩ | ⟨op', e, -⟩ <;> rw [e]
  · trivial
  · exact keepsInv_cmdWrite h v
  · exact keepsInv_of (hostStep_ne_fault op' s) fun t ht => inv_hostStep h ht

/-- Every step, of the host or of the Core (20_memory.md R79). -/
theorem keepsInv_step {s : State} (h : Inv s) : KeepsInv (step s) := by
  rcases step_cases s with ⟨op, e⟩ | ⟨hr, e⟩ | e <;> rw [e]
  · exact keepsInv_hostMove h.popHost op
  · exact keepsInv_resume h (busy_of_coreReady hr)
  · exact h

/-- Settles O58: nothing is listed, nothing runs, every table is empty. -/
theorem resetMeetsInvariant : Obligations.ResetMeetsInvariant :=
  inv_idle (s := State.reset) ⟨by decide, by decide⟩ List.Pairwise.nil nofun
    (.invalid (Nat.zero_le _) (Nat.zero_le _) rfl rfl) (packerOk_zero rfl rfl) ⟨rfl, rfl⟩ rfl rfl ⟨rfl, rfl, rfl, rfl, rfl⟩

/-- Settles O59, by the cases of a step: a host transaction, a Core step, or no step. -/
theorem stepKeepsInvariant : Obligations.StepKeepsInvariant := fun s t h ht => by
  have hk := keepsInv_step h
  rwa [ht] at hk

end Sys2Proof.Machine
end

section
/-! PROOFS. Acceptance latches the operands (10_state.md R38), and every node but ROOT has one parent (R58). -/

namespace Sys2Proof.Machine

/-- A command accepted where the host moves next stands before its first stretch (30_encoding.md R95; log 4). -/
theorem issue_paused {s : State} (hb : s.busy = false) (he : s.err = false) (hp : s.paused = true) (i : Instr)
    (rule : List Task) : issue i rule s = .next (stoppedAt .ready (.start :: rule) (accept (encode i) s)) := by
  have hs : startRule (accept (encode i) s) = .wait .ready [.start] (accept (encode i) s) := if_pos hp
  rcases issue_cases i rule s with ⟨h, -⟩ | ⟨-, h, -⟩ | ⟨-, -, e⟩
  · exact absurd (hb.symm.trans h) nofun
  · exact absurd (he.symm.trans h) nofun
  · rw [e, runTasks_cons, runTask, hs]
    rfl

/-- Settles O9: the host's turn right after acceptance shows the latches; a Core step reads neither ARG nor ILEN. -/
theorem operandsAreLatched : Obligations.OperandsAreLatched := by
  refine ⟨fun i s hi hb he hp => ?_, fun s t a n ht => ?_⟩
  · obtain ⟨rule, hr⟩ := exec_issue hi
    refine ⟨.start :: rule, ?_⟩
    rw [hr, issue_paused hb he hp]
    simp [stoppedAt, accept]
  · have hf := finish_on (d := ⟨[], [], some a, some n, none, none⟩) (ts := s.cont) (s := s) (.inl rfl) rfl rfl
    have hs : Late.on ⟨[], [], some a, some n, none, none⟩ s = { s with arg := a, ilen := n } := by simp [Late.on]
    rw [resume] at ht
    rw [ht, hs] at hf
    exact hf

/-- An id of the arena stands among the children or in SEQ, once in all. -/
theorem Arena.count_ids {n : Nat} {b : Build} (h : Arena n b) (hb : b.node.length ≤ 512) {i : NodeId}
    (hi : i.toNat < b.node.length) : (children b.node).count i + b.seq.count i = 1 := by
  rw [← List.count_append, h.ids.count_eq]
  exact List.count_eq_one_of_mem (nodup_idsBelow hb) ((mem_idsBelow hb).2 hi)

/-- At the end of the build SEQ is ROOT alone. -/
theorem count_seq_buildTree {f : Vector Word 256} (h : 0 < (buildTree f).node.length) (i : NodeId) :
    (buildTree f).seq.count i = if (buildTree f).root = some i then 1 else 0 := by
  have hn : 0 < nsymOf f := by
    rcases Nat.eq_zero_or_pos (nsymOf f) with h0 | h0
    · rw [buildTree_empty h0] at h; exact absurd h nofun
    · exact h0
  obtain ⟨r, -, hs, -⟩ := buildTree_spec hn
  simp [Build.root, hs, List.count_singleton]

/-- Settles O25: an id is a child or in SEQ, once in all, and SEQ ends as ROOT alone. -/
theorem treeOwnership : Obligations.TreeOwnership := by
  intro f i hi
  have hb : (buildTree f).node.length ≤ 512 := Nat.le_succ_of_le (length_buildTree_le f)
  have hid : (BitVec.ofNat 9 i).toNat = i := toNat_newId (by omega)
  have hc := (buildTree_arena f).count_ids hb (i := BitVec.ofNat 9 i) (by omega)
  rw [count_seq_buildTree (by omega)] at hc
  show (children _).count _ = _
  split at hc
  · rw [if_pos ‹_›]; omega
  · rw [if_neg ‹_›]; omega

end Sys2Proof.Machine
end

section
/-! PROOFS. What the host reads and writes in the CSR space (10_state.md R40 to R56). -/

namespace Sys2Proof.Machine

/-! ## What a read answers -/

/-- While BUSY = 0 a read answers the register's value and draws no free value (10_state.md R55, R56). -/
theorem csrRead_idle {s : State} (h : s.busy = false) (off : BitVec 8) : csrRead s off = (csrValue s off, s) := by
  simp [csrRead, h]

/-- A register the Core does not own, STATUS aside, reads exactly at all times (R56). -/
theorem csrRead_exact {off : BitVec 8} (h : coreOwned off = false) (h8 : off ≠ 0x08) (s : State) :
    csrRead s off = (csrValue s off, s) := by
  have hs : (off == 0x08) = false := beq_eq_false_iff_ne.2 h8
  rw [csrRead, h, hs, Bool.and_false]
  rfl

/-- STATUS reads some values of the three flags of R56: their own while BUSY = 0, and EOS 0 while ERR = 1 (R43). -/
theorem csrRead_status (s : State) : ∃ tree codes e, (csrRead s 0x08).1 = statusWith s tree codes e ∧
    (s.busy = false → tree = s.treeValid ∧ codes = s.codesValid ∧ e = eos s) ∧ (s.err = true → e = false) := by
  cases hb : s.busy with
  | false => exact ⟨_, _, _, by rw [csrRead_idle hb]; rfl, fun _ => ⟨rfl, rfl, rfl⟩, fun he => by simp [eos, he]⟩
  | true =>
    let flag (i : Nat) : Bool := (Config.free .busyFlag 1 s.draws i).getLsbD 0
    exact ⟨flag 2, flag 3, !s.err && flag 4, by rw [csrRead, hb]; rfl, nofun, fun he => by rw [he]; rfl⟩

/-- CMD and the offsets past the last register read 0 (10_state.md R41, R54). -/
theorem csrRead_reserved {off : BitVec 8} (h : off = 0 ∨ 0xA0 ≤ off.toNat) (s : State) : (csrRead s off).1 = 0 := by
  have ho : coreOwned off = false ∧ off ≠ 0x08 := by revert off; decide
  rw [csrRead_exact ho.1 ho.2]
  rcases h with rfl | h
  · rfl
  · unfold csrValue
    split
    all_goals try omega
    rw [if_neg (by omega), if_neg (by omega)]

/-! ## What a write stores -/

/-- The four registers a host write stores into (10_state.md R42, R46, R50, R51). -/
theorem csrStore_eq (off : BitVec 8) (v : Word) (s : State) : csrStore off v s =
    if off = 0x04 then { s with arg := v }
    else if off = 0x18 then { s with ilen := v }
    else if off = 0x4C then { s with freqSel := v.extractLsb' 0 8 }
    else if off = 0x54 then { s with codeSel := v.extractLsb' 0 8 }
    else s := by
  by_cases h1 : off = 0x04
  · subst h1; rfl
  by_cases h2 : off = 0x18
  · subst h2; rfl
  by_cases h3 : off = 0x4C
  · subst h3; rfl
  by_cases h4 : off = 0x54
  · subst h4; rfl
  rw [if_neg h1, if_neg h2, if_neg h3, if_neg h4]
  have ne : ∀ {k : BitVec 8}, off ≠ k → off.toNat ≠ k.toNat := fun h e => h (BitVec.eq_of_toNat_eq e)
  unfold csrStore
  split
  · exact absurd ‹_› (ne h1)
  · exact absurd ‹_› (ne h2)
  · exact absurd ‹_› (ne h3)
  · exact absurd ‹_› (ne h4)
  · rfl

/-- ARG and ILEN read back as written. -/
theorem csrRead_csrStore_word {off : BitVec 8} (h : off = 0x04 ∨ off = 0x18) (v : Word) (s : State) :
    (csrRead (csrStore off v s) off).1 = v := by
  rcases h with rfl | rfl <;> rw [csrRead_exact (by decide) (by decide)] <;> rfl

/-- FREQ_SEL and CODE_SEL read back bits 7:0 as written. -/
theorem csrRead_csrStore_select {off : BitVec 8} (h : off = 0x4C ∨ off = 0x54) (v : Word) (s : State) :
    (csrRead (csrStore off v s) off).1 = v &&& 0xFF := by
  have low : (v.extractLsb' 0 8).setWidth 32 = v &&& 0xFF := by
    apply BitVec.eq_of_toNat_eq
    rw [BitVec.toNat_and, BitVec.toNat_setWidth, BitVec.extractLsb'_toNat, Nat.shiftRight_zero,
      show (0xFF : Word).toNat = 2 ^ 8 - 1 from rfl, Nat.and_two_pow_sub_one_eq_mod]
    omega
  rcases h with rfl | rfl <;> rw [csrRead_exact (by decide) (by decide)] <;> exact low

/-- Settles O48, from what a read answers and what a write stores. -/
theorem registerAccess : Obligations.RegisterAccess := by
  intro s off v hoff
  have hw : hostStep (.wr off v) s = .next (csrStore off v s) := if_pos hoff
  refine ⟨⟨csrRead_state s off, ?_, fun h => csrRead_reserved h s⟩, fun _ => by rw [hw, csrStore_eq], fun _ =>
    ⟨_, hw, fun h => csrRead_csrStore_word h v s, fun h => csrRead_csrStore_select h v s⟩⟩
  obtain ⟨d, hd⟩ := csrRead_state s off
  rw [show hostStep (.rd off) s = .next (readNoted off s) from if_pos hoff, readNoted, hd]

/-! ## Fields by their bits -/

/-- A field is what its bits are. -/
theorem extractLsb'_eq_of_bits {w a : Nat} {v : Word} {x : BitVec w}
    (h : ∀ i < w, v.getLsbD (a + i) = x.getLsbD i) : v.extractLsb' a w = x :=
  BitVec.eq_of_getLsbD_eq fun i hi => by rw [BitVec.getLsbD_extractLsb', h i hi]; simp [hi]

/-- A field of one bit. -/
theorem getLsbD_of_extractLsb'_one {v : Word} {k : Nat} {b : Bool} (h : v.extractLsb' k 1 = vecLE 1 [b]) :
    v.getLsbD k = b := by
  have h0 : (v.extractLsb' k 1).getLsbD 0 = (vecLE 1 [b]).getLsbD 0 := by rw [h]
  rwa [BitVec.getLsbD_extractLsb', getLsbD_vecLE] at h0

/-! ## STATUS -/

/-- Bit `i` of STATUS (R43). -/
theorem getLsbD_statusWith (s : State) (tree codes e : Bool) {i : Nat} (hi : i < 32) :
    (statusWith s tree codes e).getLsbD i =
      ([s.busy, s.err, tree, codes, e, s.cmdOvr, false, false] ++ (List.range 4).map s.errcode.getLsbD).getD i false := by
  rw [statusWith, getLsbD_vecLE, decide_eq_true hi, Bool.true_and]

theorem errcode_statusWith (s : State) (tree codes e : Bool) : (statusWith s tree codes e).extractLsb' 8 4 = s.errcode :=
  extractLsb'_eq_of_bits fun i hi => by
    rw [getLsbD_statusWith s tree codes e (by omega), List.getD_append_right _ _ _ _ (by simp)]
    simp [List.getD_eq_getElem?_getD, hi]

/-- The bits from 12 on are past STATUS's last field. -/
theorem reserved_statusWith (s : State) (tree codes e : Bool) : (statusWith s tree codes e).extractLsb' 12 20 = 0 :=
  zeroField fun i h1 h2 => by
    rw [getLsbD_statusWith s tree codes e (by omega)]
    exact List.getD_eq_default _ _ (by simpa using h1)

theorem eos_iff (s : State) : eos s = true ↔ s.err = false ∧ totalOf s.freq ≤ s.emit.toNat := by simp [eos]

/-- Settles O49, from the bits of STATUS under whatever values its three flags of R56 read. -/
theorem statusFields : Obligations.StatusFields := by
  refine ⟨fun s => ?_, by decide +kernel⟩
  obtain ⟨tree, codes, e, hv, hidle, herr⟩ := csrRead_status s
  have bit := fun i (hi : i < 32) => getLsbD_statusWith s tree codes e hi
  simp only [hv]
  refine ⟨bit 0 (by decide), bit 1 (by decide), bit 5 (by decide), errcode_statusWith .., ?_, reserved_statusWith .., ?_, ?_⟩
  · refine zeroField fun i h1 h2 => ?_
    obtain rfl | rfl : i = 6 ∨ i = 7 := by omega
    · exact bit 6 (by decide)
    · exact bit 7 (by decide)
  · intro hb
    obtain ⟨rfl, rfl, rfl⟩ := hidle hb
    exact ⟨bit 2 (by decide), bit 3 (by decide), by rw [← eos_iff, bit 4 (by decide)]; rfl⟩
  · exact fun he => (bit 4 (by decide)).trans (herr he)

/-! ## The windows -/

/-- A field placed at bit `k` of a word. -/
theorem getLsbD_placed {w : Nat} (y : BitVec w) {k : Nat} (hk : k + w ≤ 32) (i : Nat) :
    (y.setWidth 32 <<< k : Word).getLsbD i = (decide (k ≤ i) && y.getLsbD (i - k)) := by
  rw [BitVec.getLsbD_shiftLeft, BitVec.getLsbD_setWidth]
  by_cases hi : i < 32
  · by_cases hki : k ≤ i <;> simp [hi, hki, show i - k < 32 by omega]
  · simp [hi, BitVec.getLsbD_of_ge y (i - k) (by omega)]

/-- A field placed at bit 0 of a word. -/
theorem getLsbD_placed_zero {w : Nat} (y : BitVec w) (hw : w ≤ 32) (i : Nat) :
    (y.setWidth 32 : Word).getLsbD i = y.getLsbD i := by
  have := getLsbD_placed y (k := 0) (by omega) i
  simpa using this

/-- Bit `i` of TREE_INFO (R52). -/
theorem getLsbD_treeInfo (s : State) (i : Nat) : (treeInfo s).getLsbD i =
    ((s.root.getD 0).getLsbD i || (decide (15 ≤ i) && (vecLE 1 [s.root.isSome]).getLsbD (i - 15)) ||
      (decide (16 ≤ i) && s.nnodes.getLsbD (i - 16))) := by
  rw [treeInfo, BitVec.getLsbD_or, BitVec.getLsbD_or, getLsbD_placed_zero _ (by omega), getLsbD_placed _ (by omega),
    getLsbD_placed _ (by omega)]

/-- Bit `i` of ERR_DATA (R45). -/
theorem getLsbD_errData (s : State) (i : Nat) : (errData s).getLsbD i =
    (s.errActual.getLsbD i || (decide (8 ≤ i) && s.errExpected.getLsbD (i - 8)) ||
      (decide (16 ≤ i) && (vecLE 2 [s.errValid, s.errPort]).getLsbD (i - 16))) := by
  have hv : vecLE 32 [s.errValid, s.errPort] = (vecLE 2 [s.errValid, s.errPort]).setWidth 32 := by
    cases s.errValid <;> cases s.errPort <;> rfl
  rw [errData, hv, BitVec.getLsbD_or, BitVec.getLsbD_or, getLsbD_placed_zero _ (by omega), getLsbD_placed _ (by omega),
    getLsbD_placed _ (by omega)]

/-- The fields of TREE_INFO: ROOT, HAS_ROOT, NNODES, and 0 between and after them (R52). -/
theorem treeInfo_fields (s : State) :
    (treeInfo s).extractLsb' 0 9 = s.root.getD 0 ∧ (treeInfo s).getLsbD 15 = s.root.isSome ∧
      (treeInfo s).extractLsb' 16 10 = s.nnodes ∧ (treeInfo s).extractLsb' 9 6 = 0 ∧
      (treeInfo s).extractLsb' 26 6 = 0 := by
  have root : ∀ i, 9 ≤ i → (s.root.getD 0).getLsbD i = false := fun i hi => BitVec.getLsbD_of_ge _ _ hi
  refine ⟨extractLsb'_eq_of_bits fun i hi => ?_, ?_, extractLsb'_eq_of_bits fun i hi => ?_, zeroField fun i h1 h2 => ?_,
    zeroField fun i h1 h2 => ?_⟩ <;> rw [getLsbD_treeInfo]
  · simp [show ¬ 15 ≤ i by omega, show ¬ 16 ≤ i by omega]
  · rw [root 15 (by decide)]; simp
  · rw [root (16 + i) (by omega)]; simp [show ¬ 16 + i - 15 < 1 by omega]
  · rw [root i (by omega)]; simp [show ¬ 15 ≤ i by omega, show ¬ 16 ≤ i by omega]
  · rw [root i (by omega), BitVec.getLsbD_of_ge s.nnodes (i - 16) (by omega)]; simp [show ¬ i - 15 < 1 by omega]

/-- The fields of ERR_DATA, and 0 after them (R45). -/
theorem errData_fields (s : State) :
    (errData s).extractLsb' 0 8 = s.errActual ∧ (errData s).extractLsb' 8 8 = s.errExpected ∧
      (errData s).getLsbD 16 = s.errValid ∧ (errData s).getLsbD 17 = s.errPort ∧ (errData s).extractLsb' 18 14 = 0 := by
  have actual : ∀ i, 8 ≤ i → s.errActual.getLsbD i = false := fun i hi => BitVec.getLsbD_of_ge _ _ hi
  have expected : ∀ i, 16 ≤ i → s.errExpected.getLsbD (i - 8) = false := fun i hi => BitVec.getLsbD_of_ge _ _ (by omega)
  refine ⟨extractLsb'_eq_of_bits fun i hi => ?_, extractLsb'_eq_of_bits fun i hi => ?_, ?_, ?_,
    zeroField fun i h1 h2 => ?_⟩ <;> rw [getLsbD_errData]
  · simp [show ¬ 8 ≤ i by omega, show ¬ 16 ≤ i by omega]
  · rw [actual (8 + i) (by omega)]; simp [show ¬ 16 ≤ 8 + i by omega]
  · rw [actual 16 (by decide), expected 16 (by decide)]; simp
  · rw [actual 17 (by decide), expected 17 (by decide)]; simp
  · rw [actual i (by omega), expected i (by omega)]; simp [show ¬ i - 16 < 2 by omega]

theorem csrValue_pres (s : State) {k : Nat} (hk : k < 8) :
    csrValue s (BitVec.ofNat 8 (0x60 + 4 * k)) = presWord s.freq k := by
  interval_cases k <;> rfl

theorem csrValue_codeBits (s : State) {k : Nat} (hk : k < 8) :
    csrValue s (BitVec.ofNat 8 (0x80 + 4 * k)) = codeBitsWord (codeAt s.code s.codeSel) k := by
  interval_cases k <;> rfl

/-- Bit `j` of PRESk is PRES[32k + j] (R53). -/
theorem getLsbD_presWord (f : Vector Word 256) {k j : Nat} (hk : k < 8) (hj : j < 32) :
    (presWord f k).getLsbD j = present f (BitVec.ofNat 8 (32 * k + j)) := by
  have hx : (BitVec.ofNat 8 (32 * k + j)).toNat = 32 * k + j := by rw [BitVec.toNat_ofNat]; omega
  rw [presWord, getLsbD_vecLE, present, freqAt]
  simp [List.getD_eq_getElem?_getD, hj, hx, show 32 * k + j < 256 by omega]

/-- Bit `31 − j` of CODE_BITSk is BITS[32k + j] (R51). -/
theorem getLsbD_codeBitsWord (e : CodeEntry) {k j : Nat} (hj : j < 32) :
    (codeBitsWord e k).getLsbD (31 - j) = e.bits.getLsbD (32 * k + j) := by
  rw [codeBitsWord, getLsbD_vecMSB]
  simp [List.getD_eq_getElem?_getD, hj, show 31 - (31 - j) = j by omega, show 31 - j < 32 by omega]

/-- Settles O50: each window is its packed word, taken apart into its fields. -/
theorem windowRegisters : Obligations.WindowRegisters := by
  intro s hb
  have read := fun off => congrArg Prod.fst (csrRead_idle hb off)
  have pack := packedFields s.acc s.nbits 8 (by decide) (by decide)
  have unpack := packedFields s.cur s.rem 8 (by decide) (by decide)
  have code := packedFields (codeAt s.code s.codeSel).len (vecLE 1 [(codeAt s.code s.codeSel).assigned]) 16 (by decide)
    (by decide)
  simp only [read]
  refine ⟨?_, ?_, rfl, ?_, treeInfo_fields s, fun k j hk hj => ⟨?_, ?_⟩⟩
  · obtain ⟨h1, h2, h3, -⟩ := pack
    exact ⟨h1, h2, zeroField fun i hi _ => h3 i hi⟩
  · obtain ⟨h1, h2, h3, -⟩ := unpack
    exact ⟨h1, h2, zeroField fun i hi _ => h3 i hi⟩
  · obtain ⟨h1, h2, h3, h4⟩ := code
    exact ⟨h1, getLsbD_of_extractLsb'_one h2, zeroField h4, zeroField fun i hi _ => h3 i hi⟩
  · rw [csrValue_pres s hk, getLsbD_presWord s.freq hk hj]
  · rw [csrValue_codeBits s hk, getLsbD_codeBitsWord _ hj]

/-! ## The counters -/

/-- Settles O51: a pair of registers is the two halves of its counter; TOTAL fits 40 bits and NSYM 32. -/
theorem counterRegisters : Obligations.CounterRegisters := by
  refine ⟨fun s hb => ?_, fun s => ⟨?_, ?_⟩⟩
  · have read := fun off => congrArg Prod.fst (csrRead_idle hb off)
    simp only [read]
    have total : (BitVec.ofNat 40 (totalOf s.freq)).toNat = totalOf s.freq := by
      rw [BitVec.toNat_ofNat, Nat.mod_eq_of_lt (totalOf_lt _)]
    refine ⟨?_, ?_, ?_, lo_hi (by decide) s.emit, lo_hi (by decide) s.inCount, lo_hi (by decide) s.outCount⟩
    · exact BitVec.toNat_setWidth_of_le (by decide)
    · have := nsymOf_le s.freq
      exact (BitVec.toNat_ofNat ..).trans (Nat.mod_eq_of_lt (by omega))
    · exact (lo_hi (by decide) _).trans total
  · rw [csrRead_exact (by decide) (by decide), csrRead_exact (by decide) (by decide)]
    exact lo_hi (by decide) s.errOffset
  · rw [csrRead_exact (by decide) (by decide)]
    exact errData_fields s

end Sys2Proof.Machine
end

section
/-! PROOFS. Interleaving (20_memory.md R79, 70_reset_and_hazards.md R285): what every command leaves to the host, what it
takes late, and where its beginning and its end wait for the host's turn. -/

namespace Sys2Proof.Machine

/-! ## The arrival of a command as a run of stretches -/

/-- Every command but SRESET, where it is accepted, runs stretches of its own after its start (30_encoding.md R95). -/
theorem exec_accepted {i : Instr} (hi : i ≠ .sreset) : ∃ rule, ∀ s : State, s.busy = false → s.err = false →
    exec i s = (runTasks (.start :: rule) (accept (encode i) s)).finish := by
  obtain ⟨rule, hr⟩ := exec_issue hi
  refine ⟨rule, fun s hb he => ?_⟩
  rw [hr, issue, hb, he]
  rfl

/-- SRESET leaves no command running (45_control.md R231). -/
theorem ne_sreset_of_busy {i : Instr} {s t : State} (h : exec i s = .next t) (hb : t.busy = true) : i ≠ .sreset := by
  rintro rfl
  obtain rfl := Host.Outcome.next.inj h
  cases hb

/-- The host's turn is due where it is scheduled and a transaction is pending (20_memory.md R79). -/
theorem paused_iff {s : State} : s.paused = true ↔ s.hostOps ≠ [] ∧ s.sched.head? = some .host := by
  simp [State.paused]

/-! ## What a command leaves to the host -/

/-- From `s` to `t` IBUF and the host's side stay, SRC is taken only from the front and SNK extended only at the end
(20_memory.md R62, R64, R65). -/
structure LeavesHost (s t : State) : Prop where
  ibuf : t.ibuf = s.ibuf
  ibufDraw : t.ibufDraw = s.ibufDraw
  cfg : t.cfg = s.cfg
  hostOps : t.hostOps = s.hostOps
  notes : t.notes = s.notes
  snkStanding : t.snkStanding = s.snkStanding
  src : t.src <:+ s.src
  snk : s.snk <+: t.snk

/-- From `s` to `t` the host's own registers stay (10_state.md R42, R46, R50, R51). -/
structure LeavesRegisters (s t : State) : Prop where
  arg : t.arg = s.arg
  ilen : t.ilen = s.ilen
  freqSel : t.freqSel = s.freqSel
  codeSel : t.codeSel = s.codeSel

theorem LeavesHost.refl (s : State) : LeavesHost s s :=
  ⟨rfl, rfl, rfl, rfl, rfl, rfl, List.suffix_refl _, List.prefix_refl _⟩

theorem LeavesRegisters.refl (s : State) : LeavesRegisters s s := ⟨rfl, rfl, rfl, rfl⟩

/-- Equal IBUF in equal drawings reads equal. -/
theorem LeavesHost.memRead {s t : State} (h : LeavesHost s t) (i : Nat) : Machine.memRead t i = Machine.memRead s i := by
  rw [memRead_congr h.ibuf h.ibufDraw]

theorem Frame.leavesHost {s u : State} (h : Frame s u) : LeavesHost s u :=
  ⟨h.ibuf, h.ibufDraw, h.cfg, h.hostOps, h.notes, h.snkStanding, h.src, h.snk⟩

theorem Frame.leavesRegisters {s u : State} (h : Frame s u) : LeavesRegisters s u :=
  ⟨h.arg, h.ilen, h.freqSel, h.codeSel⟩

/-- Error entry touches neither (60_exceptions.md R244). -/
theorem LeavesHost.raise {s u : State} (h : LeavesHost s u) (e : ErrKind) (o : BitVec 64) (x a : Option Byte) (p : Port) :
    LeavesHost s (raise e o x a p u) := by
  constructor <;> simp [h.ibuf, h.ibufDraw, h.cfg, h.hostOps, h.notes, h.snkStanding, h.src, h.snk]

theorem LeavesRegisters.raise {s u : State} (h : LeavesRegisters s u) (e : ErrKind) (o : BitVec 64) (x a : Option Byte)
    (p : Port) : LeavesRegisters s (raise e o x a p u) := by
  constructor <;> simp [h.arg, h.ilen, h.freqSel, h.codeSel]

/-- However a run of stretches ends, raises or stops. -/
theorem leaves_finish {ts : List Task} {s t : State} (h : (runTasks ts s).finish = .next t) :
    LeavesHost s t ∧ LeavesRegisters s t := by
  rcases finish_runTasks h with ⟨u, hf, -, rfl⟩ | ⟨e, o, x, a, p, u, hf, -, rfl⟩ | ⟨w, r, u, hf, rfl, -⟩
  · exact ⟨{ hf.leavesHost with }, { hf.leavesRegisters with }⟩
  · exact ⟨hf.turn.leavesHost.raise .., hf.turn.leavesRegisters.raise ..⟩
  · exact ⟨{ hf.leavesHost with }, { hf.leavesRegisters with }⟩

/-- The answer to an offered byte extends SNK, if it changes it (20_memory.md R65). -/
theorem snk_prefix_answerOffer (s : State) : s.snk <+: (answerOffer s).snk := by
  rcases answerOffer_cases s with ⟨-, e⟩ | ⟨b, as, -, -, e⟩ | ⟨b, as, -, -, e⟩ <;> rw [e]
  · exact List.prefix_append _ _
  · exact List.prefix_refl _

/-- SRESET leaves the host's side (45_control.md R231). -/
theorem leavesHost_softReset (s : State) : LeavesHost s (softReset s) :=
  ⟨rfl, rfl, rfl, rfl, rfl, rfl, List.suffix_refl _, snk_prefix_answerOffer s⟩

/-- Every command but SRESET, dropped, ignored or accepted (30_encoding.md R95). -/
theorem leaves_exec {i : Instr} (hi : i ≠ .sreset) {s t : State} (h : exec i s = .next t) :
    LeavesHost s t ∧ LeavesRegisters s t := by
  obtain ⟨rule, hr⟩ := exec_issue hi
  rw [hr] at h
  rcases issue_cases i rule s with ⟨-, e⟩ | ⟨-, -, e⟩ | ⟨-, -, e⟩ <;> rw [e] at h
  · obtain rfl := Host.Outcome.next.inj h
    exact ⟨{ LeavesHost.refl s with }, { LeavesRegisters.refl s with }⟩
  · obtain rfl := Host.Outcome.next.inj h
    exact ⟨.refl s, .refl s⟩
  · obtain ⟨hh, hr⟩ := leaves_finish h
    exact ⟨{ hh with }, { hr with }⟩

/-- Settles O53: every stretch keeps the frame, and SRESET keeps the host's side. -/
theorem commandsLeaveHostAlone : Obligations.CommandsLeaveHostAlone := by
  have kept : ∀ {s t : State}, LeavesHost s t → t.ibuf = s.ibuf ∧ (∀ i, memRead t i = memRead s i) ∧ t.cfg = s.cfg ∧
      t.hostOps = s.hostOps ∧ t.notes = s.notes ∧ t.snkStanding = s.snkStanding ∧ t.src <:+ s.src ∧ s.snk <+: t.snk :=
    fun h => ⟨h.ibuf, h.memRead, h.cfg, h.hostOps, h.notes, h.snkStanding, h.src, h.snk⟩
  have registers : ∀ {s t : State}, LeavesRegisters s t →
      t.arg = s.arg ∧ t.ilen = s.ilen ∧ t.freqSel = s.freqSel ∧ t.codeSel = s.codeSel :=
    fun h => ⟨h.arg, h.ilen, h.freqSel, h.codeSel⟩
  refine ⟨fun i s t h => ?_, fun s t h => (leaves_finish h).imp kept registers⟩
  by_cases hi : i = .sreset
  · subst hi
    obtain rfl := Host.Outcome.next.inj h
    exact ⟨kept (leavesHost_softReset s), fun hn => absurd rfl hn⟩
  · obtain ⟨hh, hr⟩ := leaves_exec hi h
    exact ⟨kept hh, fun _ => registers hr⟩

/-! ## Elements and answers that come late -/

/-- What the host gives later: elements offered on SRC and answers on SNK, nothing else changed. -/
def offers (es : List SrcElem) (as : List SnkAns) : Late := ⟨es, as, none, none, none, none⟩

theorem offers_on (es : List SrcElem) (as : List SnkAns) (s : State) :
    (offers es as).on s = { s with src := s.src ++ es, snkAns := s.snkAns ++ as } := rfl

/-- A run of stretches that waits on SRC goes on with late elements as with elements ahead. -/
theorem resume_lateElements {ts : List Task} {s t : State} (h : (runTasks ts s).finish = .next t) (hb : t.busy = true)
    (hw : t.waitOn = .src) (es : List SrcElem) :
    resume { t with src := es } = (runTasks ts { s with src := s.src ++ es }).finish := by
  obtain ⟨hrun, hsrc, -⟩ := finish_late (d := offers es []) (.inl rfl) ⟨rfl, rfl, rfl, rfl⟩ h hb
  simp only [offers_on, hsrc hw, List.nil_append, List.append_nil] at hrun
  exact hrun

/-- Settles O56: a command that waits on SRC is a run of stretches that waits there. -/
theorem lateOffers : Obligations.LateOffers := by
  refine ⟨fun i s t es hs h hb hw => ?_, fun s t es h hb hw => resume_lateElements h hb hw es⟩
  obtain ⟨rule, hr⟩ := exec_accepted (ne_sreset_of_busy h hb)
  rw [hr s hs.busy hs.err] at h
  rw [hr { s with src := s.src ++ es } hs.busy hs.err]
  exact resume_lateElements h hb hw es

/-- The answer to an offered byte looks at the first answer alone, where none stood before. -/
theorem answerOffer_first {t : State} {b : Byte} (hw : t.waitOn = .snk b) (a : SnkAns) (as : List SnkAns) :
    { answerOffer { t with snkAns := [a] } with snkAns := as } = answerOffer { t with snkAns := a :: as } := by
  unfold answerOffer
  simp only [hw, snkAnswer]
  cases a <;> rfl

/-- A run of stretches that waits on SNK, once its byte is answered, goes on as with that answer and the later ones
ahead. -/
theorem resume_lateAnswer {ts : List Task} {s t : State} {b : Byte} (h : (runTasks ts s).finish = .next t)
    (hb : t.busy = true) (hw : t.waitOn = .snk b) (a : SnkAns) (as : List SnkAns) :
    ∃ u, hostStep (.snkAnswer a) t = .next u ∧ u.snk = t.snk ++ (if a = .ok then [b] else []) ∧ u.snkAns = [] ∧
      resume { u with snkAns := as } = (runTasks ts { s with snkAns := s.snkAns ++ a :: as }).finish := by
  obtain ⟨-, -, ho⟩ := finish_late (d := offers [] []) (.inl rfl) ⟨rfl, rfl, rfl, rfl⟩ h hb
  obtain ⟨⟨r, hc⟩, hq, hst, hp⟩ := ho b hw
  have hquiet : s.snkStanding = none := (leaves_finish h).1.snkStanding.symm.trans hst
  obtain ⟨hrun, -⟩ := finish_late (d := offers [] (a :: as)) (.inr hquiet) ⟨rfl, rfl, rfl, rfl⟩ h hb
  simp only [offers_on, hq, List.append_nil, List.nil_append] at hrun
  have hstep : hostStep (.snkAnswer a) t = .next (answerOffer { t with snkAns := [a] }) := by rw [hostStep, hq]; rfl
  obtain ⟨htaken, hleft⟩ := answerOffer_taken (s := { t with snkAns := [a] }) (as := []) hw rfl
  refine ⟨_, hstep, htaken, hleft, ?_⟩
  rw [answerOffer_first hw, resume_answerOffer (s := { t with snkAns := a :: as }) hw hc hp]
  exact hrun

/-- Settles O57: a command that waits on SNK is a run of stretches that waits there. -/
theorem lateAnswers : Obligations.LateAnswers := by
  refine ⟨fun i s t b a as hs h hb hw => ?_, fun s t b a as h hb hw => resume_lateAnswer h hb hw a as⟩
  obtain ⟨rule, hr⟩ := exec_accepted (ne_sreset_of_busy h hb)
  rw [hr s hs.busy hs.err] at h
  rw [hr { s with snkAns := s.snkAns ++ a :: as } hs.busy hs.err]
  exact resume_lateAnswer h hb hw a as

/-! ## Where a command begins and ends -/

/-- The command of `s` ends in `t` where no host turn is due, and the end uses up the Core's turn there. -/
def EndsIn (s t : State) : Prop :=
  ∃ turns, turns <:+ s.sched ∧ ¬ (s.hostOps ≠ [] ∧ turns.head? = some .host) ∧ t.hostOps = s.hostOps ∧
    t.sched = afterCore turns

/-- An end reached through a frame, passed with the Core's turn. -/
theorem Frame.endsIn {s u t : State} (h : Frame s u) (hp : u.paused = false) (ho : t.hostOps = u.hostOps)
    (ht : t.sched = afterCore u.sched) : EndsIn s t :=
  ⟨u.sched, h.sched, by rw [← h.hostOps, ← paused_iff, hp]; nofun, ho.trans h.hostOps, ht⟩

/-- A run of stretches of a running command that ends, by completion or by a raise. -/
theorem endsIn_finish {ts : List Task} {s t : State} (h : (runTasks ts s).finish = .next t) (hs : s.busy = true)
    (ht : t.busy = false) : EndsIn s t := by
  rcases finish_runTasks h with ⟨u, hf, hp, rfl⟩ | ⟨e, o, x, a, p, u, hf, hp, rfl⟩ | ⟨w, r, u, hf, rfl, -⟩
  · exact hf.endsIn hp rfl rfl
  · exact hf.endsIn hp (raise_hostOps ..) (raise_sched ..)
  · exact absurd (hs.symm.trans (hf.busy.symm.trans ht)) nofun

/-- A rule that ends well with the schedule, the script and BUSY as they were: it meets no stream and raises nothing. -/
def Straight (rule : List Task) : Prop :=
  ∀ s, ∃ u, runTasks rule s = .done u ∧ u.sched = s.sched ∧ u.hostOps = s.hostOps ∧ u.busy = s.busy

theorem straight_nil : Straight [] := fun s => ⟨s, rfl, rfl, rfl, rfl⟩

/-- FCLR, FSET, FWIDTH and TBUILD (40_frequency.md R110, R112, R115, 41_tree.md R130). -/
theorem straight_task {t : Task} (ht : t = .fclr ∨ t = .fset ∨ t = .fwidth ∨ t = .tbuild) : Straight [t] := by
  intro s
  rcases ht with rfl | rfl | rfl | rfl
  all_goals exact ⟨_, runTasks_one _ s, rfl, rfl, rfl⟩

/-- A straight rule has one turn at its beginning and one at its end (log 4). -/
theorem issue_straight {rule : List Task} (hr : Straight rule) (i : Instr) {s : State} (hb : s.busy = false)
    (he : s.err = false) (ho : s.hostOps ≠ []) (turns : List Agent) :
    (s.sched = .core :: .host :: turns → ∃ t, issue i rule s = .next t ∧ t.busy = true ∧ t.sched = .host :: turns) ∧
    (s.sched = .core :: .core :: turns → ∃ t, issue i rule s = .next t ∧ t.busy = false ∧ t.sched = turns) := by
  have run : ∀ {next}, s.sched = .core :: next → ∃ u : State, issue i rule s = (Flow.done u).finish ∧ u.sched = next ∧
      u.hostOps ≠ [] ∧ u.busy = true := fun {next} hs => by
    obtain ⟨u, hu, hsch, hops, hbusy⟩ := hr (coreTurn (accept (encode i) s))
    have hp : (accept (encode i) s).paused = false := by
      rw [Bool.eq_false_iff, Ne, paused_iff, accept_sched, hs]; simp
    refine ⟨u, ?_, hsch.trans (by rw [coreTurn_sched, accept_sched, hs]; rfl), hops ▸ ho, hbusy⟩
    rw [issue, hb, he, if_neg nofun, if_neg nofun, runTasks_cons, runTask, startRule, hp, if_neg nofun,
      Flow.andThen_done, hu]
  refine ⟨fun hs => ?_, fun hs => ?_⟩ <;> obtain ⟨u, hu, hsch, hops, hbusy⟩ := run hs <;>
    rcases Flow.finish_done_cases u with ⟨hp, e⟩ | ⟨hp, e⟩ <;> rw [hu, e]
  · exact ⟨_, rfl, hbusy, hsch⟩
  · exact absurd (paused_iff.2 ⟨hops, by rw [hsch]; rfl⟩) (by rw [hp]; nofun)
  · exact absurd (paused_iff.1 hp).2 (by rw [hsch]; nofun)
  · exact ⟨_, rfl, rfl, by show afterCore u.sched = _; rw [hsch]; rfl⟩

/-- Settles O55: the ends of a run of stretches, the two positions just before an end, and the turn at each point. -/
theorem endWaitsForHost : Obligations.EndWaitsForHost := by
  refine ⟨fun _ => ⟨rfl, rfl⟩, fun i s t hi hb he h ht => ?_, fun s t hb h ht => endsIn_finish h hb ht, fun s hb hn => ?_,
    fun i s hi hb he hp => ?_, fun i s turns hi hb he ho => ?_⟩
  · obtain ⟨rule, hr⟩ := exec_accepted hi
    exact endsIn_finish (s := accept (encode i) s) ((hr s hb he).symm.trans h) rfl ht
  · have hp : s.paused = false := by rw [Bool.eq_false_iff, Ne, paused_iff]; exact hn
    refine ⟨fun hc => ?_, fun e o x a p rest hc => ?_⟩
    · rw [resume, hc, runTasks_nil, Flow.finish, hp, if_neg nofun, idleAgain, coreTurn, ← hc]
    · rw [resume, hc, runTasks_cons, runTask, raising, hp, if_neg nofun]
      rfl
  · obtain ⟨rule, hr⟩ := exec_issue hi
    exact ⟨_, (hr s).trans (issue_paused hb he (paused_iff.2 hp) i rule), rfl, rfl, rfl⟩
  · rcases hi with rfl | rfl | ⟨x, rfl⟩ | rfl | rfl
    · exact issue_straight straight_nil .nop hb he ho turns
    all_goals exact issue_straight (straight_task (by simp)) _ hb he ho turns

end Sys2Proof.Machine
end

section
/-! PROOFS. A stream that fails inside a command (20_memory.md R68, R69, 60_exceptions.md R248): the bytes before it are
delivered, and the command ends there. -/

namespace Sys2Proof.Machine

/-! ## The rules behind their checks -/

theorem sequenceCheck_ok {flag : State → Bool} {s : State} (h : flag s = true) (op : Byte) :
    sequenceCheck flag op s = .done s := if_pos h

/-- PSYM of a symbol that has a code (43_bitpack.md R172). -/
theorem psymRule_valid {s : State} (hv : s.codesValid = true) (hx : (codeAt s.code s.lSym).assigned = true) :
    psymRule s = packBits (codeAt s.code s.lSym).bitString s := by
  rw [psymRule, sequenceCheck_ok hv, Flow.andThen_done, packSym, if_pos hx]

/-- PSCAN of an admitted length (43_bitpack.md R173). -/
theorem pscanRule_valid {s : State} (hv : s.codesValid = true) (h : scanLength s ≤ s.cfg.ibufSize) :
    pscanRule s = pscanLoop (scanLength s) 0 s := by
  rw [pscanRule, sequenceCheck_ok hv, Flow.andThen_done, lengthCheck_ok h, Flow.andThen_done, pscanRest, Nat.sub_zero]

/-- UDEC before the last symbol (43_bitpack.md R180). -/
theorem udecRule_valid {s : State} {r : NodeId} (hv : s.treeValid = true) (he : s.emit.toNat < totalOf s.freq)
    (hr : s.root = some r) : udecRule s = walkRule r s := by
  rw [udecRule, sequenceCheck_ok hv, Flow.andThen_done, if_neg (by omega), decodeSymbol, hr]

/-- UDECALL on a valid tree (43_bitpack.md R181). -/
theorem udecallRule_valid {s : State} (hv : s.treeValid = true) :
    udecallRule s = decodeSymbols (totalOf s.freq - s.emit.toNat) s := by
  rw [udecallRule, sequenceCheck_ok hv, Flow.andThen_done, decodeLoop]

/-! ## A command that raises -/

/-- The values a raise in `u` and one in `v` leave are the same: `u` and `v` differ in what R244 leaves unspecified alone
(60_exceptions.md R243, R244). -/
def SameRaise (u v : State) : Prop := ∀ e o x a p, raise e o x a p u = raise e o x a p v

/-- A command whose rule raises ends in that error entry. -/
theorem issue_raised {s : State} (hs : Idle s) {i : Instr} {rule : List Task} {e : ErrKind} {o : BitVec 64}
    {x a : Option Byte} {p : Port} {u v : State}
    (h : runTasks rule (accept (encode i) s) = .raised (raise e o x a p u)) (huv : SameRaise u v) :
    issue i rule s = .next (raise e o x a p v) := by
  rw [issue_idle hs, h, Flow.ended_raised, huv]

/-- A command of one stretch that raises ends in that error entry. -/
theorem issue_one_raised {s : State} (hs : Idle s) {i : Instr} {task : Task} {e : ErrKind} {o : BitVec 64}
    {x a : Option Byte} {p : Port} {u v : State}
    (h : runTask task (accept (encode i) s) = .raised (raise e o x a p u)) (huv : SameRaise u v) :
    issue i [task] s = .next (raise e o x a p v) :=
  issue_raised hs ((runTasks_one ..).trans h) huv

/-! ## A sink that fails -/

/-- The error entry of a command whose write `k` the host answered with IOERR: `out` are the bytes the command has to
write, `base` is OUT_COUNT before them, `as` are the answers left (20_memory.md R69, 60_exceptions.md R242). -/
def sinkRaise (k : Nat) (as : List SnkAns) (base : BitVec 64) (out : List Byte) (u : State) : State :=
  raise .ioFailure (base + BitVec.ofNat 64 k) none none .snk
    { u with snk := u.snk ++ out.take k, outCount := base + BitVec.ofNat 64 k, snkAns := as }

/-- At the first write nothing is delivered. -/
theorem sinkRaise_first (as : List SnkAns) (base : BitVec 64) (out : List Byte) (u : State) :
    sinkRaise 0 as base out u = raise .ioFailure base none none .snk { u with outCount := base, snkAns := as } := by
  rw [sinkRaise, BitVec.add_zero, List.take_zero, List.append_nil]

/-- A command that counts its own bytes from 0. -/
theorem sinkRaise_zero (k : Nat) (as : List SnkAns) (out : List Byte) (u : State) : sinkRaise k as 0 out u =
    raise .ioFailure (BitVec.ofNat 64 k) none none .snk
      { u with snk := u.snk ++ out.take k, outCount := BitVec.ofNat 64 k, snkAns := as } := by
  rw [sinkRaise, BitVec.ofNat_eq_ofNat, BitVec.zero_add]

theorem exec_hwrite_sinkFails {s : State} {k : Nat} {as : List SnkAns} (hs : Idle s) (ha : SinkFails k as s)
    (hk : k < (headerBytes s.freq (minWidth (maxFreq s.freq))).length) :
    exec .hwrite s = .next (sinkRaise k as 0 (headerBytes s.freq (minWidth (maxFreq s.freq))) s) := by
  have h := sendBytes_fails
    (s := storeWidth (minWidth (maxFreq s.freq)) (clearPacker (zeroOut (accept (encode .hwrite) s)))) hs.sched ha hk
  have ho : (storeWidth (minWidth (maxFreq s.freq)) (clearPacker (zeroOut (accept (encode .hwrite) s)))).outCount +
      BitVec.ofNat 64 k = BitVec.ofNat 64 k := BitVec.zero_add _
  rw [ho] at h
  rw [sinkRaise_zero]
  exact issue_one_raised (task := .hwrite) hs h fun _ _ _ _ _ => by
    dsimp only [storeWidth, clearPacker, zeroOut, accept]
    rfl

theorem exec_pflush_sinkFails {s : State} {as : List SnkAns} (hs : Idle s) (ha : SinkFails 0 as s) (hn : s.nbits ≠ 0) :
    exec .pflush s = .next (sinkRaise 0 as s.outCount [] s) := by
  have h : pflushRule (accept (encode .pflush) s) = .raised (raise .ioFailure s.outCount none none .snk
      { accept (encode .pflush) s with snkAns := as }) := by
    rw [pflushRule, if_neg (show (accept (encode .pflush) s).nbits ≠ 0 from hn), emitByte,
      snkWrite_fails (s := accept (encode .pflush) s) hs.sched ha]
    rfl
  rw [sinkRaise_first]
  exact issue_one_raised (task := .pflush) hs h fun _ _ _ _ _ => rfl

theorem exec_psym_sinkFails {s : State} {k : Nat} {as : List SnkAns} {x : Sym} (hs : Idle s) (ha : SinkFails k as s)
    (hp : PackerOk s) (hv : s.codesValid = true) (hx : (codeAt s.code x).assigned = true)
    (hk : k < (wholeBytes (packed s ++ (codeAt s.code x).bitString)).length) :
    exec (.psym x) s = .next (sinkRaise k as s.outCount (wholeBytes (packed s ++ (codeAt s.code x).bitString)) s) := by
  have hl : (accept (encode (.psym x)) s).lSym = x := symField_encode (.psym x)
  have hrule := psymRule_valid (s := accept (encode (.psym x)) s) hv (by rw [hl]; exact hx)
  rw [hl] at hrule
  rcases packBits_fails (codeAt s.code x).bitString (s := accept (encode (.psym x)) s) hs.sched hp ha with
    ⟨-, a, n, h⟩ | ⟨h, -⟩
  · exact issue_one_raised (task := .psym) hs (hrule.trans h) fun _ _ _ _ _ => rfl
  · exact absurd hk (Nat.not_lt.2 h)

theorem exec_pscan_sinkFails {s : State} {k : Nat} {as : List SnkAns} (hs : Idle s) (ha : SinkFails k as s)
    (hp : PackerOk s) (hv : s.codesValid = true) (hl : s.ilen.toNat ≤ s.cfg.ibufSize)
    (hc : AllCoded s.code (ibufBytes s s.ilen.toNat))
    (hk : k < (wholeBytes (packed s ++ codeBits s.code (ibufBytes s s.ilen.toNat))).length) :
    exec .pscan s =
      .next (sinkRaise k as s.outCount (wholeBytes (packed s ++ codeBits s.code (ibufBytes s s.ilen.toNat))) s) := by
  rw [ibufBytes_eq] at hc hk ⊢
  obtain ⟨a, n, h⟩ := pscanLoop_fails s.ilen.toNat 0 (s := accept (encode .pscan) s) hs.sched hp hc ha hk
  exact issue_one_raised (task := .pscan) hs ((pscanRule_valid (s := accept (encode .pscan) s) hv hl).trans h)
    fun _ _ _ _ _ => rfl

theorem exec_udec_sinkFails {s : State} {as : List SnkAns} {r : NodeId} {p left : List Bool} {x : Sym} {body : List Byte}
    {rest : List SrcElem} (hs : Idle s) (ha : SinkFails 0 as s) (hv : s.treeValid = true) (hr : s.root = some r)
    (he : s.emit.toNat < totalOf s.freq) (h8 : s.rem.toNat ≤ 8) (hp : LeadsTo (nodeAt s) r p x)
    (hb : bodyBits s.cur s.rem.toNat body = p ++ left) (hq : body = [] ∨ left.length < 8)
    (hsrc : s.src = body.map .byte ++ rest) :
    exec .udec s = .next (sinkRaise 0 as s.outCount [x]
      { s with src := rest, inCount := s.inCount + BitVec.ofNat 64 body.length }) := by
  have h := walkRule_sinkFails (s := accept (encode .udec) s) hs.sched ha h8 hp hb hq hsrc
  rw [sinkRaise_first]
  exact issue_one_raised (task := .udec) hs ((udecRule_valid (s := accept (encode .udec) s) hv he hr).trans h)
    fun _ _ _ _ _ => rfl

theorem exec_udecall_sinkFails {s : State} {k : Nat} {as : List SnkAns} {t : Vector CodeEntry 256} {xs : List Sym}
    {left : List Bool} {body : List Byte} {rest : List SrcElem} (hs : Idle s) (ha : SinkFails k as s)
    (hv : s.treeValid = true) (hh : HoldsTree s) (ht : TableFor s.freq t) (h8 : s.rem.toNat ≤ 8)
    (hx : ∀ x ∈ xs, present s.freq x = true) (hlen : xs.length = k + 1) (hl : s.emit.toNat + xs.length ≤ totalOf s.freq)
    (hb : bodyBits s.cur s.rem.toNat body = codeBits t xs ++ left) (hq : body = [] ∨ left.length < 8)
    (hsrc : s.src = body.map .byte ++ rest) :
    exec .udecall s = .next (sinkRaise k as s.outCount xs
      { s with src := rest, inCount := s.inCount + BitVec.ofNat 64 body.length }) :=
  have h := decodeSymbols_sinkFails ht (s := accept (encode .udecall) s) hs.sched ha h8 hh.nodeAt_eq hh.root hx hlen
    (Nat.le_sub_of_add_le' hl) hb hq hsrc
  issue_one_raised (task := .udecall) hs ((udecallRule_valid (s := accept (encode .udecall) s) hv).trans h)
    fun _ _ _ _ _ => rfl

theorem exec_encode_sinkFails {s : State} {k : Nat} {as : List SnkAns} {t : Vector CodeEntry 256} {input : List Byte}
    (hs : Idle s) (ha : SinkFails k as s) (hl : s.ilen.toNat ≤ s.cfg.ibufSize) (hi : ibufBytes s s.ilen.toNat = input)
    (ht : TableFor (histogram input) t) (hk : k < (containerBytes (histogram input) t input).length) :
    exec .encode s = .next (sinkRaise k as 0 (containerBytes (histogram input) t input) s) := by
  rw [sinkRaise_zero]
  exact issue_raised hs (runTasks_encode_fails (s := accept (encode .encode) s) hs.sched hl hi rfl ht ha hk)
    fun _ _ _ _ _ => rfl

theorem exec_decode_sinkFails {s : State} {k : Nat} {as : List SnkAns} {f : Vector Word 256} {w : Nat}
    {t : Vector CodeEntry 256} {xs : List Sym} {left : List Bool} {body : List Byte} {rest : List SrcElem} (hs : Idle s)
    (ha : SinkFails k as s) (hf : FitsWidth f w) (ht : TableFor f t) (hx : ∀ x ∈ xs, present f x = true)
    (hlen : xs.length = k + 1) (hl : xs.length ≤ totalOf f) (hb : body.flatMap byteBits = codeBits t xs ++ left)
    (hq : left.length < 8) (hsrc : s.src = (headerBytes f w ++ body).map .byte ++ rest) :
    exec .decode s = .next (sinkRaise k as 0 xs
      { s with src := rest, inCount := BitVec.ofNat 64 (37 + w * nsymOf f + body.length) }) := by
  rw [sinkRaise_zero]
  exact issue_raised hs
    (runTasks_decode_sinkFails (s := accept (encode .decode) s) hs.sched ha hf ht hx hlen hl hb hq hsrc)
    fun _ _ _ _ _ => rfl

/-- Settles O33: each writing command up to the write the host answers with IOERR. -/
theorem sinkFailure : Obligations.SinkFailure := by
  intro s k as hs ha
  refine ⟨exec_hwrite_sinkFails hs ha, ?_, fun x => exec_psym_sinkFails hs ha, exec_pscan_sinkFails hs ha, ?_,
    fun t xs left body rest => exec_udecall_sinkFails hs ha, fun t hl => exec_encode_sinkFails hs ha hl rfl,
    fun f w t xs left body rest => exec_decode_sinkFails hs ha⟩
  · rintro rfl
    exact exec_pflush_sinkFails hs ha
  · rintro r p left x body rest rfl
    exact exec_udec_sinkFails hs ha

/-! ## A source that fails -/

/-- The bits `bits` lead from node `id` over internal nodes only: a walk along them needs one bit more. -/
def Stuck (node : NodeId → Node) (id : NodeId) (bits : List Bool) : Prop :=
  ∀ j, j ≤ bits.length → (node (follow node (bits.take j) id)).kind = .internal

/-- SRC gives `e` instead of a byte, which raises `kind` (20_memory.md R68). -/
def GivesOut (e : SrcElem) (kind : ErrKind) : Prop := e = .eoi ∧ kind = .truncatedInput ∨ e = .ioerr ∧ kind = .ioFailure

theorem exec_udec_srcFails {s : State} {e : SrcElem} {kind : ErrKind} {r : NodeId} {body : List Byte}
    {rest : List SrcElem} (hs : Idle s) (he : GivesOut e kind) (hv : s.treeValid = true) (hr : s.root = some r)
    (hem : s.emit.toNat < totalOf s.freq) (h8 : s.rem.toNat ≤ 8)
    (hp : Stuck (nodeAt s) r (bodyBits s.cur s.rem.toNat body)) (hsrc : s.src = body.map .byte ++ e :: rest) :
    exec .udec s = .next (raise kind (s.inCount + BitVec.ofNat 64 body.length) none none .src
      { s with src := rest, inCount := s.inCount + BitVec.ofNat 64 body.length }) := by
  obtain ⟨c, m, h⟩ := walkFrom_fails he (s := accept (encode .udec) s) hs.sched
    (lt_walkBound (s := accept (encode .udec) s) h8 hsrc) h8 hp hsrc
  exact issue_one_raised (task := .udec) hs ((udecRule_valid (s := accept (encode .udec) s) hv hem hr).trans h)
    fun _ _ _ _ _ => rfl

theorem exec_udecall_srcFails {s : State} {e : SrcElem} {kind : ErrKind} {t : Vector CodeEntry 256} {xs : List Sym}
    {left : List Bool} {r : NodeId} {body : List Byte} {rest : List SrcElem} (hs : Idle s) (he : GivesOut e kind)
    (hk : SinkOk s) (hv : s.treeValid = true) (hh : HoldsTree s) (ht : TableFor s.freq t) (hr : s.root = some r)
    (h8 : s.rem.toNat ≤ 8) (hx : ∀ x ∈ xs, present s.freq x = true) (hl : s.emit.toNat + xs.length < totalOf s.freq)
    (hb : bodyBits s.cur s.rem.toNat body = codeBits t xs ++ left) (hp : Stuck (nodeAt s) r left)
    (hsrc : s.src = body.map .byte ++ e :: rest) :
    exec .udecall s = .next (raise kind (s.inCount + BitVec.ofNat 64 body.length) none none .src
      (delivered xs { s with src := rest, inCount := s.inCount + BitVec.ofNat 64 body.length })) :=
  have h := decodeSymbols_fails ht he (s := accept (encode .udecall) s) hs.sched (hk.accept _) h8 hh.nodeAt_eq hh.root
    hr hx (Nat.lt_sub_iff_add_lt'.2 hl) hb hp hsrc
  issue_one_raised (task := .udecall) hs ((udecallRule_valid (s := accept (encode .udecall) s) hv).trans h)
    fun _ _ _ _ _ => rfl

theorem exec_decode_srcFails {s : State} {e : SrcElem} {kind : ErrKind} {f : Vector Word 256} {w : Nat}
    {t : Vector CodeEntry 256} {xs : List Sym} {left : List Bool} {r : NodeId} {body : List Byte} {rest : List SrcElem}
    (hs : Idle s) (he : GivesOut e kind) (hk : SinkOk s) (hf : FitsWidth f w) (ht : TableFor f t)
    (hr : (buildTree f).root = some r) (hx : ∀ x ∈ xs, present f x = true) (hl : xs.length < totalOf f)
    (hb : body.flatMap byteBits = codeBits t xs ++ left) (hp : Stuck ((buildTree f).nodeAt s.nodeDraw) r left)
    (hsrc : s.src = (headerBytes f w ++ body).map .byte ++ e :: rest) :
    exec .decode s = .next (raise kind (BitVec.ofNat 64 (37 + w * nsymOf f + body.length)) none none .src
      (delivered xs { s with
        src := rest, inCount := BitVec.ofNat 64 (37 + w * nsymOf f + body.length), outCount := 0 })) :=
  issue_raised hs
    (runTasks_decode_fails (s := accept (encode .decode) s) hs.sched (hk.accept _) he hf ht hr hx hl hb hp hsrc)
    fun _ _ _ _ _ => rfl

/-- Settles O36: UDEC's walk, UDECALL's and DECODE's rounds up to the byte SRC does not give. -/
theorem udecTruncated : Obligations.UdecTruncated := by
  intro s e kind body rest hs he
  exact ⟨fun r => exec_udec_srcFails hs he,
    fun t xs left r hk hv hh ht hr => exec_udecall_srcFails hs he hk hv hh ht hr,
    fun f w t xs left r hk hf ht hr => exec_decode_srcFails hs he hk hf ht hr⟩

end Sys2Proof.Machine
end

section
/-! PROOFS. What a step is (20_memory.md R79, 30_encoding.md R95), and the host's view of IBUF (20_memory.md R61, R62, R66,
70_reset_and_hazards.md R276). -/

namespace Sys2Proof.Machine

/-! ## Whose step it is -/

/-- Where the host moves, the step is its next transaction (20_memory.md R79). -/
theorem step_host {s : State} {op : HostOp} {rest : List HostOp} (ho : s.hostOps = op :: rest)
    (h : coreReady s = false ∨ s.sched.head? = some .host) : step s = hostMove op (popHost s) := by
  have ht : hostTurn s = true := by
    rcases h with h | h <;> simp [hostTurn, ho, h]
  simp [step, ho, ht]

/-- Where the host does not move, the step is the Core's, if it has one (20_memory.md R79, 70_reset_and_hazards.md R282). -/
theorem step_core {s : State} (h : hostTurn s = false) : step s = if coreReady s then resume s else .next s := by
  unfold step
  split
  · rw [h]; rfl
  · rfl

/-- Settles O5: the host's CMD write, the Core's going on, and no step. -/
theorem stepRunsDecodedCommand : Obligations.StepRunsDecodedCommand := by
  refine ⟨fun s v rest ho h => ?_, fun s hr h => ?_, fun s hr ho => ?_⟩
  · have hs : step s = cmdWrite v { s with
        hostOps := rest, sched := if coreReady s then s.sched.tail else s.sched } := by
      rw [step_host ho h, popHost, ho]; rfl
    refine ⟨fun i hd => ?_, fun e hd => ?_⟩ <;> rw [hs, cmdWrite, hd]
  · have ht : hostTurn s = false := by
      rcases h with h | h <;> simp [hostTurn, hr, h]
    rw [step_core ht, hr]
    rfl
  · have ht : hostTurn s = false := by simp [hostTurn, ho]
    rw [step_core ht, hr]
    rfl

/-! ## IBUF -/

theorem opField_encode (c : Instr) : opField (encode c) = c.op := congrArg Fields.op (fieldsOf_wordOf c.fields)

/-- FSCAN, PSCAN and ENCODE are the scanning commands (70_reset_and_hazards.md R276). -/
theorem scanning_encode {s : State} {c : Instr} (hc : s.curCmd = encode c) :
    scanning s = true ↔ s.busy = true ∧ (c = .fscan ∨ c = .pscan ∨ c = .encode) := by
  rw [scanning, hc, opField_encode]
  cases c <;> simp [Instr.op]

theorem memRead_write_same (s : State) (i : Nat) (b : Byte) : memRead { s with ibuf := s.ibuf.write i b } i = b := by
  simp [memRead]

theorem memRead_write_other (s : State) {i j : Nat} (b : Byte) (h : j ≠ i) :
    memRead { s with ibuf := s.ibuf.write i b } j = memRead s j := by
  rw [memRead, memRead, Memory.read?_write_other _ _ h]

/-- Settles O52: the IBUF accesses inside and outside IBUF_SIZE, and the misaligned CSR accesses. -/
theorem inputBufferAccess : Obligations.InputBufferAccess := by
  intro s i b off v
  refine ⟨fun hi hc => ?_, fun hi hb hc => ?_, fun hi => if_neg (Nat.not_le.2 hi), fun hi => ⟨if_pos hi, if_pos hi⟩,
    fun ho => ⟨if_neg ho, if_neg ho⟩⟩
  · have hn : scanning s = false := by
      rcases hc with hb | ⟨c, hc, h1, h2, h3⟩
      · simp [scanning, hb]
      · rw [Bool.eq_false_iff, Ne, scanning_encode hc]
        exact fun ⟨_, h⟩ => h.elim h1 fun h => h.elim h2 h3
    refine ⟨s.ibuf.write i b, ?_, memRead_write_same s i b, fun j hj => memRead_write_other s b hj⟩
    rw [hostStep, if_neg (Nat.not_le.2 hi), hn]
    rfl
  · have hscan : scanning s = true := by
      rcases hc with hc | hc | hc <;> exact (scanning_encode hc).2 ⟨hb, by simp⟩
    rw [hostStep, if_neg (Nat.not_le.2 hi), hscan]
    rfl

end Sys2Proof.Machine
end

section
/-! PROOFS. The command words (30_encoding.md R90 to R101): the opcode map as mask and match, the illegal words, and what
a CMD write of each kind does. -/

namespace Sys2Proof.Machine

/-! ## One word per command -/

/-- The table's 32 bits are the word's own (30_encoding.md R97). -/
theorem decodeTableWord_toNat (v : Word) : decodeTableWord 32 v.toNat = (decode v).toOption := by
  have hv : v.toNat % 2 ^ 32 = v.toNat := Nat.mod_eq_of_lt v.isLt
  rw [decodeTableWord, hv, if_pos v.isLt, BitVec.ofNat_toNat, BitVec.setWidth_eq]

/-- Settles O1: the encoder's word is the only one that decodes to its command. -/
theorem decodeInvertsEncode : Obligations.DecodeInvertsEncode := by
  refine ⟨fun i => ⟨decode_encode i, ?_⟩, fun v i h => encode_of_decode h⟩
  rw [decodeTableWord_toNat, decode_encode]
  rfl

/-! ## The opcode map as mask and match -/

/-- Different fields make different words (30_encoding.md R90). -/
theorem wordOf_inj {f g : Fields} : wordOf f = wordOf g ↔ f = g :=
  ⟨fun h => by rw [← fieldsOf_wordOf f, h, fieldsOf_wordOf], congrArg wordOf⟩

/-- Masking a word masks each of its fields. -/
theorem wordOf_and (f g : Fields) :
    wordOf f &&& wordOf g = wordOf ⟨f.op &&& g.op, f.sym &&& g.sym, f.rsv &&& g.rsv⟩ := by
  apply BitVec.eq_of_getLsbD_eq
  intro k _
  simp only [BitVec.getLsbD_and, getLsbD_wordOf]
  split
  · rfl
  · split <;> rfl

/-- A word matches a row under the row's mask where OP is the row's, RSV is 0 and, in form N, SYM is 0
(30_encoding.md R92, R93). -/
theorem and_mask_eq_iff (form : Form) (op : BitVec 8) (v : Word) : v &&& form.mask = op.setWidth 32 ↔
    opField v = op ∧ (form = .N → symField v = 0) ∧ rsvField v = 0 := by
  have hop : op.setWidth 32 = wordOf ⟨op, 0, 0⟩ := by simp [wordOf]
  have hmask : form.mask = wordOf ⟨.allOnes 8, if form = .N then .allOnes 8 else 0#8, .allOnes 16⟩ := by
    cases form <;> rfl
  have hv : v &&& form.mask = wordOf ⟨opField v, if form = .N then symField v else 0#8, rsvField v⟩ := by
    conv_lhs => rw [← wordOf_fieldsOf v, hmask, wordOf_and]
    cases form <;> simp only [fieldsOf, reduceCtorEq, if_true, if_false, BitVec.and_allOnes, BitVec.and_zero]
  rw [hv, hop, wordOf_inj, Fields.mk.injEq]
  cases form <;> simp

/-- The command of the same row with the symbol `x` (30_encoding.md R93). -/
def withSym (x : Sym) : Instr → Instr
  | .fadd _ => .fadd x
  | .fset _ => .fset x
  | .psym _ => .psym x
  | i => i

/-- The form of a command's OP (30_encoding.md R93). -/
def rowForm (i : Instr) : Form := (formOf i.op).getD .N

/-- One command for each of the 18 rows of R93, in the order of the table. -/
def rowCommands : List Instr :=
  [.nop, .sreset, .fclr, .fadd 0, .fset 0, .fscan, .fwidth, .tbuild, .cgen, .psym 0, .pscan, .pflush, .udec, .udecall,
    .hwrite, .hread, .encode, .decode]

/-- A command's row as (mask, match, the command of SYM) (30_encoding.md R93). -/
def maskRow (i : Instr) : Word × Word × (Sym → Instr) := ((rowForm i).mask, i.op.setWidth 32, fun x => withSym x i)

theorem withSym_zero_mem_rowCommands (i : Instr) : withSym 0 i ∈ rowCommands := by
  cases i <;> simp [withSym, rowCommands]

@[simp] theorem maskRow_withSym (x : Sym) (i : Instr) : maskRow (withSym x i) = maskRow i := by
  cases i <;> rfl

theorem decode_eq_ok_iff_fields {v : Word} {i : Instr} :
    decode v = .ok i ↔ opField v = i.op ∧ symField v = i.sym ∧ rsvField v = 0 := by
  rw [decode_eq_ok, encode, ← wordOf_fieldsOf v, wordOf_inj, wordOf_fieldsOf, fieldsOf, Instr.fields, Fields.mk.injEq]

/-- A word matches a command's row where it is the word of that row's command with SYM of the word. -/
theorem match_maskRow_iff {v : Word} {c : Instr} :
    v &&& (maskRow c).1 = (maskRow c).2.1 ↔ decode v = .ok ((maskRow c).2.2 (symField v)) := by
  rw [decode_eq_ok_iff_fields, maskRow, and_mask_eq_iff]
  cases c <;> simp [rowForm, formOf, withSym, Instr.op, Instr.sym]

/-- A word decodes to a command of its row, with SYM of the word. -/
theorem withSym_symField {v : Word} {i : Instr} (h : decode v = .ok i) : withSym (symField v) i = i := by
  rw [(decode_eq_ok_iff_fields.1 h).2.1]
  cases i <;> rfl

/-- A word decodes to a command where a row of the map matches it and gives that command (30_encoding.md R93). -/
theorem decode_eq_ok_iff_row {v : Word} {i : Instr} :
    decode v = .ok i ↔ ∃ row ∈ rowCommands.map maskRow, v &&& row.1 = row.2.1 ∧ i = row.2.2 (symField v) := by
  refine ⟨fun h => ⟨maskRow i, ?_, ?_, (withSym_symField h).symm⟩, ?_⟩
  · exact List.mem_map.2 ⟨withSym 0 i, withSym_zero_mem_rowCommands i, maskRow_withSym 0 i⟩
  · rw [match_maskRow_iff, h]
    exact congrArg _ (withSym_symField h).symm
  · rintro ⟨row, hrow, hm, rfl⟩
    obtain ⟨c, -, rfl⟩ := List.mem_map.1 hrow
    exact match_maskRow_iff.1 hm

/-- Settles O2: the rows written out are the rows of the 18 commands. -/
theorem opcodeMap : Obligations.OpcodeMap := fun _ _ => decode_eq_ok_iff_row

/-! ## Illegal words -/

/-- With RSV = 0 the decoder goes by the form of OP: a reserved OP is refused, form N asks for SYM = 0, form S takes every
SYM (30_encoding.md R92, R93). -/
theorem decodeFields_form {f : Fields} (hr : f.rsv = 0) :
    (formOf f.op = none ∧ decodeFields f = .error .reservedOp) ∨
    (formOf f.op = some .N ∧ ∃ i, decodeFields f = formN f i) ∨
    (formOf f.op = some .S ∧ ∃ i, decodeFields f = .ok i) := by
  rw [decodeFields, if_neg (not_not_intro hr)]
  split <;> simp [formOf, *]

theorem formN_eq_error {f : Fields} {i : Instr} : (∃ e, formN f i = .error e) ↔ f.sym ≠ 0 := by
  rw [formN]
  split
  · exact iff_of_false nofun (not_not_intro ‹_›)
  · exact iff_of_true ⟨_, rfl⟩ ‹_›

/-- The decoder refuses just the fields that are not legal (30_encoding.md R94). -/
theorem decodeFields_eq_error {f : Fields} : (∃ e, decodeFields f = .error e) ↔
    formOf f.op = none ∨ f.rsv ≠ 0 ∨ (formOf f.op = some .N ∧ f.sym ≠ 0) := by
  by_cases hr : f.rsv = 0
  · rcases decodeFields_form hr with ⟨hf, h⟩ | ⟨hf, i, h⟩ | ⟨hf, i, h⟩
    · simp [hf, h]
    · simp [hf, h, hr, formN_eq_error]
    · simp [hf, h, hr]
  · exact iff_of_true ⟨.rsvNonzero, if_pos hr⟩ (.inr (.inl hr))

/-- The reserved OPs (30_encoding.md R93). -/
theorem formOf_eq_none (op : BitVec 8) : formOf op = none ↔
    op.toNat ∉ [0x00, 0x01, 0x10, 0x11, 0x12, 0x13, 0x14, 0x20, 0x30, 0x40, 0x41, 0x42, 0x48, 0x49, 0x50, 0x51, 0x58,
      0x59] := by
  revert op; decide

/-- The OPs of form S (30_encoding.md R92, R93). -/
theorem formOf_eq_S (op : BitVec 8) : formOf op = some .S ↔ op.toNat ∈ [0x11, 0x12, 0x40] := by
  revert op; decide

/-- Settles O3: the decoder's three refusals, and the raise of a word it refuses. -/
theorem illegalWords : Obligations.IllegalWords := by
  refine ⟨fun v => ?_, fun v s hb he hd => cmdWrite_illegal hb he hd⟩
  rw [← formOf_eq_none, ← formOf_eq_S, decode, decodeFields_eq_error]
  show formOf (opField v) = none ∨ rsvField v ≠ 0 ∨ formOf (opField v) = some .N ∧ symField v ≠ 0 ↔
    formOf (opField v) = none ∨ rsvField v ≠ 0 ∨ formOf (opField v) ≠ some .S ∧ symField v ≠ 0
  rcases formOf (opField v) with _ | (_ | _) <;> simp

/-- Settles O4. -/
theorem sampleWords : Obligations.SampleWords := by
  unfold Obligations.SampleWords
  decide

/-! ## The arrival of a word -/

/-- Settles O6: where the Core could move, the placed host turn lets the host move first; the step takes both off again. -/
theorem fetchedWordRuns : Obligations.FetchedWordRuns := by
  intro s w i hw hd
  have hready : coreReady (s.withFetchWord 32 w) = coreReady s := rfl
  have hturn : coreReady (s.withFetchWord 32 w) = false ∨ (s.withFetchWord 32 w).sched.head? = some .host := by
    cases hc : coreReady s
    · exact .inl hc
    · exact .inr (by simp [State.withFetchWord, hc])
  have hops : (s.withFetchWord 32 w).hostOps = .wr 0x00 (BitVec.ofNat 32 w) :: s.hostOps := by
    rw [State.withFetchWord, Nat.mod_eq_of_lt hw]
  rw [(stepRunsDecodedCommand.1 _ _ _ hops hturn).1 i hd, hready]
  cases hc : coreReady s <;> simp [State.withFetchWord, hc]

/-- Settles O7: SRESET's word resets BUSY and CMD_OVR, every other word is dropped. -/
theorem busyDropsCommands : Obligations.BusyDropsCommands := by
  refine fun v s hb => ⟨?_, fun hv => cmdWrite_busy hv hb⟩
  rintro rfl
  exact ⟨softReset s, cmdWrite_sreset s, rfl, rfl⟩

end Sys2Proof.Machine
end

section
/-! PROOFS. The frequency accumulator's commands (40_frequency.md R110 to R116): what each leaves of FREQ and WIDTH, and
the counts that do not fit. -/

namespace Sys2Proof.Machine

/-! ## A command of one stretch -/

/-- A command of one stretch that runs to its end (30_encoding.md R95, R96). -/
theorem issue_one_done {s : State} (hs : Idle s) {i : Instr} {task : Task} {u : State}
    (h : runTask task (accept (encode i) s) = .done u) : issue i [task] s = .next (idleAgain u) := by
  rw [issue_idle hs, runTasks_one, h, Flow.ended_done]

/-- A command of one stretch whose effect is another FREQ (10_state.md R59). -/
theorem issue_storeFreq {s : State} (hs : Idle s) {i : Instr} {task : Task} {f : Vector Word 256}
    (h : runTask task (accept (encode i) s) = .done (storeFreq f (accept (encode i) s))) :
    issue i [task] s = .next (storeFreq f (latched i s)) := by
  rw [issue_one_done hs h, ← idleAgain_accept]
  rfl

theorem Idle.storeFreq_latched {s : State} (h : Idle s) (f : Vector Word 256) (i : Instr) :
    Idle (storeFreq f (latched i s)) := ⟨rfl, h.err, h.sched⟩

/-! ## FCLR, FADD, FSET -/

theorem exec_fclr {s : State} (hs : Idle s) :
    exec .fclr s = .next (storeFreq (Vector.replicate 256 0) (latched .fclr s)) :=
  issue_storeFreq (task := .fclr) hs rfl

theorem nsymOf_replicate : nsymOf (Vector.replicate 256 0) = 0 := nsymOf_eq_zero.2 fun x => freqAt_replicate 0 x

theorem totalOf_replicate : totalOf (Vector.replicate 256 0) = 0 := totalOf_eq_zero.2 nsymOf_replicate

/-- Settles O14. -/
theorem fclrClears : Obligations.FclrClears := fun _ hs =>
  ⟨_, exec_fclr hs, rfl, nsymOf_replicate, totalOf_replicate,
    (eos_iff _).2 ⟨hs.err, totalOf_replicate.trans_le (Nat.zero_le _)⟩⟩

/-- Counting where there is room (R111, R113). -/
theorem countSym_fits {s : State} {x : Sym} (h : freqAt s.freq x ≠ 0xFFFFFFFF) (o : BitVec 64) :
    countSym x o s = .done (writeFreq x (freqAt s.freq x + 1) s) := if_neg h

/-- Counting past 2^32 − 1 (R111, R113). -/
theorem countSym_overflow {s : State} {x : Sym} (hs : s.sched = []) (h : freqAt s.freq x = 0xFFFFFFFF) (o : BitVec 64) :
    countSym x o s = .raised (raise .frequencyOverflow o none (some x) .src s) :=
  (if_pos h).trans (raising_free hs _ _ _ _ _)

/-- Settles O15, by whether the count is at its largest. -/
theorem faddCounts : Obligations.FaddCounts := by
  intro x s hs
  have hrule : faddRule (accept (encode (.fadd x)) s) = countSym x 0 (accept (encode (.fadd x)) s) :=
    congrArg (countSym · 0 _) (symField_encode (.fadd x))
  have hmax : freqAt s.freq x = 0xFFFFFFFF ↔ (freqAt s.freq x).toNat = 2 ^ 32 - 1 := BitVec.toNat_inj.symm
  by_cases h : freqAt s.freq x = 0xFFFFFFFF
  · rw [if_pos (hmax.1 h)]
    exact issue_one_raised (task := .fadd) (u := accept (encode (.fadd x)) s) hs
      (hrule.trans (countSym_overflow (hs.sched_accept _) h 0)) fun _ _ _ _ _ => rfl
  · rw [if_neg (mt hmax.2 h)]
    exact issue_storeFreq (task := .fadd) (f := freqSet s.freq x (freqAt s.freq x + 1)) hs
      (hrule.trans (countSym_fits (s := accept (encode (.fadd x)) s) h 0))

/-- Settles O16. -/
theorem fsetWrites : Obligations.FsetWrites := by
  intro x s hs
  refine issue_storeFreq (task := .fset) (f := freqSet s.freq x s.arg) hs ?_
  exact congrArg (fun y => Flow.done (writeFreq y s.arg (accept (encode (.fset x)) s))) (symField_encode (.fset x))

/-! ## FSCAN -/

/-- FSCAN of an admitted length (40_frequency.md R113). -/
theorem fscanRule_admitted {s : State} (h : scanLength s ≤ s.cfg.ibufSize) :
    fscanRule s = fscanLoop (scanLength s) 0 (freqChanged s) := by
  rw [fscanRule, lengthCheck_ok h, Flow.andThen_done]

theorem exec_fscan_tooLong {s : State} (hs : Idle s) (h : s.cfg.ibufSize < s.ilen.toNat) :
    exec .fscan s = .next (raise .inputLength (s.ilen.setWidth 64) none none .src s) := by
  refine issue_one_raised (task := .fscan) (u := accept (encode .fscan) s) hs ?_ fun _ _ _ _ _ => rfl
  rw [runTask, fscanRule, lengthCheck_fails (hs.sched_accept _) h, Flow.andThen_raised]
  rfl

theorem exec_fscan_fits {s : State} (hs : Idle s) (h : s.ilen.toNat ≤ s.cfg.ibufSize)
    (hf : CountsFit s.freq (ibufBytes s s.ilen.toNat)) :
    exec .fscan s = .next (storeFreq (countInto s.freq (ibufBytes s s.ilen.toNat)) (latched .fscan s)) := by
  rw [ibufBytes_eq] at hf ⊢
  refine issue_storeFreq (task := .fscan) hs ?_
  rw [runTask, fscanRule_admitted (s := accept (encode .fscan) s) h]
  exact fscanLoop_fits _ 0 (freqChanged (accept (encode .fscan) s)) rfl hf

theorem exec_fscan_overflow {s : State} (hs : Idle s) {i : Nat} (hi : i < s.ilen.toNat)
    (h : s.ilen.toNat ≤ s.cfg.ibufSize) (hf : CountsFit s.freq (ibufBytes s i))
    (ho : (freqAt s.freq (memRead s i)).toNat + (ibufBytes s i).count (memRead s i) = 2 ^ 32 - 1) :
    exec .fscan s = .next (raise .frequencyOverflow (BitVec.ofNat 64 i) none (some (memRead s i)) .src s) := by
  rw [ibufBytes_eq] at hf ho
  obtain ⟨g, hg⟩ := fscanLoop_overflow i s.ilen.toNat 0 (freqChanged (accept (encode .fscan) s)) rfl hs.sched hi hf
    (by rw [Nat.zero_add]; exact ho)
  rw [Nat.zero_add] at hg
  refine issue_one_raised (task := .fscan) hs (Eq.trans ?_ hg) fun _ _ _ _ _ => rfl
  exact fscanRule_admitted (s := accept (encode .fscan) s) h

/-- Settles O17: the length refused, every count that fits, the first one that does not. -/
theorem fscanCounts : Obligations.FscanCounts := fun _ hs =>
  ⟨exec_fscan_tooLong hs, exec_fscan_fits hs, fun _ => exec_fscan_overflow hs⟩

/-- FCLR then FSCAN on the same bytes: every count starts at 0 (40_frequency.md R116). -/
theorem execAll_fclr_fscan {s : State} (hs : Idle s) (h : s.ilen.toNat ≤ s.cfg.ibufSize)
    (hb : (ibufBytes s s.ilen.toNat).length < 2 ^ 32) :
    execAll [.fclr, .fscan] s = .next (storeFreq (histogram (ibufBytes s s.ilen.toNat))
      (latched .fscan (storeFreq (Vector.replicate 256 0) (latched .fclr s)))) := by
  have hscan := exec_fscan_fits (hs.storeFreq_latched (Vector.replicate 256 0) .fclr) h (countsFit_zero hb)
  simp only [execAll, exec_fclr hs, hscan]
  rfl

/-- Settles O18: the 32 bits of ILEN bound the number of bytes counted. -/
theorem frequencyModel : Obligations.FrequencyModel := by
  intro s hs hlen
  have hb : (ibufBytes s s.ilen.toNat).length < 2 ^ 32 := by rw [length_ibufBytes]; exact s.ilen.isLt
  have hidle := (hs.storeFreq_latched (Vector.replicate 256 0) .fclr).storeFreq_latched
    (histogram (ibufBytes s s.ilen.toNat)) .fscan
  refine ⟨_, execAll_fclr_fscan hs hlen hb, hidle.busy, hidle.err, fun x => ?_⟩
  rw [storeFreq_freq]
  exact ⟨toNat_freqAt_histogram hb x, (present_histogram hb x).trans List.count_pos_iff.symm⟩

/-! ## FWIDTH -/

theorem exec_fwidth {s : State} (hs : Idle s) :
    exec .fwidth s = .next (storeWidth (minWidth (maxFreq s.freq)) (latched .fwidth s)) := by
  rw [← idleAgain_accept]
  exact issue_one_done (task := .fwidth) hs rfl

/-- A width below the minimal one is too small for some frequency (40_frequency.md R114). -/
theorem exists_freqAt_ge {f : Vector Word 256} {v : Nat} (h1 : 1 ≤ v) (h2 : v < minWidth (maxFreq f)) :
    ∃ x, 256 ^ v ≤ (freqAt f x).toNat := by
  have hmax : 256 ^ v ≤ maxFreq f := minWidth_le h1 h2
  rcases maxFreq_mem f with h0 | ⟨x, hx⟩
  · exact absurd (h0 ▸ hmax) (Nat.not_le.2 (Nat.pow_pos (by decide)))
  · exact ⟨x, hx ▸ hmax⟩

/-- Settles O19: the minimal width of the largest frequency. -/
theorem fwidthMinimal : Obligations.FwidthMinimal := by
  intro s hs
  obtain ⟨hpos, hle, hfits⟩ := fitsWidth_minWidth s.freq
  exact ⟨_, exec_fwidth hs, hpos, hle, hfits, fun _ => exists_freqAt_ge⟩

end Sys2Proof.Machine
end

section
/-! PROOFS. The tree builder (41_tree.md R130 to R135, 10_state.md R29, R30): what TBUILD leaves, where a node goes into
SEQ, the rounds of the merge phase, the shape of the tree. -/

namespace Sys2Proof.Machine

/-! ## SEQ stays sorted -/

/-- Settles O24: each leaf and each merge keeps the arena's invariant and the order of SEQ. -/
theorem seqStaysSorted : Obligations.SeqStaysSorted := fun f k =>
  ⟨(leafPhase_arena f k).2.1, (mergePhase_leafPhase f k).2⟩

/-! ## What TBUILD leaves -/

theorem exec_tbuild {s : State} (hs : Idle s) :
    exec .tbuild s = .next (storeTree (buildTree s.freq) (latched .tbuild s)) := by
  rw [← idleAgain_accept]
  exact issue_one_done (task := .tbuild) hs rfl

theorem Build.root_of_seq {b : Build} {r : NodeId} (h : b.seq = [r]) : b.root = some r := by rw [Build.root, h]

/-- The last of the 2n − 1 entries is ROOT, alone in SEQ (10_state.md R29, R30). -/
theorem buildTree_last {f : Vector Word 256} (h : 0 < nsymOf f) :
    (buildTree f).node.length = 2 * nsymOf f - 1 ∧ (buildTree f).seq = [BitVec.ofNat 9 (2 * nsymOf f - 2)] := by
  obtain ⟨r, -, hs, -, -, hlen, hlast⟩ := buildTree_spec h
  have hr : r = BitVec.ofNat 9 (2 * nsymOf f - 2) := by
    rw [← show r.toNat = 2 * nsymOf f - 2 by omega, BitVec.ofNat_toNat, BitVec.setWidth_eq]
  exact ⟨by omega, hr ▸ hs⟩

/-- Settles O20: TBUILD stores the build, empty for n = 0 and with its last entry as ROOT for n ≥ 1. -/
theorem tbuildStores : Obligations.TbuildStores := by
  refine fun s hs => ⟨exec_tbuild hs, fun h => ?_, fun h => ?_⟩
  · rw [buildTree_empty h]
    exact ⟨rfl, rfl, rfl⟩
  · obtain ⟨hlen, hseq⟩ := buildTree_last h
    exact ⟨hlen, Build.root_of_seq hseq, hseq⟩

/-! ## The insertion positions -/

theorem allSyms_ascending : allSyms.Pairwise (· < ·) := by
  rw [List.pairwise_iff_getElem]
  intro i j hi hj hij
  have hj : j < 256 := by simpa using hj
  rw [getElem_allSyms, getElem_allSyms, BitVec.lt_def, BitVec.toNat_ofNat, BitVec.toNat_ofNat]
  omega

/-- The leaf phase as a walk over the present symbols (41_tree.md R131). -/
theorem leafPhase_eq_foldl (f : Vector Word 256) : leafPhase f =
    (allSyms.filter (present f)).foldl (fun (b : Build) x => b.addLeaf x ((freqAt f x).setWidth 40)) ⟨[], []⟩ := by
  rw [leafPhase, presentEntries_eq, List.foldl_map]

/-- In leaf order a leaf of equal frequency comes later exactly if its id is greater (41_tree.md R131, R132). -/
theorem LeafOrder.lt_iff {b : Build} (h : LeafOrder b) {k m : Nat} {i j : NodeId} (hi : b.seq[k]? = some i)
    (hj : b.seq[m]? = some j) (hf : b.freqOf i = b.freqOf j) : k < m ↔ i < j := by
  have earlier : ∀ {k m : Nat} {i j : NodeId}, b.seq[k]? = some i → b.seq[m]? = some j → b.freqOf i = b.freqOf j →
      k < m → i < j := by
    intro k m i j hi hj hf hkm
    obtain ⟨hk, rfl⟩ := List.getElem?_eq_some_iff.1 hi
    obtain ⟨hm, rfl⟩ := List.getElem?_eq_some_iff.1 hj
    rcases List.pairwise_iff_getElem.1 h k m hk hm hkm with hlt | ⟨-, hid⟩
    · rw [hf] at hlt
      exact absurd hlt (BitVec.lt_irrefl _)
    · exact hid
  refine ⟨earlier hi hj hf, fun hij => ?_⟩
  rcases Nat.lt_trichotomy k m with hkm | rfl | hmk
  · exact hkm
  · rw [Option.some.inj (hi.symm.trans hj)] at hij
    exact absurd hij (BitVec.lt_irrefl _)
  · exact absurd hij (BitVec.lt_asymm (earlier hj hi hf.symm hmk))

theorem mergePhase_succ {b : Build} {l r : NodeId} {rest : List NodeId} (h : b.seq = l :: r :: rest) (k : Nat) :
    mergePhase (k + 1) b = mergePhase k (b.merge l r rest) := by rw [mergePhase, h]

/-- Settles O22: the positions are first indices; the leaf phase and a merge use them by definition. -/
theorem insertPositions : Obligations.InsertPositions := by
  refine ⟨⟨allSyms_ascending, mem_allSyms⟩,
    fun f => ⟨leafPhase_eq_foldl f, fun _ _ _ _ => (leafPhase_order f).lt_iff⟩, fun b f => ⟨?_, ?_, ?_, ?_⟩⟩
  · exact ⟨List.findIdx_le_length, fun _ _ => afterEqual_before, fun _ => afterEqual_at⟩
  · exact ⟨List.findIdx_le_length, fun _ _ => beforeEqual_before, fun _ => beforeEqual_at⟩
  · exact fun _ => ⟨rfl, rfl⟩
  · exact fun l r rest h => ⟨mergePhase_succ h, rfl⟩

/-! ## The rounds of the merge phase -/

/-- SEQ holds at most one node, or has a first and a second one. -/
theorem Build.seq_short_or_two (b : Build) : b.seq.length ≤ 1 ∨ ∃ l r rest, b.seq = l :: r :: rest := by
  rcases b.seq with _ | ⟨l, _ | ⟨r, rest⟩⟩
  · exact .inl (Nat.zero_le 1)
  · exact .inl (Nat.le_refl 1)
  · exact .inr ⟨l, r, rest, rfl⟩

/-- With fewer than two nodes in SEQ there is nothing to merge (41_tree.md R133). -/
theorem mergePhase_short {b : Build} (h : b.seq.length ≤ 1) (k : Nat) : mergePhase k b = b := by
  cases k with
  | zero => rfl
  | succ k =>
    unfold mergePhase
    split
    · next hq => simp [hq] at h
    · rfl

/-- A further round acts on what the first `k` rounds left. -/
theorem mergePhase_succ_eq (k : Nat) (b : Build) : mergePhase (k + 1) b = mergePhase 1 (mergePhase k b) := by
  induction k generalizing b with
  | zero => rfl
  | succ k ih =>
    rcases b.seq_short_or_two with h | ⟨l, r, rest, hq⟩
    · simp only [mergePhase_short h]
    · rw [mergePhase_succ hq, mergePhase_succ hq, ih]

/-- Round `k` merges the first two nodes the rounds before it left in SEQ (41_tree.md R133). -/
theorem mergePhase_round {k : Nat} {b : Build} {l r : NodeId} {rest : List NodeId}
    (h : (mergePhase k b).seq = l :: r :: rest) : mergePhase (k + 1) b = (mergePhase k b).merge l r rest := by
  rw [mergePhase_succ_eq, mergePhase_succ h, mergePhase]

/-- Each round adds one entry and takes one node off SEQ (41_tree.md R133). -/
theorem mergePhase_lengths {k : Nat} {b : Build} (h : k < b.seq.length) :
    (mergePhase k b).node.length = b.node.length + k ∧ (mergePhase k b).seq.length + k = b.seq.length := by
  induction k with
  | zero => exact ⟨rfl, rfl⟩
  | succ k ih =>
    obtain ⟨hnode, hseq⟩ := ih (by omega)
    rcases (mergePhase k b).seq_short_or_two with hshort | ⟨l, r, rest, hq⟩
    · omega
    · have hmerged : ((mergePhase k b).merge l r rest).seq.length = rest.length + 1 := (insertAt_perm _ _ _).length_eq
      rw [hq, List.length_cons, List.length_cons] at hseq
      rw [mergePhase_round hq, hmerged, Build.merge, List.length_append, hnode]
      exact ⟨rfl, by omega⟩

theorem leafPhase_lengths (f : Vector Word 256) :
    (leafPhase f).node.length = nsymOf f ∧ (leafPhase f).seq.length = nsymOf f := by
  obtain ⟨hforest, hnodes⟩ := leafPhase_spec f
  have hnode : (leafPhase f).node.length = nsymOf f := by rw [hnodes, List.length_map, length_leafEntries]
  have hcount := hforest.count
  rw [hnode, length_leafEntries] at hcount
  exact ⟨hnode, by omega⟩

/-- NODE and SEQ before round `k` of the build. -/
theorem round_lengths {f : Vector Word 256} {k : Nat} (h : k < nsymOf f) :
    (mergePhase k (leafPhase f)).node.length = nsymOf f + k ∧
      (mergePhase k (leafPhase f)).seq.length + k = nsymOf f := by
  obtain ⟨hnode, hseq⟩ := leafPhase_lengths f
  have hk := mergePhase_lengths (b := leafPhase f) (k := k) (by omega)
  rwa [hnode, hseq] at hk

/-- After n − 1 rounds one node is left, so the build is complete (41_tree.md R133). -/
theorem buildTree_eq_rounds (f : Vector Word 256) : buildTree f = mergePhase (nsymOf f - 1) (leafPhase f) := by
  rw [buildTree, (leafPhase_lengths f).2]
  cases hn : nsymOf f with
  | zero => rfl
  | succ m =>
    have hseq := (round_lengths (f := f) (k := m) (by omega)).2
    rw [mergePhase_succ_eq, mergePhase_short (by omega)]
    rfl

/-- The first two of a sorted SEQ are two nodes of least frequency (41_tree.md R135). -/
theorem SeqSorted.first_two_least {b : Build} (h : SeqSorted b) {l r : NodeId} {rest : List NodeId}
    (hq : b.seq = l :: r :: rest) : b.freqOf l ≤ b.freqOf r ∧ ∀ id ∈ rest, b.freqOf r ≤ b.freqOf id := by
  rw [SeqSorted, hq, List.pairwise_cons, List.pairwise_cons] at h
  obtain ⟨hl, hr, -⟩ := h
  exact ⟨hl r List.mem_cons_self, hr⟩

/-- A merge that keeps the arena has not wrapped: the new entry's frequency is the sum of its children's (R134). -/
theorem Arena.merge_sum {n : Nat} {b : Build} {l r : NodeId} {rest : List NodeId} (h : Arena n b)
    (hm : Arena n (b.merge l r rest)) (hq : b.seq = l :: r :: rest) (hn : n ≤ b.node.length) (hb : b.node.length ≤ 512) :
    (b.freqOf l + b.freqOf r).toNat = (b.freqOf l).toNat + (b.freqOf r).toNat := by
  have hold : ∀ i ∈ b.seq, (b.merge l r rest).freqOf i = b.freqOf i := fun i hi => freqOf_append rfl (h.seq_lt hb hi)
  obtain ⟨-, -, -, -, -, hsum⟩ := hm.inner b.node.length _ hn List.getElem?_concat_length
  rwa [hold l (by simp [hq]), hold r (by simp [hq])] at hsum

/-- Settles O23: two nodes stand in SEQ before each round below n − 1, and the round is their merge. -/
theorem mergeRounds : Obligations.MergeRounds := by
  refine fun f => ⟨⟨(leafPhase_lengths f).1, (leafPhase_lengths f).2, buildTree_eq_rounds f⟩, fun k hk => ?_, fun hn => ?_⟩
  · obtain ⟨hnode, hseq⟩ := round_lengths (f := f) (k := k) (by omega)
    rcases (mergePhase k (leafPhase f)).seq_short_or_two with hshort | ⟨l, r, rest, hq⟩
    · omega
    · have hround := mergePhase_round hq
      have hn := nsymOf_le f
      have harena := (mergePhase_leafPhase f (k + 1)).1
      rw [hround] at harena
      obtain ⟨hlr, hrest⟩ := (mergePhase_leafPhase f k).2.first_two_least hq
      have hsum := (mergePhase_leafPhase f k).1.merge_sum harena hq (by omega) (by omega)
      refine ⟨l, r, rest, hq, hlr, hrest, hsum, congrArg Build.node hround, hnode, ?_⟩
      exact (congrArg Build.seq hround).trans (by rw [← hnode]; rfl)
  · obtain ⟨-, hseq⟩ := buildTree_last (f := f) (by omega)
    exact ⟨hseq, Build.root_of_seq hseq⟩

/-! ## The shape of the tree -/

/-- ROOT is the root of a tree over the present symbols (41_tree.md R134). -/
theorem tree_of_root {f : Vector Word 256} {r : NodeId} (hr : (buildTree f).root = some r) :
    ∃ T, Holds (buildTree f).node r T ∧ T.leaves.Perm (leafEntries f) ∧ T.depth + 1 ≤ nsymOf f := by
  rcases Nat.eq_zero_or_pos (nsymOf f) with h | h
  · rw [buildTree_empty h] at hr
    exact absurd hr nofun
  · obtain ⟨r', T, hr', hT, hp, hd⟩ := tree_of_pos h
    obtain rfl := Option.some.inj (hr.symm.trans hr')
    exact ⟨T, hT, hp, hd⟩

theorem freqOf_root {f : Vector Word 256} {r : NodeId} (hr : (buildTree f).root = some r) :
    ((buildTree f).freqOf r).toNat = totalOf f := by
  obtain ⟨T, hT, hp, -⟩ := tree_of_root hr
  rw [hT.freqOf, HTree.weight_eq, (hp.map _).sum_eq, sum_leafEntries]

/-- A path from ROOT to a leaf is shorter than the number of present symbols (41_tree.md R134). -/
theorem length_path_lt {f : Vector Word 256} {r : NodeId} {draw : Nat} {p : List Bool} {x : Sym}
    (hr : (buildTree f).root = some r) (hp : LeadsTo ((buildTree f).nodeAt draw) r p x) : p.length < nsymOf f := by
  obtain ⟨T, hT, -, hd⟩ := tree_of_root hr
  have := (hasPath_of_leadsTo (reads_buildNodeAt draw _) hT hp).length_le
  omega

/-- Settles O21: the leaves and the inner entries of the arena, its size, the root's frequency, and the depth. -/
theorem treeShape : Obligations.TreeShape := by
  refine fun f => ⟨fun _ _ => buildTree_leaf f, (buildTree_arena f).inner, fun h => ?_, fun h => ?_,
    fun _ => freqOf_root, fun _ _ _ _ hr hp => ?_⟩
  · rw [buildTree_empty h]; rfl
  · have := (buildTree_last h).1
    omega
  · have := length_path_lt hr hp
    have := nsymOf_le f
    omega

end Sys2Proof.Machine
end

section
/-! PROOFS. The code-table generator (42_codetable.md R150 to R153): the table CGEN stores, the error without a valid
tree, and the properties of the codes. -/

namespace Sys2Proof.Machine

/-! ## What CGEN leaves -/

/-- A command whose flag is not set raises (10_state.md R31, R33). -/
theorem sequenceCheck_fails {flag : State → Bool} {s : State} (hs : s.sched = []) (h : flag s = false) (op : Byte) :
    sequenceCheck flag op s = .raised (raise .sequenceError 0 none (some op) .src s) := by
  rw [sequenceCheck, h, if_neg Bool.false_ne_true, raising_free hs]

/-- CGEN on a valid tree whose paths fit (42_codetable.md R150, R151). -/
theorem cgenRule_valid {s : State} {t : Vector CodeEntry 256} (hv : s.treeValid = true)
    (ht : codesOf (nodeAt s) s.root = some t) : cgenRule s = .done (storeCodes t s) := by
  rw [cgenRule, sequenceCheck_ok hv, Flow.andThen_done, ht]

/-- CGEN on the tree of FREQ stores the table of FREQ (42_codetable.md R150). -/
theorem exec_cgen {s : State} (hs : Idle s) (hv : s.treeValid = true) (hh : HoldsTree s) :
    ∃ t, TableFor s.freq t ∧ exec .cgen s = .next (storeCodes t (latched .cgen s)) := by
  obtain ⟨t, htable, hcodes⟩ := hh.codesOf
  refine ⟨t, htable, ?_⟩
  rw [← idleAgain_accept]
  exact issue_one_done (task := .cgen) hs (cgenRule_valid (s := accept (encode .cgen) s) hv hcodes)

theorem exec_cgen_invalid {s : State} (hs : Idle s) (hv : s.treeValid = false) :
    exec .cgen s = .next (raise .sequenceError 0 none (some 0x30) .src s) := by
  refine issue_one_raised (task := .cgen) (u := accept (encode .cgen) s) hs ?_ fun _ _ _ _ _ => rfl
  rw [runTask, cgenRule, sequenceCheck_fails (hs.sched_accept _) hv, Flow.andThen_raised]

/-- Settles O26, by whether the tree is valid. -/
theorem cgenRecordsPaths : Obligations.CgenRecordsPaths := fun _ hs => ⟨exec_cgen hs, exec_cgen_invalid hs⟩

/-! ## The codes -/

/-- The only present symbol has the empty code (42_codetable.md R153). -/
theorem TableFor.len_eq_zero {f : Vector Word 256} {t : Vector CodeEntry 256} (h : TableFor f t) {x : Sym}
    (hx : present f x = true) (hn : nsymOf f = 1) : (codeAt t x).len = 0 := by
  have hlen := h.len_eq hx
  exact BitVec.eq_of_toNat_eq (Nat.le_zero.1 (by omega))

/-- After CGEN the table CODE is the table of FREQ (42_codetable.md R150). -/
theorem tableFor_of_exec_cgen {s u : State} (hs : Idle s) (hv : s.treeValid = true) (hh : HoldsTree s)
    (h : exec .cgen s = .next u) : TableFor u.freq u.code := by
  obtain ⟨t, ht, hnext⟩ := exec_cgen hs hv hh
  rw [← Host.Outcome.next.inj (hnext.symm.trans h)]
  exact ht

/-- Settles O27, from the tree whose leaves are the present symbols: distinct leaves stand on paths none of which begins
another, a leaf's depth is below the number of leaves, and each inner node shares its code space between two subtrees. -/
theorem codesPrefixFree : Obligations.CodesPrefixFree := by
  intro s t hs hv hh hexec
  have htable := tableFor_of_exec_cgen hs hv hh hexec
  refine ⟨htable.assigned, fun x y hx hy hne hp => hne (htable.prefixFree hx hy hp), fun x hx => ⟨?_, ?_, ?_⟩, fun hn => ?_⟩
  · exact Nat.le_sub_of_add_le (htable.len_eq hx)
  · exact htable.len_pos hx
  · exact htable.len_eq_zero hx
  · exact htable.kraft (by omega)

end Sys2Proof.Machine
end

section
/-! PROOFS. The two model faults are out of reach (log 11; 43_bitpack.md R180, 41_tree.md R134). -/

namespace Sys2Proof.Machine

/-- Settles O60: every step that meets the invariant keeps it, and a fault does not. -/
theorem noFaults : Obligations.NoFaults := fun s r h hr => by
  have hk := keepsInv_step h
  rwa [hr] at hk

end Sys2Proof.Machine
end

section
/-! PROOFS. The bit-packer's commands (43_bitpack.md R170 to R175): what PSYM, PSCAN and PFLUSH leave, and the body a
symbol sequence becomes. -/

namespace Sys2Proof.Machine

/-! ## PSYM, PSCAN, PFLUSH -/

/-- A command of one stretch whose effect is to pack the bits `bits` (43_bitpack.md R170). -/
theorem issue_packs {s : State} (hs : Idle s) {i : Instr} {task : Task} {bits : List Bool}
    (h : runTask task (accept (encode i) s) = .done (afterPacking bits (accept (encode i) s))) :
    issue i [task] s = .next (afterPacking bits (latched i s)) := by
  rw [issue_one_done hs h, ← idleAgain_accept]
  rfl

/-- A symbol without a code (43_bitpack.md R172). -/
theorem packSym_noCode {s : State} (hs : s.sched = []) {x : Sym} (hx : (codeAt s.code x).assigned = false)
    (o : BitVec 64) : packSym x o s = .raised (raise .noCode o none (some x) .src s) := by
  rw [packSym, hx, if_neg Bool.false_ne_true, raising_free hs]

/-- PSYM x behind its check (43_bitpack.md R172). -/
theorem psymRule_accept (x : Sym) {s : State} (hv : s.codesValid = true) :
    psymRule (accept (encode (.psym x)) s) = packSym x 0 (accept (encode (.psym x)) s) := by
  rw [psymRule, sequenceCheck_ok (s := accept (encode (.psym x)) s) hv, Flow.andThen_done]
  exact congrArg (packSym · 0 _) (symField_encode (.psym x))

theorem exec_psym {x : Sym} {s : State} (hs : Idle s) (hv : s.codesValid = true) (hk : SinkOk s) (hp : PackerOk s)
    (hx : (codeAt s.code x).assigned = true) :
    exec (.psym x) s = .next (afterPacking (packed s ++ (codeAt s.code x).bitString) (latched (.psym x) s)) :=
  issue_packs (task := .psym) hs
    ((psymRule_accept x hv).trans (packSym_ok (hs.sched_accept _) (hk.accept _) (hp.accept _) hx 0))

theorem exec_psym_noCode {x : Sym} {s : State} (hs : Idle s) (hv : s.codesValid = true)
    (hx : (codeAt s.code x).assigned = false) : exec (.psym x) s = .next (raise .noCode 0 none (some x) .src s) :=
  issue_one_raised (task := .psym) hs ((psymRule_accept x hv).trans (packSym_noCode (hs.sched_accept _) hx 0))
    fun _ _ _ _ _ => rfl

/-- Settles O29, by whether the symbol has a code. -/
theorem psymPacks : Obligations.PsymPacks := fun _ _ hs hv => ⟨exec_psym hs hv, exec_psym_noCode hs hv⟩

theorem exec_pscan_tooLong {s : State} (hs : Idle s) (hv : s.codesValid = true) (h : s.cfg.ibufSize < s.ilen.toNat) :
    exec .pscan s = .next (raise .inputLength (s.ilen.setWidth 64) none none .src s) := by
  refine issue_one_raised (task := .pscan) (u := accept (encode .pscan) s) hs ?_ fun _ _ _ _ _ => rfl
  rw [runTask, pscanRule, sequenceCheck_ok (s := accept (encode .pscan) s) hv, Flow.andThen_done,
    lengthCheck_fails (hs.sched_accept _) h, Flow.andThen_raised]
  rfl

theorem exec_pscan {s : State} (hs : Idle s) (hv : s.codesValid = true) (hk : SinkOk s) (hp : PackerOk s)
    (hl : s.ilen.toNat ≤ s.cfg.ibufSize) (hc : AllCoded s.code (ibufBytes s s.ilen.toNat)) :
    exec .pscan s =
      .next (afterPacking (packed s ++ codeBits s.code (ibufBytes s s.ilen.toNat)) (latched .pscan s)) := by
  rw [ibufBytes_eq] at hc ⊢
  exact issue_packs (task := .pscan) hs ((pscanRule_valid (s := accept (encode .pscan) s) hv hl).trans
    (pscanLoop_ok _ 0 (hs.sched_accept _) (hk.accept _) (hp.accept _) hc))

theorem exec_pscan_noCode {s : State} {i : Nat} (hs : Idle s) (hv : s.codesValid = true) (hk : SinkOk s)
    (hp : PackerOk s) (hl : s.ilen.toNat ≤ s.cfg.ibufSize) (hi : i < s.ilen.toNat)
    (hc : AllCoded s.code (ibufBytes s i)) (hx : (codeAt s.code (memRead s i)).assigned = false) :
    exec .pscan s = .next (raise .noCode (BitVec.ofNat 64 i) none (some (memRead s i)) .src
      (afterPacking (packed s ++ codeBits s.code (ibufBytes s i)) s)) := by
  rw [ibufBytes_eq] at hc ⊢
  have hloop := pscanLoop_noCode i s.ilen.toNat 0 (s := accept (encode .pscan) s) hs.sched (hk.accept _) (hp.accept _)
    hi hc (by rw [Nat.zero_add]; exact hx)
  rw [Nat.zero_add] at hloop
  exact issue_one_raised (task := .pscan) hs
    ((pscanRule_valid (s := accept (encode .pscan) s) hv hl).trans hloop) fun _ _ _ _ _ => rfl

/-- Settles O30: the length refused, every byte coded, the first byte that has no code. -/
theorem pscanPacks : Obligations.PscanPacks := fun _ hs hv =>
  ⟨exec_pscan_tooLong hs hv, exec_pscan hs hv, fun _ => exec_pscan_noCode hs hv⟩

theorem exec_pflush_empty {s : State} (hs : Idle s) (hn : s.nbits = 0) :
    exec .pflush s = .next (latched .pflush s) := by
  rw [← idleAgain_accept]
  exact issue_one_done (task := .pflush) hs (if_pos hn)

theorem exec_pflush {s : State} (hs : Idle s) (hk : SinkOk s) (hn : s.nbits ≠ 0) :
    exec .pflush s = .next (clearPacker (delivered [padded s] (latched .pflush s))) := by
  have h : pflushRule (accept (encode .pflush) s) =
      .done (clearPacker (delivered [padded s] (accept (encode .pflush) s))) := by
    rw [pflushRule, if_neg (show (accept (encode .pflush) s).nbits ≠ 0 from hn), emitByte,
      snkWrite_ok (hs.sched_accept _) (hk.accept _), Flow.andThen_done]
    rfl
  rw [← idleAgain_accept]
  exact issue_one_done (task := .pflush) hs h

/-- Settles O31, by whether bits are left in the packer. -/
theorem pflushPads : Obligations.PflushPads := fun _ hs => ⟨exec_pflush_empty hs, exec_pflush hs⟩

/-! ## The body of a symbol sequence -/

/-- A command that completes leaves the rest of a sequence to run. -/
theorem execAll_cons {i : Instr} {s u : State} (h : exec i s = .next u) (is : List Instr) :
    execAll (i :: is) s = execAll is u := by
  rw [execAll, h]

theorem execAll_one {i : Instr} {s u : State} (h : exec i s = .next u) : execAll [i] s = .next u := execAll_cons h []

/-- The machine can pack symbols by the table `t`, and SNK holds `out`. -/
structure Packs (t : Vector CodeEntry 256) (out : List Byte) (s : State) : Prop where
  idle : Idle s
  sink : SinkOk s
  valid : s.codesValid = true
  code : s.code = t
  snk : s.snk = out

theorem Idle.latched {s : State} (h : Idle s) (i : Instr) : Idle (latched i s) := ⟨rfl, h.err, h.sched⟩

theorem SinkOk.latched {s : State} (h : SinkOk s) (i : Instr) : SinkOk (latched i s) := ⟨h.queued, h.standing⟩

theorem Idle.afterPacking {s : State} (h : Idle s) (bits : List Bool) : Idle (afterPacking bits s) :=
  ⟨h.busy, h.err, h.sched⟩

theorem Packs.latched {t : Vector CodeEntry 256} {out : List Byte} {s : State} (h : Packs t out s) (i : Instr) :
    Packs t out (latched i s) := ⟨h.idle.latched i, h.sink.latched i, h.valid, h.code, h.snk⟩

/-- What a command packs goes behind the bits packed before it (43_bitpack.md R170). -/
theorem afterPacking_latched (as bs : List Bool) (i : Instr) (s : State) :
    afterPacking (packed (afterPacking as s) ++ bs) (latched i (afterPacking as s)) =
      afterPacking (as ++ bs) (latched i s) :=
  afterPacking_afterPacking as bs (latched i s)

section
variable {t : Vector CodeEntry 256} {out : List Byte} {s : State}

theorem exec_psym_afterPacking (h : Packs t out s) (bits : List Bool) {x : Sym} (hx : (codeAt t x).assigned = true) :
    exec (.psym x) (afterPacking bits s) =
      .next (afterPacking (bits ++ (codeAt t x).bitString) (latched (.psym x) s)) := by
  obtain ⟨hs, hk, hv, rfl, -⟩ := h
  rw [← afterPacking_latched]
  exact exec_psym (hs.afterPacking bits) hv (hk.afterPacking bits) (packerOk_afterPacking bits s) hx

/-- One PSYM for each symbol of a sequence packs its code bits (43_bitpack.md R172, R175). -/
theorem execAll_psym {xs : List Sym} (hc : AllCoded t xs) (is : List Instr) :
    ∀ {s : State}, Packs t out s → ∀ bits, ∃ u, Packs t out u ∧
      execAll (xs.map Instr.psym ++ is) (afterPacking bits s) = execAll is (afterPacking (bits ++ codeBits t xs) u) := by
  induction xs with
  | nil => exact fun {s} h bits => ⟨s, h, by rw [codeBits, List.flatMap_nil, List.append_nil]; rfl⟩
  | cons x xs ih =>
    intro s h bits
    obtain ⟨u, hu, he⟩ := ih (fun b hb => hc b (List.mem_cons_of_mem x hb)) (h.latched (.psym x))
      (bits ++ (codeAt t x).bitString)
    refine ⟨u, hu, ?_⟩
    rw [List.map_cons, List.cons_append, execAll_cons (exec_psym_afterPacking h bits (hc x List.mem_cons_self)), he,
      codeBits_cons, List.append_assoc]

/-- PFLUSH after packing completes the body (43_bitpack.md R174, R175). -/
theorem execAll_pflush (h : Packs t out s) (bits : List Bool) :
    ∃ u, execAll [.pflush] (afterPacking bits s) = .next u ∧ u.err = false ∧ u.snk = out ++ bitsToBytes bits := by
  obtain ⟨hs, hk, -, -, rfl⟩ := h
  have hs' := hs.afterPacking bits
  rcases flush_bytes bits s with ⟨h0, hb⟩ | ⟨h0, hb⟩
  · exact ⟨_, execAll_one (exec_pflush_empty hs' h0), hs.err, congrArg (s.snk ++ ·) hb.symm⟩
  · refine ⟨_, execAll_one (exec_pflush hs' (hk.afterPacking bits) h0), ?_, ?_⟩
    · rw [clearPacker_err, delivered_err, latched_err]
      exact hs'.err
    · rw [clearPacker_snk, delivered_snk, latched_snk, hb, ← List.append_assoc]
      rfl

/-- The bits of the body, one by one (43_bitpack.md R175). -/
theorem getElem?_bits_bitsToBytes (bits : List Bool) :
    ∀ k < 8 * (bitsToBytes bits).length, ((bitsToBytes bits).flatMap byteBits)[k]? = some (bits.getD k false) := by
  intro k hk
  rw [length_bitsToBytes] at hk
  rw [bits_bitsToBytes, List.getElem?_map, List.getElem?_range hk, Option.map_some]

/-- An empty packer has packed nothing. -/
theorem afterPacking_nil_of_empty (ha : s.acc = 0) (hn : s.nbits = 0) : afterPacking [] s = s := by
  rw [← packed_of_nbits hn]
  exact afterPacking_packed (packerOk_zero ha hn)

end

/-- Settles O32: the codes gather behind each other from the empty packer, and PFLUSH sends what is left of the last
byte. -/
theorem bodyLength : Obligations.BodyLength := by
  intro s hs hk hv ha hn
  have hp : Packs s.code s.snk s := ⟨hs, hk, hv, rfl, rfl⟩
  have h0 := afterPacking_nil_of_empty ha hn
  refine ⟨fun xs hc => ?_, fun hl hc => ?_⟩
  · obtain ⟨u, hu, he⟩ := execAll_psym hc [.pflush] hp []
    rw [h0] at he
    obtain ⟨v, hv, herr, hsnk⟩ := execAll_pflush hu (codeBits s.code xs)
    exact ⟨v, _, he.trans hv, herr, hsnk, length_bitsToBytes _, getElem?_bits_bitsToBytes _⟩
  · obtain ⟨v, hv', herr, hsnk⟩ := execAll_pflush (hp.latched .pscan) (codeBits s.code (ibufBytes s s.ilen.toNat))
    refine ⟨v, _, ?_, herr, hsnk, length_bitsToBytes _, getElem?_bits_bitsToBytes _⟩
    rw [execAll_cons (exec_pscan hs hv hk (packerOk_zero ha hn) hl hc), packed_of_nbits hn]
    exact hv'

end Sys2Proof.Machine
end

section
/-! PROOFS. The bit-unpacker's commands (43_bitpack.md R171, R180 to R183): where they stop, what they decode, and that
UDEC undoes the packing. -/

namespace Sys2Proof.Machine

/-! ## UDEC -/

/-- UDEC from the last symbol on (43_bitpack.md R180). -/
theorem exec_udec_stops {s : State} (hs : Idle s) (hv : s.treeValid = true) (he : totalOf s.freq ≤ s.emit.toNat) :
    exec .udec s = .next (latched .udec s) := by
  rw [← idleAgain_accept]
  refine issue_one_done (task := .udec) hs ?_
  rw [runTask, udecRule, sequenceCheck_ok (s := accept (encode .udec) s) hv, Flow.andThen_done]
  exact if_pos he

/-- UDECALL from the last symbol on (43_bitpack.md R181). -/
theorem exec_udecall_stops {s : State} (hs : Idle s) (hv : s.treeValid = true) (he : totalOf s.freq ≤ s.emit.toNat) :
    exec .udecall s = .next (latched .udecall s) := by
  have hn : totalOf (accept (encode .udecall) s).freq - (accept (encode .udecall) s).emit.toNat = 0 :=
    Nat.sub_eq_zero_of_le he
  rw [← idleAgain_accept]
  refine issue_one_done (task := .udecall) hs ?_
  rw [runTask, udecallRule_valid (s := accept (encode .udecall) s) hv, hn, decodeSymbols]

/-- Settles O35. -/
theorem decodeStopsAtCount : Obligations.DecodeStopsAtCount := fun _ hs hv he =>
  ⟨exec_udec_stops hs hv he, exec_udecall_stops hs hv he⟩

/-- A command of one stretch whose effect is to decode `xs`. -/
theorem issue_decoded {s : State} (hs : Idle s) {i : Instr} {task : Task} {xs : List Sym} {c : Byte} {r used : Nat}
    {src : List SrcElem}
    (h : runTask task (accept (encode i) s) = .done (decoded xs c r used src (accept (encode i) s))) :
    issue i [task] s = .next (decoded xs c r used src (latched i s)) := by
  rw [issue_one_done hs h, ← idleAgain_accept]
  rfl

/-- UDEC along a path of any tree in the arena, with more bits offered than it needs (43_bitpack.md R180): it takes the
bytes `b1` of those offered and leaves the bits `q`. -/
theorem exec_udec {s : State} {i : NodeId} {p q : List Bool} {x : Sym} {body : List Byte} {rest : List SrcElem}
    (hs : Idle s) (hk : SinkOk s) (hv : s.treeValid = true) (hi : s.root = some i)
    (he : s.emit.toNat < totalOf s.freq) (hr : s.rem.toNat ≤ 8) (hp : LeadsTo (nodeAt s) i p x)
    (hb : bodyBits s.cur s.rem.toNat body = p ++ q) (hsrc : s.src = body.map .byte ++ rest) :
    ∃ b1 b2 r, body = b1 ++ b2 ∧ r ≤ 8 ∧ bodyBits (b1.getLastD s.cur) r b2 = q ∧ exec .udec s =
      .next (decoded [x] (b1.getLastD s.cur) r b1.length (b2.map .byte ++ rest) (latched .udec s)) := by
  obtain ⟨b1, b2, r, hsplit, hr', hq, hwalk⟩ :=
    walkRule_ok (s := accept (encode .udec) s) hs.sched (hk.accept _) hr hp hb hsrc
  exact ⟨b1, b2, r, hsplit, hr', hq,
    issue_decoded (task := .udec) hs ((udecRule_valid (s := accept (encode .udec) s) hv he hi).trans hwalk)⟩

/-- Settles O34: where no byte more than needed is offered, every byte is taken. -/
theorem udecDecodes : Obligations.UdecDecodes := by
  intro s i p left x body rest hs hk hv hi he hr hp hb hleft hsrc
  obtain ⟨b1, b2, r, rfl, hr', hq, hexec⟩ := exec_udec hs hk hv hi he hr hp hb hsrc
  obtain ⟨rfl, rfl⟩ := body_used hr' hq hleft
  rw [List.append_nil, hexec]
  rfl

/-! ## UDECALL -/

/-- Settles O37, by the rounds of UDECALL's loop, one for each symbol. -/
theorem udecallDecodes : Obligations.UdecallDecodes := by
  intro s t xs left body rest hs hk hv hh ht hr hx hemit hb hleft hsrc
  obtain ⟨b1, b2, r, rfl, hr', hq, hrounds⟩ := decodeSymbols_ok ht xs (s := accept (encode .udecall) s) hs.sched
    (hk.accept _) hr hh.nodeAt_eq hh.root hx hb hsrc
  obtain ⟨rfl, rfl⟩ := body_used hr' hq hleft
  have hn : totalOf (accept (encode .udecall) s).freq - (accept (encode .udecall) s).emit.toNat = xs.length :=
    Nat.sub_eq_of_eq_add' hemit.symm
  have hcount : s.emit + BitVec.ofNat 40 xs.length = BitVec.ofNat 40 (totalOf s.freq) := by
    rw [← hemit, BitVec.ofNat_add, BitVec.ofNat_toNat, BitVec.setWidth_eq]
  have hexec : exec .udecall s = _ := issue_decoded (task := .udecall) hs
    ((udecallRule_valid (s := accept (encode .udecall) s) hv).trans (hn ▸ hrounds))
  rw [List.append_nil, hexec, ← hcount]
  rfl

/-! ## UDEC undoes the packing -/

/-- The machine can decode by the tree of FREQ, whose code table is `t`: the unpacker and the bytes `body`, offered on SRC
before `rest`, hold the bits `bits`. -/
structure Unpacks (t : Vector CodeEntry 256) (bits : List Bool) (body : List Byte) (rest : List SrcElem) (s : State) :
    Prop where
  idle : Idle s
  sink : SinkOk s
  valid : s.treeValid = true
  tree : HoldsTree s
  table : TableFor s.freq t
  rem : s.rem.toNat ≤ 8
  bits : bodyBits s.cur s.rem.toNat body = bits
  src : s.src = body.map .byte ++ rest

/-- The state a UDEC leaves is ready for the next one. -/
theorem Unpacks.decoded_latched {t : Vector CodeEntry 256} {bits : List Bool} {body : List Byte} {rest : List SrcElem}
    {s : State} (h : Unpacks t bits body rest s) (xs : List Sym) (used : Nat) {c : Byte} {r : Nat} {q : List Bool}
    {b : List Byte} (hr : r ≤ 8) (hq : bodyBits c r b = q) :
    Unpacks t q b rest (decoded xs c r used (b.map .byte ++ rest) (latched .udec s)) where
  idle := ⟨rfl, h.idle.err, h.idle.sched⟩
  sink := (h.sink.latched .udec).decoded ..
  valid := h.valid
  tree := h.tree.congr rfl rfl rfl rfl rfl
  table := h.table
  rem := (toNat_rem hr).trans_le hr
  bits := (congrArg (bodyBits c · b) (toNat_rem hr)).trans hq
  src := rfl

/-- The bits of a symbol's code are a path from ROOT to its leaf (42_codetable.md R151). -/
theorem Unpacks.leadsTo {t : Vector CodeEntry 256} {bits : List Bool} {body : List Byte} {rest : List SrcElem} {s : State}
    (h : Unpacks t bits body rest s) {x : Sym} (hx : present s.freq x = true) :
    ∃ i, s.root = some i ∧ LeadsTo (nodeAt s) i (codeAt t x).bitString x := by
  rw [h.tree.root, h.tree.nodeAt_eq]
  exact h.table.leadsTo hx s.nodeDraw

/-- Counting one symbol below TOTAL does not wrap (10_state.md R36). -/
theorem toNat_emit_succ {f : Vector Word 256} {e : BitVec 40} (h : e.toNat < totalOf f) : (e + 1).toNat = e.toNat + 1 :=
  BitVec.toNat_add_of_lt (Nat.lt_of_le_of_lt h (totalOf_lt f))

/-- One UDEC on the code bits of a symbol. -/
theorem Unpacks.exec_udec {t : Vector CodeEntry 256} {x : Sym} {q : List Bool} {body : List Byte} {rest : List SrcElem}
    {s : State} (h : Unpacks t ((codeAt t x).bitString ++ q) body rest s) (hx : present s.freq x = true)
    (he : s.emit.toNat < totalOf s.freq) :
    ∃ b1 b2 u, body = b1 ++ b2 ∧ exec .udec s = .next u ∧ Unpacks t q b2 rest u ∧ u.freq = s.freq ∧
      u.emit.toNat = s.emit.toNat + 1 ∧ u.snk = s.snk ++ [x] ∧ u.inCount = s.inCount + BitVec.ofNat 64 b1.length := by
  obtain ⟨i, hi, hp⟩ := h.leadsTo hx
  obtain ⟨b1, b2, r, hsplit, hr, hq, hexec⟩ := Machine.exec_udec h.idle h.sink h.valid hi he h.rem hp h.bits h.src
  exact ⟨b1, b2, _, hsplit, hexec, h.decoded_latched [x] b1.length hr hq, rfl, toNat_emit_succ he, rfl, rfl⟩

/-- One UDEC for each symbol of a sequence, on its code bits (43_bitpack.md R183). -/
theorem Unpacks.execAll_udec {t : Vector CodeEntry 256} {xs : List Sym} {q : List Bool} {rest : List SrcElem} :
    ∀ {s : State} {body : List Byte}, Unpacks t (codeBits t xs ++ q) body rest s →
      (∀ x ∈ xs, present s.freq x = true) → s.emit.toNat + xs.length ≤ totalOf s.freq →
      ∃ b1 b2 u, body = b1 ++ b2 ∧ execAll (List.replicate xs.length .udec) s = .next u ∧ Unpacks t q b2 rest u ∧
        u.snk = s.snk ++ xs ∧ u.inCount = s.inCount + BitVec.ofNat 64 b1.length := by
  induction xs with
  | nil =>
    intro s body h _ _
    exact ⟨[], body, s, rfl, rfl, h, (List.append_nil _).symm, (BitVec.add_zero _).symm⟩
  | cons x xs ih =>
    intro s body h hx he
    rw [List.length_cons] at he
    rw [codeBits_cons, List.append_assoc] at h
    obtain ⟨b1, b2, u, rfl, hexec, hu, hfreq, hemit, hsnk, hin⟩ := h.exec_udec (hx x List.mem_cons_self) (by omega)
    obtain ⟨c1, c2, v, rfl, hall, hv, hsnk', hin'⟩ := ih hu
      (fun y hy => hfreq ▸ hx y (List.mem_cons_of_mem x hy)) (by rw [hfreq, hemit]; omega)
    refine ⟨b1 ++ c1, c2, v, (List.append_assoc ..).symm, ?_, hv, ?_, ?_⟩
    · rw [List.length_cons, List.replicate_succ, execAll_cons hexec, hall]
    · rw [hsnk', hsnk, List.append_assoc, List.singleton_append]
    · rw [hin', hin, List.length_append, BitVec.ofNat_add, BitVec.add_assoc]

/-- An empty unpacker gives the bits of the bytes offered (43_bitpack.md R171). -/
theorem bodyBits_zero (c : Byte) (body : List Byte) : bodyBits c 0 body = body.flatMap byteBits := by
  rw [bodyBits, List.drop_of_length_le (length_byteBits c).le, List.nil_append]

/-- Settles O38: on the body's bits UDEC leaves just the pad bits, fewer than a byte. -/
theorem decodeInvertsPacking : Obligations.DecodeInvertsPacking := by
  intro s t xs rest hs hk hv hh ht hx hemit hrem hlen hsrc
  obtain ⟨pad, hbits, hpad⟩ := bits_bitsToBytes' (codeBits t xs)
  have hr : s.rem.toNat = 0 := congrArg BitVec.toNat hrem
  have he : s.emit.toNat = 0 := congrArg BitVec.toNat hemit
  have hstart : Unpacks t (codeBits t xs ++ pad) (bitsToBytes (codeBits t xs)) rest s :=
    ⟨hs, hk, hv, hh, ht, by omega, by rw [hr, bodyBits_zero, hbits], hsrc⟩
  obtain ⟨b1, b2, u, hsplit, hall, hu, hsnk, hin⟩ := hstart.execAll_udec hx (by omega)
  obtain ⟨rfl, -⟩ := body_used (b1 := b1) hu.rem hu.bits (.inr hpad)
  refine ⟨u, hall, hu.idle.err, hsnk, hu.src, ?_⟩
  rw [hin, ← length_bitsToBytes, hsplit, List.append_nil]

end Sys2Proof.Machine
end

section
/-! PROOFS. The container's commands (44_container.md R205 to R208): what ENCODE and DECODE leave, that DECODE gives back
what ENCODE wrote, and that ENCODE writes what the input alone says. -/

namespace Sys2Proof.Machine

/-! ## ENCODE and DECODE -/

/-- A command whose stretches run to their end (30_encoding.md R95, R96). -/
theorem issue_done {s : State} (hs : Idle s) {i : Instr} {rule : List Task} {u : State}
    (h : runTasks rule (accept (encode i) s) = .done u) : issue i rule s = .next (idleAgain u) := by
  rw [issue_idle hs, h, Flow.ended_done]

theorem idleAgain_encoded (f : Vector Word 256) (t : Vector CodeEntry 256) (bs : List Byte) (s : State) :
    idleAgain (encoded f t bs s) = encoded f t bs (idleAgain s) := rfl

@[simp] theorem encoded_busy (f : Vector Word 256) (t : Vector CodeEntry 256) (bs : List Byte) (s : State) :
    (encoded f t bs s).busy = s.busy := rfl

/-- ENCODE of an admitted length (44_container.md R205). -/
theorem exec_encode {s : State} (hs : Idle s) (hk : SinkOk s) (hl : s.ilen.toNat ≤ s.cfg.ibufSize) {input : List Byte}
    (hi : ibufBytes s s.ilen.toNat = input) :
    ∃ t, TableFor (histogram input) t ∧ exec .encode s =
      .next (encoded (histogram input) t (containerBytes (histogram input) t input) (latched .encode s)) := by
  obtain ⟨t, ht, hrun⟩ := runTasks_encode (s := accept (encode .encode) s) hs.sched (hk.accept _) hl hi
  refine ⟨t, ht, (issue_done hs hrun).trans ?_⟩
  rw [idleAgain_encoded, idleAgain_accept]

theorem exec_encode_tooLong {s : State} (hs : Idle s) (h : s.cfg.ibufSize < s.ilen.toNat) :
    exec .encode s = .next (raise .inputLength (s.ilen.setWidth 64) none none .src s) := by
  refine issue_raised (u := accept (encode .encode) s) hs ?_ fun _ _ _ _ _ => rfl
  rw [encodeTasks, runTasks_cons, runTask, lengthCheck_fails (hs.sched_accept _) h, Flow.andThen_raised]
  rfl

@[simp] theorem decodedAll_busy (f : Vector Word 256) (w : Nat) (xs : List Sym) (body : List Byte) (rem : Nat)
    (rest : List SrcElem) (s : State) : (decodedAll f w xs body rem rest s).busy = s.busy := rfl

/-- DECODE of a whole container (44_container.md R206). -/
theorem exec_decode {s : State} {f : Vector Word 256} {w : Nat} {t : Vector CodeEntry 256} {xs : List Sym}
    {pad : List Bool} {body : List Byte} {rest : List SrcElem} (hs : Idle s) (hk : SinkOk s) (hf : FitsWidth f w)
    (ht : TableFor f t) (hx : ∀ x ∈ xs, present f x = true) (hlen : xs.length = totalOf f)
    (hb : body.flatMap byteBits = codeBits t xs ++ pad) (hpad : pad.length < 8)
    (hsrc : s.src = (headerBytes f w ++ body).map .byte ++ rest) :
    exec .decode s = .next (decodedAll f w xs body pad.length rest (latched .decode s)) := by
  have hrun := runTasks_decode (s := accept (encode .decode) s) hs.sched (hk.accept _) hf ht hx hlen hb hpad hsrc
  refine (issue_done hs hrun).trans ?_
  rw [← idleAgain_accept]
  rfl

/-- Settles O45. -/
theorem decodeReads : Obligations.DecodeReads := by
  intro s f w t xs pad body rest hs hk hf ht hx hlen hb hpad hsrc
  exact exec_decode hs hk hf ht hx hlen hb hpad hsrc

/-- DECODE of the container of an input gives the input back (44_container.md R207). -/
theorem exec_decode_container {s : State} {input : List Byte} {t : Vector CodeEntry 256} {rest : List SrcElem}
    (hs : Idle s) (hk : SinkOk s) (hlen : input.length < 2 ^ 32) (ht : TableFor (histogram input) t)
    (hsrc : s.src = (containerBytes (histogram input) t input).map .byte ++ rest) :
    ∃ u, exec .decode s = .next u ∧ u.busy = false ∧ u.err = false ∧ u.snk = s.snk ++ input ∧ u.src = rest := by
  obtain ⟨pad, hbits, hpad⟩ := bits_bitsToBytes' (codeBits t input)
  exact ⟨_, exec_decode hs hk (fitsWidth_minWidth _) ht (fun x hx => (present_histogram hlen x).2 hx)
    (totalOf_histogram hlen).symm hbits hpad hsrc, decodedAll_busy .., (decodedAll_err ..).trans hs.err,
    decodedAll_snk .., decodedAll_src ..⟩

theorem length_ibufBytes_ilen (s : State) : (ibufBytes s s.ilen.toNat).length < 2 ^ 32 := by
  rw [length_ibufBytes]
  exact s.ilen.isLt

/-- Settles O46: the container ENCODE writes is the one of its input. -/
theorem roundTrip : Obligations.RoundTrip := by
  intro s hs hk hl
  obtain ⟨t, ht, hexec⟩ := exec_encode hs hk hl rfl
  exact ⟨_, _, hexec, encoded_busy .., (encoded_err ..).trans hs.err, encoded_snk .., fun u rest hu huk hsrc =>
    exec_decode_container hu huk (length_ibufBytes_ilen s) ht hsrc⟩

/-- Settles O47: the input decides FREQ, and FREQ decides the code table. -/
theorem encodeDeterministic : Obligations.EncodeDeterministic := by
  intro s u hs hu hk huk hilen hl hlu hmem
  have hinput : ibufBytes u u.ilen.toNat = ibufBytes s s.ilen.toNat := by
    rw [← hilen]
    exact List.map_congr_left fun i hi => (hmem i (List.mem_range.1 hi)).symm
  obtain ⟨t, ht, hexec⟩ := exec_encode hs hk hl rfl
  obtain ⟨t', ht', hexec'⟩ := exec_encode hu huk hlu hinput
  obtain rfl := ht.unique ht'
  exact ⟨_, _, _, hexec, hexec', encoded_snk .., encoded_snk ..⟩

/-! ## The length of the container -/

theorem length_codeBits (t : Vector CodeEntry 256) (bs : List Byte) :
    (codeBits t bs).length = (bs.map fun x => (codeAt t x).len.toNat).sum := by
  rw [codeBits, List.length_flatMap]
  exact congrArg List.sum (List.map_congr_left fun x _ => CodeEntry.length_bitString _)

theorem length_containerBytes (f : Vector Word 256) (t : Vector CodeEntry 256) (bs : List Byte) :
    (containerBytes f t bs).length =
      37 + minWidth (maxFreq f) * nsymOf f + ((bs.map fun x => (codeAt t x).len.toNat).sum + 7) / 8 := by
  rw [containerBytes, List.length_append, length_headerBytes, length_bitsToBytes, length_codeBits]

/-- The largest header: 256 symbols, each in 4 bytes (44_container.md R201). -/
theorem length_headerBytes_le {f : Vector Word 256} {w : Nat} (h : w ≤ 4) : (headerBytes f w).length ≤ 1061 := by
  have hfields : w * nsymOf f ≤ 4 * 256 := Nat.mul_le_mul h (nsymOf_le f)
  rw [length_headerBytes]
  omega

/-- Settles O44, by whether the length is admitted. -/
theorem encodeWrites : Obligations.EncodeWrites := by
  intro s hs
  refine ⟨exec_encode_tooLong hs, fun hk hl => ?_⟩
  obtain ⟨t, ht, hexec⟩ := exec_encode hs hk hl rfl
  exact ⟨t, ht, hexec, length_containerBytes _ t _, length_headerBytes _ _, length_headerBytes_le (minWidth_range _).2⟩

end Sys2Proof.Machine
end

section
/-! PROOFS. The header (44_container.md R200 to R204, R209): its bytes, and what HREAD and HWRITE do with them. -/

namespace Sys2Proof.Machine

/-! ## The header's bytes -/

/-- Byte `j` of the entry `k` among entries of `w` bytes each (44_container.md R200). -/
theorem getElem?_fields {w : Nat} {es : List (Sym × Word)} {k j : Nat} {e : Sym × Word} (hk : es[k]? = some e)
    (hj : j < w) : (es.flatMap fun e => beBytes w e.2)[w * k + j]? = (beBytes w e.2)[j]? := by
  induction es generalizing k with
  | nil => cases hk
  | cons d es ih =>
    rw [List.flatMap_cons]
    cases k with
    | zero =>
      obtain rfl : d = e := Option.some.inj hk
      rw [Nat.mul_zero, Nat.zero_add, List.getElem?_append_left (by rwa [length_beBytes])]
    | succ k =>
      rw [Nat.mul_succ, Nat.add_right_comm, List.getElem?_append_right (by rw [length_beBytes]; omega), length_beBytes,
        Nat.add_sub_cancel]
      exact ih hk

/-- Most significant byte first (20_memory.md R73). -/
theorem getElem?_beBytes {w j : Nat} (hj : j < w) (v : Word) :
    (beBytes w v)[j]? = some (v.extractLsb' (8 * (w - 1 - j)) 8) := by
  rw [beBytes, List.getElem?_map, List.getElem?_reverse (by rwa [List.length_range]), List.length_range,
    List.getElem?_range (by omega), Option.map_some]

theorem toNat_extractLsb'_byte (v : Word) (n : Nat) : (v.extractLsb' (8 * n) 8).toNat = v.toNat / 256 ^ n % 256 := by
  rw [BitVec.extractLsb'_toNat, Nat.shiftRight_eq_div_pow, Nat.pow_mul]

/-- The header after its magic bytes (44_container.md R200). -/
theorem headerBytes_after_magic (f : Vector Word 256) (w i : Nat) :
    (headerBytes f w)[4 + i]? = ((List.range 32).map (bitmapByte f) ++
      ([BitVec.ofNat 8 w] ++ (presentEntries f).flatMap fun e => beBytes w e.2))[i]? := by
  rw [headerBytes_eq, List.getElem?_append_right (by rw [length_magic]; omega), length_magic, Nat.add_sub_cancel_left]

theorem headerBytes_bitmap (f : Vector Word 256) (w : Nat) {k : Nat} (hk : k < 32) :
    (headerBytes f w)[4 + k]? = some (bitmapByte f k) := by
  rw [headerBytes_after_magic, List.getElem?_append_left (by rwa [length_bitmapPart]), List.getElem?_map,
    List.getElem?_range hk, Option.map_some]

/-- The header after its bitmap. -/
theorem headerBytes_after_bitmap (f : Vector Word 256) (w i : Nat) :
    (headerBytes f w)[36 + i]? =
      ([BitVec.ofNat 8 w] ++ (presentEntries f).flatMap fun e => beBytes w e.2)[i]? := by
  rw [show 36 + i = 4 + (32 + i) by omega, headerBytes_after_magic,
    List.getElem?_append_right (by rw [length_bitmapPart]; omega), length_bitmapPart, Nat.add_sub_cancel_left]

theorem headerBytes_width (f : Vector Word 256) (w : Nat) : (headerBytes f w)[36]? = some (BitVec.ofNat 8 w) :=
  headerBytes_after_bitmap f w 0

theorem headerBytes_field {f : Vector Word 256} {w k j : Nat} {x : Sym}
    (hk : (allSyms.filter (present f))[k]? = some x) (hj : j < w) :
    (headerBytes f w)[37 + w * k + j]? = some ((freqAt f x).extractLsb' (8 * (w - 1 - j)) 8) := by
  have he : (presentEntries f)[k]? = some (x, freqAt f x) := by
    rw [presentEntries_eq, List.getElem?_map, hk, Option.map_some]
  rw [show 37 + w * k + j = 36 + (1 + (w * k + j)) by omega, headerBytes_after_bitmap,
    List.getElem?_append_right (by rw [List.length_singleton]; omega), List.length_singleton, Nat.add_sub_cancel_left,
    getElem?_fields he hj, getElem?_beBytes hj]

/-- Settles O40, part by part of the header. -/
theorem headerLayout : Obligations.HeaderLayout := by
  intro f w hf
  obtain ⟨-, hw4, -⟩ := hf
  refine ⟨length_headerBytes f w, ?_, ?_, fun x => ?_, fun k j x hk hj => ?_⟩
  · rw [headerBytes_eq, List.take_left' length_magic]
    rfl
  · rw [List.getD_eq_getElem?_getD, headerBytes_width, Option.getD_some, BitVec.toNat_ofNat, Nat.mod_eq_of_lt (by omega)]
  · have hx : x.toNat / 8 < 32 := by have := x.isLt; omega
    rw [List.getD_eq_getElem?_getD, headerBytes_bitmap f w hx, Option.getD_some, bitmapByte_bit]
  · rw [List.getD_eq_getElem?_getD, headerBytes_field hk hj, Option.getD_some, toNat_extractLsb'_byte]

/-! ## HWRITE -/

/-- Settles O39: the header is sent after the packer is cleared and WIDTH is written. -/
theorem hwriteWrites : Obligations.HwriteWrites := by
  intro s hs hk
  have hrule := sendBytes_ok
    (s := storeWidth (minWidth (maxFreq s.freq)) (clearPacker (zeroOut (accept (encode .hwrite) s))))
    hs.sched ⟨hk.queued, hk.standing⟩ (headerBytes s.freq (minWidth (maxFreq s.freq)))
  refine (issue_one_done (task := .hwrite) hs hrule).trans ?_
  rw [← idleAgain_accept]
  rfl

/-! ## HREAD of a whole header -/

/-- HREAD counts the bytes it takes from 0 (44_container.md R203). -/
theorem inCount_hreadClear_add (n : Nat) (s : State) :
    (hreadClear s).inCount + BitVec.ofNat 64 n = BitVec.ofNat 64 n := BitVec.zero_add _

theorem taken_hreadClear (n : Nat) (rest : List SrcElem) (s : State) :
    taken n rest (hreadClear s) = { hreadClear s with src := rest, inCount := BitVec.ofNat 64 n } := by
  rw [taken, inCount_hreadClear_add]

/-- Settles O41. -/
theorem hreadReads : Obligations.HreadReads := by
  intro s f w rest hs hf hsrc
  have hrule := hreadRule_ok (s := accept (encode .hread) s) hf hs.sched hsrc
  rw [← withFreq_taken, taken_hreadClear] at hrule
  refine (issue_one_done (task := .hread) hs hrule).trans ?_
  rw [← idleAgain_accept]
  rfl

/-! ## HREAD of a header that is refused -/

/-- HREAD refuses what SRC offers: it takes `n` elements, which leave `rest`, and raises `e` (44_container.md R203). -/
def RefusesHeader (src : List SrcElem) (n : Nat) (rest : List SrcElem) (e : ErrKind) (o : BitVec 64)
    (x a : Option Byte) : Prop :=
  ∀ u : State, u.sched = [] → u.src = src → ∃ v, hreadRule u = .raised (raise e o x a .src v) ∧
    SameRaise v { u with src := rest, inCount := BitVec.ofNat 64 n }

/-- HREAD and DECODE end in the error entry of the header's refusal (44_container.md R206, 60_exceptions.md R248). -/
theorem RefusesHeader.exec {i : Instr} (hi : i = .hread ∨ i = .decode) {s : State} (hs : Idle s) {n : Nat}
    {rest : List SrcElem} {e : ErrKind} {o : BitVec 64} {x a : Option Byte} (h : RefusesHeader s.src n rest e o x a) :
    exec i s = .next (raise e o x a .src { s with
      src := rest, inCount := BitVec.ofNat 64 n, outCount := if i = .decode then 0 else s.outCount }) := by
  rcases hi with rfl | rfl
  · obtain ⟨v, hrule, hsame⟩ := h (accept (encode .hread) s) hs.sched rfl
    exact issue_one_raised (task := .hread) hs hrule hsame
  · obtain ⟨v, hrule, hsame⟩ := h (zeroOut (accept (encode .decode) s)) hs.sched rfl
    exact issue_raised hs (runTasks_decode_raised hrule) hsame

/-- What HREAD clears and the FREQ it has read so far are unspecified after a raise (60_exceptions.md R244). -/
theorem sameRaise_hread (f : Vector Word 256) (n : Nat) (rest : List SrcElem) (u : State) :
    SameRaise (withFreq f (taken n rest (hreadClear u))) { u with src := rest, inCount := BitVec.ofNat 64 n } := by
  rw [taken_hreadClear]
  exact fun _ _ _ _ _ => rfl

theorem refusesHeader_magic {k : Nat} {m b : Byte} (hm : magic[k]? = some m) (hb : b ≠ m) (rest : List SrcElem) :
    RefusesHeader ((magic.take k ++ [b]).map .byte ++ rest) (k + 1) rest .magicMismatch (BitVec.ofNat 64 k) (some m)
      (some b) := by
  intro u hs hsrc
  obtain ⟨hk, rfl⟩ := List.getElem?_eq_some_iff.1 hm
  have hlen : (magic.take k).length = k := List.length_take_of_le hk.le
  have hsplit : magic.take k ++ magic[k] :: magic.drop (k + 1) = magic := by
    rw [← List.drop_eq_getElem_cons hk, List.take_append_drop]
  have hread := readMagic_bad (magic.take k) 0 magic[k] b (magic.drop (k + 1)) hb (s := hreadClear u) hs hsrc
  rw [hsplit, hlen, Nat.zero_add] at hread
  exact ⟨_, hread, sameRaise_hread (hreadClear u).freq (k + 1) rest u⟩

/-- HREAD up to the W byte (44_container.md R203). -/
theorem readToWidth {bm : List Byte} (hbm : bm.length = 32) {s : State} {rest : List SrcElem} (hs : s.sched = [])
    (hsrc : s.src = (magic ++ bm).map .byte ++ rest) : readMagicFrom 0 s = readWidth bm (taken 36 rest s) := by
  have hbitmap := readBitmap_ok bm [] (s := taken 4 (bm.map .byte ++ rest) s) (rest := rest) hs rfl
  rw [hbm, taken_taken, List.nil_append] at hbitmap
  rw [List.map_append, List.append_assoc] at hsrc
  exact (readMagic_ok magic 0 hs hsrc).trans hbitmap

theorem refusesHeader_width {bm : List Byte} (hbm : bm.length = 32) {b : Byte} (hb : b.toNat = 0 ∨ 4 < b.toNat)
    (rest : List SrcElem) :
    RefusesHeader ((magic ++ bm ++ [b]).map .byte ++ rest) 37 rest .invalidByteWidth 36 none (some b) := by
  intro u hs hsrc
  rw [List.map_append, List.append_assoc, List.map_singleton, List.singleton_append] at hsrc
  have hread : hreadRule u = .raised (raise .invalidByteWidth 36 none (some b) .src (taken 37 rest (hreadClear u))) := by
    rw [hreadRule, readToWidth hbm (s := hreadClear u) hs hsrc, readWidth,
      withSrcByte_taken (s := taken 36 _ (hreadClear u)) hs rfl, if_pos (by omega), taken_taken,
      raising_free (s := taken 37 rest (hreadClear u)) hs]
  exact ⟨_, hread, sameRaise_hread (hreadClear u).freq 37 rest u⟩

theorem beValue_zeros (w : Nat) : beValue 0 (List.replicate w 0) = 0 := by
  induction w with
  | zero => rfl
  | succ w ih => exact ih

/-- A frequency field of zeros ends HREAD behind it (44_container.md R203). -/
theorem readFreqs_zero (w : Nat) (x : Sym) (xs : List Sym) {s : State} {rest : List SrcElem} (hs : s.sched = [])
    (hsrc : s.src = (List.replicate w 0).map .byte ++ rest) :
    readFreqs w (x :: xs) s = .raised (raise .invalidFrequency s.inCount none (some x) .src (taken w rest s)) := by
  have hfield := readField_ok (here := fun left v => [.hreadField w left v x xs])
    (k := storeField w x (readFreqs w xs)) (List.replicate w 0) 0 hs hsrc
  have hoffset : (taken w rest s).inCount - BitVec.ofNat 64 w = s.inCount := BitVec.add_sub_cancel ..
  rw [List.length_replicate, beValue_zeros, storeField, if_pos rfl, hoffset,
    raising_free (s := taken w rest s) hs] at hfield
  exact hfield

theorem refusesHeader_frequency {bm : List Byte} (hbm : bm.length = 32) {w : Nat} (h1 : 1 ≤ w) (h4 : w ≤ 4)
    {pre : List (Sym × Word)} {x : Sym} {post : List Sym} (hsyms : bitmapSyms bm = pre.map Prod.fst ++ x :: post)
    (hpre : ∀ e ∈ pre, 0 < e.2.toNat ∧ e.2.toNat < 256 ^ w) (rest : List SrcElem) :
    RefusesHeader ((magic ++ bm ++ [BitVec.ofNat 8 w] ++ pre.flatMap (fun e : Sym × Word => beBytes w e.2) ++
        List.replicate w 0).map .byte ++ rest) (37 + w * (pre.length + 1)) rest .invalidFrequency
      (BitVec.ofNat 64 (37 + w * pre.length)) none (some x) := by
  intro u hs hsrc
  have hsrc' : (hreadClear u).src = (magic ++ bm ++ [BitVec.ofNat 8 w]).map .byte ++
      ((pre.flatMap fun e : Sym × Word => beBytes w e.2).map .byte ++ ((List.replicate w 0).map .byte ++ rest)) := by
    simp only [hreadClear_src, hsrc, List.map_append, List.append_assoc]
  have hfields : hreadRule u = readFreqs w (x :: post) (taken (37 + w * pre.length)
      ((List.replicate w 0).map .byte ++ rest) (withFreq (fillFreq (hreadClear u).freq pre) (hreadClear u))) := by
    rw [hreadRule, readToFields hbm h1 h4 (s := hreadClear u) hs hsrc', hsyms,
      readFreqs_ok h4 pre (x :: post) (s := taken 37 _ (hreadClear u)) hs rfl hpre rfl, withFreq_taken, taken_taken]
    rfl
  have hzero := readFreqs_zero w x post (s := taken (37 + w * pre.length) ((List.replicate w 0).map .byte ++ rest)
    (withFreq (fillFreq (hreadClear u).freq pre) (hreadClear u))) hs rfl
  have hoffset : (taken (37 + w * pre.length) ((List.replicate w 0).map .byte ++ rest)
      (withFreq (fillFreq (hreadClear u).freq pre) (hreadClear u))).inCount = BitVec.ofNat 64 (37 + w * pre.length) :=
    inCount_hreadClear_add _ u
  rw [hoffset, taken_taken, Nat.add_assoc, ← Nat.mul_succ] at hzero
  exact ⟨_, hfields.trans hzero, sameRaise_hread (fillFreq (hreadClear u).freq pre) _ rest u⟩

theorem refusesHeader_short {f : Vector Word 256} {w k : Nat} (hf : FitsWidth f w) (hk : k < (headerBytes f w).length)
    {e : SrcElem} {kind : ErrKind} (he : GivesOut e kind) (rest : List SrcElem) :
    RefusesHeader (((headerBytes f w).take k).map .byte ++ e :: rest) k rest kind (BitVec.ofNat 64 k) none none := by
  intro u hs hsrc
  have hread := failsWithin_header hf (hreadClear u) e kind k rest he hs hk hsrc
  rw [inCount_hreadClear_add] at hread
  exact ⟨_, hread, fun _ _ _ _ _ => rfl⟩

/-- Settles O42: the magic byte, the width, the field of zeros, and the element SRC gives instead of a byte. -/
theorem headerRefused : Obligations.HeaderRefused := by
  intro i s rest hi hs
  refine ⟨fun k m b hm hb hsrc => ?_, fun bm b hbm hb hsrc => ?_, fun bm w pre x post hbm h1 h4 hsyms hpre hsrc => ?_,
    fun f w k hf hk => ⟨fun hsrc => ?_, fun hsrc => ?_⟩⟩
  · exact RefusesHeader.exec hi hs (hsrc ▸ refusesHeader_magic hm hb rest)
  · exact RefusesHeader.exec hi hs (hsrc ▸ refusesHeader_width hbm hb rest)
  · exact RefusesHeader.exec hi hs (hsrc ▸ refusesHeader_frequency hbm h1 h4 hsyms hpre rest)
  · exact RefusesHeader.exec hi hs (hsrc ▸ refusesHeader_short hf hk (.inl ⟨rfl, rfl⟩) rest)
  · exact RefusesHeader.exec hi hs (hsrc ▸ refusesHeader_short hf hk (.inr ⟨rfl, rfl⟩) rest)

/-! ## A header HREAD accepts -/

/-- A command of one stretch that has ended without an error has run to its end (30_encoding.md R96). -/
theorem issue_one_completed {s t : State} (hs : Idle s) {i : Instr} {task : Task} (h : issue i [task] s = .next t)
    (herr : t.err = false) (hbusy : t.busy = false) :
    ∃ u, runTask task (accept (encode i) s) = .done u ∧ t = idleAgain u := by
  have hframe := framed_runTask (Frame.refl (accept (encode i) s)) task
  rw [issue_idle hs, runTasks_one] at h
  cases hrun : runTask task (accept (encode i) s) with
  | done u =>
    rw [hrun] at h
    exact ⟨u, rfl, (Host.Outcome.next.inj h).symm⟩
  | raised u =>
    rw [hrun] at h hframe
    obtain ⟨e, o, x, a, p, v, -, -, rfl⟩ := hframe
    obtain rfl := Host.Outcome.next.inj h
    rw [raise_err] at herr
    cases herr
  | wait w r u =>
    rw [hrun] at h hframe
    obtain rfl := Host.Outcome.next.inj h
    exact absurd (hframe.busy.symm.trans hbusy) nofun
  | halt r =>
    rw [hrun] at h
    cases h

theorem mem_bitmapSyms {bm : List Byte} {x : Sym} :
    x ∈ bitmapSyms bm ↔ (bm.getD (x.toNat / 8) 0).getLsbD (7 - x.toNat % 8) = true := by
  rw [bitmapSyms, List.mem_filter, and_iff_right (mem_allSyms x)]

/-- The symbols present after HREAD has filled FREQ. -/
theorem present_fillFreq {es : List (Sym × Word)} (hn : (es.map Prod.fst).Nodup) (h0 : ∀ e ∈ es, e.2 ≠ 0) (x : Sym) :
    present (fillFreq (Vector.replicate 256 0) es) x = true ↔ x ∈ es.map Prod.fst := by
  rw [present, bne_iff_ne]
  refine ⟨fun h => by_contra fun hx => h ?_, fun h => ?_⟩
  · rw [freqAt_fillFreq_other hx, freqAt_replicate]
  · obtain ⟨e, he, rfl⟩ := List.mem_map.1 h
    rw [freqAt_fillFreq_mem hn he]
    exact h0 e he

/-- NSYM of a FREQ whose present symbols a bitmap marks (10_state.md R25, 44_container.md R209). -/
theorem nsymOf_eq_length_bitmapSyms {f : Vector Word 256} {bm : List Byte}
    (h : ∀ x, present f x = true ↔ x ∈ bitmapSyms bm) : nsymOf f = (bitmapSyms bm).length := by
  rw [nsymOf, presentEntries_eq, List.length_map, bitmapSyms]
  exact congrArg List.length (List.filter_congr fun x _ => Bool.eq_iff_iff.2 ((h x).trans mem_bitmapSyms))

/-- The symbols a bitmap marks are as many as its set bits (44_container.md R209). -/
theorem length_bitmapSyms {bm : List Byte} (h : bm.length = 32) :
    (bitmapSyms bm).length = (bm.flatMap byteBits).count true := by
  rw [← map_bitmap h, bitmapSyms, ← List.countP_eq_length_filter, List.count, List.countP_map]
  exact List.countP_congr fun x _ => by rw [Function.comp_apply, beq_true]

theorem toNat_freqAt_pos {f : Vector Word 256} {x : Sym} (h : present f x = true) : 0 < (freqAt f x).toNat :=
  Nat.pos_of_ne_zero fun h0 => bne_iff_ne.1 h (BitVec.eq_of_toNat_eq h0)

/-- The bitmap stands after the magic bytes (44_container.md R200). -/
theorem getD_bitmap {bm : List Byte} (tail : List Byte) {k : Nat} (hk : k < bm.length) :
    (magic ++ bm ++ tail).getD (4 + k) 0 = bm.getD k 0 := by
  rw [List.append_assoc, List.getD_eq_getElem?_getD, List.getElem?_append_right (by rw [length_magic]; omega),
    length_magic, Nat.add_sub_cancel_left, List.getElem?_append_left hk, List.getD_eq_getElem?_getD]

theorem take_drop_bitmap {bm : List Byte} (hbm : bm.length = 32) (tail : List Byte) :
    ((magic ++ bm ++ tail).drop 4).take 32 = bm := by
  rw [List.append_assoc, List.drop_left' length_magic, List.take_left' hbm]

/-- Settles O43: a completed HREAD took a bitmap and a nonzero field for each symbol the bitmap marks. -/
theorem headerConsistent : Obligations.HeaderConsistent := by
  intro s t hs hexec herr hbusy
  obtain ⟨u, hrun, rfl⟩ := issue_one_completed (task := .hread) hs hexec herr hbusy
  obtain ⟨bm, w, es, fields, rest, hbm, h1, h4, hes, h0, hlen, hsrc, rfl⟩ :=
    hreadRule_done (s := accept (encode .hread) s) hs.sched hrun
  have hpres : ∀ x, present (fillFreq (Vector.replicate 256 0) es) x = true ↔ x ∈ bitmapSyms bm := fun x =>
    hes ▸ present_fillFreq (hes ▸ nodup_allSyms.filter _) h0 x
  have hnsym := nsymOf_eq_length_bitmapSyms hpres
  have hw : (BitVec.ofNat 3 w).toNat = w := by rw [BitVec.toNat_ofNat, Nat.mod_eq_of_lt (by omega)]
  have hbytes : (magic ++ bm ++ [BitVec.ofNat 8 w] ++ fields).length = 37 + fields.length := by
    rw [List.length_append, List.length_append, List.length_append, length_magic, hbm, List.length_singleton]
  refine ⟨_, rest, hsrc, rfl, ?_, ?_, fun x => ?_, fun x => toNat_freqAt_pos, ?_⟩
  · rw [hbytes]
    exact inCount_hreadClear_add _ (accept (encode .hread) s)
  · rw [hbytes, hlen, ← hnsym]
    exact congrArg (37 + · * _) hw.symm
  · have hx : x.toNat / 8 < bm.length := by have := x.isLt; omega
    rw [List.append_assoc (magic ++ bm), getD_bitmap _ hx]
    exact Bool.eq_iff_iff.2 ((hpres x).trans mem_bitmapSyms)
  · rw [List.append_assoc (magic ++ bm), take_drop_bitmap hbm, ← length_bitmapSyms hbm]
    exact hnsym

end Sys2Proof.Machine
end

section
/-! PROOFS. NOP and SRESET (45_control.md R230, R231): what acceptance alone leaves, and the reset from every state, an
offer on SNK included. -/

namespace Sys2Proof.Machine

/-! ## NOP -/

/-- Settles O10: a rule without stretches completes where acceptance left it. -/
theorem nopDoesNothing : Obligations.NopDoesNothing := fun s hs =>
  (issue_done (rule := []) hs rfl).trans (congrArg Host.Outcome.next (idleAgain_accept .nop s))

/-! ## The state SRESET leaves -/

theorem exec_sreset (s : State) : exec .sreset s = .next (softReset s) := rfl

/-- STATUS after SRESET: EOS alone reads 1, since EMIT and TOTAL are both 0 (10_state.md R43). -/
theorem csrRead_status_softReset (s : State) : (csrRead (softReset s) 0x08).1 = 0x00000010 := by
  have heos : eos (softReset s) = true := (eos_iff _).2 ⟨rfl, totalOf_replicate.trans_le (Nat.zero_le _)⟩
  calc (csrRead (softReset s) 0x08).1
    _ = statusWith (softReset s) false false (eos (softReset s)) := by rw [csrRead_idle rfl]; rfl
    _ = statusWith State.reset false false true := by rw [heos]; rfl
    _ = 0x00000010 := by decide

/-- What was offered on SNK without an answer is withdrawn, and nothing else of the sink moves (20_memory.md R65). -/
theorem softReset_unanswered {s : State} (h : ∀ b, s.waitOn = .snk b → s.snkAns = [] ∧ s.snkStanding = none) :
    (softReset s).snk = s.snk ∧ (softReset s).snkAns = s.snkAns ∧ (softReset s).sched = s.sched := by
  rw [softReset, answerOffer_unanswered h]
  exact ⟨rfl, rfl, rfl⟩

/-- A byte offered whose answer is there is taken exactly if it is OK (20_memory.md R65, R78). -/
theorem softReset_answered {s : State} {b : Byte} {a : SnkAns} {as : List SnkAns} (hw : s.waitOn = .snk b)
    (ha : snkAnswer s = some (a, as)) :
    (softReset s).snk = s.snk ++ (if a = .ok then [b] else []) ∧ (softReset s).snkAns = as := answerOffer_taken hw ha

/-! ## An offer answered right before SRESET -/

/-- An answered byte stands offered no more, so a second look at the answers finds no offer. -/
theorem waitOn_answerOffer {s : State} {b : Byte} {a : SnkAns} {as : List SnkAns} (hw : s.waitOn = .snk b)
    (ha : snkAnswer s = some (a, as)) : (answerOffer s).waitOn = .ready := by
  unfold answerOffer
  rw [hw, ha]
  cases a <;> rfl

/-- The host's answer to the offered byte, and SRESET right after: the reset neither takes the byte again nor gives it
back (20_memory.md R65, R78). `queued` and `standing` are the answers with the transaction's own among them. -/
theorem sreset_after_answer {op : HostOp} {s : State} {queued as : List SnkAns} {standing : Option SnkAns} {b : Byte}
    {a : SnkAns} (hw : s.waitOn = .snk b)
    (hstep : hostStep op s = .next (answerOffer { s with snkAns := queued, snkStanding := standing }))
    (ha : snkAnswer { s with snkAns := queued, snkStanding := standing } = some (a, as)) :
    ∃ u t, hostStep op s = .next u ∧ exec .sreset u = .next t ∧ u.snk = s.snk ++ (if a = .ok then [b] else []) ∧
      t.snk = s.snk ++ (if a = .ok then [b] else []) ∧ t.snkAns = as := by
  have hoffer : ({ s with snkAns := queued, snkStanding := standing } : State).waitOn = .snk b := hw
  obtain ⟨htaken, hleft⟩ := answerOffer_taken hoffer ha
  have hready := waitOn_answerOffer hoffer ha
  obtain ⟨hsnk, hans, -⟩ := softReset_unanswered fun _ h => nomatch hready.symm.trans h
  exact ⟨_, _, hstep, exec_sreset _, htaken, hsnk.trans htaken, hans.trans hleft⟩

/-- `snk hold` leaves an unanswered offer unanswered, and SRESET withdraws it (20_memory.md R65). -/
theorem sreset_after_hold {s : State} (hq : s.snkAns = []) :
    ∃ u t, hostStep .snkHold s = .next u ∧ exec .sreset u = .next t ∧ u.snk = s.snk ++ [] ∧ t.snk = s.snk ++ [] ∧
      t.snkAns = [] := by
  obtain ⟨hsnk, hans, -⟩ := softReset_unanswered (s := { s with snkStanding := none }) fun _ _ => ⟨hq, rfl⟩
  rw [List.append_nil]
  exact ⟨_, _, rfl, exec_sreset _, rfl, hsnk, hans.trans hq⟩

/-- With nothing queued `snk ioerr 1` answers the next write with IOERR (30_encoding.md R99; log 15). -/
theorem answerAt_nil_one : answerAt [] 1 = [.ioerr] := rfl

/-- With nothing queued `snk ioerr n` for a later write answers the next one with OK (R99; log 15). -/
theorem answerAt_nil_later (n : Nat) : answerAt [] (n + 2) = .ok :: (List.replicate n .ok ++ [.ioerr]) := by
  simp [answerAt, List.replicate_succ]

/-! ## An SRESET word that is not legal -/

/-- OP of SRESET has one legal word (30_encoding.md R93). -/
theorem decode_error_of_sreset_op {v : Word} (hop : v.extractLsb' 0 8 = 0x01) (hv : v ≠ 0x00000001) :
    ∃ e, decode v = .error e := by
  cases hd : decode v with
  | error e => exact ⟨e, rfl⟩
  | ok i =>
    have hi : i.op = 0x01 := (decode_eq_ok_iff_fields.1 hd).1.symm.trans hop
    cases i
    case sreset => exact absurd rfl (ne_sreset hv hd)
    all_goals exact absurd hi (by simp [Instr.op])

/-- Settles O11: the state `softReset` leaves, the answers an offer can have before it, and the words of OP 0x01 that are
not SRESET's. -/
theorem sresetClears : Obligations.SresetClears := by
  refine ⟨fun s => ⟨softReset s, exec_sreset s, by and_intros <;> rfl, by and_intros <;> rfl,
    ⟨rfl, fun _ => rfl, rfl, rfl, rfl, rfl, rfl⟩,
    softReset_unanswered, fun _ _ _ => softReset_answered, csrRead_status_softReset s⟩, ?_, fun v s hop hv => ?_⟩
  · intro s b hw hq hst after
    refine ⟨?_, ?_, ?_, ?_, sreset_after_hold hq, fun n => ?_⟩
    · exact sreset_after_answer (op := .snkAnswer .ok) hw (by rw [hostStep, hq]) rfl
    · exact sreset_after_answer (op := .snkOk) hw rfl rfl
    · exact sreset_after_answer (op := .snkAnswer .ioerr) hw (by rw [hostStep, hq]) rfl
    · exact sreset_after_answer (op := .snkIoerr 1) hw (by rw [hostStep, hq, answerAt_nil_one]; rfl) rfl
    · exact sreset_after_answer (op := .snkIoerr (n + 2)) hw (by rw [hostStep, hq, answerAt_nil_later]; rfl) rfl
  · exact ⟨cmdWrite_busy hv, cmdWrite_err hv, fun hb he =>
      hop ▸ cmdWrite_illegal hb he (decode_error_of_sreset_op hop hv)⟩

end Sys2Proof.Machine
end

section
/-! PROOFS. Error entry and the error state: what a raise writes and keeps (60_exceptions.md R243, R244), and that nothing
but a reset changes an error recorded (R246). -/

namespace Sys2Proof.Machine

/-! ## Error entry -/

/-- STATUS with BUSY = 0, ERR = 1 and the three flags of R56 at 0: ERR, CMD_OVR and the code are left (10_state.md R43). -/
theorem statusWith_error {s : State} (hb : s.busy = false) (he : s.err = true) :
    statusWith s false false false = 0x02 ||| (if s.cmdOvr then 0x20 else 0) ||| (s.errcode.setWidth 32 <<< 8) := by
  rw [statusWith, hb, he]
  generalize s.cmdOvr = ovr, s.errcode = code
  revert ovr code
  decide

/-- STATUS after a raise: TREE_VALID and CODES_VALID are cleared, and EOS reads 0 under ERR (10_state.md R43). -/
theorem csrRead_status_raise (e : ErrKind) (offset : BitVec 64) (expected actual : Option Byte) (port : Port) (s : State) :
    (csrRead (raise e offset expected actual port s) 0x08).1 =
      0x02 ||| (if s.cmdOvr then 0x20 else 0) ||| (e.code.setWidth 32 <<< 8) := by
  have heos : eos (raise e offset expected actual port s) = false := by simp [eos]
  calc (csrRead (raise e offset expected actual port s) 0x08).1
    _ = status (raise e offset expected actual port s) := by rw [csrRead_idle (raise_busy ..)]; rfl
    _ = statusWith (raise e offset expected actual port s) false false false := by
      rw [status, heos, raise_treeValid, raise_codesValid]
    _ = _ := by rw [statusWith_error (raise_busy ..) (raise_err ..), raise_cmdOvr, raise_errcode]

/-- Settles O13, from what each register holds after a raise. -/
theorem errorEntry : Obligations.ErrorEntry := by
  intro e offset expected actual port s t
  refine ⟨⟨raise_err .., ?_, raise_errOffset .., raise_errExpected .., raise_errActual .., raise_errValid .., ?_,
      raise_treeValid .., raise_codesValid .., raise_busy .., raise_cont ..⟩,
    ⟨raise_cmdOvr .., raise_inCount .., raise_outCount .., raise_arg .., raise_ilen .., raise_freqSel ..,
      raise_codeSel .., congrFun (memRead_congr (raise_ibuf ..) (raise_ibufDraw ..)), raise_src .., raise_snk ..⟩, ?_⟩
  · rw [raise_errcode]
    cases e <;> rfl
  · simp [t]
  · rw [raise_errcode]
    exact csrRead_status_raise ..

/-! ## The error state -/

/-- ERR, ERRCODE, ERR_OFFSET and the fields of ERR_DATA hold in `t` what they hold in `s` (10_state.md R39). -/
def SameErrorRegs (s t : State) : Prop :=
  t.err = s.err ∧ t.errcode = s.errcode ∧ t.errOffset = s.errOffset ∧ t.errExpected = s.errExpected ∧
    t.errActual = s.errActual ∧ t.errValid = s.errValid ∧ t.errPort = s.errPort

theorem SameErrorRegs.refl (s : State) : SameErrorRegs s s := ⟨rfl, rfl, rfl, rfl, rfl, rfl, rfl⟩

/-- Both resets clear the error registers (45_control.md R231, 70_reset_and_hazards.md R270). -/
theorem sameErrorRegs_softReset (s : State) : SameErrorRegs State.reset (softReset s) := SameErrorRegs.refl _

theorem sameErrorRegs_powerOnReset (s : State) : SameErrorRegs State.reset (powerOnReset s) := SameErrorRegs.refl _

theorem sameErrorRegs_answerOffer (s : State) : SameErrorRegs s (answerOffer s) :=
  ⟨answerOffer_err s, answerOffer_errcode s, answerOffer_errOffset s, answerOffer_errExpected s, answerOffer_errActual s,
    answerOffer_errValid s, answerOffer_errPort s⟩

/-- A host transaction other than a CMD write keeps the error registers, the power-on reset aside (20_memory.md R76). -/
theorem sameErrorRegs_hostStep {op : HostOp} {s t : State} (h : hostStep op s = .next t) :
    SameErrorRegs s t ∨ op = .powerOn ∧ t = powerOnReset s := by
  rcases hostStep_next h with hreset | ⟨u, ⟨_, _, _, _, _, _, _, _, _, _, _, -, rfl⟩, ⟨rfl, -⟩ | rfl⟩
  · exact .inr hreset
  · exact .inl (.refl _)
  · exact .inl (sameErrorRegs_answerOffer _)

/-- In the error state a CMD write keeps the error registers, the SRESET word aside (60_exceptions.md R246). -/
theorem sameErrorRegs_cmdWrite {v : Word} {s t : State} (hb : s.busy = false) (he : s.err = true)
    (h : cmdWrite v s = .next t) : SameErrorRegs s t ∨ v = 0x00000001 ∧ t = softReset s := by
  by_cases hv : v = 0x00000001
  · subst hv
    exact .inr ⟨rfl, Host.Outcome.next.inj (h.symm.trans (cmdWrite_sreset s))⟩
  · obtain rfl : t = s := Host.Outcome.next.inj (h.symm.trans (cmdWrite_err hv hb he))
    exact .inl (.refl _)

/-- In the error state a transaction of the host keeps the error registers or is one of the two resets (R246). -/
theorem sameErrorRegs_hostMove {op : HostOp} {s t : State} (hb : s.busy = false) (he : s.err = true)
    (h : hostMove op s = .next t) : SameErrorRegs s t ∨ SameErrorRegs State.reset t ∧
      (op = .powerOn ∨ op = .wr 0x00 0x00000001 ∨ ∃ a, op = .busWr32 a 0x00000001 ∧ s.cfg.csrBase = some a) := by
  rcases hostMove_cases op s with ⟨r, e⟩ | ⟨v, e, hop⟩ | ⟨op', e, hop⟩ <;> rw [e] at h
  · cases h
  · rcases sameErrorRegs_cmdWrite hb he h with hkeep | ⟨rfl, rfl⟩
    · exact .inl hkeep
    · exact .inr ⟨sameErrorRegs_softReset s, .inr hop⟩
  · rcases sameErrorRegs_hostStep h with hkeep | ⟨hon, rfl⟩
    · exact .inl hkeep
    · exact .inr ⟨sameErrorRegs_powerOnReset s, .inl (hop hon)⟩

/-- While no command runs a step is the host's next transaction, if it has one (20_memory.md R79, 60_exceptions.md R255). -/
theorem step_idle {s : State} (hb : s.busy = false) :
    step s = .next s ∨ ∃ op rest, s.hostOps = op :: rest ∧ step s = hostMove op (popHost s) := by
  have hr : coreReady s = false := by rw [coreReady, hb, Bool.false_and]
  cases ho : s.hostOps with
  | nil => exact .inl (by rw [step_core (by simp [hostTurn, ho]), hr]; rfl)
  | cons op rest => exact .inr ⟨op, rest, rfl, step_host ho (.inl hr)⟩

/-- Settles O8: an ignored write changes nothing, and every other step in the error state is the host's transaction. -/
theorem errorStateLasts : Obligations.ErrorStateLasts := by
  refine ⟨fun v s hb he hv => cmdWrite_err hv hb he, fun s t hb he ht => ?_⟩
  have hregs : SameErrorRegs s t ∨ ∃ op rest, s.hostOps = op :: rest ∧ SameErrorRegs State.reset t ∧
      (op = .powerOn ∨ op = .wr 0x00 0x00000001 ∨ ∃ a, op = .busWr32 a 0x00000001 ∧ s.cfg.csrBase = some a) := by
    rcases step_idle hb with e | ⟨op, rest, ho, e⟩ <;> rw [e] at ht
    · cases ht
      exact .inl (.refl _)
    · exact (sameErrorRegs_hostMove (s := popHost s) hb he ht).imp id fun hreset => ⟨op, rest, ho, hreset⟩
  rcases hregs with ⟨herr, hkeep⟩ | ⟨op, rest, ho, ⟨herr, hcode, hoff, hexp, hact, hvalid, hport⟩, hop⟩
  · exact .inl ⟨herr.trans he, hkeep⟩
  · exact .inr ⟨herr, hcode, hoff, hexp, hact, hvalid, hport, op, rest, ho, hop⟩

end Sys2Proof.Machine
end

section
/-! PROOFS. Waits, the power-on reset and stale state (70_reset_and_hazards.md R270, R271, R279, R282): where a command
waits on a stream and what ends the wait, what the registers read after power-on, and the commands that need a valid tree
or table. -/

namespace Sys2Proof.Machine

/-! ## A wait on a stream -/

/-- The position waits on SRC with nothing offered, or on SNK with no answer there (20_memory.md R64, R65). -/
def WaitsOnStream (s : State) : Prop :=
  s.waitOn = .src ∧ s.src = [] ∨ (∃ b, s.waitOn = .snk b) ∧ s.snkAns = [] ∧ s.snkStanding = none

theorem WaitsOnStream.not_coreReady {s : State} (h : WaitsOnStream s) : coreReady s = false := by
  rcases h with ⟨hw, hsrc⟩ | ⟨⟨b, hw⟩, hq, hst⟩
  · simp [coreReady, hw, hsrc]
  · simp [coreReady, hw, hq, hst]

/-- A wait on SNK has no answer there. -/
theorem WaitsOnStream.unanswered {s : State} (h : WaitsOnStream s) {b : Byte} (hw : s.waitOn = .snk b) :
    s.snkAns = [] ∧ s.snkStanding = none := by
  rcases h with ⟨hsrc, -⟩ | ⟨-, hans⟩
  · exact nomatch hw.symm.trans hsrc
  · exact hans

/-- With no host transaction pending the step is the Core's, if it has one (20_memory.md R79). -/
theorem step_unscripted {s : State} (ho : s.hostOps = []) : step s = if coreReady s then resume s else .next s :=
  step_core (by simp [hostTurn, ho])

/-- A Core step with no host transaction pending (20_memory.md R79). -/
theorem step_ready {s : State} (hr : coreReady s = true) (ho : s.hostOps = []) : step s = resume s := by
  rw [step_unscripted ho, if_pos hr]

/-- An element offered gives a command that waits on SRC its next Core step (20_memory.md R64). -/
theorem step_after_offer {s : State} (hb : s.busy = true) (hw : s.waitOn = .src) (ho : s.hostOps = []) (e : SrcElem)
    (es : List SrcElem) : step { s with src := e :: es } = resume { s with src := e :: es } :=
  step_ready (by simp [coreReady, hb, hw]) ho

/-- The host's answer takes the byte offered exactly if it is OK, and gives the command that waits on SNK its next Core
step (20_memory.md R65, R78). -/
theorem step_after_answer {s : State} {b : Byte} (hb : s.busy = true) (hw : s.waitOn = .snk b) (hq : s.snkAns = [])
    (ho : s.hostOps = []) (a : SnkAns) :
    ∃ u, hostStep (.snkAnswer a) s = .next u ∧ u.snk = s.snk ++ (if a = .ok then [b] else []) ∧ u.busy = true ∧
      step u = resume u := by
  let offer : State := { s with snkAns := [a] }
  have hoffer : offer.waitOn = .snk b := hw
  have hstep : hostStep (.snkAnswer a) s = .next (answerOffer offer) := by rw [hostStep, hq]; rfl
  have hbusy : (answerOffer offer).busy = true := (answerOffer_busy offer).trans hb
  have hr : coreReady (answerOffer offer) = true := by
    rw [coreReady, hbusy, waitOn_answerOffer hoffer rfl]; rfl
  exact ⟨_, hstep, (answerOffer_taken hoffer rfl).1, hbusy, step_ready hr ((answerOffer_hostOps offer).trans ho)⟩

/-! ## A command that comes to a wait -/

/-- A command of one stretch that stops at a wait (30_encoding.md R95, 10_state.md R21). -/
theorem issue_one_waits {s : State} (hs : Idle s) {i : Instr} {task : Task} {w : Wait} {rest : List Task} {u : State}
    (h : runTask task (accept (encode i) s) = .wait w rest u) : issue i [task] s = .next (stoppedAt w rest u) := by
  rw [issue_idle hs, runTasks_one, h, Flow.ended_wait]

/-- SrcByte waits where nothing is offered (20_memory.md R64, R67). -/
theorem withSrcByte_waits {here : List Task} {s : State} {k : Byte → State → Flow} (hs : s.sched = []) (h : s.src = []) :
    withSrcByte here s k = .wait .src here s := by
  rw [withSrcByte_free hs, h]

/-- SnkWrite waits where no answer is there (20_memory.md R65, R69). -/
theorem snkWrite_waits {s : State} (hs : s.sched = []) (hq : s.snkAns = []) (hst : s.snkStanding = none) (b : Byte) :
    snkWrite b s = .wait (.snk b) [.send [b]] s := by
  simp [snkWrite, paused_of_sched hs, snkAnswer, hq, hst]

/-- Bytes to send wait at the first one. -/
theorem sendBytes_waits {s : State} (hs : s.sched = []) (hq : s.snkAns = []) (hst : s.snkStanding = none) (b : Byte)
    (bs : List Byte) : sendBytes (b :: bs) s = .wait (.snk b) ([.send [b]] ++ sendLater bs) s := by
  rw [sendBytes, snkWrite_waits hs hq hst, Flow.andThen_wait]

/-- Every header begins with the first byte of MAGIC (44_container.md R200). -/
theorem headerBytes_cons (f : Vector Word 256) (w : Nat) : ∃ bs, headerBytes f w = 0x4C :: bs := ⟨_, rfl⟩

/-- HREAD waits at its first byte, its clearing done (44_container.md R203). -/
theorem hreadRule_waits {s : State} (hs : s.sched = []) (hsrc : s.src = []) :
    hreadRule s = .wait .src [.hreadMagic 0] (hreadClear s) := by
  rw [hreadRule, readMagicFrom, List.drop_zero, magic, readMagic]
  exact withSrcByte_waits (s := hreadClear s) hs hsrc

/-- HWRITE waits with its first byte offered, the packer cleared and WIDTH written (44_container.md R202). -/
theorem hwriteRule_waits {s : State} (hs : s.sched = []) (hq : s.snkAns = []) (hst : s.snkStanding = none) :
    ∃ rest, hwriteRule s =
      .wait (.snk 0x4C) rest (storeWidth (minWidth (maxFreq s.freq)) (clearPacker (zeroOut s))) := by
  obtain ⟨bs, hbs⟩ := headerBytes_cons s.freq (minWidth (maxFreq s.freq))
  exact ⟨_, (congrArg (sendBytes · _) hbs).trans
    (sendBytes_waits (s := storeWidth _ (clearPacker (zeroOut s))) hs hq hst 0x4C bs)⟩

theorem exec_hread_waits {s : State} (hs : Idle s) (hsrc : s.src = []) :
    exec .hread s = .next (stoppedAt .src [.hreadMagic 0] (hreadClear (accept (encode .hread) s))) :=
  issue_one_waits (task := .hread) hs (hreadRule_waits (hs.sched_accept _) hsrc)

theorem exec_hwrite_waits {s : State} (hs : Idle s) (hq : s.snkAns = []) (hst : s.snkStanding = none) :
    ∃ rest, exec .hwrite s = .next (stoppedAt (.snk 0x4C) rest
      (storeWidth (minWidth (maxFreq s.freq)) (clearPacker (zeroOut (accept (encode .hwrite) s))))) := by
  obtain ⟨rest, h⟩ := hwriteRule_waits (s := accept (encode .hwrite) s) hs.sched hq hst
  exact ⟨rest, issue_one_waits (task := .hwrite) hs h⟩

/-- Settles O54: a wait is not ready, what the host gives makes it ready, and both streams are met by a first byte. -/
theorem waitsForStream : Obligations.WaitsForStream := by
  refine ⟨fun s hb (hwait : WaitsOnStream s) => ?_, fun s hs hsrc => ⟨_, exec_hread_waits hs hsrc, rfl, rfl, rfl⟩,
    fun s hs hq hst => ?_⟩
  · exact ⟨fun ho => by rw [step_unscripted ho, hwait.not_coreReady]; rfl,
      fun e es hw ho => step_after_offer hb hw ho e es,
      fun b a hw ho => step_after_answer hb hw (hwait.unanswered hw).1 ho a,
      ⟨_, exec_sreset s, rfl⟩, ⟨_, rfl, rfl⟩⟩
  · obtain ⟨rest, h⟩ := exec_hwrite_waits hs hq hst
    exact ⟨_, h, rfl, rfl, rfl, rfl⟩

/-! ## The power-on reset -/

/-- What the registers hold at reset: EOS reads 1, everything else 0 (10_state.md R22, R43). -/
theorem csrValue_reset : ∀ off : BitVec 8, off.toNat % 4 = 0 →
    csrValue State.reset off = if off = 0x08 then 0x00000010 else 0 := by decide +kernel

/-- Every register is at its reset value after the power-on reset (70_reset_and_hazards.md R270). -/
theorem csrValue_powerOnReset (s : State) (off : BitVec 8) :
    csrValue (powerOnReset s) off = csrValue State.reset off := rfl

/-- An idle machine whose registers hold their reset values reads them. -/
theorem csrRead_at_reset {t : State} (hb : t.busy = false) (hv : ∀ off, csrValue t off = csrValue State.reset off)
    {off : BitVec 8} (h : off.toNat % 4 = 0) : (csrRead t off).1 = if off = 0x08 then 0x00000010 else 0 := by
  rw [csrRead_idle hb, hv]
  exact csrValue_reset off h

/-- Settles O12: the power-on reset treats the sink as SRESET does, and leaves every register at its reset value. -/
theorem powerOnReads : Obligations.PowerOnReads := fun s =>
  ⟨powerOnReset s, rfl, fun _ => csrRead_at_reset rfl (csrValue_powerOnReset s), rfl, rfl, rfl, rfl,
    fun h => (softReset_unanswered h).1, fun _ _ _ hw ha => (softReset_answered hw ha).1,
    fun _ => csrRead_at_reset rfl fun _ => rfl⟩

/-! ## Stale state -/

/-- A command that begins by asking for a flag that is not set raises SequenceError, with nothing else done
(10_state.md R31, R33, 60_exceptions.md R242). -/
theorem issue_stale {s : State} (hs : Idle s) {i : Instr} {task : Task} {flag : State → Bool} {rest : State → Flow}
    (hrule : ∀ u, runTask task u = (sequenceCheck flag i.op u).andThen rest [])
    (hflag : flag (accept (encode i) s) = false) :
    issue i [task] s = .next (raise .sequenceError 0 none (some ((encode i).extractLsb' 0 8)) .src s) := by
  have hop : (encode i).extractLsb' 0 8 = i.op := opField_encode i
  rw [hop]
  refine issue_one_raised (task := task) (u := accept (encode i) s) hs ?_ fun _ _ _ _ _ => rfl
  rw [hrule, sequenceCheck_fails (hs.sched_accept _) hflag, Flow.andThen_raised]

/-- Settles O28: each of the five commands begins with its check. -/
theorem staleTreeRefused : Obligations.StaleTreeRefused := by
  intro i s hs h
  rcases h with ⟨rfl | rfl | rfl, hv⟩ | ⟨⟨x, rfl⟩ | rfl, hv⟩
  · exact issue_stale (task := .cgen) (flag := State.treeValid) hs (fun _ => rfl) hv
  · exact issue_stale (task := .udec) (flag := State.treeValid) hs (fun _ => rfl) hv
  · exact issue_stale (task := .udecall) (flag := State.treeValid) hs (fun _ => rfl) hv
  · exact issue_stale (task := .psym) (flag := State.codesValid) hs (fun _ => rfl) hv
  · exact issue_stale (task := .pscan) (flag := State.codesValid) hs (fun _ => rfl) hv

end Sys2Proof.Machine
end
